-- ==== Sys2Proof/Word.lean ====
section
/-! DEFINITION. The bit-vector types of the Caszan CZ48: scalar words, bytes, vector and mask registers (R37, R97). -/

namespace Sys2Proof

/-- A scalar register, an address while it is computed, a control register (R37). -/
abbrev Word := BitVec 64

/-- The smallest addressable unit; a location of R164. -/
abbrev Byte := BitVec 8

/-- A vector register: 512 bytes in little-endian order (R97). -/
abbrev VecReg := BitVec 4096

/-- A mask register (R37). -/
abbrev MaskReg := BitVec 1024

end Sys2Proof
end

