-- ==== Sys2Proof/Syntax.lean ====
section
/-! DEFINITION. The steps of the machine: one constructor of `Instr` for each row of the opcode table. The first part
holds the operand types, the second the payloads of the events, the third `Instr`. -/

namespace Sys2Proof

/-! ## Operands (R16, R73 to R76) -/

/-- A scalar register x0 to x31. -/
abbrev XReg := Fin 32
/-- A mask register k0 to k7. -/
abbrev KReg := Fin 8
/-- A vector register name v0 to v255. -/
abbrev VReg := Fin 256

/-- An operand that is a scalar or a mask register (the MAJ 0x3 forms of R77). -/
inductive XK where
  | x (r : XReg)
  | k (r : KReg)
  deriving DecidableEq, Repr

/-- A page-3 vector operand: a name, or `v[xN]` (R74, R80). -/
inductive VArg where
  | direct (v : VReg)
  | indirect (n : XReg)
  deriving DecidableEq, Repr

/-- The scopes of R21 and R163. -/
inductive Scope where
  | cr | cl | pk | sy
  deriving DecidableEq, Repr

/-- Element types, TY codes 0 to 12 (R76). -/
inductive Ty where
  | i8 | u8 | i16 | u16 | i32 | u32 | i4 | u4 | f32 | bf16 | f16 | e4m3 | e5m2
  deriving DecidableEq, Repr

/-- Scalar access sizes, SZ codes 0 to 6 (R76). -/
inductive Sz where
  | b | h | w | d | bu | hu | wu
  deriving DecidableEq, Repr

/-- Store sizes, SZ codes 0 to 3 (R78). -/
inductive StSz where
  | b | h | w | d
  deriving DecidableEq, Repr

/-- Sizes of `sxt` and `zxt` (R383, R415). -/
inductive ExtSz where
  | b | h | w
  deriving DecidableEq, Repr

/-- Conditions of `bc` (R319). -/
inductive Cc where
  | eq | ne | lt | ge | ltu | geu
  deriving DecidableEq, Repr

/-- Conditions of `br`, against zero (R320). -/
inductive Cz where
  | eq | ne | lt | ge | le | gt
  deriving DecidableEq, Repr

/-- Rounding modes (R76, R99). -/
inductive Rm where
  | rne | rtz | rdn | rup
  deriving DecidableEq, Repr

/-- Operations of `amo` (R312). -/
inductive AmoOp where
  | add | and | or | xor | min | max | minu | maxu | swap | cas
  deriving DecidableEq, Repr

/-- Conditions of `vcmp` (R395). -/
inductive VCond where
  | eq | ne | lt | le
  deriving DecidableEq, Repr

/-- Operations of `vred` (R397). -/
inductive RedOp where
  | add | min | max
  deriving DecidableEq, Repr

/-- Kinds of collective branch (R261). -/
inductive VoteKind where
  | any | all | maj
  deriving DecidableEq, Repr

/-- The control registers of R86. -/
inductive CReg where
  | status | core | slot | cycle | tenant | fmt | scl | seed | rot | stl | split | vpool | dist | steal
  | lsmode | lslog | cg | cgdl | bardl | tvec | epc | cause | tval | twin | ffneps | ffnviol
  deriving DecidableEq, Repr

/-! ## Payloads of events -/

/-- A context named by core × 16 + slot; the context tag of R38 is this number × 256 + incarnation. -/
abbrev CtxId := Nat

/-- An engine queue: Clove, copy unit or Sumac of a cluster, or the package's collective engines (R201, R235, R249). -/
inductive EngineId where
  | clove (cluster : Nat)
  | copy (cluster : Nat)
  | sumac (cluster : Nat)
  | coll
  deriving DecidableEq, Repr

/-- One tenant entry of the configuration record (R304). -/
structure TenantEntry where
  tenant : Nat
  cx0 : Nat
  cy0 : Nat
  cw : Nat
  ch : Nat
  root : Nat
  steal : Word
  members : BitVec 1024
  reserved : Nat            -- bytes 6 to 7 and 24 to 63, as one number
  deriving DecidableEq, Repr

/-- The body of the configuration record (R304). -/
structure ConfigRecord where
  format : Nat
  minFw : Nat
  minCfg : Nat
  minOwn : Nat
  win : List Nat            -- window size of dies 0 to 3 in units of 8 MiB
  hdmSize : Nat
  hdmTenant : Nat
  wdog : Nat
  reserved : Nat            -- bytes 42 to 63, as one number
  tenants : List TenantEntry
  deriving DecidableEq, Repr

/-- What boot flash and the training of links and memories give a start (R301 to R305): the records byte by byte. -/
structure ResetInput where
  firmware : List (List Byte)
  owner : List Byte
  config : List Byte
  lpddrOk : Bool
  selfTestOk : Bool
  hostLinkOk : Bool
  expanders : List (Option Nat)      -- capacity in bytes of the trained expander of each port, R297
  deriving DecidableEq, Repr

/-- A link training record (R242). -/
structure TrainRecord where
  package : Nat
  port : Nat
  width : Nat
  laneMap : Nat
  speed : Nat
  deriving DecidableEq, Repr

/-- A frame on a Shoari port: the bytes its flits carry, by physical address of the sector they fill, those that fill no
sector, and its trailer (R239, R241). -/
structure Frame where
  seq : Nat
  nflit : Nat
  vc : Nat
  payload : List (Nat × Byte)
  data : List Byte := []
  reserved : Nat := 0                -- bytes 8 to 15 of the trailer, as one number
  deriving DecidableEq, Repr

/-- Whose step a ready notice speaks of: the tenant, and the package that sends it (R251). -/
structure Partner where
  tenant : Nat
  peer : Nat
  deriving DecidableEq, Repr

/-- What a fabric message asks of the package that it reaches (R244 to R246, R251, R252, R278). -/
inductive FabPayload where
  | read (addr : Nat) (len : Nat)
  | write (addr : Nat) (data : List Byte) (posted : Bool)        -- whether it is a posted store (R175)
  | vote (group index count : Nat) (kind : VoteKind) (vote : Bool)
  | arrive (group bar index n : Nat)
  | amo (op : AmoOp) (addr n : Nat) (v c : Word)                -- an atomic of n bytes at its home (R129, R174)
  | gang (op seq : Nat)                                         -- a gang command, with the number of a snapshot (R278, R306)
  | answer (addr : Nat) (poison : Bool) (data : List Byte)
  | notice (tag count ty : Nat)
  | elements (tag : Nat) (data : List Nat)
  | stepAck (tag : Nat)
  | contribute (group index tag op : Nat) (values : List Nat)
  | cancel (group bar gen : Nat)                                -- a barrier generation is cancelled (R257)
  | row (fn job desc : Nat) (arg : Word) (record : List Byte)   -- a memory-side-unit command on a table here (R369)
  | rowDone (job kind addr : Nat)                               -- its acknowledgement; kind 0 without a fault
  deriving DecidableEq, Repr

/-- A fabric message (R244, R245). -/
structure FabMessage where
  source : Nat
  dest : Nat
  vc : Nat
  tenant : Nat
  payload : FabPayload
  deriving DecidableEq, Repr

/-- The block a snapshot trigger reaches (R306). -/
inductive SnapBlock where
  | core (n : Nat)
  | cluster (c : Nat)
  deriving DecidableEq, Repr

/-- Where an uncorrectable error is found (R286, R138, R136): in the state of a context, in a granule of LPDDR6, SRAM or
expander memory, in the stored tag of a block, or in a node of the counter tree that covers a range of bytes. -/
inductive ErrorSite where
  | context (x : CtxId)
  | granule (pa : Nat)
  | tag (block : Nat)
  | node (lo hi : Nat)
  deriving DecidableEq, Repr

/-! ## The steps -/

/-- One constructor for each row of the opcode table: first what a context issues, then the events of the other agents.
`stall` is the 4-bit stall count of R24; `e` a displacement, `off` an offset in parcels, `imm` an immediate (R72). -/
inductive Instr where
  -- page 0
  | add (d a b : XReg)
  | sub (d a b : XReg)
  | and (d a b : XReg)
  | or (d a b : XReg)
  | xor (d a b : XReg)
  | sll (d a b : XReg)
  | srl (d a b : XReg)
  | sra (d a b : XReg)
  | mul (stall : Fin 16) (d a b : XReg)
  | mulh (stall : Fin 16) (d a b : XReg)
  | mulhu (stall : Fin 16) (d a b : XReg)
  | div (stall : Fin 16) (d a b : XReg)
  | divu (stall : Fin 16) (d a b : XReg)
  | rem (stall : Fin 16) (d a b : XReg)
  | remu (stall : Fin 16) (d a b : XReg)
  | min (d a b : XReg)
  | minu (d a b : XReg)
  | max (d a b : XReg)
  | maxu (d a b : XReg)
  | slt (d a b : XReg)
  | sltu (d a b : XReg)
  | sel (d a b : XReg)
  | gaddr (stall : Fin 16) (d a b : XReg)
  | clz (d : XReg) (a : XK)
  | ctz (d : XReg) (a : XK)
  | popc (d : XReg) (a : XK)
  | mov (d a : XK)
  | sxt (z : ExtSz) (d a : XReg)
  | zxt (z : ExtSz) (d a : XReg)
  | jr (a : XReg)
  | jalr (d a : XReg)
  | addi (d a : XReg) (imm : Int)
  | andi (d a : XReg) (imm : Int)
  | ori (d a : XReg) (imm : Int)
  | xori (d a : XReg) (imm : Int)
  | slti (d a : XReg) (imm : Int)
  | slli (d a : XReg) (c : Fin 64)
  | srli (d a : XReg) (c : Fin 64)
  | srai (d a : XReg) (c : Fin 64)
  | li (d : XReg) (imm : Int)
  | lih (d : XReg) (imm : Int)
  | lea (d : XReg) (off : Int)
  | bc (c : Cc) (a b : XReg) (off : Int)
  | br (c : Cz) (a : XReg) (off : Int)
  | j (off : Int)
  | jal (d : XReg) (off : Int)
  | nop
  | brk (code : Fin 1024)
  | illegalInstruction (parcel : BitVec 16) (index : Fin 5)
  -- page 1
  | ld (z : Sz) (aq : Bool) (scope : Scope) (d a : XReg) (e : Int)
  | st (z : StSz) (rl : Bool) (scope : Scope) (s a : XReg) (e : Int)
  | amo (op : AmoOp) (w aq rl : Bool) (scope : Scope) (d b a : XReg)
  | fence (scope : Scope)
  | flrd (a : XReg)
  | cwb (scope : Scope) (a b : XReg)
  | cinv (scope : Scope) (a b : XReg)
  | spfence
  | ldfe (scope : Scope) (d a : XReg)
  | ldff (scope : Scope) (d a : XReg)
  | stfe (scope : Scope) (s a : XReg)
  | stff (scope : Scope) (s a : XReg)
  | fepurge (scope : Scope) (a : XReg)
  | ldt (z : Sz) (t : Fin 64) (a : XReg) (e : Int)
  | take (d t : XReg)
  | taken (d t : XReg)
  | takex (d a : XReg)
  | lsre (a : XReg)
  | lsclr
  | lsinfo (d : XReg)
  -- page 2
  | vadd (stall : Fin 16) (ty : Ty) (d a b : VReg)
  | vsub (stall : Fin 16) (ty : Ty) (d a b : VReg)
  | vmul (stall : Fin 16) (ty : Ty) (d a b : VReg)
  | vfma (stall : Fin 16) (ty : Ty) (d a b : VReg)
  | vfms (stall : Fin 16) (ty : Ty) (d a b : VReg)
  | vmin (stall : Fin 16) (ty : Ty) (d a b : VReg)
  | vmax (stall : Fin 16) (ty : Ty) (d a b : VReg)
  | vand (stall : Fin 16) (d a b : VReg)
  | vor (stall : Fin 16) (d a b : VReg)
  | vxor (stall : Fin 16) (d a b : VReg)
  | vsh (stall : Fin 16) (ty : Ty) (d a b : VReg)
  | vcmp (stall : Fin 16) (c : VCond) (ty : Ty) (k : KReg) (a b : VReg)
  | vsel (stall : Fin 16) (ty : Ty) (d a : VReg) (k : KReg)
  | vabs (stall : Fin 16) (ty : Ty) (d a : VReg)
  | vneg (stall : Fin 16) (ty : Ty) (d a : VReg)
  | vrcp (stall : Fin 16) (ty : Ty) (d a : VReg)
  | vrsq (stall : Fin 16) (ty : Ty) (d a : VReg)
  | vexp2 (stall : Fin 16) (ty : Ty) (d a : VReg)
  | vlog2 (stall : Fin 16) (ty : Ty) (d a : VReg)
  | vtanh (stall : Fin 16) (ty : Ty) (d a : VReg)
  | vcvt (stall : Fin 16) (ty sty : Ty) (rm : Rm) (d a : VReg)
  | vwid (stall : Fin 16) (ty sty : Ty) (d a : VReg)
  | vpack (stall : Fin 16) (ty sty : Ty) (rm : Rm) (d a : VReg)
  | vquant (stall : Fin 16) (ty : Ty) (d a : VReg) (b : XReg)
  | vhad (stall : Fin 16) (ty : Ty) (d a : VReg) (b : XReg)
  | vhrnd (stall : Fin 16) (ty : Ty) (d : VReg) (a : XReg)
  | vdot (ty : Ty) (d : XReg) (a b : VReg)
  | vred (op : RedOp) (ty : Ty) (d : XReg) (a : VReg)
  -- page 3
  | vld (scope : Scope) (d : VArg) (b : XReg) (e : Int)
  | vst (scope : Scope) (s : VArg) (b : XReg) (e : Int)
  | vldx (scope : Scope) (ty : Ty) (d : VArg) (b : XReg) (a : VArg)
  | vstx (scope : Scope) (ty : Ty) (s : VArg) (b : XReg) (a : VArg)
  | vldt (t : Fin 64) (d : VArg) (b : XReg) (e : Int)
  | vldtRow (t : Fin 64) (d : VArg) (b : XReg) (e : Int)
  | vperm (stall : Fin 16) (ty : Ty) (d a : VArg)
  | vbcast (stall : Fin 16) (ty : Ty) (d : VArg) (b : XReg)
  | vidx (stall : Fin 16) (ty : Ty) (d : VArg) (b : XReg)
  | vmovsToVector (stall : Fin 16) (ty : Ty) (d : VArg) (a b : XReg)
  | vmovsToScalar (stall : Fin 16) (ty : Ty) (d : XReg) (a : VArg) (b : XReg)
  | vralloc (d : VArg) (b : XReg)
  | vrfree (d : VArg) (b : XReg)
  -- page 4
  | spawn (a b : XReg)
  | spawnTwin (a b : XReg)
  | spawnd (a b : XReg)
  | fork (a : XReg)
  | join (a : XReg)
  | quit
  | park (a : XReg)
  | mig (d a : XReg)
  | sendHi (n : Fin 4) (t a l : XReg)
  | sendLo (n : Fin 4) (t a l : XReg)
  | recv (n : Fin 4) (d a : XReg)
  | recvn (n : Fin 4) (d a : XReg)
  | bar (a b : XReg)
  | barFab (a b : XReg)
  | cgjoin (d a b : XReg)
  | cgleave
  | cbfence
  | cbrAny (pt : Bool) (d : XReg) (off : Int)
  | cbrAll (pt : Bool) (d : XReg) (off : Int)
  | cbrMaj (pt : Bool) (d : XReg) (off : Int)
  -- page 5
  | mjob (stall : Fin 16) (d a b : XReg)
  | mmul (d a b : XReg)
  | mload (stall : Fin 16) (d a b : XReg)
  | mloadSp (stall : Fin 16) (d a b : XReg)
  | mfree (stall : Fin 16) (d a : XReg)
  | mrow (d a b : XReg)
  | cjob (stall : Fin 16) (d a b : XReg)
  | cstep (stall : Fin 16) (d a b : XReg)
  | prd (stall : Fin 16) (d a b : XReg)
  | prdsel (stall : Fin 16) (d a : XReg)
  | rowadd (stall : Fin 16) (d a b : XReg)
  | rowcommit (stall : Fin 16) (d a b : XReg)
  | rowpause (stall : Fin 16) (d a b : XReg)
  | jwait (d a : XReg)
  | jpoll (stall : Fin 16) (d a : XReg)
  -- page 6
  | mfc (d : XReg) (c : CReg)
  | mtc (c : CReg) (s : XReg)
  | eret
  | halt
  | snap
  | tlbinv (a b : XReg)
  | trap (code : Fin 256)
  -- events of a context and of its core
  | resultWriteback (x : CtxId)
  | stallHoldExpiry (x : CtxId)
  | openEndedHoldEnd (x : CtxId)
  | rotModeSwitch (core : Nat)
  | plainLoadReturn (x : CtxId)
  | landingSettle (x : CtxId) (t : Fin 64)
  | logByteReturn (x : CtxId)
  | feRequestArrival (x : CtxId)
  | messageArrival (k : Nat)
  | movedNoticeArrival (k : Nat)
  | forwardingEntryRetire (core old : Nat)
  | packetPush (k : Nat)
  | deferredPacketPush (core : Nat)
  | spillReturn (core : Nat)
  | dequeTake (core : Nat)
  | launchEnd (x : CtxId)
  | stealProbe (core : Nat)
  | stealBackoffEnd (core : Nat)
  | hostSpawnWindowWrite (tenant offset : Nat) (data : List Byte)
  | migrationMoveEnd (x : CtxId)
  -- engines
  | engineAccept (e : EngineId) (x : CtxId)
  | engineJobStart (e : EngineId)
  | jobDataArrival (e : EngineId)
  | mrowRoundRequest (cluster : Nat)
  | cloveJobComplete (cluster : Nat)
  | copyJobComplete (cluster : Nat)
  | sumacJobComplete (cluster : Nat)
  | readyNoticeArrival (partner : Partner) (tag count ty : Nat)
  | partnerDataArrival (data : List Nat)
  | stepAckArrival
  | aniseGroupResult (ops counts : List Nat) (values : List (List Nat))
  | partnerWaitExpiry
  | msuCommandArrival (k : Nat)
  | msuJobComplete (k : Nat)
  | hotWindowEnd (channel : Nat)
  | replicaCopyComplete (row : Nat)
  | reencryptComplete (page : Nat)
  -- barriers and votes
  | barrierArrival (x : CtxId)
  | barrierRelease (x : CtxId)
  | barrierDeadlineExpiry (x : CtxId)
  | aniseVoteArrival (k : Nat)
  | cbrResolutionArrival (x : CtxId)
  | cbrVoteRefused (x : CtxId)
  | cbrDeadlineExpiry (x : CtxId)
  -- fabric
  | frameReceive (port : Nat) (f : Frame) (tag : BitVec 128)
  | frameAck (port seq : Nat)
  | linkRetrain (port : Nat)
  | trainingRecord (port : Nat) (own other : TrainRecord)
  | linkReturnToService (port : Nat) (retire : Bool)
  | routeTableLoad (entries : List (Nat × Nat)) (present : BitVec 1024)
  | fabricMessageReceive (m : FabMessage)
  | postedStoreArrival (k : Nat)
  -- traps, halts, saves
  | collectorAppend (k : Nat)
  | heldRecordAppend (tenant row : Nat)
  | haltCommand (x : CtxId)
  | resume (x : CtxId)
  | save (x : CtxId)
  | saveComplete (core : Nat)
  | restore (core : Nat)
  | kill (x : CtxId)
  | migrate (x : CtxId) (target : Nat)
  | cmdRefused (core op : Nat)
  | gangStop (tenant : Nat) (fab : Bool)
  | coreStop (core seq : Nat)
  | gangResume (tenant : Nat) (fab : Bool)
  | gangSnapshot (tenant : Nat) (fab : Bool)
  | snapshotTriggerArrival (b : SnapBlock) (seq : Nat)
  | watchdogExpiry (x : CtxId)
  | saveStuckExpiry (core : Nat)
  | uncorrectableError (site : ErrorSite)
  | deadlockProbeStart (x : CtxId)
  | probeHop (k : Nat)
  | twinEventCompare (k : Nat)
  | twinWindowExpiry (k : Nat)
  -- host and boot
  | ringbaseWrite (tenant : Nat) (v : Word)
  | tailWrite (tenant : Nat) (v : Word)
  | membersWrite (tenant i : Nat) (v : Word)
  | registerWrite (offset width : Nat) (v : Word)
  | acceptWrite (i : Nat) (v : Word)
  | go
  | retry
  | moduleReset (input : ResetInput)
  | offerTimeout
  | failureResetTimer
  | jobBegin (tenant : Nat)
  | jobEnd (tenant : Nat)
  | jobRecordSigned (tenant : Nat)
  | jobAck (tenant : Nat)
  | hostHdmAccess (write : Bool) (addr : Nat) (data : List Byte)
  | packageNumberSet (n : Nat)
  deriving DecidableEq, Repr

end Sys2Proof
end

