-- ==== Sys2Proof/WellFormed.lean ====
section
/-! DEFINITION. Which terms of `Instr` are instructions: the type codes, groups, immediates and prefix counts that the
encoding rules admit (R71 to R84 and the reference entries), and which constructors are events of other agents. -/

namespace Sys2Proof

/-! ## Types and sizes (R76, R388) -/

/-- Bits of an element of the type (R97). -/
def Ty.width : Ty → Nat
  | .i4 | .u4 => 4
  | .i8 | .u8 | .e4m3 | .e5m2 => 8
  | .i16 | .u16 | .bf16 | .f16 => 16
  | .i32 | .u32 | .f32 => 32

/-- Elements of a vector register of the type (R388). -/
def Ty.count (t : Ty) : Nat := 4096 / t.width

/-- A float type (TY 8 to 12). -/
def Ty.isFloat : Ty → Bool
  | .f32 | .bf16 | .f16 | .e4m3 | .e5m2 => true
  | _ => false

/-- An integer type (TY 0 to 7). -/
def Ty.isInt (t : Ty) : Bool := !t.isFloat

/-- A signed integer type. -/
def Ty.isSigned : Ty → Bool
  | .i8 | .i16 | .i32 | .i4 => true
  | _ => false

/-- TY 0 to 10: the types of the arithmetic forms (R392, R395, R400). -/
def Ty.isArith (t : Ty) : Bool := t != .e4m3 && t != .e5m2

/-- TY 8, 9, 10 (R398, R409). -/
def Ty.isWide (t : Ty) : Bool := t == .f32 || t == .bf16 || t == .f16

/-- The types of `vldx` and `vstx`: every type but the 4-bit ones (R404). -/
def Ty.isIndexed (t : Ty) : Bool := t.width != 4

/-- The group of `vwid` and `vpack`: the ratio of two widths where it is 2 or 4 (R407), else 0. -/
def Ty.ratio (wide narrow : Ty) : Nat :=
  if wide.width = 2 * narrow.width then 2 else if wide.width = 4 * narrow.width then 4 else 0

/-! ## Immediates and prefixes (R71, R72) -/

/-- `imm` is a signed number of `w` bits; no bits hold 0 only. -/
def fitsSigned (w : Nat) (imm : Int) : Bool :=
  if w = 0 then imm == 0 else -(2 ^ (w - 1) : Int) ≤ imm && imm < (2 ^ (w - 1) : Int)

/-- A scalar register that the three base bits of G, I, F, U, C, Z and L do not hold. -/
def XReg.far (r : XReg) : Bool := 8 ≤ r.val
/-- A scalar register that the four base bits of W, K and M do not hold. -/
def XReg.high (r : XReg) : Bool := 16 ≤ r.val

/-- The XI parcels left in the chain of four after `used` prefixes extend a base field of `w` bits to hold `imm`. -/
def immFits (w used : Nat) (imm : Int) : Bool := fitsSigned (w + 10 * (4 - used)) imm

/-- The XS prefix that a scoped form needs: a scope other than `.pk`, `.aq` or `.rl` (R28). -/
def xsScoped (s : Scope) (aq rl : Bool) : Bool := s != .pk || aq || rl

/-- A field of V that its four base bits do not hold. -/
def VArg.far : VArg → Bool
  | .direct v => 16 ≤ v.val
  | .indirect n => 16 ≤ n.val

/-- The constructors that are events of other agents and have no encoding. -/
def Instr.isEvent : Instr → Bool
  | .resultWriteback .. | .stallHoldExpiry .. | .openEndedHoldEnd .. | .rotModeSwitch .. | .plainLoadReturn ..
  | .landingSettle .. | .logByteReturn .. | .feRequestArrival .. | .messageArrival .. | .movedNoticeArrival ..
  | .forwardingEntryRetire .. | .packetPush .. | .deferredPacketPush .. | .spillReturn .. | .dequeTake ..
  | .launchEnd .. | .stealProbe .. | .stealBackoffEnd .. | .hostSpawnWindowWrite .. | .migrationMoveEnd ..
  | .engineAccept .. | .engineJobStart .. | .jobDataArrival .. | .mrowRoundRequest .. | .cloveJobComplete ..
  | .copyJobComplete .. | .sumacJobComplete .. | .readyNoticeArrival .. | .partnerDataArrival .. | .stepAckArrival ..
  | .aniseGroupResult .. | .partnerWaitExpiry .. | .msuCommandArrival .. | .msuJobComplete .. | .hotWindowEnd ..
  | .replicaCopyComplete .. | .reencryptComplete .. | .barrierArrival .. | .barrierRelease ..
  | .barrierDeadlineExpiry .. | .aniseVoteArrival .. | .cbrResolutionArrival .. | .cbrVoteRefused ..
  | .cbrDeadlineExpiry .. | .frameReceive .. | .frameAck .. | .linkRetrain .. | .trainingRecord ..
  | .linkReturnToService .. | .routeTableLoad .. | .fabricMessageReceive .. | .postedStoreArrival ..
  | .collectorAppend .. | .heldRecordAppend .. | .haltCommand .. | .resume .. | .save .. | .saveComplete ..
  | .restore .. | .kill .. | .migrate .. | .cmdRefused .. | .gangStop .. | .coreStop .. | .gangResume ..
  | .gangSnapshot .. | .snapshotTriggerArrival .. | .watchdogExpiry .. | .saveStuckExpiry .. | .uncorrectableError ..
  | .deadlockProbeStart .. | .probeHop .. | .twinEventCompare .. | .twinWindowExpiry .. | .ringbaseWrite ..
  | .tailWrite .. | .membersWrite .. | .registerWrite .. | .acceptWrite .. | .go .. | .retry .. | .moduleReset ..
  | .offerTimeout .. | .failureResetTimer .. | .jobBegin .. | .jobEnd .. | .jobRecordSigned .. | .jobAck ..
  | .hostHdmAccess .. | .packageNumberSet .. => true
  | _ => false

/-- A pair of `vcvt` types: two different codes of one row of R396. -/
def convertible (ty sty : Ty) : Bool := ty != sty && ty.width == sty.width

/-- The term is an instruction that the encoding tables admit. `ILLEGAL_INSTRUCTION` and the events have no encoding. -/
def Instr.wf : Instr → Bool
  -- page 0: two prefixes at most, no immediate
  | .add .. | .sub .. | .and .. | .or .. | .xor .. | .sll .. | .srl .. | .sra ..
  | .mul .. | .mulh .. | .mulhu .. | .div .. | .divu .. | .rem .. | .remu ..
  | .min .. | .minu .. | .max .. | .maxu .. | .slt .. | .sltu .. | .sel .. | .gaddr ..
  | .clz .. | .ctz .. | .popc .. | .mov .. | .sxt .. | .zxt .. | .jr .. | .jalr .. => true
  | .addi d a imm => immFits 6 (d.far || a.far).toNat imm
  | .andi d a imm | .ori d a imm | .xori d a imm | .slti d a imm => immFits 4 (d.far || a.far).toNat imm
  | .slli .. | .srli .. | .srai .. => true
  | .li d imm | .lih d imm | .lea d imm | .jal d imm => immFits 9 d.far.toNat imm
  | .bc _ a b off => immFits 3 (a.far || b.far).toNat off
  | .br _ a off => immFits 6 a.far.toNat off
  | .j off => immFits 12 0 off
  | .nop | .brk .. => true
  | .illegalInstruction .. => false
  -- page 1
  | .ld _ aq s d a e => immFits 6 (1 + (d.far || a.far).toNat + (xsScoped s aq false).toNat) e
  | .st _ rl s d a e => immFits 6 (1 + (d.far || a.far).toNat + (xsScoped s false rl).toNat) e
  | .amo .. | .fence .. | .flrd .. | .cwb .. | .cinv .. | .spfence
  | .ldfe .. | .ldff .. | .stfe .. | .stff .. | .fepurge .. => true
  | .ldt _ _ a e => immFits 3 (1 + a.far.toNat) e
  | .take .. | .taken .. | .takex .. | .lsre .. | .lsclr | .lsinfo .. => true
  -- page 2
  | .vadd _ ty .. | .vsub _ ty .. | .vmul _ ty .. | .vfma _ ty .. | .vfms _ ty .. | .vmin _ ty .. | .vmax _ ty ..
  | .vcmp _ _ ty .. | .vhrnd _ ty .. => ty.isArith
  | .vand .. | .vor .. | .vxor .. => true
  | .vsh _ ty .. => ty.isInt
  | .vsel .. | .vabs .. | .vneg .. => true
  | .vrcp _ ty .. | .vrsq _ ty .. | .vexp2 _ ty .. | .vlog2 _ ty .. | .vtanh _ ty .. => ty.isWide
  | .vcvt _ ty sty .. => convertible ty sty
  | .vwid _ ty sty d _ => ty.ratio sty != 0 && d.val % ty.ratio sty == 0
  | .vpack _ ty sty _ _ a => sty.ratio ty != 0 && a.val % sty.ratio ty == 0
  | .vquant _ ty .. => ty.isWide
  | .vhad _ ty .. => ty == .f32 || ty == .bf16
  | .vdot .. => true
  | .vred op ty .. => op == .add || ty.isArith
  -- page 3
  | .vld s d b e | .vst s d b e => immFits 0 (1 + (d.far || b.high).toNat + (xsScoped s false false).toNat) e
  | .vldx _ ty .. | .vstx _ ty .. => ty.isIndexed
  | .vldt t d b e | .vldtRow t d b e => immFits 0 (1 + (d.far || b.high || 16 ≤ t.val).toNat) e
  | .vperm _ ty .. | .vidx _ ty .. => ty.isInt
  | .vbcast .. | .vmovsToVector .. | .vmovsToScalar .. | .vralloc .. | .vrfree .. => true
  -- page 4
  | .spawn .. | .spawnTwin .. | .spawnd .. | .fork .. | .join .. | .quit | .park .. | .mig ..
  | .sendHi .. | .sendLo .. | .recv .. | .recvn .. | .bar .. | .barFab .. | .cgjoin .. | .cgleave | .cbfence => true
  | .cbrAny _ d off | .cbrAll _ d off | .cbrMaj _ d off => immFits 8 (1 + d.high.toNat) off
  -- pages 5 and 6
  | .mjob .. | .mmul .. | .mload .. | .mloadSp .. | .mfree .. | .mrow .. | .cjob .. | .cstep .. | .prd .. | .prdsel ..
  | .rowadd .. | .rowcommit .. | .rowpause .. | .jwait .. | .jpoll .. => true
  | .mfc .. | .mtc .. | .eret | .halt | .snap | .tlbinv .. | .trap .. => true
  -- events
  | .resultWriteback .. | .stallHoldExpiry .. | .openEndedHoldEnd .. | .rotModeSwitch .. | .plainLoadReturn ..
  | .landingSettle .. | .logByteReturn .. | .feRequestArrival .. | .messageArrival .. | .movedNoticeArrival ..
  | .forwardingEntryRetire .. | .packetPush .. | .deferredPacketPush .. | .spillReturn .. | .dequeTake ..
  | .launchEnd .. | .stealProbe .. | .stealBackoffEnd .. | .hostSpawnWindowWrite .. | .migrationMoveEnd ..
  | .engineAccept .. | .engineJobStart .. | .jobDataArrival .. | .mrowRoundRequest .. | .cloveJobComplete ..
  | .copyJobComplete .. | .sumacJobComplete .. | .readyNoticeArrival .. | .partnerDataArrival .. | .stepAckArrival ..
  | .aniseGroupResult .. | .partnerWaitExpiry .. | .msuCommandArrival .. | .msuJobComplete .. | .hotWindowEnd ..
  | .replicaCopyComplete .. | .reencryptComplete .. | .barrierArrival .. | .barrierRelease ..
  | .barrierDeadlineExpiry .. | .aniseVoteArrival .. | .cbrResolutionArrival .. | .cbrVoteRefused ..
  | .cbrDeadlineExpiry .. | .frameReceive .. | .frameAck .. | .linkRetrain .. | .trainingRecord ..
  | .linkReturnToService .. | .routeTableLoad .. | .fabricMessageReceive .. | .postedStoreArrival ..
  | .collectorAppend .. | .heldRecordAppend .. | .haltCommand .. | .resume .. | .save .. | .saveComplete ..
  | .restore .. | .kill .. | .migrate .. | .cmdRefused .. | .gangStop .. | .coreStop .. | .gangResume ..
  | .gangSnapshot .. | .snapshotTriggerArrival .. | .watchdogExpiry .. | .saveStuckExpiry .. | .uncorrectableError ..
  | .deadlockProbeStart .. | .probeHop .. | .twinEventCompare .. | .twinWindowExpiry .. | .ringbaseWrite ..
  | .tailWrite .. | .membersWrite .. | .registerWrite .. | .acceptWrite .. | .go .. | .retry .. | .moduleReset ..
  | .offerTimeout .. | .failureResetTimer .. | .jobBegin .. | .jobEnd .. | .jobRecordSigned .. | .jobAck ..
  | .hostHdmAccess .. | .packageNumberSet .. => false

end Sys2Proof
end

