-- ==== Sys2Proof/Decode.lean ====
section
/-! DEFINITION. The decoder from parcels to instructions and the encoder, written from the encoding tables of R67 to R84
and the reference entries. `decode` is total on lists of parcels; an encoding that is no instruction is answered with
the parcel at which decoding failed and its index (R84). -/

namespace Sys2Proof

/-! ## Codes shared by several tables (R69, R76 to R82, R86) -/

def Scope.code : Scope → Nat
  | .cr => 0 | .cl => 1 | .pk => 2 | .sy => 3

def Scope.ofCode : Nat → Scope
  | 0 => .cr | 1 => .cl | 2 => .pk | _ => .sy

def Ty.code : Ty → Nat
  | .i8 => 0 | .u8 => 1 | .i16 => 2 | .u16 => 3 | .i32 => 4 | .u32 => 5 | .i4 => 6 | .u4 => 7
  | .f32 => 8 | .bf16 => 9 | .f16 => 10 | .e4m3 => 11 | .e5m2 => 12

def Ty.ofCode : Nat → Option Ty
  | 0 => some .i8 | 1 => some .u8 | 2 => some .i16 | 3 => some .u16 | 4 => some .i32 | 5 => some .u32
  | 6 => some .i4 | 7 => some .u4 | 8 => some .f32 | 9 => some .bf16 | 10 => some .f16 | 11 => some .e4m3
  | 12 => some .e5m2 | _ => none

def Sz.code : Sz → Nat
  | .b => 0 | .h => 1 | .w => 2 | .d => 3 | .bu => 4 | .hu => 5 | .wu => 6

def Sz.ofCode : Nat → Option Sz
  | 0 => some .b | 1 => some .h | 2 => some .w | 3 => some .d | 4 => some .bu | 5 => some .hu | 6 => some .wu
  | _ => none

def StSz.code : StSz → Nat
  | .b => 0 | .h => 1 | .w => 2 | .d => 3

def StSz.ofCode : Nat → Option StSz
  | 0 => some .b | 1 => some .h | 2 => some .w | 3 => some .d | _ => none

def ExtSz.code : ExtSz → Nat
  | .b => 0 | .h => 1 | .w => 2

def ExtSz.ofCode : Nat → Option ExtSz
  | 0 => some .b | 1 => some .h | 2 => some .w | _ => none

def Cc.code : Cc → Nat
  | .eq => 0 | .ne => 1 | .lt => 2 | .ge => 3 | .ltu => 4 | .geu => 5

def Cc.ofCode : Nat → Option Cc
  | 0 => some .eq | 1 => some .ne | 2 => some .lt | 3 => some .ge | 4 => some .ltu | 5 => some .geu | _ => none

def Cz.code : Cz → Nat
  | .eq => 0 | .ne => 1 | .lt => 2 | .ge => 3 | .le => 4 | .gt => 5

def Cz.ofCode : Nat → Option Cz
  | 0 => some .eq | 1 => some .ne | 2 => some .lt | 3 => some .ge | 4 => some .le | 5 => some .gt | _ => none

def Rm.code : Rm → Nat
  | .rne => 0 | .rtz => 1 | .rdn => 2 | .rup => 3

def Rm.ofCode : Nat → Option Rm
  | 0 => some .rne | 1 => some .rtz | 2 => some .rdn | 3 => some .rup | _ => none

def AmoOp.code : AmoOp → Nat
  | .add => 0 | .and => 1 | .or => 2 | .xor => 3 | .min => 4 | .max => 5 | .minu => 6 | .maxu => 7 | .swap => 8
  | .cas => 9

def AmoOp.ofCode : Nat → Option AmoOp
  | 0 => some .add | 1 => some .and | 2 => some .or | 3 => some .xor | 4 => some .min | 5 => some .max
  | 6 => some .minu | 7 => some .maxu | 8 => some .swap | 9 => some .cas | _ => none

def VCond.code : VCond → Nat
  | .eq => 0 | .ne => 1 | .lt => 2 | .le => 3

def VCond.ofCode : Nat → Option VCond
  | 0 => some .eq | 1 => some .ne | 2 => some .lt | 3 => some .le | _ => none

def RedOp.code : RedOp → Nat
  | .add => 0 | .min => 1 | .max => 2

def RedOp.ofCode : Nat → Option RedOp
  | 0 => some .add | 1 => some .min | 2 => some .max | _ => none

/-- Control register numbers (R86). -/
def CReg.code : CReg → Nat
  | .status => 0x00 | .core => 0x01 | .slot => 0x02 | .cycle => 0x03 | .tenant => 0x04 | .fmt => 0x08 | .scl => 0x09
  | .seed => 0x0A | .rot => 0x10 | .stl => 0x11 | .split => 0x12 | .vpool => 0x13 | .dist => 0x14 | .steal => 0x15
  | .lsmode => 0x18 | .lslog => 0x19 | .cg => 0x20 | .cgdl => 0x21 | .bardl => 0x22 | .tvec => 0x28 | .epc => 0x29
  | .cause => 0x2A | .tval => 0x2B | .twin => 0x30 | .ffneps => 0x31 | .ffnviol => 0x32

def CReg.ofCode : Nat → Option CReg
  | 0x00 => some .status | 0x01 => some .core | 0x02 => some .slot | 0x03 => some .cycle | 0x04 => some .tenant
  | 0x08 => some .fmt | 0x09 => some .scl | 0x0A => some .seed | 0x10 => some .rot | 0x11 => some .stl
  | 0x12 => some .split | 0x13 => some .vpool | 0x14 => some .dist | 0x15 => some .steal | 0x18 => some .lsmode
  | 0x19 => some .lslog | 0x20 => some .cg | 0x21 => some .cgdl | 0x22 => some .bardl | 0x28 => some .tvec
  | 0x29 => some .epc | 0x2A => some .cause | 0x2B => some .tval | 0x30 => some .twin | 0x31 => some .ffneps
  | 0x32 => some .ffnviol | _ => none

/-! ## The prefix chain (R67, R69, R71) -/

/-- An instruction taken apart into page, prefix payloads and base parcel. A prefix that the chain lacks is `none`. -/
structure Pre where
  page : Nat := 0
  sub : Nat := 0
  xr : Option Nat := none
  xs : Option Nat := none
  xi : List Nat := []
  maj : Nat := 0
  lo : Nat := 0              -- bits 11 to 0 of the base parcel
  deriving DecidableEq, Repr

/-- The prefixes of a chain. -/
def Pre.prefixes (p : Pre) : Nat :=
  (if p.page = 0 then 0 else 1) + (if p.xr.isSome then 1 else 0) + (if p.xs.isSome then 1 else 0) + p.xi.length

/-- What reading parcels gives: an instruction taken apart, the parcel at which the chain breaks R71 with its index, or
a list that ends before its base parcel. -/
inductive Scan where
  | ok (p : Pre)
  | bad (parcel index : Nat)
  | short
  deriving DecidableEq, Repr

/-- Reads parcels up to the base parcel. `rank` is the rank of the last prefix (XP 1, XR 2, XS 3, XI 4), `n` the
number of prefixes read. -/
def scan : List Nat → Nat → Nat → Pre → Scan
  | [], _, _, _ => .short
  | w :: ws, rank, n, p =>
    if w / 4096 % 16 ≠ 15 then .ok { p with maj := w / 4096 % 16, lo := w % 4096 }
    else if 4 ≤ n then .bad w n
    else
      let v := w % 1024
      match w / 1024 % 4 with
      | 0 => if 1 ≤ rank ∨ v / 128 = 0 ∨ v / 128 = 7 then .bad w n
             else scan ws 1 (n + 1) { p with page := v / 128, sub := v % 128 }
      | 1 => if 2 ≤ rank then .bad w n else scan ws 2 (n + 1) { p with xr := some v }
      | 2 => if 3 ≤ rank then .bad w n else scan ws 3 (n + 1) { p with xs := some v }
      | _ => scan ws 4 (n + 1) { p with xi := p.xi ++ [v] }

/-! ## Fields (R70, R72 to R74) -/

/-- The value of `n` as a signed number of `w` bits. -/
def signedOf (w n : Nat) : Int :=
  if w = 0 then 0 else if n % 2 ^ w < 2 ^ (w - 1) then (n % 2 ^ w : Nat) else (n % 2 ^ w : Nat) - (2 ^ w : Nat)

/-- The bits of an immediate: the XI payloads, then the base field of `w` bits (R72). -/
def Pre.immBits (p : Pre) (w base : Nat) : Nat := p.xi.foldl (fun a v => a * 1024 + v) 0 * 2 ^ w + base

/-- A signed immediate (R72). -/
def Pre.imm (p : Pre) (w base : Nat) : Int := signedOf (w + 10 * p.xi.length) (p.immBits w base)

/-- The fields of formats G, I, F, U, C, Z and L under the X3 layout: high bits of D, A, B and the two file selects. -/
structure X3 where
  dh : Nat
  ah : Nat
  bh : Nat
  df : Nat
  af : Nat

def Pre.x3 (p : Pre) : X3 :=
  let v := p.xr.getD 0
  { dh := v / 256 % 4, ah := v / 64 % 4, bh := v / 16 % 4, df := v / 4 % 4, af := v % 4 }

/-- The fields of format W under the X4 layout; unused XR bits must be 0 (R84). -/
structure WF where
  d : Nat
  a : Nat
  b : Nat
  deriving DecidableEq

def Pre.w4 (p : Pre) : Option WF :=
  let v := p.xr.getD 0
  if v % 128 = 0 ∧ p.xi = [] then
    some { d := v / 512 % 2 * 16 + p.lo / 256 % 16, a := v / 256 % 2 * 16 + p.lo / 16 % 16,
           b := v / 128 % 2 * 16 + p.lo % 16 }
  else none

/-- The fields of format V under the XV layout: D and A of eight bits, B of six (R70). -/
def Pre.v8 (p : Pre) : WF :=
  let v := p.xr.getD 0
  { d := v / 64 % 16 * 16 + p.lo / 256 % 16, a := v / 4 % 16 * 16 + p.lo / 16 % 16, b := v % 4 * 16 + p.lo % 16 }

def xreg (n : Nat) : XReg := Fin.ofNat 32 n
def kreg (n : Nat) : KReg := Fin.ofNat 8 n
def vreg (n : Nat) : VReg := Fin.ofNat 256 n

/-- A field of V that must name a scalar register. -/
def scalarField (n : Nat) : Option XReg := if n < 32 then some (xreg n) else none

/-- A field of V on page 3: a vector name, or `v[xN]` where the indirect bit is set (R80). -/
def vectorField (indirect : Bool) (n : Nat) : Option VArg :=
  if indirect then (if n < 32 then some (.indirect (xreg n)) else none) else some (.direct (vreg n))

/-- No stall count, scope or ordering bit (R84). -/
def Pre.plain (p : Pre) : Option Unit := if p.xs.getD 0 = 0 then some () else none

/-- A form with a stall field and no scope. -/
def Pre.stall (p : Pre) : Option (Fin 16) :=
  if p.xs.getD 0 % 64 = 0 then some (Fin.ofNat 16 (p.xs.getD 0 / 64)) else none

/-- A form with a scope: the scope, AQ and RL; the absent value of SCOPE is `.pk` (R71, R78). -/
def Pre.scoped (p : Pre) (aqOk rlOk : Bool) : Option (Scope × Bool × Bool) :=
  let v := p.xs.getD 32
  let aq := v / 8 % 2 = 1
  let rl := v / 4 % 2 = 1
  if v % 4 = 0 ∧ v / 64 = 0 ∧ (aqOk ∨ ¬ aq) ∧ (rlOk ∨ ¬ rl) then some (Scope.ofCode (v / 16 % 4), aq, rl) else none

/-! ## Page 0 (R77) -/

/-- The forms with three scalar registers and no stall field: MAJ 0x0 and FN 0 to 6 of MAJ 0x2. -/
def alu3 (maj fn : Nat) (d a b : XReg) : Option Instr :=
  match maj, fn with
  | 0, 0 => some (.add d a b) | 0, 1 => some (.sub d a b) | 0, 2 => some (.and d a b) | 0, 3 => some (.or d a b)
  | 0, 4 => some (.xor d a b) | 0, 5 => some (.sll d a b) | 0, 6 => some (.srl d a b) | 0, 7 => some (.sra d a b)
  | 2, 0 => some (.min d a b) | 2, 1 => some (.minu d a b) | 2, 2 => some (.max d a b) | 2, 3 => some (.maxu d a b)
  | 2, 4 => some (.slt d a b) | 2, 5 => some (.sltu d a b) | 2, 6 => some (.sel d a b)
  | _, _ => none

/-- The forms with three scalar registers and a stall field: MAJ 0x1 and `gaddr`. -/
def long3 (maj fn : Nat) (n : Fin 16) (d a b : XReg) : Option Instr :=
  match maj, fn with
  | 1, 0 => some (.mul n d a b) | 1, 1 => some (.mulh n d a b) | 1, 2 => some (.mulhu n d a b)
  | 1, 3 => some (.div n d a b) | 1, 4 => some (.divu n d a b) | 1, 5 => some (.rem n d a b)
  | 1, 6 => some (.remu n d a b) | 2, 7 => some (.gaddr n d a b)
  | _, _ => none

/-- A register field with its file select: 0 and 1 scalar, 2 mask (R70, R74). `wide` admits the value 1. -/
def fileField (wide : Bool) (file n : Nat) : Option XK :=
  match file with
  | 0 => some (.x (xreg n))
  | 1 => if wide then some (.x (xreg n)) else none
  | 2 => if n < 8 then some (.k (kreg n)) else none
  | _ => none

/-- Format G: MAJ 0x0 to 0x3. -/
def decodeG (p : Pre) : Option Instr :=
  let x := p.x3
  let fn := p.lo / 512 % 8
  let d := x.dh * 8 + p.lo / 64 % 8
  let a := x.ah * 8 + p.lo / 8 % 8
  let b := x.bh * 8 + p.lo % 8
  if p.xi ≠ [] then none
  else if p.maj = 3 then
    match p.plain with
    | none => none
    | some _ =>
      match fn with
      | 0 => if b = 0 ∧ x.df = 0 then (fileField false x.af a).map (.clz (xreg d)) else none
      | 1 => if b = 0 ∧ x.df = 0 then (fileField false x.af a).map (.ctz (xreg d)) else none
      | 2 => if b = 0 ∧ x.df = 0 then (fileField false x.af a).map (.popc (xreg d)) else none
      | 3 => if b = 0 then
               match fileField true x.df d, fileField true x.af a with
               | some dd, some aa => some (.mov dd aa)
               | _, _ => none
             else none
      | 4 => if x.df = 0 ∧ x.af = 0 then (ExtSz.ofCode b).map (.sxt · (xreg d) (xreg a)) else none
      | 5 => if x.df = 0 ∧ x.af = 0 then (ExtSz.ofCode b).map (.zxt · (xreg d) (xreg a)) else none
      | 6 => if d = 0 ∧ b = 0 ∧ x.df = 0 ∧ x.af = 0 then some (.jr (xreg a)) else none
      | _ => if b = 0 ∧ x.df = 0 ∧ x.af = 0 then some (.jalr (xreg d) (xreg a)) else none
  else if x.df ≠ 0 ∨ x.af ≠ 0 then none
  else if p.maj = 1 ∨ (p.maj = 2 ∧ fn = 7) then
    match p.stall with
    | some n => long3 p.maj fn n (xreg d) (xreg a) (xreg b)
    | none => none
  else
    match p.plain with
    | some _ => alu3 p.maj fn (xreg d) (xreg a) (xreg b)
    | none => none

/-- Formats I, F, U, C, Z, J and N: MAJ 0x4 to 0xE. An XR with payload 0 on a format that has no XR layout (J and N here,
T on page 6), and an XI on a form that has no extended immediate, are illegal: R73 and R84 say so where R71 decodes a zero
prefix as an absent one (DESIGN CHOICE, log entry 77). -/
def decodeImm (p : Pre) : Option Instr :=
  let x := p.x3
  let noFile := x.df = 0 ∧ x.af = 0
  match p.plain with
  | none => none
  | some _ =>
    match p.maj with
    | 4 =>
      if noFile ∧ x.bh = 0 then
        some (.addi (xreg (x.dh * 8 + p.lo / 512 % 8)) (xreg (x.ah * 8 + p.lo / 64 % 8)) (p.imm 6 (p.lo % 64)))
      else none
    | 5 =>
      let d := xreg (x.dh * 8 + p.lo / 128 % 8)
      let a := xreg (x.ah * 8 + p.lo / 16 % 8)
      let imm := p.imm 4 (p.lo % 16)
      if noFile ∧ x.bh = 0 then
        match p.lo / 1024 % 4 with
        | 0 => some (.andi d a imm) | 1 => some (.ori d a imm) | 2 => some (.xori d a imm) | _ => some (.slti d a imm)
      else none
    | 6 =>
      let d := xreg (x.dh * 8 + p.lo / 128 % 8)
      let a := xreg (x.ah * 8 + p.lo / 16 % 8)
      let c := p.immBits 4 (p.lo % 16)
      if noFile ∧ x.bh = 0 ∧ c < 64 then
        match p.lo / 1024 % 4 with
        | 0 => some (.slli d a (Fin.ofNat 64 c)) | 1 => some (.srli d a (Fin.ofNat 64 c))
        | 2 => some (.srai d a (Fin.ofNat 64 c)) | _ => none
      else none
    | 7 | 8 | 9 | 13 =>
      let d := xreg (x.dh * 8 + p.lo / 512 % 8)
      let imm := p.imm 9 (p.lo % 512)
      if noFile ∧ x.ah = 0 ∧ x.bh = 0 then
        match p.maj with
        | 7 => some (.li d imm) | 8 => some (.lih d imm) | 9 => some (.lea d imm) | _ => some (.jal d imm)
      else none
    | 10 =>
      if noFile ∧ x.dh = 0 then
        (Cc.ofCode (p.lo / 512 % 8)).map
          (.bc · (xreg (x.ah * 8 + p.lo / 64 % 8)) (xreg (x.bh * 8 + p.lo / 8 % 8)) (p.imm 3 (p.lo % 8)))
      else none
    | 11 =>
      if noFile ∧ x.dh = 0 ∧ x.bh = 0 then
        (Cz.ofCode (p.lo / 512 % 8)).map (.br · (xreg (x.ah * 8 + p.lo / 64 % 8)) (p.imm 6 (p.lo % 64)))
      else none
    | 12 => if p.xr = none then some (.j (p.imm 12 p.lo)) else none
    | 14 =>
      if p.xr = none ∧ p.xi = [] then
        match p.lo / 1024 % 4 with
        | 0 => if p.lo % 1024 = 0 then some .nop else none
        | 1 => some (.brk (Fin.ofNat 1024 (p.lo % 1024)))
        | _ => none
      else none
    | _ => none

def decode0 (p : Pre) : Option Instr := if p.maj ≤ 3 then decodeG p else decodeImm p

/-! ## Page 1 (R78) -/

def decode1 (p : Pre) : Option Instr :=
  let x := p.x3
  let noFile := x.df = 0 ∧ x.af = 0 ∧ x.bh = 0
  match p.maj with
  | 0 =>
    match Sz.ofCode p.sub, p.scoped true false with
    | some z, some (s, aq, _) =>
      if noFile then
        some (.ld z aq s (xreg (x.dh * 8 + p.lo / 512 % 8)) (xreg (x.ah * 8 + p.lo / 64 % 8)) (p.imm 6 (p.lo % 64)))
      else none
    | _, _ => none
  | 1 =>
    match StSz.ofCode p.sub, p.scoped false true with
    | some z, some (s, _, rl) =>
      if noFile then
        some (.st z rl s (xreg (x.dh * 8 + p.lo / 512 % 8)) (xreg (x.ah * 8 + p.lo / 64 % 8)) (p.imm 6 (p.lo % 64)))
      else none
    | _, _ => none
  | 2 =>
    if p.sub / 32 ≠ 0 then none
    else
      match AmoOp.ofCode (p.sub % 16), p.scoped true true, p.w4 with
      | some op, some (s, aq, rl), some f =>
        some (.amo op (p.sub / 16 % 2 = 1) aq rl s (xreg f.d) (xreg f.b) (xreg f.a))
      | _, _, _ => none
  | 3 =>
    match p.w4 with
    | none => none
    | some f =>
      match p.sub with
      | 0 =>
        match p.scoped false false with
        | some (s, _) => if f.d = 0 ∧ f.a = 0 ∧ f.b = 0 then some (.fence s) else none
        | none => none
      | 1 => if p.xs.getD 0 = 0 ∧ f.d = 0 ∧ f.b = 0 then some (.flrd (xreg f.a)) else none
      | 2 =>
        match p.scoped false false with
        | some (s, _) => if f.d = 0 then some (.cwb s (xreg f.a) (xreg f.b)) else none
        | none => none
      | 3 =>
        match p.scoped false false with
        | some (s, _) => if f.d = 0 then some (.cinv s (xreg f.a) (xreg f.b)) else none
        | none => none
      | 4 => if p.xs.getD 0 = 0 ∧ f.d = 0 ∧ f.a = 0 ∧ f.b = 0 then some .spfence else none
      | _ => none
  | 4 =>
    match p.w4, p.scoped false false with
    | some f, some (s, _) =>
      if f.b ≠ 0 then none
      else
        match p.sub with
        | 0 => some (.ldfe s (xreg f.d) (xreg f.a)) | 1 => some (.ldff s (xreg f.d) (xreg f.a))
        | 2 => some (.stfe s (xreg f.d) (xreg f.a)) | 3 => some (.stff s (xreg f.d) (xreg f.a))
        | 4 => if f.d = 0 then some (.fepurge s (xreg f.a)) else none
        | _ => none
    | _, _ => none
  | 5 =>
    match Sz.ofCode p.sub, p.plain with
    | some z, some _ =>
      if noFile ∧ x.dh = 0 then
        some (.ldt z (Fin.ofNat 64 (p.lo / 64 % 64)) (xreg (x.ah * 8 + p.lo / 8 % 8)) (p.imm 3 (p.lo % 8)))
      else none
    | _, _ => none
  | 6 =>
    match p.w4, p.plain with
    | some f, some _ =>
      if f.b ≠ 0 then none
      else
        match p.sub with
        | 0 => some (.take (xreg f.d) (xreg f.a)) | 1 => some (.taken (xreg f.d) (xreg f.a))
        | 2 => some (.takex (xreg f.d) (xreg f.a))
        | 3 => if f.d = 0 then some (.lsre (xreg f.a)) else none
        | 4 => if f.d = 0 ∧ f.a = 0 then some .lsclr else none
        | 5 => if f.a = 0 then some (.lsinfo (xreg f.d)) else none
        | _ => none
    | _, _ => none
  | _ => none

/-! ## Page 2 (R79, R389) -/

/-- The element-wise forms of three vectors: MAJ 0x0 to 0x3. -/
def vector3 (maj var : Nat) (n : Fin 16) (ty : Ty) (d a b : VReg) : Option Instr :=
  match maj, var with
  | 0, 0 => some (.vadd n ty d a b) | 0, 1 => some (.vsub n ty d a b) | 1, 0 => some (.vmul n ty d a b)
  | 2, 0 => some (.vfma n ty d a b) | 2, 1 => some (.vfms n ty d a b)
  | 3, 0 => some (.vmin n ty d a b) | 3, 1 => some (.vmax n ty d a b)
  | _, _ => none

def decode2 (p : Pre) : Option Instr :=
  let f := p.v8
  let var := p.sub / 16 % 2
  let d := vreg f.d
  let a := vreg f.a
  let bn := p.sub / 32 % 4 * 64 + f.b
  let b := vreg bn
  if p.xi ≠ [] then none
  else
    let r : Option Instr :=
      match p.maj with
      | 14 =>
        match Ty.ofCode (p.sub % 16), p.plain, scalarField f.d with
        | some ty, some _, some x =>
          if var = 0 then some (.vdot ty x a b) else (RedOp.ofCode bn).map (.vred · ty x a)
        | _, _, _ => none
      | 4 =>
        match p.stall with
        | some n =>
          if var ≠ 0 then none
          else
            match p.sub % 16 with
            | 0 => some (.vand n d a b) | 1 => some (.vor n d a b) | 2 => some (.vxor n d a b) | _ => none
        | none => none
      | m =>
        match Ty.ofCode (p.sub % 16), p.stall with
        | some ty, some n =>
          match m with
          | 0 | 1 | 2 | 3 => vector3 m var n ty d a b
          | 5 => if var = 0 then some (.vsh n ty d a b) else none
          | 6 =>
            if f.d < 16 then (VCond.ofCode (f.d / 8 * 2 + var)).map (.vcmp n · ty (kreg (f.d % 8)) a b) else none
          | 7 => if var = 0 ∧ bn < 8 then some (.vsel n ty d a (kreg bn)) else none
          | 8 => if bn ≠ 0 then none else if var = 0 then some (.vabs n ty d a) else some (.vneg n ty d a)
          | 9 =>
            if var ≠ 0 then none
            else
              match bn with
              | 0 => some (.vrcp n ty d a) | 1 => some (.vrsq n ty d a) | 2 => some (.vexp2 n ty d a)
              | 3 => some (.vlog2 n ty d a) | 4 => some (.vtanh n ty d a) | _ => none
          | 10 =>
            match Ty.ofCode (bn % 16), Rm.ofCode (bn / 16) with
            | some sty, some rm => if var = 0 then some (.vcvt n ty sty rm d a) else none
            | _, _ => none
          | 11 =>
            match Ty.ofCode (bn % 16), Rm.ofCode (bn / 16) with
            | some sty, some rm =>
              if var = 1 then some (.vpack n ty sty rm d a)
              else if rm = .rne then some (.vwid n ty sty d a) else none
            | _, _ => none
          | 12 =>
            match scalarField bn with
            | some x => if var = 0 then some (.vquant n ty d a x) else some (.vhad n ty d a x)
            | none => none
          | 13 =>
            match scalarField f.a with
            | some x => if var = 0 ∧ bn = 0 then some (.vhrnd n ty d x) else none
            | none => none
          | _ => none
        | _, _ => none
    match r with
    | some i => if i.wf then some i else none
    | none => none

/-! ## Page 3 (R80, R390) -/

def decode3 (p : Pre) : Option Instr :=
  let f := p.v8
  let dind := p.sub / 64 % 2 = 1
  let aind := p.sub / 32 % 2 = 1
  let var := p.sub / 16 % 2
  let ty0 := p.sub % 16
  match scalarField f.b with
  | none => none
  | some b =>
    let r : Option Instr :=
      match p.maj with
      | 0 =>
        match vectorField dind f.d, p.scoped false false with
        | some d, some (s, _) =>
          if aind ∨ f.a ≠ 0 ∨ ty0 ≠ 0 then none
          else if var = 0 then some (.vld s d b (p.imm 0 0)) else some (.vst s d b (p.imm 0 0))
        | _, _ => none
      | 1 =>
        match vectorField dind f.d, vectorField aind f.a, p.scoped false false, Ty.ofCode ty0 with
        | some d, some a, some (s, _), some ty =>
          if p.xi ≠ [] then none
          else if var = 0 then some (.vldx s ty d b a) else some (.vstx s ty d b a)
        | _, _, _, _ => none
      | 2 =>
        match vectorField dind f.d, p.plain with
        | some d, some _ =>
          if aind ∨ 64 ≤ f.a ∨ ty0 ≠ 0 then none
          else if var = 0 then some (.vldt (Fin.ofNat 64 f.a) d b (p.imm 0 0))
          else some (.vldtRow (Fin.ofNat 64 f.a) d b (p.imm 0 0))
        | _, _ => none
      | 7 =>
        match vectorField dind f.d, p.plain with
        | some d, some _ =>
          if aind ∨ f.a ≠ 0 ∨ ty0 ≠ 0 ∨ p.xi ≠ [] then none
          else if var = 0 then some (.vralloc d b) else some (.vrfree d b)
        | _, _ => none
      | m =>
        match Ty.ofCode ty0, p.stall with
        | some ty, some n =>
          if p.xi ≠ [] then none
          else
            match m, var with
            | 3, 0 =>
              match vectorField dind f.d, vectorField aind f.a with
              | some d, some a => if f.b = 0 then some (.vperm n ty d a) else none
              | _, _ => none
            | 4, 0 =>
              match vectorField dind f.d with
              | some d => if aind ∨ f.a ≠ 0 then none else some (.vbcast n ty d b)
              | none => none
            | 5, 0 =>
              match vectorField dind f.d with
              | some d => if aind ∨ f.a ≠ 0 then none else some (.vidx n ty d b)
              | none => none
            | 6, 0 =>
              match vectorField dind f.d, scalarField f.a with
              | some d, some a => if aind then none else some (.vmovsToVector n ty d a b)
              | _, _ => none
            | 6, 1 =>
              match scalarField f.d, vectorField aind f.a with
              | some d, some a => if dind then none else some (.vmovsToScalar n ty d a b)
              | _, _ => none
            | _, _ => none
        | _, _ => none
    match r with
    | some i => if i.wf then some i else none
    | none => none

/-! ## Page 4 (R81) -/

def decode4 (p : Pre) : Option Instr :=
  match p.plain with
  | none => none
  | some _ =>
    if p.maj = 5 then
      let v := p.xr.getD 0
      let pt : Bool := p.sub / 4 % 2 = 1
      let d := xreg (v / 512 % 2 * 16 + p.lo / 256 % 16)
      let off := p.imm 8 (p.lo % 256)
      if v % 512 ≠ 0 ∨ p.sub / 8 ≠ 0 then none
      else
        match p.sub % 4 with
        | 0 => some (.cbrAny pt d off) | 1 => some (.cbrAll pt d off) | 2 => some (.cbrMaj pt d off) | _ => none
    else
      match p.w4 with
      | none => none
      | some f =>
        let d := xreg f.d
        let a := xreg f.a
        let b := xreg f.b
        match p.maj with
        | 0 =>
          match p.sub with
          | 0 => if f.d = 0 then some (.spawn a b) else none
          | 1 => if f.d = 0 then some (.spawnTwin a b) else none
          | 2 => if f.d = 0 then some (.spawnd a b) else none
          | 3 => if f.d = 0 ∧ f.b = 0 then some (.fork a) else none
          | 4 => if f.d = 0 ∧ f.b = 0 then some (.join a) else none
          | 5 => if f.d = 0 ∧ f.a = 0 ∧ f.b = 0 then some .quit else none
          | 6 => if f.d = 0 ∧ f.b = 0 then some (.park a) else none
          | 7 => if f.b = 0 then some (.mig d a) else none
          | _ => none
        | 1 =>
          if p.sub / 8 ≠ 0 then none
          else if p.sub / 4 = 1 then some (.sendHi (Fin.ofNat 4 (p.sub % 4)) d a b)
          else some (.sendLo (Fin.ofNat 4 (p.sub % 4)) d a b)
        | 2 =>
          if p.sub / 8 ≠ 0 ∨ f.b ≠ 0 then none
          else if p.sub / 4 = 1 then some (.recvn (Fin.ofNat 4 (p.sub % 4)) d a)
          else some (.recv (Fin.ofNat 4 (p.sub % 4)) d a)
        | 3 =>
          if f.d ≠ 0 then none
          else match p.sub with
            | 0 => some (.bar a b) | 1 => some (.barFab a b) | _ => none
        | 4 =>
          match p.sub with
          | 0 => some (.cgjoin d a b)
          | 1 => if f.d = 0 ∧ f.a = 0 ∧ f.b = 0 then some .cgleave else none
          | 2 => if f.d = 0 ∧ f.a = 0 ∧ f.b = 0 then some .cbfence else none
          | _ => none
        | _ => none

/-! ## Pages 5 and 6 (R82, R83) -/

/-- An engine command (R82): MAJ names the engine, SUB the function. -/
def engineForm (maj fn : Nat) (n : Fin 16) (d a b : XReg) : Option Instr :=
  match maj, fn with
  | 0, 0 => some (.mjob n d a b) | 0, 2 => some (.mload n d a b) | 0, 3 => some (.mloadSp n d a b)
  | 0, 4 => if b = 0 then some (.mfree n d a) else none
  | 1, 0 => some (.cjob n d a b) | 2, 0 => some (.cstep n d a b)
  | 3, 0 => some (.prd n d a b)
  | 3, 1 => if b = 0 then some (.prdsel n d a) else none
  | 4, 0 => some (.rowadd n d a b) | 4, 1 => some (.rowcommit n d a b) | 4, 2 => some (.rowpause n d a b)
  | 5, 1 => if b = 0 then some (.jpoll n d a) else none
  | 0, 1 => if n = 0 then some (.mmul d a b) else none
  | 0, 5 => if n = 0 then some (.mrow d a b) else none
  | 5, 0 => if n = 0 ∧ b = 0 then some (.jwait d a) else none
  | _, _ => none

def decode5 (p : Pre) : Option Instr :=
  match p.w4, p.stall with
  | some f, some n => engineForm p.maj p.sub n (xreg f.d) (xreg f.a) (xreg f.b)
  | _, _ => none

def decode6 (p : Pre) : Option Instr :=
  match p.plain with
  | none => none
  | some _ =>
    match p.maj with
    | 0 | 1 =>
      let v := p.xr.getD 0
      let d := xreg (v / 512 % 2 * 16 + p.lo / 256 % 16)
      if v % 512 ≠ 0 ∨ p.sub ≠ 0 ∨ p.xi ≠ [] then none
      else if p.maj = 0 then (CReg.ofCode (p.lo % 256)).map (.mfc d ·)
      else (CReg.ofCode (p.lo % 256)).map (.mtc · d)
    | 2 =>
      match p.w4 with
      | none => none
      | some f =>
        match p.sub with
        | 0 => if f.d = 0 ∧ f.a = 0 ∧ f.b = 0 then some .eret else none
        | 1 => if f.d = 0 ∧ f.a = 0 ∧ f.b = 0 then some .halt else none
        | 2 => if f.d = 0 ∧ f.a = 0 ∧ f.b = 0 then some .snap else none
        | 3 => if f.d = 0 then some (.tlbinv (xreg f.a) (xreg f.b)) else none
        | _ => none
    | 3 =>
      if p.sub = 0 ∧ p.xr = none ∧ p.xi = [] ∧ p.lo / 256 = 0 then some (.trap (Fin.ofNat 256 (p.lo % 256))) else none
    | _ => none

/-! ## The decoder -/

/-- The instruction of a chain taken apart (R75). -/
def decodePre (p : Pre) : Option Instr :=
  match p.page with
  | 0 => decode0 p | 1 => decode1 p | 2 => decode2 p | 3 => decode3 p | 4 => decode4 p | 5 => decode5 p
  | 6 => decode6 p | _ => none

/-- What the decoder answers: an instruction and its length in parcels; the parcel at which decoding failed and its
index (R84); or a list that ends inside the instruction. -/
inductive Decoded where
  | ok (i : Instr) (len : Nat)
  | bad (parcel index : Nat)
  | short
  deriving DecidableEq, Repr

/-- Decodes the instruction at the head of a list of parcels (R67 to R84). -/
def decode (ps : List Nat) : Decoded :=
  match scan ps 0 0 {} with
  | .short => .short
  | .bad w n => .bad w n
  | .ok p =>
    match decodePre p with
    | some i => .ok i (p.prefixes + 1)
    | none => .bad (p.maj * 4096 + p.lo) p.prefixes

/-! ## The encoder (R28: the fewest prefixes, in the canonical order) -/

/-- XR of the X3 layout, absent where every field is 0. -/
def encX3 (d a b df af : Nat) : Option Nat :=
  let v := d / 8 * 256 + a / 8 * 64 + b / 8 * 16 + df * 4 + af
  if v = 0 then none else some v

/-- XR of the X4 layout. -/
def encX4 (d a b : Nat) : Option Nat :=
  let v := d / 16 * 512 + a / 16 * 256 + b / 16 * 128
  if v = 0 then none else some v

/-- XR of the XV layout. -/
def encXV (d a b : Nat) : Option Nat :=
  let v := d / 16 * 64 + a / 16 * 4 + b / 16 % 4
  if v = 0 then none else some v

/-- XS with a stall count. -/
def encStall (n : Fin 16) : Option Nat := if n.val = 0 then none else some (n.val * 64)

/-- XS with a scope and ordering bits. -/
def encScope (s : Scope) (aq rl : Bool) : Option Nat :=
  if xsScoped s aq rl then some (s.code * 16 + aq.toNat * 8 + rl.toNat * 4) else none

/-- The XI parcels of a signed immediate over a base field of `w` bits: the fewest (R28). -/
def xiCount (w : Nat) (imm : Int) : Nat :=
  if fitsSigned w imm then 0 else if fitsSigned (w + 10) imm then 1 else if fitsSigned (w + 20) imm then 2
  else if fitsSigned (w + 30) imm then 3 else 4

/-- An immediate as an unsigned number of `n` bits. -/
def immNat (n : Nat) (imm : Int) : Nat := (imm % (2 ^ n : Int)).toNat

/-- The `n` XI payloads of the number `v`, most significant first. -/
def xiList : Nat → Nat → List Nat
  | 0, _ => []
  | n + 1, v => v / 1024 ^ n % 1024 :: xiList n v

def encXi (w : Nat) (imm : Int) : List Nat :=
  xiList (xiCount w imm) (immNat (w + 10 * xiCount w imm) imm / 2 ^ w)

/-- The base field of `w` bits of an immediate. -/
def encBase (w : Nat) (imm : Int) : Nat := immNat w imm

/-- Format G. -/
def encG (maj fn : Nat) (d a b : Nat) (df af : Nat := 0) (xs : Option Nat := none) : Pre :=
  { xr := encX3 d a b df af, xs := xs, maj := maj, lo := fn * 512 + d % 8 * 64 + a % 8 * 8 + b % 8 }

/-- Format W. -/
def encW (page sub maj : Nat) (d a b : Nat) (xs : Option Nat := none) : Pre :=
  { page := page, sub := sub, xr := encX4 d a b, xs := xs, maj := maj, lo := d % 16 * 256 + a % 16 * 16 + b % 16 }

/-- Format V. -/
def encV (page sub maj : Nat) (d a b : Nat) (xs : Option Nat := none) (xi : List Nat := []) : Pre :=
  { page := page, sub := sub, xr := encXV d a b, xs := xs, xi := xi, maj := maj,
    lo := d % 16 * 256 + a % 16 * 16 + b % 16 }

/-- Format V on page 2: B [7:6] go to SUB [6:5]. -/
def enc2 (maj var ty : Nat) (d a b : Nat) (xs : Option Nat) : Pre :=
  encV 2 (b / 64 * 32 + var * 16 + ty) maj d a b xs

/-- Format U. -/
def encU (maj : Nat) (d : XReg) (imm : Int) : Pre :=
  { xr := encX3 d 0 0 0 0, xi := encXi 9 imm, maj := maj, lo := d.val % 8 * 512 + encBase 9 imm }

/-- Format I. -/
def encI (page sub maj : Nat) (xs : Option Nat) (d a : XReg) (imm : Int) : Pre :=
  { page := page, sub := sub, xr := encX3 d a 0 0 0, xs := xs, xi := encXi 6 imm, maj := maj,
    lo := d.val % 8 * 512 + a.val % 8 * 64 + encBase 6 imm }

/-- Format F with a signed immediate. -/
def encF (maj fn : Nat) (d a : XReg) (imm : Int) : Pre :=
  { xr := encX3 d a 0 0 0, xi := encXi 4 imm, maj := maj,
    lo := fn * 1024 + d.val % 8 * 128 + a.val % 8 * 16 + encBase 4 imm }

/-- Format F with a shift count. -/
def encShift (fn : Nat) (d a : XReg) (c : Fin 64) : Pre :=
  { xr := encX3 d a 0 0 0, xi := if c.val < 16 then [] else [c.val / 16], maj := 6,
    lo := fn * 1024 + d.val % 8 * 128 + a.val % 8 * 16 + c.val % 16 }

/-- The file select and number of a scalar or mask operand. -/
def XK.file : XK → Nat
  | .x _ => 0
  | .k _ => 2

def XK.num : XK → Nat
  | .x r => r
  | .k r => r

def VArg.num : VArg → Nat
  | .direct v => v
  | .indirect n => n

def VArg.ind : VArg → Nat
  | .direct _ => 0
  | .indirect _ => 1

/-- Page 3: DIND, AIND, VAR and TY in SUB. -/
def enc3 (maj var ty : Nat) (d a : VArg) (b : XReg) (xs : Option Nat) (xi : List Nat := []) : Pre :=
  encV 3 (d.ind * 64 + a.ind * 32 + var * 16 + ty) maj d.num a.num b xs xi

/-- An A field of page 3 that holds a number and no vector. -/
def plainA (n : Nat) : VArg := .direct (vreg n)

/-- The parts of an instruction (R77 to R83). Events and `ILLEGAL_INSTRUCTION` have no encoding. -/
def toPre : Instr → Option Pre
  | .add d a b => some (encG 0 0 d a b)
  | .sub d a b => some (encG 0 1 d a b)
  | .and d a b => some (encG 0 2 d a b)
  | .or d a b => some (encG 0 3 d a b)
  | .xor d a b => some (encG 0 4 d a b)
  | .sll d a b => some (encG 0 5 d a b)
  | .srl d a b => some (encG 0 6 d a b)
  | .sra d a b => some (encG 0 7 d a b)
  | .mul n d a b => some (encG 1 0 d a b 0 0 (encStall n))
  | .mulh n d a b => some (encG 1 1 d a b 0 0 (encStall n))
  | .mulhu n d a b => some (encG 1 2 d a b 0 0 (encStall n))
  | .div n d a b => some (encG 1 3 d a b 0 0 (encStall n))
  | .divu n d a b => some (encG 1 4 d a b 0 0 (encStall n))
  | .rem n d a b => some (encG 1 5 d a b 0 0 (encStall n))
  | .remu n d a b => some (encG 1 6 d a b 0 0 (encStall n))
  | .min d a b => some (encG 2 0 d a b)
  | .minu d a b => some (encG 2 1 d a b)
  | .max d a b => some (encG 2 2 d a b)
  | .maxu d a b => some (encG 2 3 d a b)
  | .slt d a b => some (encG 2 4 d a b)
  | .sltu d a b => some (encG 2 5 d a b)
  | .sel d a b => some (encG 2 6 d a b)
  | .gaddr n d a b => some (encG 2 7 d a b 0 0 (encStall n))
  | .clz d a => some (encG 3 0 d a.num 0 0 a.file)
  | .ctz d a => some (encG 3 1 d a.num 0 0 a.file)
  | .popc d a => some (encG 3 2 d a.num 0 0 a.file)
  | .mov d a => some (encG 3 3 d.num a.num 0 d.file a.file)
  | .sxt z d a => some (encG 3 4 d a z.code)
  | .zxt z d a => some (encG 3 5 d a z.code)
  | .jr a => some (encG 3 6 0 a 0)
  | .jalr d a => some (encG 3 7 d a 0)
  | .addi d a imm => some (encI 0 0 4 none d a imm)
  | .andi d a imm => some (encF 5 0 d a imm)
  | .ori d a imm => some (encF 5 1 d a imm)
  | .xori d a imm => some (encF 5 2 d a imm)
  | .slti d a imm => some (encF 5 3 d a imm)
  | .slli d a c => some (encShift 0 d a c)
  | .srli d a c => some (encShift 1 d a c)
  | .srai d a c => some (encShift 2 d a c)
  | .li d imm => some (encU 7 d imm)
  | .lih d imm => some (encU 8 d imm)
  | .lea d off => some (encU 9 d off)
  | .bc c a b off =>
    some { xr := encX3 0 a b 0 0, xi := encXi 3 off, maj := 10,
           lo := c.code * 512 + a.val % 8 * 64 + b.val % 8 * 8 + encBase 3 off }
  | .br c a off =>
    some { xr := encX3 0 a 0 0 0, xi := encXi 6 off, maj := 11,
           lo := c.code * 512 + a.val % 8 * 64 + encBase 6 off }
  | .j off => some { xi := encXi 12 off, maj := 12, lo := encBase 12 off }
  | .jal d off => some (encU 13 d off)
  | .nop => some { maj := 14, lo := 0 }
  | .brk c => some { maj := 14, lo := 1024 + c.val }
  | .ld z aq s d a e => some (encI 1 z.code 0 (encScope s aq false) d a e)
  | .st z rl s r a e => some (encI 1 z.code 1 (encScope s false rl) r a e)
  | .amo op w aq rl s d b a => some (encW 1 (w.toNat * 16 + op.code) 2 d a b (encScope s aq rl))
  | .fence s => some (encW 1 0 3 0 0 0 (encScope s false false))
  | .flrd a => some (encW 1 1 3 0 a 0)
  | .cwb s a b => some (encW 1 2 3 0 a b (encScope s false false))
  | .cinv s a b => some (encW 1 3 3 0 a b (encScope s false false))
  | .spfence => some (encW 1 4 3 0 0 0)
  | .ldfe s d a => some (encW 1 0 4 d a 0 (encScope s false false))
  | .ldff s d a => some (encW 1 1 4 d a 0 (encScope s false false))
  | .stfe s r a => some (encW 1 2 4 r a 0 (encScope s false false))
  | .stff s r a => some (encW 1 3 4 r a 0 (encScope s false false))
  | .fepurge s a => some (encW 1 4 4 0 a 0 (encScope s false false))
  | .ldt z t a e =>
    some { page := 1, sub := z.code, xr := encX3 0 a 0 0 0, xi := encXi 3 e, maj := 5,
           lo := t.val * 64 + a.val % 8 * 8 + encBase 3 e }
  | .take d t => some (encW 1 0 6 d t 0)
  | .taken d t => some (encW 1 1 6 d t 0)
  | .takex d a => some (encW 1 2 6 d a 0)
  | .lsre a => some (encW 1 3 6 0 a 0)
  | .lsclr => some (encW 1 4 6 0 0 0)
  | .lsinfo d => some (encW 1 5 6 d 0 0)
  | .vadd n ty d a b => some (enc2 0 0 ty.code d a b (encStall n))
  | .vsub n ty d a b => some (enc2 0 1 ty.code d a b (encStall n))
  | .vmul n ty d a b => some (enc2 1 0 ty.code d a b (encStall n))
  | .vfma n ty d a b => some (enc2 2 0 ty.code d a b (encStall n))
  | .vfms n ty d a b => some (enc2 2 1 ty.code d a b (encStall n))
  | .vmin n ty d a b => some (enc2 3 0 ty.code d a b (encStall n))
  | .vmax n ty d a b => some (enc2 3 1 ty.code d a b (encStall n))
  | .vand n d a b => some (enc2 4 0 0 d a b (encStall n))
  | .vor n d a b => some (enc2 4 0 1 d a b (encStall n))
  | .vxor n d a b => some (enc2 4 0 2 d a b (encStall n))
  | .vsh n ty d a b => some (enc2 5 0 ty.code d a b (encStall n))
  | .vcmp n c ty k a b => some (enc2 6 (c.code % 2) ty.code (c.code / 2 * 8 + k.val) a b (encStall n))
  | .vsel n ty d a k => some (enc2 7 0 ty.code d a k (encStall n))
  | .vabs n ty d a => some (enc2 8 0 ty.code d a 0 (encStall n))
  | .vneg n ty d a => some (enc2 8 1 ty.code d a 0 (encStall n))
  | .vrcp n ty d a => some (enc2 9 0 ty.code d a 0 (encStall n))
  | .vrsq n ty d a => some (enc2 9 0 ty.code d a 1 (encStall n))
  | .vexp2 n ty d a => some (enc2 9 0 ty.code d a 2 (encStall n))
  | .vlog2 n ty d a => some (enc2 9 0 ty.code d a 3 (encStall n))
  | .vtanh n ty d a => some (enc2 9 0 ty.code d a 4 (encStall n))
  | .vcvt n ty sty rm d a => some (enc2 10 0 ty.code d a (rm.code * 16 + sty.code) (encStall n))
  | .vwid n ty sty d a => some (enc2 11 0 ty.code d a sty.code (encStall n))
  | .vpack n ty sty rm d a => some (enc2 11 1 ty.code d a (rm.code * 16 + sty.code) (encStall n))
  | .vquant n ty d a b => some (enc2 12 0 ty.code d a b (encStall n))
  | .vhad n ty d a b => some (enc2 12 1 ty.code d a b (encStall n))
  | .vhrnd n ty d a => some (enc2 13 0 ty.code d a 0 (encStall n))
  | .vdot ty d a b => some (enc2 14 0 ty.code d a b none)
  | .vred op ty d a => some (enc2 14 1 ty.code d a op.code none)
  | .vld s d b e => some (enc3 0 0 0 d (plainA 0) b (encScope s false false) (encXi 0 e))
  | .vst s r b e => some (enc3 0 1 0 r (plainA 0) b (encScope s false false) (encXi 0 e))
  | .vldx s ty d b a => some (enc3 1 0 ty.code d a b (encScope s false false))
  | .vstx s ty r b a => some (enc3 1 1 ty.code r a b (encScope s false false))
  | .vldt t d b e => some (enc3 2 0 0 d (plainA t) b none (encXi 0 e))
  | .vldtRow t d b e => some (enc3 2 1 0 d (plainA t) b none (encXi 0 e))
  | .vperm n ty d a => some (enc3 3 0 ty.code d a 0 (encStall n))
  | .vbcast n ty d b => some (enc3 4 0 ty.code d (plainA 0) b (encStall n))
  | .vidx n ty d b => some (enc3 5 0 ty.code d (plainA 0) b (encStall n))
  | .vmovsToVector n ty d a b => some (enc3 6 0 ty.code d (plainA a) b (encStall n))
  | .vmovsToScalar n ty d a b => some (enc3 6 1 ty.code (plainA d) a b (encStall n))
  | .vralloc d b => some (enc3 7 0 0 d (plainA 0) b none)
  | .vrfree d b => some (enc3 7 1 0 d (plainA 0) b none)
  | .spawn a b => some (encW 4 0 0 0 a b)
  | .spawnTwin a b => some (encW 4 1 0 0 a b)
  | .spawnd a b => some (encW 4 2 0 0 a b)
  | .fork a => some (encW 4 3 0 0 a 0)
  | .join a => some (encW 4 4 0 0 a 0)
  | .quit => some (encW 4 5 0 0 0 0)
  | .park a => some (encW 4 6 0 0 a 0)
  | .mig d a => some (encW 4 7 0 d a 0)
  | .sendHi n t a l => some (encW 4 (4 + n.val) 1 t a l)
  | .sendLo n t a l => some (encW 4 n.val 1 t a l)
  | .recv n d a => some (encW 4 n.val 2 d a 0)
  | .recvn n d a => some (encW 4 (4 + n.val) 2 d a 0)
  | .bar a b => some (encW 4 0 3 0 a b)
  | .barFab a b => some (encW 4 1 3 0 a b)
  | .cgjoin d a b => some (encW 4 0 4 d a b)
  | .cgleave => some (encW 4 1 4 0 0 0)
  | .cbfence => some (encW 4 2 4 0 0 0)
  | .cbrAny pt d off => encCbr 0 pt d off
  | .cbrAll pt d off => encCbr 1 pt d off
  | .cbrMaj pt d off => encCbr 2 pt d off
  | .mjob n d a b => some (encW 5 0 0 d a b (encStall n))
  | .mmul d a b => some (encW 5 1 0 d a b)
  | .mload n d a b => some (encW 5 2 0 d a b (encStall n))
  | .mloadSp n d a b => some (encW 5 3 0 d a b (encStall n))
  | .mfree n d a => some (encW 5 4 0 d a 0 (encStall n))
  | .mrow d a b => some (encW 5 5 0 d a b)
  | .cjob n d a b => some (encW 5 0 1 d a b (encStall n))
  | .cstep n d a b => some (encW 5 0 2 d a b (encStall n))
  | .prd n d a b => some (encW 5 0 3 d a b (encStall n))
  | .prdsel n d a => some (encW 5 1 3 d a 0 (encStall n))
  | .rowadd n d a b => some (encW 5 0 4 d a b (encStall n))
  | .rowcommit n d a b => some (encW 5 1 4 d a b (encStall n))
  | .rowpause n d a b => some (encW 5 2 4 d a b (encStall n))
  | .jwait d a => some (encW 5 0 5 d a 0)
  | .jpoll n d a => some (encW 5 1 5 d a 0 (encStall n))
  | .mfc d c => some { page := 6, xr := encX4 d 0 0, maj := 0, lo := d.val % 16 * 256 + c.code }
  | .mtc c r => some { page := 6, xr := encX4 r 0 0, maj := 1, lo := r.val % 16 * 256 + c.code }
  | .eret => some (encW 6 0 2 0 0 0)
  | .halt => some (encW 6 1 2 0 0 0)
  | .snap => some (encW 6 2 2 0 0 0)
  | .tlbinv a b => some (encW 6 3 2 0 a b)
  | .trap c => some { page := 6, maj := 3, lo := c.val }
  | _ => none
where
  /-- Format K of the collective branches. -/
  encCbr (kind : Nat) (pt : Bool) (d : XReg) (off : Int) : Option Pre :=
    some { page := 4, sub := pt.toNat * 4 + kind, xr := encX4 d 0 0, xi := encXi 8 off, maj := 5,
           lo := d.val % 16 * 256 + encBase 8 off }

/-- The prefix parcels of a chain in the order XP, XR, XS, XI, then the base parcel (R71). -/
def emit (p : Pre) : List Nat :=
  (if p.page = 0 then [] else [0xF000 + p.page * 128 + p.sub]) ++ (p.xr.map (0xF400 + ·)).toList
    ++ (p.xs.map (0xF800 + ·)).toList ++ p.xi.map (0xFC00 + ·) ++ [p.maj * 4096 + p.lo]

/-- The parcels of an instruction, as numbers below 2^16. -/
def encode (i : Instr) : List Nat :=
  match toPre i with
  | some p => emit p
  | none => []

/-! ## Bytes and the words of the opcode table -/

/-- Parcels as bytes, each little-endian (R67). -/
def parcelBytes : List Nat → List Byte
  | [] => []
  | w :: ws => BitVec.ofNat 8 w :: BitVec.ofNat 8 (w / 256) :: parcelBytes ws

/-- Bytes as parcels; a last single byte is no parcel. -/
def bytesParcels : List Byte → List Nat
  | b0 :: b1 :: bs => (b0.toNat + 256 * b1.toNat) :: bytesParcels bs
  | _ => []

/-- The `n` parcels of a word of the table, first parcel in the low bits. -/
def splitWord : Nat → Nat → List Nat
  | 0, _ => []
  | n + 1, w => w % 65536 :: splitWord n (w / 65536)

/-- The parcels of a table word of `nbits` bits. The table writes its 32-bit rows with the prefix parcel above the base
parcel; both orders are read: the word is turned where only its last parcel is a prefix. -/
def tableParcels (nbits w : Nat) : List Nat :=
  let ps := splitWord (nbits / 16) w
  if (ps.getLastD 0) / 4096 = 15 ∧ (ps.headD 0) / 4096 ≠ 15 then ps.reverse else ps

/-- The instruction the decoder reads from a table word. -/
def decodeTableWord (nbits w : Nat) : Option Instr :=
  match decode (bytesParcels (parcelBytes (tableParcels nbits w))) with
  | .ok i _ => some i
  | _ => none

end Sys2Proof
end

