-- ==== Sys2Proof/Config.lean ====
section
/-! DEFINITION. What the manual leaves open or takes from outside it: every constant here is opaque, without a body,
so no proof can see a value of it (assumption log entries 3, 6, 7, 8, 65, 68, 72, 79, 88, 90, 91). -/

namespace Sys2Proof.Config

/-- Whether a TLB still holds a translation that differs from the page table (R121: replacement is not architectural);
the argument is the free-value counter of the state. Log entry 3. -/
opaque tlbKeeps : Nat → Bool

/-- The collective engine that makes the accesses of a chain (R8, R121: each has a TLB of its own): the context tag and the
cycle of its command. Log entry 88. -/
opaque stepEngine : Nat → Nat → Nat

/-- The cycles between the issue of a tagged load and its return (R142: land order depends on timing alone); the argument is
the free-value counter. Log entry 65. -/
opaque flight : Nat → Nat

/-- Whether a sector of a peer line is evicted when another one is filled (R173: eviction is timing-dependent): free-value
counter, sector. Log entry 68. -/
opaque evicts : Nat → Nat → Bool

/-- Whether a request or a write that goes to the home of a peer address is turned away behind this package: a later hop has
no route, or the home refuses the tenant (R244, R245); the argument is the free-value counter. Log entry 90. -/
opaque turnedAway : Nat → Bool

/-! Where two rules of the spec say different things and nothing says which prevails, either may hold. Log entry 91. -/

/-- Whether a wrong type of c.fmt comes before every other condition of an engine command (R85), or in its place in the list
of the command's entry (R235, R357, R364). -/
opaque typeFirst : Bool

/-- Whether c.tval of a poisoned full/empty word is the address of the word (R347), or the first address of its granule (R139,
R271). -/
opaque feWordAddress : Bool

/-- Whether the trap channel makes a core wait with a record (R274: a core that cannot send a record holds it); the
argument is the free-value counter. Log entry 72. -/
opaque recordWaits : Nat → Bool

/-- The cycles between the save and the restore of a migration (R282 gives none); the argument is the free-value counter. Log
entry 79. -/
opaque moveTime : Nat → Nat

/-- The authentication tag of a 64-byte block: tenant of the key, block, major and minor counter, bytes (R136). Log entry 7. -/
opaque authTag : Nat → Nat → Nat → Nat → List Byte → BitVec 56

/-- The key of a link direction, installed by its latest training (R240: keys are never visible): port, direction (true:
outgoing), trainings so far. Log entry 7. -/
opaque linkKey : Nat → Bool → Nat → BitVec 256

/-- The AES-256-GCM tag of a frame (R239, R240): key, port, direction, SEQ and the other trailer fields, the flits. Log
entry 7. -/
opaque frameTag : Nat → Nat → Bool → List Nat → List (Nat × Byte) → List Byte → BitVec 128

/-- Whether an Ed25519, or an ML-DSA-65, signature of a message verifies under a public key (R303): key, message, signature.
Log entry 7. -/
opaque edVerifies : List Byte → List Byte → List Byte → Bool
opaque mlVerifies : List Byte → List Byte → List Byte → Bool

/-- A byte of the vendor keys of the boot ROM (R303): the Ed25519 key in bytes 0 to 31, the ML-DSA-65 key behind it. Log
entry 7. -/
opaque vendorKey : Nat → Byte

/-- A byte of a block read under another tenant's key while ENCMETA is not accepted (R137: unrelated bytes): address,
writing tenant, reading tenant, free-value counter. Log entry 6. -/
opaque otherKeyByte : Nat → Nat → Nat → Nat → Byte

/-- SHA-384 of a list of bytes (R303, R308), 48 bytes by index. Log entry 7. -/
opaque sha384 : List Byte → Nat → Byte

/-- A byte of the device identity public keys of IDKEY (R300). Log entry 7. -/
opaque identityKey : Nat → Byte

/-- A byte of the two signatures over the first 512 bytes of a job record (R308). Log entry 7. -/
opaque recordSignature : List Byte → Nat → Byte

/-- The state a mailbox notice names as its sender (R274 names none): a context tag. Log entry 8. -/
opaque noticeSender : Nat → Nat

end Sys2Proof.Config
end

