-- ==== Sys2Proof/Machine/State.lean ====
section
/-! DEFINITION. The state of the machine as plain data, and the state right after reset. Field comments name the rule of
the spec that gives the field; the log entries named are rows of notes/assumptions. -/

namespace Sys2Proof.Machine

/-- Why the machine stops. `noSuchUnit`: raised by an event whose payload names a core, context, cluster, channel or
port that the package does not have, so no step of the hardware. Safe. -/
inductive Fault where
  | noSuchUnit (event : String)
  deriving DecidableEq, Repr

/-- Why an instruction has no meaning. `notModelled`: raised by an arm of the dispatch that has no meaning yet. Safe. -/
inductive Refusal where
  | notModelled (mnemonic : String)
  deriving DecidableEq, Repr

/-- A finite map by number, keys ascending without repeats; an absent key reads as the default of its reader. -/
abbrev FMap (α : Type) := List (Nat × α)

/-- Memory: bytes by physical address, addresses strictly rising, no entry equal to what an unlisted address reads as. -/
abbrev Memory := List Host.Cell

/-! ## Contexts -/

/-- The states of a slot (R36). -/
inductive SlotState where
  | empty | launching | ready | parked | halted | scrubbed
  deriving DecidableEq, Repr

/-- A register named by an instruction, with its file (R44). -/
inductive RegRef where
  | x (r : Nat)
  | v (r : Nat)
  | k (r : Nat)
  deriving DecidableEq, Repr

/-- A result write: a scalar or mask register whole, a vector register in the bits of a mask (R388). -/
inductive RegWrite where
  | x (r : Nat) (v : Word)
  | v (r : Nat) (mask value : VecReg)
  | k (r : Nat) (v : MaskReg)
  deriving DecidableEq, Repr

/-- A fixed-latency write that lands at the cycle `due` (R43). -/
structure PendWrite where
  due : Nat
  write : RegWrite
  deriving DecidableEq, Repr

/-- A trap: cause, INFO and c.tval (R94, R271). -/
structure TrapInfo where
  cause : Nat
  info : Nat := 0
  tval : Word := 0
  deriving DecidableEq, Repr

/-- The register c.cg (R259) with the MAP address that `cgjoin` keeps (R260). -/
structure Cg where
  valid : Bool := false
  fab : Bool := false
  pend : Bool := false
  res : Bool := false
  out : Bool := false
  group : Nat := 0
  count : Nat := 0
  index : Nat := 0
  map : Word := 0
  deriving DecidableEq, Repr

/-- The control registers that a context holds as words (R86), each 64 bits. -/
structure CRegs where
  fmt : Word := 0
  scl : Word := 0
  seed : Word := 0
  stl : Word := 0
  dist : Word := 0
  lsmode : Word := 0
  lslog : Word := 0
  cgdl : Word := 0
  bardl : Word := 0
  tvec : Word := 0
  epc : Word := 0
  cause : Word := 0
  tval : Word := 0
  ffneps : Word := 0
  ffnviol : Word := 0
  deriving DecidableEq, Repr

/-- A message of 1 to 64 bytes (R63, R284). -/
structure Msg where
  sender : Nat
  dest : Nat            -- the tag it is addressed to
  ch : Nat
  hi : Bool
  data : List Byte
  via : List (Nat × Nat) := []  -- forwarding entries passed, old and new tag (R283)
  at_ : Nat := 0                -- first cycle in which it can be placed
  granted : Bool := false       -- a freed place is granted to it (R64)
  done : Bool := false          -- its `send` has completed
  reserve : Bool := false       -- it holds the core's reserve entry (R285)
  deriving DecidableEq, Repr

/-- What a tagged load loads (R140). -/
inductive LKind where
  | scalar (sz : Sz)
  | vector
  | row
  deriving DecidableEq, Repr

/-- The states of a non-empty landing-set entry (R140). -/
inductive LState where
  | inFlight | landed | faulted | poisoned
  deriving DecidableEq, Repr

/-- A translated piece of an access: virtual and physical address, whether its page is NC, bytes. -/
structure Piece where
  va : Word
  pa : Nat
  nc : Bool := false
  n : Nat
  deriving DecidableEq, Repr

/-- A landing-set entry that is not empty (R140 to R142). An in-flight load keeps the translation of its issue (R386);
its data is read when it returns, and the entry settles once the landing port grants it (R143). -/
structure LEntry where
  st : LState
  kind : LKind
  addr : Word
  vreg : Nat := 0
  num : Nat                     -- issue sequence number (R141)
  seq : Nat := 0                -- place in program order against stores (R166 items 4, 5)
  at_ : Nat := 0                -- cycle it settled in; land order is by this cycle, then by tag (R142)
  place : Option Nat := none    -- place in land order that RESTORE gave it, ahead of what settles later (R159)
  value : Word := 0
  cause : Nat := 0              -- recorded cause of a faulted entry
  granule : Nat := 0            -- first poisoned granule
  ps : List Piece := []         -- the translated load
  due : Nat := 0                -- first cycle in which its return can reach the core (log entry 65)
  got : Option Nat := none      -- cycle in which its return reached the core; it waits for the landing port (R143)
  data : List Byte := []        -- the data of that return
  bad : Option Nat := none      -- the poisoned granule of that return
  deriving DecidableEq, Repr

/-- A store that is not performed yet: held in the store path or as a run-ahead store (R128, R166, R263). -/
structure Store where
  pa : Nat
  data : List Byte
  nc : Bool := false            -- posted (R175)
  atHome : Bool := false        -- `.rl.sy` to a peer line (R174)
  rlSy : Bool := false          -- a system-scope release (R129)
  seq : Nat := 0                -- place in program order against tagged loads (R166 items 4, 5)
  fence : Option Bool := none   -- a fence in the path, no store: true for `fence.sy` (R167, R334)
  deriving DecidableEq, Repr

/-- The packet forms (R50, R289). -/
inductive SpawnKind where
  | spawn | twin | spawnd | fork
  deriving DecidableEq, Repr

/-- The full/empty operations (R125). -/
inductive FeOp where
  | ldfe | ldff | stfe | stff | purge
  deriving DecidableEq, Repr

/-- What a parked context waits for, with what its instruction still has to do (R45). -/
inductive Wait where
  -- wake source 1
  | load (sz : Sz) (aqSy : Bool) (d : Nat) (p : Piece)
  | vload (d : Nat) (ps : List Piece)
  | gather (ty : Ty) (d : Nat) (ps : List Piece)
  | flrd (va : Word) (pa : Nat)
  | amo (op : AmoOp) (w aqSy rlSy : Bool) (d : Nat) (v c : Word) (p : Piece)
  | packet (kind : SpawnKind) (p : Piece) (targets : List Nat)
  | sendRead (dest ch : Nat) (hi : Bool) (ps : List Piece)
  | mig (d : Option Nat) (target : Nat)         -- no result register: moved by a touch (R62)
  -- wake source 2
  | recv (ch d : Nat) (va : Word)
  | watch (mask : Nat)
  -- wake source 3
  | fe (op : FeOp) (sy : Bool) (reg : Nat) (value : Word) (va : Word) (pa : Nat)
  -- wake source 4
  | take (d t : Nat) (issued : Nat)
  | takex (d e : Nat) (issued : Nat)
  -- wake source 5
  | job (id d : Nat)
  | submit (d : Nat)                            -- `mmul` or `mrow` whose command waits for acceptance
  | jwait (sel : Word) (d : Nat)
  | quitJobs
  -- wake source 6
  | join (va : Word) (pa : Nat) (seen : Bool)          -- whether the word has been read and was not zero
  -- wake source 7
  | bar (fab : Bool) (id n : Nat) (gen : Option Nat)   -- no generation until the arrival is made
  -- wake source 8
  | quitVote
  | quitEnd                                     -- `quit` past its waits: stores, then the decrement
  | quitTwin                                    -- its decrement waits for the comparator (R290)
  | quitGone (at_ : Nat)                        -- the slot empties in this cycle
  | cbfence
  | runAhead                                    -- parked by R263: issued again after resolution
  | deferred (t : TrapInfo)                     -- a trap deferred by R263
  -- wake source 9
  | space
  deriving DecidableEq, Repr

/-- The engine commands (R82, R199, R235, R249, R131). -/
inductive JobOp where
  | mjob | mmul | mload | mloadSp | mfree | mrow | cjob | cstep | prd | prdsel | rowadd | rowcommit | rowpause
  deriving DecidableEq, Repr

/-- A command with what is captured at its issue (R201, R235, R331, R356). -/
structure Cmd where
  op : JobOp
  tag : Nat                                     -- context tag of the issuer
  tenant : Nat
  priv : Bool := false                          -- level of the issuer: the level of its accesses (log entry 19)
  stall : Nat := 0
  d : Nat                                       -- reply register, 0 none
  xa : Word
  xb : Word
  cr : CRegs
  cg : Cg := {}
  issued : Nat := 0
  members : BitVec 1024 := 0                    -- the membership bitmap as of the issue (R246)
  unit : Option Nat := none                     -- the memory-side unit whose TLB its accesses use (R121)
  waited : Bool := false                        -- it has waited for a queue place, a job record or a recalled read (R416)
  deriving DecidableEq, Repr

/-- What holds the next issue until an event without a fixed time (R416). -/
inductive OpenHold where
  | reply                                       -- an engine command waiting for acceptance
  | row (c : Cmd)                               -- a memory-side-unit command waiting for its reads (R369)
  | tlbAck (a b : Word)
  | descriptor (d : Nat) (p : Piece) (index : Word)     -- `cgjoin`
  | logByte (d t : Nat)                         -- `taken` in replay
  | vrfree (first count : Nat)
  | split
  | vpool
  deriving DecidableEq, Repr

/-- A job fault (R215) with the INFO detail of KIND 0x0B (R214). -/
structure JFault where
  kind : Nat
  addr : Nat := 0
  info : Nat := 0
  deriving DecidableEq, Repr

/-- A job record of a context (R203). -/
structure JobRec where
  id : Nat
  order : Nat                   -- acceptance order
  doneAt : Option Nat := none   -- cycle of its completion
  fault : Option JFault := none
  deriving DecidableEq, Repr

/-- The checkpoint of a collective branch (R262). -/
structure Checkpoint where
  x : Vector Word 32
  k : Vector MaskReg 8
  hold : Nat                    -- end of the stall hold
  pend : List PendWrite := []   -- writes outstanding at the cbr
  cbr : Word                    -- address of the cbr
  next : Word
  label : Word
  predicted : Bool
  deriving DecidableEq, Repr

/-- A task packet on its way or on a deque (R48). -/
structure Packet where
  bytes : List Byte
  rank : Nat := 0                               -- place among the arrivals of a cycle (R55)
  pair : Option (Nat × Bool) := none            -- twin pair (R289)
  deriving DecidableEq, Repr

/-- A packet that the hardware deque does not hold (R56): its band, its place in the core's spill ring, where it was written
there, and the packet itself where the ring could not take it (log entry 47). -/
structure Spilled where
  urgent : Bool
  place : Nat := 0
  pa : Option Nat := none
  pkt : Packet
  deriving DecidableEq, Repr

/-- A context and its slot (R36, R37). -/
structure Ctx where
  slot : SlotState := .empty
  inc : Nat := 0                                -- incarnation (R38)
  pc : Word := 0
  next : Word := 0                              -- address after the base parcel (R309)
  base : Nat := 0                               -- base parcel of the issuing instruction (R84)
  index : Nat := 0                              -- its index in the instruction
  x : Vector Word 32 := Vector.replicate 32 0
  k : Vector MaskReg 8 := Vector.replicate 8 0
  v : FMap VecReg := []                         -- claimed vector registers
  cr : CRegs := {}
  cg : Cg := {}
  twin : Bool := false                          -- c.status TWIN
  ppriv : Bool := false
  priv : Bool := false
  join : Word := 0                              -- JOIN address (R49)
  hold : Nat := 0                               -- first cycle at which the stall hold has expired (R42)
  openHold : Option OpenHold := none
  lastIssue : Option Nat := none
  readyAt : Nat := 0                            -- first cycle in which a woken context may issue (R46)
  pend : List PendWrite := []
  replies : List PendWrite := []                -- replies of engine commands that are not accepted yet, with the id unknown
  wait : Option Wait := none
  parkedAt : Nat := 0
  landing : FMap LEntry := []                   -- landing set, by tag
  issueCtr : Nat := 0
  seq : Nat := 0                                -- program-order place of the next store or tagged load
  mailbox : FMap (List Msg) := []               -- by channel * 2 + HI, oldest first
  highRun : FMap Nat := []                      -- consecutive high takes that found both non-empty, by channel
  blocked : List (Nat × Nat) := []              -- mailbox, tag of the blocked sender, in order of arrival
  inbox : List Nat := []                        -- places of the inbox buffer that RESTORE left there, in order (R284)
  held : Option Msg := none                     -- the message of a send that has read it (R275)
  heldAt : Word := 0                            -- address of that send
  jobs : List JobRec := []
  cp : Option Checkpoint := none                -- SPEC = 1 exactly when it is held
  spec : List Store := []                       -- run-ahead stores, oldest first
  stores : List Store := []                     -- store path with its fences, oldest first
  barTimer : Option Nat := none                 -- cycle at which a running deadline expires (R256)
  cgTimer : Option Nat := none
  cbrAt : Option Word := none                   -- address of the `cbr` issued last in this slot (R264, R265)
  barLeft : Option Nat := none                  -- time left of a frozen deadline
  cgLeft : Option Nat := none
  former : List Nat := []                       -- former tags, most recent first (R280)
  launch : Option Packet := none                -- the packet of a launching slot (R49)
  launchEnd : Nat := 0
  restart : Nat := 0                            -- row of R275 of a halted context, 0 none
  again : Option (Nat × Nat × Word) := none     -- row, recorded generation or job, and address of an interrupted form (R275)
  gangHalted : Bool := false                    -- halted by a gang stop (R278)
  haltPending : Bool := false                   -- a command that waits to halt the context (R275, R416)
  stopPending : Bool := false                   -- a gang stop that waits likewise
  pair : Option (Nat × Bool) := none            -- twin pair and whether this is its primary (R289)
  probed : Option Nat := none                   -- cycle from which the next deadlock probe counts (R285)
  deriving DecidableEq, Repr

/-! ## Cores, clusters, tenants -/

/-- A forwarding entry (R283). -/
structure Forward where
  new : Option Nat := none                      -- the new tag, once it is set
  used : Nat                                    -- cycle of its last use
  deriving DecidableEq, Repr

/-- A save, a migration or a waiting restore in progress (R280, R282). -/
structure Save where
  slot : Nat                                    -- 16 once the slot has been saved, and for a restore
  image : Nat
  target : Option Nat := none                   -- target core of MIGRATE or RESTORE
  restore : Option Nat := none                  -- its restore has still to be made, no earlier than this cycle
  into : Option Nat := none                     -- the slot of the target that a migration keeps free for its restore
  claims : Nat := 0                             -- the vector registers of the target that it keeps free
  started : Nat := 0
  progress : Nat := 0                           -- cycle of the last progress (R287)
  deriving DecidableEq, Repr

/-- Latched snapshot registers of a core (R306). -/
structure CoreSnap where
  seq : Nat := 0
  cycle : Nat := 0
  sent : Nat := 0
  recv : Nat := 0
  slots : Nat := 0
  deriving DecidableEq, Repr

/-- A trap record (R272). -/
structure TrapRec where
  cause : Nat
  info : Nat
  row : Nat
  count : Nat := 1
  cores : Nat                                   -- bitmap by column
  tval : Word
  epc : Word
  tag : Nat
  flags : Nat
  cycle : Nat
  join : Word := 0
  core : Nat := 0                               -- core of the first trap, for the merge rule (R273)
  deriving DecidableEq, Repr

/-- A core (R38, R39, R55, R276). -/
structure Core where
  rot : Bool := false                           -- c.rot MODE
  lend : Bool := false                          -- the mode in force (R39)
  spad : Nat := 8                               -- c.split SPAD
  urgent : List Packet := []                    -- urgent band, top first
  normal : List Packet := []
  spilled : List Spilled := []                  -- most recently spilled first
  ni : List Packet := []                        -- packets waiting at the network interface
  urgentRun : Nat := 0                          -- preceding takes that came from the urgent band
  tookAt : Option Nat := none                   -- cycle of the last take (R58)
  spillAt : Option Nat := none                  -- cycle of the last return of a spilled packet (R56)
  stealAt : Option Nat := none                  -- core to probe next
  stealFrom : Nat := 0                          -- first cycle of the next probe
  backoff : Option Nat := none                  -- end of the back-off of R59
  forwards : FMap Forward := []                 -- by old tag
  tagCache : List (Nat × Nat) := []             -- old tag, new tag, most recently used first (R283)
  stat : Nat := 0                               -- STAT [1:0]
  reason : Nat := 0                             -- STAT [15:8]
  image : Word := 0
  stopCyc : Nat := 0
  sent : Nat := 0                               -- MSGSENT
  recv : Nat := 0                               -- MSGRECV
  reserve : Option (Nat × Nat) := none          -- the reserve entry: slot and mailbox that hold it (R285)
  stopped : Bool := false                       -- under a gang stop
  saving : Option Save := none
  recs : List TrapRec := []                     -- records that the core could not send yet, oldest first (R274)
  snap : CoreSnap := {}
  landed : Nat := 15                            -- slot granted last by the landing port (R143)
  landUsed : Nat × Nat := (0, 0)                -- cycle and grants of the landing port in it
  deriving DecidableEq, Repr

/-- A cluster counter barrier (R254). -/
structure Barrier where
  count : Nat := 0
  n : Nat := 0
  gen : Nat := 0
  cores : Nat := 0                              -- arrival bitmap by cluster core
  waiters : List Nat := []                      -- context tags
  deriving DecidableEq, Repr

/-- A resident operand handle (R204): its B matrix by rows of E4M3 codes and the B scales. -/
structure Handle where
  k : Nat
  n : Nat
  sparse : Bool
  elems : List Byte                             -- row-major, k * n bytes, zeros at dropped positions
  scales : List (BitVec 32)                     -- row-major, k / 128 by ⌈n / 128⌉
  macros : List Nat
  deriving DecidableEq, Repr

/-- An operand cache entry: one A row-block (R211). -/
structure CacheRow where
  pas : List (Nat × Nat)                        -- its physical addresses: one, or two across a page boundary
  gen : Nat
  data : List Byte
  deriving DecidableEq, Repr

/-- Ownership of a range of physical addresses (R128). -/
structure Own where
  excl : Bool
  va : Nat := 0                                 -- the virtual address of its first byte
  lo : Nat
  hi : Nat
  deriving DecidableEq, Repr

/-- An accepted job (R201 to R203). -/
structure Job where
  id : Nat
  order : Nat
  cmd : Cmd
  owns : List Own := []
  bad : Option (Nat × JFault) := none           -- the address of the record whose acceptance read failed, and the fault (R128)
  lost : List Nat := []                         -- granules that a peer package has answered with poison (R244)
  deriving DecidableEq, Repr

/-- What a job leaves when it completes. -/
structure Result where
  writes : List Store := []                     -- in the order written
  poison : List Nat := []                       -- granules that become poisoned
  clean : List Nat := []                        -- granules whose bit is cleared
  fault : Option JFault := none
  handle : Option (Nat × Option Handle) := none -- a handle that becomes resident or free
  viol : Nat := 0                               -- violations found (R233)
  deriving DecidableEq, Repr

/-- A running job (R202, R210, R418). -/
structure Running where
  job : Job
  start : Nat
  waiting : Bool := true                        -- the data that it reads has not arrived
  delay : Nat := 0                              -- cycles that its passes have waited so far (R210, R418)
  lists : Option Nat := none                    -- the cycle after that in which an `mrow` has read its lists (R230)
  pauses : FMap Nat := []                       -- cycles waited, by the work that was done before
  due : Nat := 0
  res : Result := {}
  rounds : List Nat := []                       -- cycles in which the row rounds still to come are requested (R230)
  deriving DecidableEq, Repr

/-- The queue of an engine (R201). -/
structure Queue where
  waiting : List Cmd := []                      -- commands at the cores, in issue order
  queue : List Job := []                        -- accepted, oldest first
  last : Option Nat := none                     -- core accepted last
  acceptedAt : Option Nat := none               -- cycle of the last acceptance
  deriving DecidableEq, Repr

/-- An engine with its running job (R202). -/
structure Engine extends Queue where
  run : Option Running := none
  deriving DecidableEq, Repr

/-- A cluster (R254, R204, R211, R201, R116). -/
structure Cluster where
  vpool : Nat := 0
  bars : FMap Barrier := []
  handles : FMap Handle := []
  gen : Nat := 0
  cache : List CacheRow := []                   -- most recently used first
  jobId : Nat := 0
  clove : Engine := {}
  copy : Engine := {}
  sumac : Engine := {}
  snap : List Nat := List.replicate 8 0         -- SEQ, Clove, copy unit, Sumac, then its memory-side units (R306)
  deriving DecidableEq, Repr

/-- Counts of the job record (R308). -/
structure Counts where
  poison : Nat := 0
  twin : Nat := 0
  calib : Nat := 0
  trap : Nat := 0
  msgs : Nat := 0
  stores : Nat := 0
  lost : Nat := 0
  deriving DecidableEq, Repr

/-- The audited job of a tenant (R307, R308). -/
structure AuditJob where
  jobid : Word := 0
  codebase : Word := 0
  codelen : Word := 0
  stat : Nat := 0
  refused : Bool := false                       -- the last command was refused: STAT reads 4
  beginning : Bool := false                     -- a BEGIN waits for sectors of its code image (R128)
  beginCycle : Nat := 0
  hash : List Byte := []
  pendingRec : List Byte := []                  -- the frozen record before it is signed
  record : List Byte := []                      -- RECORD; an absent byte reads 0
  deriving DecidableEq, Repr

/-- A tenant (R270, R304): its rectangle in clusters, page-table root, registers and collectors. -/
structure Tenant where
  cx0 : Nat := 0
  cy0 : Nat := 0
  cw : Nat := 0
  ch : Nat := 0
  root : Nat := 0
  steal : Word := 0
  twin : Word := 0
  dvec : Word := 0
  ringbase : Word := 0
  ringlog : Word := 0
  head : Nat := 0
  tail : Word := 0
  monitor : Word := 0
  wdog : Word := 0
  inbox : Word := 0
  dlarea : Word := 0
  lostRecs : Nat := 0
  lostMsgs : Nat := 0
  members : BitVec 1024 := 0
  held : FMap (List TrapRec) := []              -- records held by the collector of a mesh row
  counts : Counts := {}
  audit : AuditJob := {}
  dlCount : Nat := 0
  deriving DecidableEq, Repr

/-! ## Memory beside the bytes -/

/-- A byte of a peer sector held in the package (R129, R173). -/
structure PeerByte where
  v : Byte
  dirty : Bool
  tenant : Nat
  deriving DecidableEq, Repr

/-- A translation held by a TLB (R121). -/
structure TlbEntry where
  unit : Nat                                    -- the TLB that holds it (`coreTlb`, `clusterTlb`, `collTlb`, `msuTlb`)
  tenant : Nat
  vpage : Nat                                   -- va / 65536
  ppage : Nat                                   -- pa / 65536
  pte : Word                                    -- the leaf entry, for its permission bits
  level : Nat := 0                              -- level of the leaf, for the size of its page
  deriving DecidableEq, Repr

/-- A waiting full/empty request (R126). -/
structure FeReq where
  tag : Nat
  op : FeOp
  value : Word
  deriving DecidableEq, Repr

/-- The writes of a job that has completed, held by an earlier job, a pending sector or a re-encryption: they keep its
ownership of their sectors until they are performed (R177, R210; log entry 89). -/
structure Late where
  job : Job                                     -- its ownership is that of its writes
  res : Result
  deriving DecidableEq, Repr

/-- A write-back, or invalidation, of a peer sector that waits: for an engine job, for an earlier store of its context, for
the link to the home (R327). -/
structure Maint where
  tag : Nat                                     -- the context that asked for it
  seq : Nat                                     -- its place in program order
  lo : Nat
  hi : Nat
  drop : Bool
  deriving DecidableEq, Repr

/-- A posted store (R175). -/
structure Posted where
  tag : Nat
  tenant : Nat
  dest : Nat
  addr : Nat
  data : List Byte
  deriving DecidableEq, Repr

/-! ## Fabric, Anise, collective engines, memory-side units -/

/-- A vote on its way to Anise (R262). -/
structure Vote where
  voter : Option Nat := none    -- context tag of a voter of this package
  tenant : Nat
  group : Nat
  index : Nat
  count : Nat
  kind : VoteKind
  vote : Bool
  fab : Bool := false           -- a vote of this package in a group across packages: it still has to be sent to them
  deriving DecidableEq, Repr

/-- An open vote round (R248, R264). -/
structure Round where
  tenant : Nat
  group : Nat
  count : Nat
  kind : VoteKind
  votes : List Vote
  deriving DecidableEq, Repr

/-- An outcome, or a refusal, that has not reached its member yet (R264). -/
structure Verdict where
  member : Nat                  -- context tag
  taken : Bool
  refused : Bool := false
  deriving DecidableEq, Repr

/-- A barrier of a group (R254). -/
structure GroupBar where
  tenant : Nat
  group : Nat
  bar : Nat
  n : Nat := 0
  gen : Nat := 0
  arrived : List Nat := []                      -- indices
  waiters : List Nat := []                      -- context tags
  deriving DecidableEq, Repr

/-- A probe on its way (R285). -/
structure Probe where
  origin : Nat
  tenant : Nat
  path : List Nat
  recv : Bool
  at_ : Nat                                     -- the tag it goes to
  deriving DecidableEq, Repr

/-- A moved notice (R283). -/
structure Moved where
  core : Nat
  old : Nat
  new : Nat
  deriving DecidableEq, Repr

/-- A ready notice of a partner (R251). -/
structure Notice where
  tenant : Nat
  peer : Nat
  tag : Nat
  count : Nat
  ty : Nat
  deriving DecidableEq, Repr

/-- Where the open step of a chain stands (R251, R252). -/
inductive Phase where
  | start | notice | data | anise | done
  deriving DecidableEq, Repr

/-- The running chain of the collective engines (R249 to R253). -/
structure Chain where
  job : Job
  step : Nat                                    -- number of the open step
  desc : Nat                                    -- virtual address of its descriptor
  phase : Phase
  since : Nat                                   -- cycle from which the partner wait counts; its length while frozen
  wrote : Bool := false                         -- DST is written
  acked : Bool := false                         -- the partner has acknowledged
  cancelled : Bool := false                     -- stops at the next step boundary (R277, R281)
  fault : Option JFault := none                 -- fault with which it completes at `due`
  due : Nat := 0
  deriving DecidableEq, Repr

/-- What a member of a group gave for a group operation (R252). -/
structure Given where
  tenant : Nat
  group : Nat
  tag : Nat
  index : Nat
  op : Nat
  values : List Nat
  here : Bool := false                          -- a member of this package
  taken : Bool := false                         -- whose chain has had the result
  deriving DecidableEq, Repr

/-- The collective engines (R249). -/
structure Coll extends Queue where
  run : Option Chain := none
  notices : List Notice := []
  given : List Given := []
  frozen : Bool := false                        -- partner waits frozen by a gang stop (R278)
  deriving DecidableEq, Repr

/-- A table as a command finds it (R130). -/
structure TableRange where
  desc : Nat                                    -- physical address of its descriptor, which names the table
  base : Nat
  rows : Nat
  rbytes : Nat
  deriving DecidableEq, Repr

/-- A row command of another package on a table here (R369): the package, its job id, the update record. -/
structure RemoteRow where
  package : Nat
  job : Nat
  record : List Byte
  deriving DecidableEq, Repr

/-- A look-up that a pause holds at a unit: the load of a parked context, a tagged load by its issue number, or the read of
another package. -/
structure LookUp where
  tag : Nat := 0
  parked : Option Nat := none                   -- cycle in which the context parked
  entry : Option Nat := none
  msg : Option FabMessage := none
  deriving DecidableEq, Repr

/-- A job of the memory-side units (R369). -/
structure MsuJob where
  job : Job
  table : TableRange
  row : Nat := 0                                -- ROW and SEQ of a `rowadd`
  seq : Nat := 0
  channel : Option Nat := none                  -- the unit of the row; none for a command to every unit of the table
  slot : Option Nat := none                     -- the staging slot that it owns (R370)
  remote : Option RemoteRow := none
  due : Option Nat := none                      -- cycle in which the units have finished
  fault : Option JFault := none
  after : List LookUp := []                     -- look-ups that a pause held at the unit as it arrived (R134)
  deriving DecidableEq, Repr

/-- A paused table (R134), by the fields of its descriptor. -/
structure PausedTable where
  tenant : Nat
  desc : Nat                                    -- physical address
  base : Nat
  bytes : Nat
  deriving DecidableEq, Repr

/-- A table that the units know from a command on it (R130, R135). -/
structure KnownTable where
  tenant : Nat
  desc : Nat                                    -- physical address
  base : Nat
  rows : Nat
  rbytes : Nat
  hot : Bool
  hotn : Nat
  deriving DecidableEq, Repr

/-- A filled staging slot (R369): its table, channel and number. What it holds lies in memory. -/
structure Staged where
  desc : Nat
  channel : Nat
  slot : Nat
  deriving DecidableEq, Repr

/-- A hot row (R135): its physical address, look-ups counted in the window, and its replica. -/
structure HotRow where
  pa : Nat
  bytes : Nat
  hotn : Nat
  count : Nat := 0
  copying : Bool := false
  replica : Bool := false
  since : Nat := 0
  deriving DecidableEq, Repr

/-- The memory-side units (R130 to R135). -/
structure Msu where
  jobs : List MsuJob := []
  tables : List KnownTable := []
  paused : List PausedTable := []
  staged : List Staged := []
  hot : List HotRow := []
  deriving DecidableEq, Repr

/-- One Shoari port (R239 to R243). -/
structure Port where
  inService : Bool := false
  degraded : Bool := false
  retired : Bool := false
  retry : List Frame := []                      -- frames handed to the port and not acknowledged, at most 128
  onLink : List (Frame × BitVec 128) := []      -- those of them sent since the link last trained, in order, with their TAGs
  pend : List Frame := []                       -- frames behind them that the retry buffer has no room for
  keys : Nat := 0                               -- trainings so far: the number of the link's keys (R240)
  seqOut : Nat := 0
  seqIn : Nat := 0
  failed : Nat := 0                             -- failed frames, PORTINT
  fails : Nat := 0                              -- failures of the frame seqIn
  ownRec : Option TrainRecord := none
  otherRec : Option TrainRecord := none
  deriving DecidableEq, Repr

/-- The fabric as the package holds it (R240 to R246). -/
structure Fabric where
  package : Nat := 0
  present : BitVec 1024 := 0
  routes : List (Nat × Nat) := []               -- dest * 4 + hop, entry; an absent entry is 62
  ports : FMap Port := []
  drops : Nat := 0                              -- messages recorded to the fabric manager as dropped
  sent : List FabMessage := []                  -- messages handed to a port, latest first
  waiting : List FabMessage := []               -- arrived requests whose access is held (R241)
  frames : List (Nat × Frame × BitVec 128) := []        -- arrived frames whose sectors are held (R128): port, frame, TAG
  deriving DecidableEq, Repr

/-- A pending sector (R117, R241): the port whose frame filled it. -/
structure PendSector where
  sector : Nat
  port : Nat
  seq : Nat
  deriving DecidableEq, Repr

/-- An outgoing event of a twin that waits for its partner (R290). -/
inductive TwinAct where
  | store (sts : List Store)
  | amo
  | send (m : Msg)
  | quit
  deriving DecidableEq, Repr

structure TwinEvent where
  hash : Word
  act : TwinAct
  at_ : Nat
  deriving DecidableEq, Repr

/-- A twin pair (R289, R290). -/
structure TwinPair where
  a : Option Nat := none                        -- tag of the primary
  b : Option Nat := none
  ea : List TwinEvent := []
  eb : List TwinEvent := []
  seq : Nat := 0                                -- pairs compared
  deriving DecidableEq, Repr

/-- Boot and negotiation (R298 to R304). -/
structure Boot where
  state : Nat := 0                              -- BOOTSTAT STATE
  reason : Nat := 0
  fails : Nat := 0
  flashReason : Nat := 0
  offer : BitVec 256 := 0
  accept : BitVec 256 := 0
  enabled : BitVec 256 := 0
  minimal : Bool := false
  noTenant : Nat := 0
  expanders : List (Option Nat) := [none, none]
  record : Option ConfigRecord := none
  measures : List (List Byte) := []
  since : Nat := 0                              -- cycle in which the state was entered
  recordSeqs : FMap Nat := []                   -- job records of each tenant since manufacture (R308)
  deriving DecidableEq, Repr

/-- Messages in flight (R50, R64, R262, R272, R283, R285, R369). -/
structure Net where
  msgs : List Msg := []
  moved : List Moved := []
  packets : List (Nat × Packet) := []           -- target core
  votes : List Vote := []
  verdicts : List Verdict := []
  records : List (Nat × TrapRec) := []          -- tenant
  probes : List Probe := []
  deriving DecidableEq, Repr

/-! ## The machine -/

structure State where
  cycle : Nat := 0                              -- c.cycle (R89)
  turn : Nat := 0                               -- first core that may still issue in this cycle (log entry 2)
  closing : Bool := false                       -- deadlines of the cycle have begun to act: what they free waits for the next one
  cur : Nat := 0                                -- context of the step: core * 16 + slot (log entry 2)
  agenda : List Instr := []                     -- events that come next (log entry 1)
  free : Nat := 0                               -- free-value counter (log entry 3)
  mem : Memory := []
  poison : List Nat := []                       -- poisoned granules, address / 32, ascending (R138)
  feFull : List Nat := []                       -- full words, address / 8, ascending (R124)
  feWait : FMap (List FeReq) := []              -- by address / 8 (R126)
  pendSectors : List PendSector := []
  encOwner : FMap Nat := []                     -- 64-byte block, tenant whose key it is under (R136)
  encMinor : FMap Nat := []                     -- minor counter of a block
  encMajor : FMap Nat := []                     -- major counter of a 4 KiB page
  encTag : FMap (BitVec 56) := []               -- stored tags of blocks that differ from the tag of what the block holds (R136)
  encTree : List (Nat × Nat) := []              -- counter-tree nodes that fail verification: first and last address covered
  reenc : List Nat := []                        -- pages under re-encryption (R137)
  peerHome : Memory := []                       -- peer bytes at their homes, by physical address
  peerCopy : FMap PeerByte := []                -- the package's copy
  posted : List Posted := []
  orphans : FMap (List Store) := []             -- store paths of contexts that left their slot, by tag
  savedLoads : FMap (FMap LEntry) := []         -- tagged loads that a save cancelled with stores behind them, by tag (R159, R166)
  maint : List Maint := []                      -- cache maintenance that waits (R327)
  late : List Late := []                        -- writes of completed jobs that wait
  hostStores : List Store := []                 -- host writes to the HDM range, not performed yet (R297)
  hostPackets : List (Nat × Nat × Packet) := [] -- window packets behind them: how many of them, core, packet (R54)
  hostReads : List (Nat × Nat) := []            -- host reads of the HDM range that are held: address, length (R297)
  hostData : List Byte := []                    -- what the last host read returned (R295, R297)
  hostPoison : List Nat := []                   -- the granules of it that were delivered poisoned (R136, R138)
  sram : List (Nat × Nat × Nat) := []           -- accesses to SRAM words in this cycle: first and last address, sender (R126)
  tlb : List TlbEntry := []
  ctxs : FMap Ctx := []                         -- by core * 16 + slot
  cores : FMap Core := []
  clusters : FMap Cluster := []
  tenants : FMap Tenant := []
  net : Net := {}
  twins : FMap TwinPair := []
  twinCtr : Nat := 0
  rounds : List Round := []
  groupBars : List GroupBar := []
  coll : Coll := {}
  msu : Msu := {}
  jobOrder : Nat := 0
  snapSeq : Nat := 0
  boot : Boot := {}
  fabric : Fabric := {}
  deriving DecidableEq, Repr

/-- The machine right after reset: no tenant, no context, memory with nothing listed, the security processor in verify
(R300, R301). The values that the spec does not state are those of log entry 5. -/
def State.reset : State := {}

end Sys2Proof.Machine
end

