-- ==== Sys2Proof/Machine/Maps.lean ====
section
/-! DEFINITION. Finite maps by number, and memory as a canonical list of bytes: the operations every other file uses. -/

namespace Sys2Proof.Machine

/-! ## Finite maps -/

/-- The value at a key. -/
def fget {α : Type} : FMap α → Nat → Option α
  | [], _ => none
  | (k, v) :: m, a => if k = a then some v else fget m a

/-- The map with a key set; keys stay ascending. -/
def fput {α : Type} : FMap α → Nat → α → FMap α
  | [], a, v => [(a, v)]
  | (k, w) :: m, a, v => if k < a then (k, w) :: fput m a v else if k = a then (a, v) :: m else (a, v) :: (k, w) :: m

/-- The map without a key. -/
def fdel {α : Type} : FMap α → Nat → FMap α
  | [], _ => []
  | (k, w) :: m, a => if k = a then fdel m a else (k, w) :: fdel m a

/-- A set of numbers as an ascending list. -/
def nmem (l : List Nat) (a : Nat) : Bool := l.contains a

def nadd : List Nat → Nat → List Nat
  | [], a => [a]
  | b :: l, a => if b < a then b :: nadd l a else if b = a then b :: l else a :: b :: l

def ndel (l : List Nat) (a : Nat) : List Nat := l.filter (· != a)

/-! ## Memory (R111; an unlisted byte reads 0, log entry 4) -/

/-- What an unlisted address reads as. -/
def unlisted (_ : Nat) : Byte := 0

/-- Reads one byte. -/
def memRead (m : Memory) (a : Nat) : Byte := (fget m a).getD (unlisted a)

/-- Writes one byte; writing the unlisted value removes the entry. -/
def memWrite : Memory → Nat → Byte → Memory
  | [], a, b => if b = unlisted a then [] else [(a, b)]
  | (k, w) :: m, a, b =>
    if k < a then (k, w) :: memWrite m a b
    else if k = a then (if b = unlisted a then m else (a, b) :: m)
    else if b = unlisted a then (k, w) :: m else (a, b) :: (k, w) :: m

/-- The canonical form from a lower bound on: addresses rise, no entry holds the unlisted value. -/
def memWfFrom : Nat → Memory → Bool
  | _, [] => true
  | lo, (k, w) :: m => lo ≤ k && w != unlisted k && memWfFrom (k + 1) m

/-- The canonical form of memory. -/
def Memory.wf (m : Memory) : Bool := memWfFrom 0 m

/-- Writes consecutive bytes. -/
def memWriteList : Memory → Nat → List Byte → Memory
  | m, _, [] => m
  | m, a, b :: bs => memWriteList (memWrite m a b) (a + 1) bs

/-- Writes listed cells in their order. -/
def memWriteCells : Memory → List Host.Cell → Memory
  | m, [] => m
  | m, (a, b) :: cs => memWriteCells (memWrite m a b) cs

/-- Reads `n` consecutive bytes. -/
def memReadList (m : Memory) (a : Nat) : Nat → List Byte
  | 0 => []
  | n + 1 => memRead m a :: memReadList m (a + 1) n

/-! ## Bytes and numbers, little-endian (R3) -/

/-- The number that bytes hold. -/
def leNat : List Byte → Nat
  | [] => 0
  | b :: bs => b.toNat + 256 * leNat bs

/-- The `n` low bytes of a number. -/
def natLe : Nat → Nat → List Byte
  | 0, _ => []
  | n + 1, v => BitVec.ofNat 8 v :: natLe n (v / 256)

/-- The number in the bytes `off` to `off + n - 1` of a list. -/
def field (bs : List Byte) (off n : Nat) : Nat := leNat ((bs.drop off).take n)

/-- The bytes are all zero. -/
def zeros (bs : List Byte) : Bool := bs.all (· == 0)

/-- Bits `lo` to `lo + n - 1` of a word. -/
def bits (w : Word) (lo n : Nat) : Nat := w.toNat / 2 ^ lo % 2 ^ n

/-- The list with position `i` replaced. -/
def setAt {α : Type} (l : List α) (i : Nat) (v : α) : List α := l.set i v

end Sys2Proof.Machine
end

