-- ==== Sys2Proof/Machine/Ops.lean ====
section
/-! DEFINITION. The named operations on contexts, registers and units; taking a trap and returning from one (R94); parking
and waking (R45, R46); result writes (R43). -/

namespace Sys2Proof.Machine

/-- The outcome of a step of this machine. -/
abbrev Out := Host.Outcome State Fault Refusal

/-! ## Units (R9, R10, R38, R57, R116) -/

def coreCount : Nat := 2816
def clusterCount : Nat := 352
def ctxCount : Nat := 45056

def coreOf (x : CtxId) : Nat := x / 16
def slotOf (x : CtxId) : Nat := x % 16
def colOf (core : Nat) : Nat := core % 64
def rowOf (core : Nat) : Nat := core / 64
/-- The cluster of a core (R10). -/
def clusterOf (core : Nat) : Nat := rowOf core / 2 * 16 + colOf core / 4
/-- The cluster-core index (R116). -/
def clusterCore (core : Nat) : Nat := rowOf core % 2 * 4 + colOf core % 4
/-- The die of a core: two columns and two rows of dies of 32 by 22 cores (R9). -/
def dieOf (core : Nat) : Nat := rowOf core / 22 * 2 + colOf core / 32

def State.ctx (s : State) (x : CtxId) : Ctx := (fget s.ctxs x).getD {}
def State.core (s : State) (n : Nat) : Core := (fget s.cores n).getD {}
def State.cluster (s : State) (n : Nat) : Cluster := (fget s.clusters n).getD {}
def State.tenant (s : State) (t : Nat) : Tenant := (fget s.tenants t).getD {}
def State.setCtx (s : State) (x : CtxId) (c : Ctx) : State := { s with ctxs := fput s.ctxs x c }
def State.setCore (s : State) (n : Nat) (c : Core) : State := { s with cores := fput s.cores n c }
def State.setCluster (s : State) (n : Nat) (c : Cluster) : State := { s with clusters := fput s.clusters n c }
def State.setTenant (s : State) (t : Nat) (c : Tenant) : State := { s with tenants := fput s.tenants t c }

/-- The context of the step. -/
def State.me (s : State) : Ctx := s.ctx s.cur
def State.setMe (s : State) (c : Ctx) : State := s.setCtx s.cur c
def State.onMe (s : State) (f : Ctx → Ctx) : State := s.setMe (f s.me)
def State.onCore (s : State) (n : Nat) (f : Core → Core) : State := s.setCore n (f (s.core n))
def State.onCluster (s : State) (n : Nat) (f : Cluster → Cluster) : State := s.setCluster n (f (s.cluster n))
def State.onTenant (s : State) (t : Nat) (f : Tenant → Tenant) : State := s.setTenant t (f (s.tenant t))
def State.at (s : State) (x : CtxId) : State := { s with cur := x }

/-- The context tag of the resident of a slot (R38). -/
def State.tagOf (s : State) (x : CtxId) : Nat := x * 256 + (s.ctx x).inc
/-- The context a tag names, where its incarnation is resident (R38). -/
def State.resident (s : State) (tag : Nat) : Option CtxId :=
  let c := s.ctx (tag / 256)
  if c.inc = tag % 256 ∧ c.slot ≠ .empty then some (tag / 256) else none

/-- A core lies in the rectangle of a tenant (R304). -/
def Tenant.hasCore (t : Tenant) (core : Nat) : Bool :=
  core < coreCount && t.cx0 ≤ colOf core / 4 && colOf core / 4 < t.cx0 + t.cw
    && t.cy0 ≤ rowOf core / 2 && rowOf core / 2 < t.cy0 + t.ch

/-- The tenant of a core (R89): 0 where no rectangle holds it. -/
def State.tenantOf (s : State) (core : Nat) : Nat :=
  match s.tenants.find? (fun (_, t) => t.hasCore core) with
  | some (id, _) => id
  | none => 0

/-- The tenant of the issuing context. -/
def State.myTenant (s : State) : Nat := s.tenantOf (coreOf s.cur)

/-- The core lies in the sub-mesh of the tenant (R53, R112). -/
def State.inMesh (s : State) (tenant core : Nat) : Bool :=
  match fget s.tenants tenant with
  | some t => t.hasCore core
  | none => false

/-- The cores of a tenant, ascending. -/
def State.meshCores (s : State) (tenant : Nat) : List Nat :=
  (List.range coreCount).filter (s.inMesh tenant)

/-- A feature enabled at GO (R298, R299). -/
def State.feature (s : State) (bit : Nat) : Bool := s.boot.enabled.getLsbD bit

/-! ## Registers (R37, R43, R44) -/

/-- Reads a scalar register; x0 reads zero. -/
def Ctx.xr (c : Ctx) (r : XReg) : Word := if r.val = 0 then 0 else c.x[r]
/-- Writes a scalar register; x0 ignores the write. -/
def Ctx.setX (c : Ctx) (r : XReg) (v : Word) : Ctx := if r.val = 0 then c else { c with x := c.x.set r v }
def Ctx.kr (c : Ctx) (r : KReg) : MaskReg := c.k[r]
def Ctx.setK (c : Ctx) (r : KReg) (v : MaskReg) : Ctx := { c with k := c.k.set r v }
def Ctx.vr (c : Ctx) (r : Nat) : VecReg := (fget c.v r).getD 0
/-- SPEC of c.status (R88). -/
def Ctx.specOn (c : Ctx) : Bool := c.cp.isSome
/-- HEAVY of c.status (R88). -/
def Ctx.heavy (c : Ctx) : Bool := !c.v.isEmpty

def State.x (s : State) (r : XReg) : Word := s.me.xr r

/-- Lands a result write in a context. A vector register that is no longer claimed takes nothing. -/
def Ctx.land (c : Ctx) : RegWrite → Ctx
  | .x r v => c.setX (Fin.ofNat 32 r) v
  | .k r v => c.setK (Fin.ofNat 8 r) v
  | .v r mask value =>
    match fget c.v r with
    | some old => { c with v := fput c.v r ((old &&& ~~~mask) ||| (value &&& mask)) }
    | none => c

/-- The register that a write names. -/
def RegWrite.ref : RegWrite → RegRef
  | .x r _ => .x r
  | .k r _ => .k r
  | .v r _ _ => .v r

/-- Writes a result of latency `lat`, `lat` cycles later (R43). Of the forms that R91 gives as L ≤ 8 the exact latency is
open: the model lands their results at issue, so a longer write of an earlier instruction that falls due within those 8
cycles lands after them (DESIGN CHOICE, log entry 73). -/
def writeResult (lat : Nat) (w : RegWrite) (s : State) : State :=
  if lat ≤ 8 then s.onMe (·.land w)
  else if w.ref = .x 0 then s
  else s.onMe fun c => { c with pend := c.pend ++ [{ due := s.cycle + lat, write := w }] }

/-- The number of c.tval for a stall underrun: file in [9:8], register in [7:0] (R44). -/
def RegRef.code : RegRef → Nat
  | .x r => r
  | .v r => 256 + r
  | .k r => 512 + r

/-- A fixed-latency write to the register is outstanding; the reply of an engine command counts from its issue (R24). -/
def Ctx.outstanding (c : Ctx) (r : RegRef) : Bool := (c.pend ++ c.replies).any (·.write.ref = r)

/-- The last cycle in which an outstanding write lands. -/
def Ctx.lastDue (c : Ctx) : Nat := (c.pend ++ c.replies).foldl (fun m p => Nat.max m p.due) 0

/-! ## Trap records (R269, R271 to R273) -/

/-- The causes delivered with a record (R271). -/
def reportedCause (c : Nat) : Bool :=
  c = 0x08 || c = 0x09 || c = 0x0C || c = 0x0D || c = 0x18 || c = 0x1A || c = 0x1C || c = 0x1D

/-- Two records that routers merge (R273). -/
def mergeable (a b : TrapRec) : Bool :=
  a.row = b.row && a.cause = b.cause && bits a.tval 16 40 = bits b.tval 16 40
    && (a.cause = 0x08 || a.cause = 0x09 || a.cause = 0x0C || a.cause = 0x0D)

/-- The merged record: counts added, columns joined, the other fields of the earlier record (R273). -/
def mergeRec (a b : TrapRec) : TrapRec :=
  let first := if b.cycle < a.cycle ∨ (b.cycle = a.cycle ∧ b.core < a.core) then b else a
  { first with count := a.count + b.count, cores := a.cores ||| b.cores }

/-- Puts a record on the trap channel, merged into one in flight where R273 allows it. -/
def addRecord (rs : List (Nat × TrapRec)) (tenant : Nat) (r : TrapRec) : List (Nat × TrapRec) :=
  match rs with
  | [] => [(tenant, r)]
  | (t, q) :: rest =>
    if t = tenant ∧ mergeable q r then (t, mergeRec q r) :: rest else (t, q) :: addRecord rest tenant r

/-- The core cannot send a record now: it holds earlier ones, or the trap channel makes it wait (R274; a free value, log
entry 72). -/
def cannotSend (s : State) (core : Nat) : Bool := !(s.core core).recs.isEmpty || Config.recordWaits s.free

/-- Sends the trap record of a context (R272). A core that cannot send it holds up to 16; one beyond these is counted in
LOST (R274). -/
def sendRecord (x : CtxId) (t : TrapInfo) (epc : Word) (flags : Nat) (join : Word) (s : State) : State :=
  let core := coreOf x
  let n := s.tenantOf core
  let k := s.core core
  let r : TrapRec :=
    { cause := t.cause, info := t.info, row := rowOf core, cores := 2 ^ colOf core, tval := t.tval, epc := epc,
      tag := s.tagOf x, flags := flags, cycle := s.cycle, join := join, core := core }
  let full := cannotSend s core && 16 ≤ k.recs.length
  { s with
    free := s.free + 1
    net := { s.net with records := if cannotSend s core then s.net.records else addRecord s.net.records n r }
    cores := fput s.cores core { k with recs := if cannotSend s core && !full then k.recs ++ [r] else k.recs }
    tenants := fput s.tenants n { s.tenant n with
      lostRecs := (s.tenant n).lostRecs + full.toNat
      counts := { (s.tenant n).counts with lost := (s.tenant n).counts.lost + full.toNat } } }

/-- A core sends the oldest record that it holds, where the channel takes it. -/
def sendHeld (core : Nat) (s : State) : State :=
  match (s.core core).recs with
  | [] => s
  | r :: rest =>
    if Config.recordWaits s.free then { s with free := s.free + 1 }
    else
      { s with
        free := s.free + 1
        net := { s.net with records := addRecord s.net.records (s.tenantOf core) r }
        cores := fput s.cores core { s.core core with recs := rest } }

/-- Adds to the counts of a tenant's job record (R307, R308). -/
def State.count (s : State) (tenant : Nat) (f : Counts → Counts) : State :=
  s.onTenant tenant fun t => { t with counts := f t.counts }

/-! ## Taking a trap and returning from one (R94) -/

/-- The causes whose EPC is the next instruction (R94, R271). -/
def nextCause (c : Nat) : Bool := c = 0x30 || c = 0x31

/-- The context that enters its handler: EPC, CAUSE with INFO and DEFER, TVAL, the level, the pc. A trap holds the
handler's first issue until every outstanding fixed-latency write has landed (R43). A trap at an odd pc stores the odd
address (R94), and a later `mtc` leaves bit 0 of EPC as it is (R90); the spec does not say which of the two prevails
(DESIGN CHOICE, log entry 74). -/
def Ctx.enter (c : Ctx) (t : TrapInfo) (defer : Bool) (cycle : Nat) : Ctx :=
  { c with
    cr := { c.cr with
      epc := if nextCause t.cause then c.next else c.pc
      cause := BitVec.ofNat 64 (t.cause % 256 + t.info % 256 * 256 + (if defer then 65536 else 0))
      tval := t.tval }
    ppriv := c.priv
    priv := true
    pc := c.cr.tvec
    hold := Nat.max c.hold c.lastDue
    readyAt := if c.slot = .parked then cycle + 1 else c.readyAt
    slot := .ready
    wait := none
    openHold := none }

/-- Takes a trap in the context of the step: the handler is entered, a reported cause sends its record in the same cycle
(R269), and consumed poison is counted (R139). -/
def enterTrap (t : TrapInfo) (defer : Bool) (s : State) : State :=
  let epc := if nextCause t.cause then s.me.next else s.me.pc
  let s1 := if t.cause = 0x0C then s.count s.myTenant (fun k => { k with poison := k.poison + 1 }) else s
  let s2 := if reportedCause t.cause then sendRecord s.cur t epc defer.toNat 0 s1 else s1
  s2.onMe (·.enter t defer s.cycle)

/-- What an interrupted form of a row of R275 has recorded, where the context is at its address. -/
def Ctx.recorded (c : Ctx) (row : Nat) : Option Nat :=
  match c.again with
  | some (r, n, pc) => if r = row ∧ pc = c.pc then some n else none
  | none => none

/-- Parks the context of the step on what `w` says; it leaves the rotation (R45). -/
def parkOn (w : Wait) (s : State) : State :=
  s.onMe fun c => { c with slot := .parked, wait := some w, parkedAt := s.cycle, probed := none }

/-- A synchronous trap of the issuing instruction: deferred while the context runs ahead (R263), else taken. -/
def takeTrap (t : TrapInfo) (s : State) : State :=
  if s.me.specOn then parkOn (.deferred t) s else enterTrap t false s

/-- `eret` (R94, R333). -/
def eretCtx (c : Ctx) : Ctx := { c with pc := c.cr.epc, priv := c.ppriv, ppriv := false }

/-! ## Completing an instruction -/

/-- The pc moves to the next instruction and the stall hold is set (R42). -/
def retire (stall : Nat) (s : State) : State :=
  s.onMe fun c => { c with pc := c.next, hold := s.cycle + Nat.max 8 (8 * stall) }

/-- An open-ended hold ends: the instruction is complete, the next may issue from this cycle on (R416). -/
def endHold (s : State) : State :=
  s.onMe fun c => { c with
    pc := c.next, openHold := none, hold := Nat.max s.cycle ((c.lastIssue.map (· + 8)).getD 0) }

/-- The pc moves to an address. -/
def jumpTo (a : Word) (s : State) : State :=
  s.onMe fun c => { c with pc := a, hold := s.cycle + 8 }

/-- Result and completion of an instruction without a stall field. -/
def finishX (d : XReg) (v : Word) (s : State) : State := retire 0 (s.onMe (·.setX d v))

/-- Result and completion of an instruction of latency `lat` with a stall count. -/
def finishStall (lat : Nat) (stall : Fin 16) (w : RegWrite) (s : State) : State :=
  retire stall.val (writeResult lat w s)

/-- Wakes the parked context of the step: ready from the next cycle, at the next instruction (R45, R46). -/
def completePark (s : State) : State :=
  s.onMe fun c =>
    { c with slot := if c.slot = .parked then .ready else c.slot, wait := none, pc := c.next, readyAt := s.cycle + 1 }

/-- Wakes the parked context at the parking instruction, which issues again (R263). -/
def reissue (s : State) : State :=
  s.onMe fun c =>
    { c with slot := if c.slot = .parked then .ready else c.slot, wait := none, readyAt := s.cycle + 1 }

/-- Wakes the parked context with a result. -/
def completeX (d : Nat) (v : Word) (s : State) : State := completePark (s.onMe (·.setX (Fin.ofNat 32 d) v))

/-- The number of the wake source (R45). -/
def Wait.source : Wait → Nat
  | .load .. | .vload .. | .gather .. | .flrd .. | .amo .. | .packet .. | .sendRead .. | .mig .. => 1
  | .recv .. | .watch .. => 2
  | .fe .. => 3
  | .take .. | .takex .. => 4
  | .job .. | .submit .. | .jwait .. | .quitJobs => 5
  | .join .. => 6
  | .bar .. => 7
  | .quitVote | .quitEnd | .quitTwin | .quitGone .. | .cbfence | .runAhead | .deferred .. => 8
  | .space => 9

/-! ## The checks before an instruction's own (R85) -/

/-- R44: with CHECK = 1, a register with an outstanding write traps. Of several, the spec does not say which one c.tval names:
it is the first in the order given, that of the form's operands (DESIGN CHOICE, log entry 92). -/
def scoreboard (uses : List RegRef) (body : State → State) (s : State) : State :=
  match (if s.me.cr.stl.getLsbD 0 then uses.find? s.me.outstanding else none) with
  | some r => takeTrap { cause := 0x03, tval := BitVec.ofNat 64 r.code } s
  | none => body s

/-- Supervisor forms (R83). -/
def supervisor (body : State → State) (s : State) : State :=
  if s.me.priv then body s else takeTrap { cause := 0x02 } s

/-- The forms that R263 parks during run-ahead: they issue as if for the first time after resolution. -/
def notAhead (body : State → State) (s : State) : State :=
  if s.me.specOn then parkOn .runAhead s else body s

/-- The trap of the forms that a twin context may not use (R289). -/
def notTwin (body : State → State) (s : State) : State :=
  if s.me.twin then takeTrap { cause := 0x04, info := 0x50 } s else body s

/-- A landing-set entry reserves the vector register (R146). -/
def Ctx.reserved (c : Ctx) (v : Nat) : Bool :=
  c.landing.any fun (_, e) => match e.kind with
    | .scalar _ => false
    | _ => e.vreg = v

/-- R74 and R146: every vector register is claimed, then none is reserved. Of several that fail, c.tval names the first in the
order in which the form lists them (the spec says not which; DESIGN CHOICE, log entry 81). -/
def vectors (vs : List Nat) (body : State → State) (s : State) : State :=
  match vs.find? (fun v => (fget s.me.v v).isNone) with
  | some v => takeTrap { cause := 0x12, tval := BitVec.ofNat 64 v } s
  | none =>
    match vs.find? s.me.reserved with
    | some v => takeTrap { cause := 0x12, info := 1, tval := BitVec.ofNat 64 v } s
    | none => body s

/-- The parcel and index of an encoding failure in c.tval (R84). -/
def parcelTval (parcel index : Nat) : Word := BitVec.ofNat 64 (index * 65536 + parcel)

/-- The illegal-instruction trap at the base parcel (R84, R104). -/
def illegalBase (s : State) : State :=
  takeTrap { cause := 0x01, tval := parcelTval s.me.base s.me.index } s

def xref (r : XReg) : RegRef := .x r.val
def kref (r : KReg) : RegRef := .k r.val
def vref (r : Nat) : RegRef := .v r

/-- An event of a context, which must exist. -/
def onCtx (name : String) (x : CtxId) (f : State → State) (s : State) : Out :=
  if x < ctxCount then .next (f (s.at x)) else .fault (.noSuchUnit name)

def onCoreEvent (name : String) (n : Nat) (f : State → State) (s : State) : Out :=
  if n < coreCount then .next (f s) else .fault (.noSuchUnit name)

def onClusterEvent (name : String) (n : Nat) (f : State → State) (s : State) : Out :=
  if n < clusterCount then .next (f s) else .fault (.noSuchUnit name)

end Sys2Proof.Machine
end

