-- ==== Sys2Proof/Machine/Flags.lean ====
section
/-! DEFINITION. Conditions. The machine has no flag register: a condition is computed from its operands where it is used
(R319, R320, R354, R371, R375). -/

namespace Sys2Proof.Machine

/-- The condition of `bc` (R319). -/
def ccHolds (c : Cc) (a b : Word) : Bool :=
  match c with
  | .eq => a == b
  | .ne => a != b
  | .lt => a.slt b
  | .ge => !a.slt b
  | .ltu => a.ult b
  | .geu => !a.ult b

/-- The condition of `br`, signed against zero (R320). -/
def czHolds (c : Cz) (a : Word) : Bool :=
  match c with
  | .eq => a == 0
  | .ne => a != 0
  | .lt => a.slt 0
  | .ge => !a.slt 0
  | .le => a.sle 0
  | .gt => !a.sle 0

/-- 1 for a condition that holds, else 0 (R375). -/
def ofCond (b : Bool) : Word := if b then 1 else 0

end Sys2Proof.Machine
end

