-- ==== Sys2Proof/Machine/Operands.lean ====
section
/-! DEFINITION. Operand forms: immediates and branch targets, scalar or mask operands, vector names, elements of vector
registers (R72, R74, R77, R97, R388). -/

namespace Sys2Proof.Machine

/-- An immediate or displacement as a word. -/
def immWord (i : Int) : Word := BitVec.ofInt 64 i

/-- The target of a branch, jump or `lea`: parcels from the instruction's own address (R72, R319). -/
def targetOf (pc : Word) (off : Int) : Word := pc + immWord (2 * off)

/-- The effective address of a displacement form (R344). -/
def effAddr (base : Word) (e : Int) : Word := base + immWord e

/-- The value of a scalar or mask operand: a mask register gives its low 64 bits (R77). -/
def Ctx.xk (c : Ctx) : XK → Word
  | .x r => c.xr r
  | .k r => (c.kr r).setWidth 64

def xkRef : XK → RegRef
  | .x r => xref r
  | .k r => kref r

/-- The number of a vector operand; `v[xN]` takes the low eight bits of the register (R74). -/
def Ctx.vnum (c : Ctx) : VArg → Nat
  | .direct v => v.val
  | .indirect n => (c.xr n).toNat % 256

/-- The scalar register that an indirect vector operand reads. -/
def vargRefs : VArg → List RegRef
  | .direct _ => []
  | .indirect n => [xref n]

/-! ## Elements (R97) -/

/-- Element `i` of `w` bits of a vector register, as a number. -/
def elemNat (w : Nat) (v : VecReg) (i : Nat) : Nat := v.toNat / 2 ^ (w * i) % 2 ^ w

/-- The elements of `w` bits of a number, `n` of them. -/
def splitNat (w : Nat) : Nat → Nat → List Nat
  | 0, _ => []
  | n + 1, v => v % 2 ^ w :: splitNat w n (v / 2 ^ w)

/-- The number whose elements of `w` bits are those of a list. -/
def joinNat (w : Nat) : List Nat → Nat
  | [] => 0
  | e :: es => e % 2 ^ w + 2 ^ w * joinNat w es

/-- All elements of a register. -/
def elems (ty : Ty) (v : VecReg) : List Nat := splitNat ty.width ty.count v.toNat

/-- A register of elements. -/
def ofElems (ty : Ty) (es : List Nat) : VecReg := BitVec.ofNat 4096 (joinNat ty.width es)

/-- An integer element by its type (R96). -/
def intElem (ty : Ty) (n : Nat) : Int := if ty.isSigned then signedOf ty.width n else (n : Int)

/-- An integer narrowed to `w` bits. -/
def narrow (w : Nat) (i : Int) : Nat := (i % (2 ^ w : Int)).toNat

/-- The mask of a whole register. -/
def allBits : VecReg := BitVec.allOnes 4096

/-- The 512 bytes of a register. -/
def vecBytes (v : VecReg) : List Byte := natLe 512 v.toNat
def bytesVec (bs : List Byte) : VecReg := BitVec.ofNat 4096 (leNat bs)

end Sys2Proof.Machine
end

