-- ==== Sys2Proof/Machine/Device.lean ====
section
/-! DEFINITION. The device class: its rows, what a register reads and what a write does (R295, R270, R276, R298 to R300,
R306, R307). A write that is a command puts its step on the agenda. -/

namespace Sys2Proof.Machine

/-- The rows of the device map (R295). -/
inductive DevRow where
  | spawn (tenant off : Nat)
  | tenant (tenant off : Nat)
  | core (core off : Nat)
  | status (off : Nat)
  | coreSnap (core off : Nat)
  | clusterSnap (cluster off : Nat)
  | job (tenant off : Nat)
  | none
  deriving DecidableEq, Repr

/-- The row that holds a BAR0 offset. -/
def devRow (o : Nat) : DevRow :=
  if o < 0x40000000 then .spawn (o / 0x40000) (o % 0x40000)
  else if o < 0x40100000 then .tenant ((o - 0x40000000) / 0x100) (o % 0x100)
  else if o < 0x40100000 + 2816 * 0x40 then .core ((o - 0x40100000) / 0x40) (o % 0x40)
  else if o < 0x40200000 then .none
  else if o < 0x40201000 then .status (o - 0x40200000)
  else if o < 0x40300000 then .none
  else if o < 0x40300000 + 2816 * 0x40 then .coreSnap ((o - 0x40300000) / 0x40) (o % 0x40)
  else if o < 0x40330000 then .none
  else if o < 0x40330000 + 352 * 0x40 then .clusterSnap ((o - 0x40330000) / 0x40) (o % 0x40)
  else if o < 0x40400000 then .none
  else if o < 0x40400000 + 4096 * 0x2000 then .job ((o - 0x40400000) / 0x2000) (o % 0x2000)
  else .none

/-- The code of a slot in SLOTS (R276). -/
def slotCode : SlotState → Nat
  | .empty => 0 | .launching => 1 | .ready => 2 | .parked => 3 | .halted => 4 | .scrubbed => 5

/-- SLOTS of a core: 3 bits per slot (R276). -/
def slotsWord (s : State) (core : Nat) : Nat :=
  (List.range 16).foldl (fun a i => a + slotCode (s.ctx (core * 16 + i)).slot * 8 ^ i) 0

/-- A 64-bit register of the tenant control block (R270). -/
def tenantReg (t : Tenant) (off : Nat) : Nat :=
  match off with
  | 0x00 => t.dvec.toNat
  | 0x08 => t.ringbase.toNat
  | 0x10 => t.ringlog.toNat
  | 0x18 => t.head
  | 0x20 => t.tail.toNat
  | 0x28 => t.monitor.toNat
  | 0x38 => t.wdog.toNat
  | 0x40 => t.inbox.toNat
  | 0x48 => t.dlarea.toNat
  | 0x50 => t.lostRecs % 2 ^ 32 + t.lostMsgs % 2 ^ 32 * 2 ^ 32
  | o => if 0x80 ≤ o ∧ o < 0x100 then t.members.toNat / 2 ^ (8 * (o - 0x80)) % 2 ^ 64 else 0

/-- A register of the core control block (R276). -/
def coreReg (s : State) (n off : Nat) : Nat :=
  let c := s.core n
  match off with
  | 0x08 => c.stat + 256 * c.reason
  | 0x10 => c.image.toNat
  | 0x18 => c.stopCyc
  | 0x20 => c.sent
  | 0x28 => c.recv
  | 0x30 => slotsWord s n
  | _ => 0

/-- A register of the boot and fabric status block (R298, R300). -/
def statusReg (s : State) (off : Nat) : Nat :=
  if off < 0x20 then s.boot.offer.toNat / 2 ^ (8 * off) % 2 ^ 64
  else if off < 0x40 then s.boot.accept.toNat / 2 ^ (8 * (off - 0x20)) % 2 ^ 64
  else if off = 0x40 then s.boot.state + 256 * s.boot.reason + 65536 * s.boot.fails
  else if off = 0x50 then
    (List.range 32).foldl (fun a p => if ((fget s.fabric.ports p).getD {}).inService then a + 2 ^ (10 + p) else a)
      s.fabric.package
  else if off = 0x58 then s.boot.noTenant
  else if 0x100 ≤ off ∧ off < 0x200 then ((fget s.fabric.ports ((off - 0x100) / 8)).getD {}).failed
  else if 0x200 ≤ off ∧ off < 0x220 + 1952 then
    leNat ((List.range 8).map fun i => Config.identityKey (off - 0x200 + i))
  else 0

/-- A register of the job record block (R307). -/
def jobReg (s : State) (t off : Nat) : Nat :=
  let a := (s.tenant t).audit
  match off with
  | 0x08 => a.jobid.toNat
  | 0x10 => a.codebase.toNat
  | 0x18 => a.codelen.toNat
  | 0x20 => if a.refused then 4 else a.stat
  | o => if 0x1000 ≤ o then leNat ((List.range 8).map fun i => a.record.getD (o - 0x1000 + i) 0) else 0

/-- The 64-bit register at an aligned offset; a write-only or absent register reads 0 (R112, R295). -/
def devReg (s : State) (o : Nat) : Nat :=
  match devRow o with
  | .tenant t off => tenantReg (s.tenant t) off
  | .core n off => coreReg s n off
  | .status off => statusReg s off
  | .coreSnap n off =>
    let p := (s.core n).snap
    (match off with
      | 0x00 => p.seq | 0x08 => p.cycle | 0x10 => p.sent | 0x18 => p.recv | 0x20 => p.slots | _ => 0) % 2 ^ 64
  | .clusterSnap c off => (s.cluster c).snap.getD (off / 8) 0
  | .job t off => jobReg s t off
  | _ => 0

/-- A device read of 4 or 8 bytes. -/
def devRead (s : State) (o n : Nat) : Nat := devReg s (o / 8 * 8) / 2 ^ (8 * (o % 8)) % 2 ^ (8 * n)

/-- A host read through BAR0: one that lies in no row or in a spawn window, is not 4 or 8 bytes wide or not aligned reads 0
in every byte (R295). -/
def hostRegisterRead (s : State) (o n : Nat) : Nat :=
  match devRow o with
  | .none | .spawn .. => 0
  | _ => if (n = 4 ∨ n = 8) ∧ o % n = 0 then devRead s o n else 0

/-- A device register that a core may store to: not read-only from cores, not a spawn window or job record block. One whose
access the spec does not state takes the store and ignores it (DEDUCED, log entry 39). -/
def coreMayStore (o : Nat) : Bool :=
  match devRow o with
  | .tenant _ off => off / 8 * 8 < 0x50 && off / 8 * 8 != 0x18
  | .core _ off => off / 8 * 8 != 0x08 && (off / 8 * 8 < 0x18 || 0x38 ≤ off)
  | .status off => (0x20 ≤ off && off < 0x40) || off / 8 * 8 = 0x48 || (0x60 ≤ off && off < 0x100) || 0x9C0 ≤ off
  | .coreSnap .. | .clusterSnap .. => true
  | _ => false

/-- A device register that a core may load from. -/
def coreMayLoad (o : Nat) : Bool :=
  match devRow o with
  | .spawn .. | .job .. | .none => false
  | _ => true

/-- The step that a write of CMD starts (R276). -/
def cmdStep (core : Nat) (v : Nat) : Instr :=
  let x := core * 16 + v / 16 % 16
  match v % 16 with
  | 1 => .haltCommand x
  | 2 => .resume x
  | 3 => .save x
  | 4 => .restore core
  | 5 => .kill x
  | 6 => .migrate x (v / 256 % 4096)
  | op => .cmdRefused core op

/-- Puts steps on the agenda, before what it holds. -/
def State.post (s : State) (is : List Instr) : State := { s with agenda := is ++ s.agenda }

/-- Writes a 64-bit register of the tenant control block. TAIL, RINGBASE and GANG are steps of their own. -/
def writeTenantReg (host : Bool) (t off : Nat) (v : Word) (s : State) : State :=
  let fab := v.getLsbD 2
  match off with
  | 0x00 => s.onTenant t fun k => { k with dvec := v &&& 0x00FFFFFFFFFFFFFE }
  | 0x08 => s.post [.ringbaseWrite t v]
  | 0x10 => s.onTenant t fun k => { k with ringlog := v &&& 0x1F }
  | 0x20 => s.post [.tailWrite t v]
  | 0x28 => s.onTenant t fun k => { k with monitor := v &&& 0xFFFFFF }
  | 0x30 =>
    match v.toNat % 4 with
    | 1 => s.post [.gangStop t fab]
    | 2 => s.post [.gangResume t fab]
    | 3 => s.post [.gangSnapshot t fab]
    | _ => s
  | 0x38 => s.onTenant t fun k => { k with wdog := v &&& 0xFFFF }
  | 0x40 => s.onTenant t fun k => { k with inbox := v }
  | 0x48 => s.onTenant t fun k => { k with dlarea := v }
  | o => if host ∧ 0x80 ≤ o ∧ o < 0x100 then s.post [.membersWrite t ((o - 0x80) / 8) v] else s

/-- Writes a 64-bit device register. A tenant that the configuration record does not name has no registers to write. -/
def writeReg (host : Bool) (o : Nat) (v : Word) (s : State) : State :=
  match devRow o with
  | .tenant t off => if (fget s.tenants t).isSome then writeTenantReg host t off v s else s
  | .core n off =>
    match off with
    | 0x00 => if (s.core n).stat = 1 then s else s.post [cmdStep n v.toNat]
    | 0x10 => s.onCore n fun c => { c with image := v }
    | _ => s
  | .status off =>
    if 0x20 ≤ off ∧ off < 0x40 then s.post [.acceptWrite ((off - 0x20) / 8) v]
    else if off = 0x48 then
      let s := if v.getLsbD 1 then s.post [.retry] else s
      if v.getLsbD 0 then s.post [.go] else s
    else s
  | .job t off =>
    if !host || (fget s.tenants t).isNone then s
    else match off with
      | 0x00 =>
        match v.toNat % 4 with
        | 1 => s.post [.jobBegin t]
        | 2 => s.post [.jobEnd t]
        | 3 => s.post [.jobAck t]
        | _ => s
      | 0x08 => s.onTenant t fun k => { k with audit := { k.audit with jobid := v } }
      | 0x10 => s.onTenant t fun k => { k with audit := { k.audit with codebase := v } }
      | 0x18 => s.onTenant t fun k => { k with audit := { k.audit with codelen := v } }
      | _ => s
  | _ => s

/-- A device write of 4 or 8 bytes: a 4-byte write leaves the other half of the register as it reads. -/
def devWrite (host : Bool) (o n : Nat) (v : Word) (s : State) : State :=
  let r := o / 8 * 8
  let old := devReg s r
  let sh := 8 * (o % 8)
  let m := 2 ^ (8 * n) - 1
  writeReg host r (BitVec.ofNat 64 (old - (old / 2 ^ sh % 2 ^ (8 * n)) * 2 ^ sh + (v.toNat % (m + 1)) * 2 ^ sh)) s

end Sys2Proof.Machine
end

