-- ==== Sys2Proof/Machine/Link.lean ====
section
/-! DEFINITION. The sending side of the Shoari ports: messages cut into frames, the retry buffer, training, and messages
to other packages (R239 to R246). -/

namespace Sys2Proof.Machine

def State.port (s : State) (p : Nat) : Port := (fget s.fabric.ports p).getD {}

def State.onPort (s : State) (p : Nat) (f : Port → Port) : State :=
  { s with fabric := { s.fabric with ports := fput s.fabric.ports p (f (s.port p)) } }

/-- A port that route tables count as absent: its link is in degraded hold, or retired (R243). -/
def Port.absent (k : Port) : Bool := k.degraded || k.retired

/-- The port through which a route to a package leaves, where one does (R244). -/
def routeTo (s : State) (dest : Nat) : Option Nat :=
  match s.fabric.routes.find? (fun (k, _) => k = dest * 4) with
  | some (_, e) => if e < 32 ∧ !(s.port e).absent then some e else none
  | none => none

/-- The port of the route trains: what is to cross its link waits (R243). -/
def linkDown (s : State) (dest : Nat) : Bool :=
  match routeTo s dest with
  | some e => !(s.port e).inService
  | none => false

/-- A message was dropped for want of a route. -/
def State.dropped (s : State) : State := { s with fabric := { s.fabric with drops := s.fabric.drops + 1 } }

/-! ## Frames (R239, R240) -/

/-- The bytes of a message's data with the addresses that they fill at their home; the spec gives messages no layout, so
other payloads fill no sector (DESIGN CHOICE, log entry 58). -/
def payloadCells : FabPayload → List (Nat × Byte)
  | .write a d _ => d.zipIdx.map fun (b, i) => (a + i, b)
  | _ => []

/-- The data of a message that fills no sector: elements and values of 4 bytes, the operands of an atomic, the bytes of an
answer, an update record (log entry 58). -/
def payloadData : FabPayload → List Byte
  | .elements _ d => d.flatMap (natLe 4)
  | .contribute _ _ _ _ vs => vs.flatMap (natLe 4)
  | .amo _ _ n v c => natLe n v.toNat ++ natLe n c.toNat
  | .answer _ _ d => d
  | .row _ _ _ _ r => r
  | _ => []

/-- Frames of at most 16 flits of 64 bytes that carry a message; the last of them may hold fewer. -/
def framesOf (vc : Nat) (p : FabPayload) : List Frame :=
  let cells := payloadCells p
  let data := payloadData p
  let n := cells.length + data.length
  (List.range (Nat.max 1 ((n + 1023) / 1024))).map fun i =>
    { seq := 0, nflit := Nat.max 1 (Nat.min 16 ((n - 1024 * i + 63) / 64)), vc := vc,
      payload := (cells.drop (1024 * i)).take 1024, data := (data.drop (1024 * i)).take 1024 }

/-- The TAG of a frame under the keys of a link direction: over its flits and bytes 0 to 15 of the trailer (R239, R240). -/
def frameSeal (f : Frame) (port : Nat) (out : Bool) (keys : Nat) : BitVec 128 :=
  Config.frameTag (Config.linkKey port out keys).toNat port out [f.seq, f.nflit, f.vc, f.reserved] f.payload f.data

/-- A frame with its TAG, as it goes out. -/
def sealFrame (port keys : Nat) (f : Frame) : Frame × BitVec 128 := (f, frameSeal f port true keys)

/-! ## The retry buffer and training (R240, R241, R243) -/

/-- No sequence number is left under the present keys: the link has to train before it reaches 2^48 (R240). -/
def Port.spent (k : Port) : Bool := 2 ^ 48 ≤ k.seqOut || 2 ^ 48 ≤ k.seqIn

/-- Frames take their sequence numbers and places in the retry buffer, as far as it has room, and go out on a link in
service; the others wait behind it. -/
def Port.take (port : Nat) : List Frame → Port → Port
  | [], k => { k with pend := [] }
  | f :: fs, k =>
    if 128 ≤ k.retry.length ∨ 2 ^ 48 ≤ k.seqOut then { k with pend := f :: fs }
    else
      let g : Frame := { f with seq := k.seqOut }
      Port.take port fs { k with
        retry := k.retry ++ [g]
        onLink := if k.inService then k.onLink ++ [sealFrame port k.keys g] else k.onLink
        seqOut := k.seqOut + 1 }

/-- The link leaves service to train. Numbers that are used up start again at 0 under the new keys (log entry 58). -/
def Port.train (k : Port) : Port :=
  let k : Port := { k with inService := false, ownRec := none, otherRec := none, onLink := [] }
  let k : Port := if 2 ^ 48 ≤ k.seqOut then
      { k with retry := k.retry.zipIdx.map fun (f, i) => { f with seq := i }, seqOut := k.retry.length }
    else k
  if 2 ^ 48 ≤ k.seqIn then { k with seqIn := 0 } else k

/-- The training agrees: the link is in service under new keys, and every frame that is not acknowledged goes out again
(R241, R243). -/
def Port.restart (port : Nat) (k : Port) : Port :=
  let keys := k.keys + 1
  Port.take port k.pend { k with inService := true, keys := keys, onLink := k.retry.map (sealFrame port keys) }

/-- Hands a message to a port (R241). -/
def toPort (port : Nat) (m : FabMessage) (s : State) : State :=
  let s := s.onPort port fun k =>
    let k := Port.take port (k.pend ++ framesOf m.vc m.payload) k
    if k.spent then k.train else k
  { s with fabric := { s.fabric with sent := m :: s.fabric.sent } }

/-! ## Messages of this package (R244, R246) -/

/-- Sends a fabric message, or drops it where no route leads to its package. -/
def sendFab (dest tenant : Nat) (p : FabPayload) (s : State) : State :=
  match routeTo s dest with
  | some port =>
    toPort port { source := s.fabric.package, dest := dest, vc := 0, tenant := tenant, payload := p } s
  | none => s.dropped

/-- The other packages of a tenant's load-store domain (R246). -/
def memberPackages (s : State) (tenant : Nat) : List Nat :=
  (List.range 1024).filter fun q => q ≠ s.fabric.package && (s.tenant tenant).members.getLsbD q

/-- Sends a message to every other package of the domain. -/
def toDomain (tenant : Nat) (p : FabPayload) (s : State) : State :=
  (memberPackages s tenant).foldl (fun s q => sendFab q tenant p s) s

end Sys2Proof.Machine
end

