-- ==== Sys2Proof/Machine/Memory.lean ====
section
/-! DEFINITION. Memory as programs see it: the physical map and its classes, translation, the checks of an access, what a
read returns and how a store is performed (R111 to R139, R163 to R177). -/

namespace Sys2Proof.Machine

/-! ## Physical map (R111 to R115) -/

/-- The memory classes of R111. -/
inductive MClass where
  | lpddr | cxl | spad | window | device | peer | none
  deriving DecidableEq, Repr

/-- The range of the physical map that holds an address, present or not. -/
def rangeOf (pa : Nat) : MClass :=
  if pa < 0x20000000000 then .lpddr
  else if pa < 0xA0000000000 then .cxl
  else if pa < 0xA0080000000 then .spad
  else if pa < 0xA00A0000000 then .window
  else if pa < 0xA0100000000 then .none
  else if pa < 0xA0200000000 then .device
  else if pa < 0x8000000000000 then .none
  else if pa < 0x10000000000000 then .peer
  else .none

/-- The LPDDR6 bytes of a package without metadata (R13): the most that a peer's home holds, whose features this package does
not know (log entry 16). -/
def lpddrFull : Nat := 1726900000000

/-- The LPDDR6 bytes that software can allocate (R13); in minimal mode die 0's quarter of them (log entry 12). -/
def lpddrSize (s : State) : Nat :=
  let full := if s.feature 3 then 1480000000000 else lpddrFull
  if s.boot.minimal then full / 4 else full

/-- The LPDDR6 channels in use (R113, R302). -/
def channels (s : State) : Nat := if s.boot.minimal then 36 else 144

/-- The channel of an LPDDR6 address (R113). -/
def channelOf (s : State) (pa : Nat) : Nat := pa / 4096 % channels s

/-- The home core of a channel (R113). -/
def channelHome (c : Nat) : Nat :=
  let d := c / 36
  let j := c % 36
  (d / 2 * 22 + j / 32 * 21) * 64 + (d % 2 * 32 + j % 32)

/-- The core of a scratchpad window address. -/
def spadCore (pa : Nat) : Nat := (pa - 0xA0000000000) / 0x80000

/-- The home core of a die-SRAM window slice (R114). -/
def windowHome (pa : Nat) : Nat :=
  let o := pa - 0xA0080000000
  let d := o / 0x8000000
  let slice := o % 0x8000000 / 512 % 32
  (d / 2 * 22 + 11) * 64 + (d % 2 * 32 + slice)

/-- The size of a die's window in bytes (R114, R304). -/
def windowSize (s : State) (d : Nat) : Nat :=
  if s.boot.minimal ∧ d ≠ 0 then 0
  else match s.boot.record with
    | some r => r.win.getD d 0 * 0x800000
    | none => 0

/-- The package of a peer address. -/
def peerPackage (pa : Nat) : Nat := pa / 2 ^ 41 % 1024

/-- The address at its home of a peer address: the offset in its package (R111). -/
def homeOffset (pa : Nat) : Nat := pa % 2 ^ 41

/-- The bytes of an expander that hold data: with ENCMETA one seventh of its capacity holds metadata (R136). -/
def dataBytes (s : State) (cap : Nat) : Nat := if s.feature 3 then cap * 6 / 7 else cap

/-- The dies in use: die 0 alone in minimal mode (R302). -/
def diePowered (s : State) (core : Nat) : Bool := !s.boot.minimal || dieOf core = 0

/-- The class of a physical address, with what is present (R111). -/
def classOf (s : State) (pa : Nat) : MClass :=
  match rangeOf pa with
  | .lpddr => if pa < lpddrSize s then .lpddr else .none
  | .cxl =>
    let port := (pa - 0x20000000000) / 0x40000000000
    let off := (pa - 0x20000000000) % 0x40000000000
    match s.boot.expanders.getD port none with
    | some cap => if s.feature (1 + port) ∧ off < dataBytes s cap then .cxl else .none
    | none => .none
  | .spad =>
    if spadCore pa < coreCount ∧ diePowered s (spadCore pa) ∧ (pa - 0xA0000000000) % 0x80000 < 32768 * (s.core (spadCore pa)).spad then .spad
    else .none
  | .window =>
    if (pa - 0xA0080000000) % 0x8000000 < windowSize s ((pa - 0xA0080000000) / 0x8000000) then .window else .none
  | .device => if devRow (pa - 0xA0100000000) = .none then .none else .device
  | .peer =>
    if s.feature 0 ∧ peerPackage pa ≠ s.fabric.package ∧ s.fabric.present.getLsbD (peerPackage pa) ∧ homeOffset pa < lpddrFull
    then .peer else .none
  | .none => .none

/-- The owning core of an address, where its class has one (R50, R112). -/
def ownerOf (s : State) (pa : Nat) : Option Nat :=
  match classOf s pa with
  | .lpddr => some (channelHome (channelOf s pa))
  | .spad => some (spadCore pa)
  | .window => some (windowHome pa)
  | _ => none

/-! ## Translation (R118 to R121) -/

def pteV (e : Word) : Bool := e.getLsbD 0
def pteU (e : Word) : Bool := e.getLsbD 2
def pteR (e : Word) : Bool := e.getLsbD 3
def pteW (e : Word) : Bool := e.getLsbD 4
def pteX (e : Word) : Bool := e.getLsbD 5
def pteLeaf (e : Word) : Bool := e.getLsbD 6
def pteNC (e : Word) : Bool := e.getLsbD 9
def pteFE (e : Word) : Bool := e.getLsbD 10
def pteMOT (e : Word) : Bool := e.getLsbD 11

/-- A number of `n` bytes read from memory as it stands. -/
def memNat (s : State) (pa n : Nat) : Nat := leNat (memReadList s.mem pa n)

/-- Bits of the page offset of a leaf at a level: 30, 21 or 16 (R119). -/
def pageBits (level : Nat) : Nat := if level = 2 then 30 else if level = 1 then 21 else 16

/-- The index of an address at a level and the bits of the table's addresses (R119). -/
def levelIndex (level va : Nat) : Nat :=
  if level = 3 then va / 2 ^ 43 % 8192 else if level = 2 then va / 2 ^ 30 % 8192
  else if level = 1 then va / 2 ^ 21 % 512 else va / 2 ^ 16 % 32

/-- The leaf is allowed at its level and its reserved bits, low page bits, FE and NC are as R120 requires. -/
def leafOk (level : Nat) (e : Word) : Bool :=
  let page := bits e 16 36 * 65536
  level != 3 && bits e 52 12 == 0 && bits e 12 4 == 0 && bits e 7 2 == 0 && bits e 1 1 == 0
    && page % 2 ^ pageBits level == 0
    && (!pteFE e || rangeOf page = .spad || rangeOf page = .window)
    && (!pteNC e || rangeOf page = .peer || rangeOf page = .cxl)

/-- The page walk from a table at a level: the physical address and the leaf entry (R119, R120). What the spec leaves open
(DESIGN CHOICE, log entry 67): the walker reads the plain bytes of a table word as they stand, poisoned or under another key
or in a sector that an engine job owns, and uses a NEXT field as it is, whether or not it is aligned to its table's size. -/
def walkFrom (s : State) : Nat → Nat → Nat → Option (Nat × Word)
  | level, table, va =>
    let e : Word := BitVec.ofNat 64 (memNat s (table + 8 * levelIndex level va) 8)
    if !pteV e then none
    else if pteLeaf e then
      if leafOk level e then
        some (bits e 16 36 * 65536 + va % 2 ^ pageBits level, e)
      else none
    else
      match level with
      | 0 => none
      | l + 1 =>
        if bits e 52 12 = 0 ∧ bits e 7 1 = 0 ∧ bits e 1 1 = 0 then walkFrom s l (bits e 8 44 * 256) va else none

/-- The walk of a virtual address of a tenant (R118). -/
def walk (s : State) (tenant : Nat) (va : Word) : Option (Nat × Word) :=
  if va.toNat / 2 ^ 56 ≠ 0 then none
  else
    match fget s.tenants tenant with
    | some t => walkFrom s 3 t.root va.toNat
    | none => none

/-! The TLBs of R121, by number: one of each core, one second-level TLB of each cluster, one of the collective engine of each
I/O die (R8; log entry 88), one of each memory-side unit. -/

def coreTlb (core : Nat) : Nat := core
def clusterTlb (cluster : Nat) : Nat := coreCount + cluster
def collTlb (die : Nat) : Nat := coreCount + clusterCount + die % 2
def msuTlb (channel : Nat) : Nat := coreCount + clusterCount + 2 + channel % 144

/-- The TLBs that an access through a TLB looks at: a core's, then the second-level one of its cluster. -/
def tlbsOf (u : Nat) : List Nat := if u < coreCount then [u, clusterTlb (clusterOf u)] else [u]

/-- What a held translation gives for an address of its page. -/
def TlbEntry.gives (e : TlbEntry) (va : Word) : Nat × Word := (e.ppage * 65536 + va.toNat % 65536, e.pte)

/-- The entry is for a page of a tenant. -/
def TlbEntry.covers (e : TlbEntry) (tenant : Nat) (va : Word) : Bool := e.tenant = tenant && e.vpage = va.toNat / 65536

/-- The translations of a page held on the way of an access that differ from what the page table gives now. -/
def staleTlb (s : State) (u tenant : Nat) (va : Word) (now : Option (Nat × Word)) : List TlbEntry :=
  (tlbsOf u).flatMap fun k => s.tlb.filter fun e => e.unit = k && e.covers tenant va && some (e.gives va) != now

/-- The first held translation that the free value keeps (R121; log entry 3). -/
def pickTlb : Nat → List TlbEntry → Option TlbEntry
  | _, [] => none
  | n, e :: es => if Config.tlbKeeps n then some e else pickTlb (n + 1) es

/-- Translation through a TLB: what the page table gives, or the older translation that the TLB still holds (R121). -/
def translateVa (s : State) (u tenant : Nat) (va : Word) : Option (Nat × Word) :=
  if va.toNat / 2 ^ 56 ≠ 0 then none
  else
    let now := walk s tenant va
    match pickTlb s.free (staleTlb s u tenant va now) with
    | some e => some (e.gives va)
    | none => now

/-- The level of the leaf that the walk of an address ends at. -/
def leafLevel (s : State) : Nat → Nat → Nat → Nat
  | level, table, va =>
    let e : Word := BitVec.ofNat 64 (memNat s (table + 8 * levelIndex level va) 8)
    if pteLeaf e then level
    else
      match level with
      | 0 => 0
      | l + 1 => leafLevel s l (bits e 8 44 * 256) va

/-- Some TLBs hold one translation of a page, or none. -/
def putTlb (units : List Nat) (tenant : Nat) (va : Word) (e : Option TlbEntry) (s : State) : State :=
  { s with tlb := s.tlb.filter (fun q => !(units.contains q.unit && q.covers tenant va))
      ++ (e.toList.flatMap fun e => units.map fun k => { e with unit := k }) }

/-- The TLBs after a translation was used: a TLB holds at most one translation of a 64 KiB piece, so what was replaced is
never used again. A large page is held as the pieces that accesses have used (R121 allows it whole or in pieces; DESIGN
CHOICE, log entry 66). -/
def noteTlb (u tenant : Nat) (va : Word) (s : State) : State :=
  let now := walk s tenant va
  let stale := staleTlb s u tenant va now
  let s' := { s with free := s.free + stale.length }
  if va.toNat / 2 ^ 56 ≠ 0 then s'
  else
    match pickTlb s.free stale with
    | some e => putTlb ((tlbsOf u).take 1) tenant va (some e) s'
    | none =>
      putTlb (tlbsOf u) tenant va (now.map fun (pa, e) =>
        { unit := u, tenant := tenant, vpage := va.toNat / 65536, ppage := pa / 65536, pte := e,
          level := leafLevel s 3 (s.tenant tenant).root va.toNat }) s'

/-! ## The checks of an access (R93, R112) -/

/-- What an access does to its page (R120). -/
inductive Acc where
  | rd | wr | rw | ex
  deriving DecidableEq, Repr

/-- A leaf allows the access at the level of privilege; supervisor accesses ignore U. -/
def permits (e : Word) (priv : Bool) (acc : Acc) : Bool :=
  (priv || pteU e) && match acc with
    | .rd => pteR e
    | .wr => pteW e
    | .rw => pteR e && pteW e
    | .ex => pteX e

/-- The tenant check of R112: the owning core of a window address, or the peer package, lies in the tenant. -/
def tenantOk (s : State) (tenant pa : Nat) : Bool :=
  match classOf s pa with
  | .spad => s.inMesh tenant (spadCore pa)
  | .window => s.inMesh tenant (windowHome pa)
  | .peer => (s.tenant tenant).members.getLsbD (peerPackage pa)
  | _ => true

/-- A checked access: its physical address, leaf entry and class. -/
structure Phys where
  pa : Nat
  pte : Word
  cls : MClass
  deriving DecidableEq, Repr

/-- A result or the trap that prevents it. -/
inductive Checked (α : Type) where
  | ok (v : α)
  | trap (t : TrapInfo)
  deriving DecidableEq, Repr

/-- Translation and protection through a TLB (R93). `cause` is 0x08 or 0x09. -/
def checkPage (s : State) (u tenant : Nat) (priv : Bool) (va : Word) (acc : Acc) (cause : Nat) : Checked Phys :=
  match translateVa s u tenant va with
  | none => .trap { cause := cause, tval := va }
  | some (pa, e) =>
    if !permits e priv acc then .trap { cause := 0x0A, tval := va }
    else .ok { pa := pa, pte := e, cls := classOf s pa }

/-- Translation, protection, class and tenant, in this order (R93). `device` admits a device register. -/
def checkAt (s : State) (u tenant : Nat) (priv : Bool) (va : Word) (acc : Acc) (cause : Nat) (device : Nat → Bool) :
    Checked Phys :=
  match checkPage s u tenant priv va acc cause with
  | .trap t => .trap t
  | .ok p =>
    if p.cls = .none ∨ (p.cls = .device ∧ !device p.pa) then .trap { cause := 0x04, tval := va }
    else if !tenantOk s tenant p.pa then .trap { cause := 0x1D, tval := va }
    else .ok p

def noDevice (_ : Nat) : Bool := false

/-- The TLB of the core of the step. -/
def State.myTlb (s : State) : Nat := coreTlb (coreOf s.cur)

/-- `checkAt` for the issuing context. -/
def check (s : State) (va : Word) (acc : Acc) (cause : Nat) (device : Nat → Bool := noDevice) : Checked Phys :=
  checkAt s s.myTlb s.myTenant s.me.priv va acc cause device

/-- `translateVa` for the issuing context. -/
def myTranslate (s : State) (va : Word) : Option (Nat × Word) := translateVa s s.myTlb s.myTenant va

/-- `noteTlb` for the issuing context. -/
def noteMine (va : Word) (s : State) : State := noteTlb s.myTlb s.myTenant va s

/-- The first address of each 64 KiB page that a range touches, the range's own address first. -/
def pageStarts (va : Word) (len : Nat) : List Word :=
  let first := va.toNat / 65536
  let n := (va.toNat + len - 1) / 65536 - first
  va :: (List.range n).map fun i => BitVec.ofNat 64 ((first + i + 1) * 65536)

/-- The first and last byte of a range in each 64-byte block that it touches: class and tenant are the same between. -/
def blockEnds (va len : Nat) : List Nat :=
  if len = 0 then []
  else
    (List.range ((va + len - 1) / 64 + 1 - va / 64)).flatMap fun i =>
      [Nat.max va ((va / 64 + i) * 64), Nat.min (va + len - 1) ((va / 64 + i) * 64 + 63)]

/-- The checks of a range of bytes up to the class: translation of every page first, then protection, then the class of
every byte; each reports the first failing address (R366, R372). -/
def checkBytes (s : State) (va : Word) (len : Nat) (acc : Acc) (cause : Nat) : Option TrapInfo :=
  let pages := pageStarts va len
  let at_ := fun (a : Word) => checkPage s s.myTlb s.myTenant s.me.priv a acc cause
  let page := fun (k : Nat) => pages.findSome? fun a => match at_ a with
    | .trap t => if t.cause = k then some t else none
    | .ok _ => none
  page cause <|> page 0x0A <|>
    ((blockEnds va.toNat len).map (BitVec.ofNat 64)).findSome? fun a => match at_ a with
      | .ok p => if p.cls = .none ∨ p.cls = .device then some { cause := 0x04, tval := a } else none
      | .trap t => some t

/-- The tenant check of every byte of a range (R112). -/
def tenantBytes (s : State) (va : Word) (len : Nat) : Option TrapInfo :=
  ((blockEnds va.toNat len).map (BitVec.ofNat 64)).findSome? fun a => match myTranslate s a with
    | some (pa, _) => if tenantOk s s.myTenant pa then none else some { cause := 0x1D, tval := a }
    | none => none

/-- Every check of a range of bytes, in the order of `Mem`. -/
def checkRange (s : State) (va : Word) (len : Nat) (acc : Acc) (cause : Nat) : Option TrapInfo :=
  checkBytes s va len acc cause <|> tenantBytes s va len

/-- Runs `body` with a checked access, or traps. -/
def withCheck (r : Checked Phys) (body : Phys → State → State) (s : State) : State :=
  match r with
  | .ok p => body p s
  | .trap t => takeTrap t s

/-- Runs `body` unless a range check traps. -/
def unlessTrap (r : Option TrapInfo) (body : State → State) (s : State) : State :=
  match r with
  | some t => takeTrap t s
  | none => body s

/-! ## Ownership and other holds (R117, R128, R134, R137, R241) -/

/-- The accepted jobs of the package but those at the memory-side units, and those whose writes wait. -/
def State.engineJobs (s : State) : List Job :=
  (s.clusters.flatMap fun (_, c) =>
    c.clove.queue ++ c.copy.queue ++ c.sumac.queue ++ (c.clove.run.map (·.job)).toList
      ++ (c.copy.run.map (·.job)).toList ++ (c.sumac.run.map (·.job)).toList)
    ++ s.coll.queue ++ (s.coll.run.map (·.job)).toList ++ s.late.map (·.job)

/-- Every accepted job of the package. -/
def State.allJobs (s : State) : List Job := s.engineJobs ++ s.msu.jobs.map (·.job)

/-- Two ranges share a 128-byte sector. -/
def sameSector (lo hi lo' hi' : Nat) : Bool := lo / 128 ≤ hi' / 128 && lo' / 128 ≤ hi / 128

/-- A job owns a sector of the range; `wr` asks for any ownership, a read only for an exclusive one (R128). -/
def ownedBy (js : List Job) (wr : Bool) (lo hi : Nat) : Bool :=
  js.any fun j => j.owns.any fun o => (wr || o.excl) && sameSector lo hi o.lo o.hi

def State.owned (s : State) (wr : Bool) (pa n : Nat) : Bool := ownedBy s.allJobs wr pa (pa + n - 1)

/-- The range touches a pending sector. -/
def State.pending (s : State) (pa n : Nat) : Bool :=
  s.pendSectors.any fun p => sameSector pa (pa + n - 1) (p.sector * 128) (p.sector * 128 + 127)

/-- The range lies in a page under re-encryption. -/
def State.inReenc (s : State) (pa n : Nat) : Bool := s.reenc.any fun p => pa / 4096 ≤ p && p ≤ (pa + n - 1) / 4096

/-- The pages of a range with the bytes in each. -/
def pageParts (va n : Nat) : List (Nat × Nat) :=
  if n = 0 then []
  else
    (List.range ((va + n - 1) / 65536 + 1 - va / 65536)).map fun i =>
      let lo := Nat.max va ((va / 65536 + i) * 65536)
      (lo, Nat.min (va + n) ((va / 65536 + i + 1) * 65536) - lo)

/-- A physical range touches rows of a table at virtual addresses, whatever mapping the access used. -/
def inRows (s : State) (tenant base bytes pa n : Nat) : Bool :=
  (pageParts base bytes).any fun (va, k) => match walk s tenant (BitVec.ofNat 64 va) with
    | some (a, _) => a < pa + n && pa < a + k
    | none => false

/-- A look-up of a paused table (R134). -/
def State.pausedAt (s : State) (pa n : Nat) : Bool := s.msu.paused.any fun p => inRows s p.tenant p.base p.bytes pa n

/-- A read of the range has to wait for an agent outside the context. -/
def State.readHeld (s : State) (pa n : Nat) : Bool := s.owned false pa n || s.pending pa n || s.inReenc pa n

/-- A look-up has to wait: as any read, but for the commands that arrived at a unit behind it while a pause held it (R134). -/
def State.lookupHeld (s : State) (l : LookUp) (pa n : Nat) : Bool :=
  ownedBy (s.engineJobs ++ (s.msu.jobs.filter fun j => !j.after.contains l).map (·.job)) false pa (pa + n - 1)
    || s.pending pa n || s.inReenc pa n

/-- The read of a context, and of one of its tagged loads, as a look-up. -/
def lookUpOf (s : State) (x : CtxId) : LookUp :=
  { tag := s.tagOf x, parked := if (s.ctx x).slot = .parked then some (s.ctx x).parkedAt else none }
def entryLookUp (s : State) (x : CtxId) (e : LEntry) : LookUp := { tag := s.tagOf x, entry := some e.num }

/-- Cache maintenance of the range that a context asked for before place `seq` of its program order has not been performed yet:
its access at that place waits for it (R327). -/
def State.maintOf (s : State) (tag pa n seq : Nat) : Bool :=
  s.maint.any fun m => sameSector m.lo m.hi pa (pa + n - 1) && m.tag = tag && m.seq < seq
def State.maintWaits (s : State) (x : CtxId) (pa n seq : Nat) : Bool := s.maintOf (s.tagOf x) pa n seq

/-- Accesses of one cycle to an SRAM word are taken in ascending sender tag: one with a higher tag was taken already, so
this one waits for the next cycle (R126). -/
def State.outOfTurn (s : State) (x : CtxId) (pa n : Nat) : Bool :=
  s.sram.any fun (lo, hi, t) => lo / 8 ≤ (pa + n - 1) / 8 && pa / 8 ≤ hi / 8 && s.tagOf x < t

/-- The access of a context to SRAM words is taken in this cycle. -/
def noteSram (x : CtxId) (pa n : Nat) (s : State) : State :=
  if n ≠ 0 ∧ (rangeOf pa = .spad ∨ rangeOf pa = .window) then
    { s with sram := (pa, pa + n - 1, s.tagOf x) :: s.sram }
  else s

/-- A row of the range is being copied to its replicas (R135). -/
def State.rowCopying (s : State) (pa n : Nat) : Bool :=
  s.msu.hot.any fun h => h.copying && h.pa < pa + n && pa < h.pa + h.bytes

/-- The bytes of a tagged load overlap a range. -/
def LEntry.overlaps (e : LEntry) (pa n : Nat) : Bool := e.ps.any fun p => p.pa < pa + n && pa < p.pa + p.n

/-- The secondary of a primary twin. Both issue the same stores and tagged loads, so their program orders have the same
places. -/
def secondaryOf (s : State) (x : CtxId) : Option CtxId :=
  match (s.ctx x).pair with
  | some (p, true) => ((fget s.twins p).bind (·.b)).bind s.resident
  | _ => none

/-- Bytes of an in-flight tagged load, earlier in program order than `seq`, overlap the range (R166 item 5). A pair's store,
which goes out for the primary, waits for the loads of both twins. -/
def State.inFlight (s : State) (x : CtxId) (pa n seq : Nat) : Bool :=
  (x :: (secondaryOf s x).toList).any fun y =>
    (s.ctx y).landing.any fun (_, e) => e.st = .inFlight && e.seq < seq && e.overlaps pa n

/-- Something holds a write of an agent outside the cores. -/
def State.deviceHeld (s : State) (pa n : Nat) : Bool :=
  s.owned true pa n || s.pending pa n || s.inReenc pa n || s.rowCopying pa n

/-- A write of the range, at place `seq` of program order, has to wait. -/
def State.writeHeld (s : State) (x : CtxId) (pa n seq : Nat) : Bool :=
  s.deviceHeld pa n || s.inFlight x pa n seq || s.outOfTurn x pa n

/-! ## Poison and encryption (R136 to R139) -/

/-- The key of a granule's poison bit; a peer sector held in the package carries its own. -/
def poisonKey (copy : Bool) (pa : Nat) : Nat := pa / 32 + (if copy then 2 ^ 48 else 0)

def State.setPoison (s : State) (key : Nat) : State := { s with poison := nadd s.poison key }
def State.clearPoison (s : State) (key : Nat) : State := { s with poison := ndel s.poison key }

/-- The granules a range touches. -/
def granules (pa n : Nat) : List Nat := (List.range ((pa + n - 1) / 32 + 1 - pa / 32)).map (pa / 32 + ·)

/-- The data of the range is under encryption. -/
def encrypted (s : State) (pa : Nat) : Bool := classOf s pa = .lpddr || classOf s pa = .cxl

/-- The block is under the key of another tenant. -/
def otherKey (s : State) (tenant pa : Nat) : Bool :=
  match fget s.encOwner (pa / 64) with
  | some t => t ≠ tenant
  | none => false

/-- The 64-byte blocks a range touches. -/
def blocks (pa n : Nat) : List Nat := (List.range ((pa + n - 1) / 64 + 1 - pa / 64)).map (pa / 64 + ·)

/-- The tag of a block over what it holds, its address and its counters (R136). -/
def blockTag (s : State) (b : Nat) : BitVec 56 :=
  Config.authTag ((fget s.encOwner b).getD 0) b ((fget s.encMajor (b / 64)).getD 0) ((fget s.encMinor b).getD 0)
    (memReadList s.mem (b * 64) 64)

/-- The tag that the metadata region stores for a block. -/
def storedTag (s : State) (b : Nat) : BitVec 56 := (fget s.encTag b).getD (blockTag s b)

/-- A block fails its check for a tenant: it is under another key, its stored tag is another one, or a node of the counter
tree that covers it fails (R136). -/
def tagFails (s : State) (tenant b : Nat) : Bool :=
  otherKey s tenant (b * 64) || ((fget s.encTag b).isSome && storedTag s b != blockTag s b)
    || s.encTree.any fun (lo, hi) => lo < b * 64 + 64 && b * 64 ≤ hi

/-- With ENCMETA, a block that fails its check is delivered and stored poisoned (R136). -/
def checkTags (tenant pa n : Nat) (s : State) : State :=
  if s.feature 3 ∧ encrypted s pa then
    (blocks pa n).foldl (fun s b =>
      if tagFails s tenant b then (s.setPoison (2 * b)).setPoison (2 * b + 1) else s) s
  else s

/-- A write to a block under a tenant's key: its tag is that of what it holds, and its minor counter advances, or its page
is re-encrypted (R136, R137). -/
def writeBlock (tenant : Nat) (b : Nat) (s : State) : State :=
  let s := { s with encOwner := fput s.encOwner b tenant, encTag := fdel s.encTag b }
  if s.feature 3 then
    let m := (fget s.encMinor b).getD 0
    if m = 127 then { s with reenc := nadd s.reenc (b / 64) } else { s with encMinor := fput s.encMinor b (m + 1) }
  else s

/-- The first poisoned granule of a range, as an address. -/
def firstPoison (s : State) (copy : Bool) (pa n : Nat) : Option Nat :=
  ((granules pa n).find? fun g => nmem s.poison (poisonKey copy (g * 32))).map (· * 32)

/-! ## Reads -/

/-- An access to peer bytes needs a link that trains (R243); bytes that the package holds need none. -/
def linkWaits (s : State) (nc : Bool) (pa n : Nat) : Bool :=
  rangeOf pa = .peer && linkDown s (peerPackage pa)
    && (nc || (List.range n).any fun i => (fget s.peerCopy (pa + i)).isNone)

/-- A route leads from this package to the home of a peer address: without one requests are dropped (R244). -/
def reachable (s : State) (pa : Nat) : Bool := (routeTo s (peerPackage pa)).isSome

/-- What goes out now does not reach the home of a peer address: no route leads there, or it is turned away behind this
package, by a later hop or by the home (R244, R245; a free value, log entry 90). A request is then answered with poison. -/
def homeLost (s : State) (pa : Nat) : Bool := !reachable s pa || Config.turnedAway s.free

/-- A byte as the package's domain holds it (R172, R173). -/
def State.byteAt (s : State) (pa : Nat) : Byte :=
  if rangeOf pa = .peer then
    match fget s.peerCopy pa with
    | some b => b.v
    | none => memRead s.peerHome pa
  else memRead s.mem pa

/-- A byte delivered to a tenant: a block under another key gives unrelated bytes without ENCMETA (R137). -/
def State.byteFor (s : State) (tenant pa : Nat) : Byte :=
  if !s.feature 3 && encrypted s pa && otherKey s tenant pa then
    match fget s.encOwner (pa / 64) with
    | some t => Config.otherKeyByte pa t tenant s.free
    | none => s.byteAt pa
  else s.byteAt pa

/-- The bytes of a range as they are delivered to a tenant. -/
def bytesFor (s : State) (tenant pa n : Nat) : List Byte := (List.range n).map fun i => s.byteFor tenant (pa + i)

/-- Without ENCMETA, a write into a block under another key merges with the unrelated bytes that the block decrypts to,
so its other bytes become those (R137). -/
def scrambleBlock (tenant b : Nat) (s : State) : State :=
  if !s.feature 3 && otherKey s tenant (b * 64) then
    { s with mem := memWriteList s.mem (b * 64) (bytesFor s tenant (b * 64) 64) }
  else s

/-- The newest byte of held stores at an address. -/
def heldByte (sts : List Store) (pa : Nat) : Option Byte :=
  sts.foldl (fun r st => if st.pa ≤ pa ∧ pa < st.pa + st.data.length then st.data[pa - st.pa]? else r) none

/-- Every byte of the range is held in a store of the context. -/
def coveredBy (sts : List Store) (pa n : Nat) : Bool := (List.range n).all fun i => (heldByte sts (pa + i)).isSome

/-- The stores of twin events that wait for their partner (R290). -/
def twinStores (s : State) (x : CtxId) : List Store :=
  match (s.ctx x).pair with
  | none => []
  | some (p, primary) =>
    match fget s.twins p with
    | none => []
    | some t => (if primary then t.ea else t.eb).flatMap fun e => match e.act with
      | .store sts => sts
      | _ => []

/-- The context in whose store path the stores of a context wait: for a secondary twin, that of its primary (R290). -/
def pathOf (s : State) (x : CtxId) : CtxId :=
  match (s.ctx x).pair with
  | some (p, false) => match (fget s.twins p).bind (·.a) with
    | some t => (s.resident t).getD x
    | none => x
  | _ => x

/-- The stores of a context that are not performed yet, oldest first: posted ones, those of the store path, those that a
twin's comparator holds, those of the run-ahead. -/
def heldStores (s : State) (x : CtxId) : List Store :=
  let y := pathOf s x
  (s.posted.filter (·.tag = s.tagOf y)).map (fun p => { pa := p.addr, data := p.data : Store })
    ++ (s.ctx y).stores ++ twinStores s x ++ (s.ctx x).spec

/-- A posted store of a context waits for a link. -/
def State.postedOf (s : State) (tag : Nat) : Bool := s.posted.any fun p => p.tag = tag && linkWaits s true p.addr 1
def State.postedWaits (s : State) (x : CtxId) : Bool := s.postedOf (s.tagOf (pathOf s x))

/-- The link to the home of a dirty byte of the tenant is down. -/
def State.homesDown (s : State) (tenant : Nat) : Bool :=
  s.peerCopy.any fun (a, b) => b.dirty && b.tenant = tenant && linkDown s (peerPackage a)

/-- What a system-scope release of a context has to wait for beside its store path: its posted stores and its cache
maintenance, the links to the homes of the tenant's dirty bytes (R129, R167, R327). -/
def State.releaseOf (s : State) (tenant tag : Nat) : Bool :=
  s.postedOf tag || s.maint.any (·.tag = tag) || s.homesDown tenant
def State.releaseWaits (s : State) (x : CtxId) : Bool :=
  (s.releaseOf (s.tenantOf (coreOf x)) (s.tagOf x)) || s.postedWaits x

/-- The same for a release at place `seq` of the program order: the maintenance asked for later does not count (R327). -/
def State.releaseOfAt (s : State) (tenant tag seq : Nat) : Bool :=
  s.postedOf tag || s.maint.any (fun m => m.tag = tag && m.seq < seq) || s.homesDown tenant
def State.releaseWaitsAt (s : State) (x : CtxId) (seq : Nat) : Bool :=
  (s.releaseOfAt (s.tenantOf (coreOf x)) (s.tagOf x) seq) || s.postedWaits x

/-- A device-class store of the context is not performed yet: its later accesses wait for it (R176). -/
def State.deviceAhead (s : State) (x : CtxId) : Bool := (heldStores s x).any fun st => rangeOf st.pa = .device

/-- A store of the context, earlier in program order than `seq`, that is not performed yet overlaps the range. -/
def State.storeAhead (s : State) (x : CtxId) (pa n seq : Nat) : Bool :=
  (heldStores s x).any fun st => st.seq < seq && st.pa < pa + n && pa < st.pa + st.data.length

/-- Every store of the context is performed, and no fence stands in its path. -/
def State.storesDone (s : State) (x : CtxId) : Bool :=
  (s.ctx x).stores.isEmpty && (s.ctx (pathOf s x)).stores.isEmpty && (twinStores s x).isEmpty

/-- A fence that stands in the store path of the context, earlier in program order than `seq` (R167, R334). -/
def State.fencedBefore (s : State) (x : CtxId) (seq : Nat) : Bool :=
  (s.ctx x).stores.any fun st => st.fence.isSome && st.seq < seq

/-- A tagged load, whose data has not returned, reads bytes of the range that no later store of the context holds: a later
read of the same bytes returns no older value, so it waits for it (R169). -/
def State.taggedAhead (s : State) (x : CtxId) (pa n : Nat) : Bool :=
  (s.ctx x).landing.any fun (_, e) =>
    e.st = .inFlight && e.got.isNone && e.overlaps pa n
      && !coveredBy ((heldStores s x).filter (e.seq < ·.seq)) pa n

/-- The bytes that held stores and the domain give a context: its own newest values first (R166). -/
def readOver (s : State) (x : CtxId) (held : List Store) (pa n : Nat) : List Byte :=
  let t := s.tenantOf (coreOf x)
  (List.range n).map fun i => (heldByte held (pa + i)).getD (s.byteFor t (pa + i))

/-- The hot table that a piece of a load reads rows of. -/
def hotTable (s : State) (p : Piece) : Option KnownTable :=
  s.msu.tables.find? fun k => k.hot && inRows s k.tenant k.base (k.rows * k.rbytes) p.pa p.n

/-- Adds the rows of a hot table that a piece reads to the rows of a look-up, each once. -/
def addRows (s : State) (l : List (Nat × KnownTable)) (p : Piece) : List (Nat × KnownTable) :=
  match hotTable s p with
  | none => l
  | some k => (List.range ((p.pa + p.n - 1) / k.rbytes + 1 - p.pa / k.rbytes)).foldl (fun l i =>
      let row := (p.pa / k.rbytes + i) * k.rbytes
      if l.any (·.1 = row) then l else l ++ [(row, k)]) l

/-- Counts one look-up of a row. -/
def countRow (row : Nat) (k : KnownTable) (s : State) : State :=
  let hot := if s.msu.hot.any (·.pa = row) then
      s.msu.hot.map fun h => if h.pa = row then { h with count := h.count + 1 } else h
    else s.msu.hot ++ [{ pa := row, bytes := k.rbytes, hotn := k.hotn, count := 1, since := s.cycle }]
  { s with msu := { s.msu with hot := hot } }

/-- Counts a look-up of a hot table: the rows that a load of the range reads, each once (R130, R135). -/
def countLookup (ps : List Piece) (s : State) : State :=
  (ps.foldl (addRows s) []).foldl (fun s (row, k) => countRow row k s) s

/-! ## Peer lines (R129, R173, R174) -/

/-- A message to the home of a peer address: it goes out on the route there, or is dropped (R244). -/
def askHome (tenant pa : Nat) (p : FabPayload) (s : State) : State :=
  let s := sendFab (peerPackage pa) tenant p s
  { s with free := s.free + 1 }

/-- Runs of consecutive bytes of a sector and a tenant: tenant, first address, bytes. -/
def byteRuns : FMap PeerByte → List (Nat × Nat × List Byte)
  | [] => []
  | (a, b) :: rest =>
    match byteRuns rest with
    | (t, c, bs) :: more =>
      if c = a + 1 ∧ c % 128 ≠ 0 ∧ t = b.tenant then (t, a, b.v :: bs) :: more else (b.tenant, a, [b.v]) :: (t, c, bs) :: more
    | [] => [(b.tenant, a, [b.v])]

/-- Poison bits at the home after a write-back of a run of bytes: those of poisoned granules of the copy are set, those of
granules that the run writes whole are cleared (R138). -/
def homePoison (a n : Nat) (s : State) : State :=
  (granules a n).foldl (fun s g =>
    if nmem s.poison (poisonKey true (g * 32)) then s.setPoison (poisonKey false (g * 32))
    else if a ≤ g * 32 ∧ g * 32 + 32 ≤ a + n then s.clearPoison (poisonKey false (g * 32))
    else s) s

/-- Writes a run of bytes back to its home; one that is turned away is lost (R129, R244). -/
def writeBackRun (s : State) (run : Nat × Nat × List Byte) : State :=
  let (t, a, bs) := run
  let lost := homeLost s a
  let s := askHome t a (.write a bs false) s
  if lost then s else homePoison a bs.length { s with peerHome := memWriteList s.peerHome a bs }

/-- Writes back the dirty bytes that a test selects, poison with them (R129, R138). -/
def writeBackPeers (sel : Nat → PeerByte → Bool) (s : State) : State :=
  (byteRuns (s.peerCopy.filter fun (a, b) => b.dirty && sel a b)).foldl writeBackRun
    { s with peerCopy := s.peerCopy.map fun (a, b) => (a, if b.dirty && sel a b then { b with dirty := false } else b) }

/-- Drops the copies that a test selects. -/
def dropPeers (sel : Nat → PeerByte → Bool) (s : State) : State :=
  { s with
    poison := s.poison.filter fun g =>
      !(2 ^ 48 ≤ g && s.peerCopy.any (fun (a, b) => poisonKey true a = g && sel a b))
    peerCopy := s.peerCopy.filter fun (a, b) => !sel a b }

/-- A system-scope release: every dirty peer byte of the tenant is written back (R129). -/
def systemRelease (tenant : Nat) (s : State) : State := writeBackPeers (fun _ b => b.tenant = tenant) s

/-- A system-scope acquire: every peer sector of the tenant is written back and invalidated (R129). -/
def systemAcquire (tenant : Nat) (s : State) : State :=
  dropPeers (fun _ b => b.tenant = tenant) (writeBackPeers (fun _ b => b.tenant = tenant) s)

/-- The sector of an address is written back and invalidated before an access at its home (R174). -/
def purgeSector (pa n : Nat) (s : State) : State :=
  let sel := fun (a : Nat) (_ : PeerByte) => sameSector pa (pa + n - 1) a a
  dropPeers sel (writeBackPeers sel s)

/-! ## Writes at a peer's home (R174, R175) -/

/-- Poison bits after a write of `n` bytes: a granule written whole is cleared (R138). -/
def clearWhole (copy : Bool) (pa n : Nat) (s : State) : State :=
  (granules pa n).foldl (fun s g => if pa ≤ g * 32 ∧ g * 32 + 32 ≤ pa + n then s.clearPoison (poisonKey copy (g * 32)) else s) s

/-- Peer bytes change at their home. -/
def changeHome (pa : Nat) (data : List Byte) (s : State) : State :=
  clearWhole false pa data.length { s with peerHome := memWriteList s.peerHome pa data }

/-- Writes peer bytes at their home, where the message gets there. -/
def writePeerHome (tenant pa : Nat) (posted : Bool) (data : List Byte) (s : State) : State :=
  let lost := homeLost s pa
  let s := askHome tenant pa (.write pa data posted) s
  if lost then s else changeHome pa data s

/-- A posted store is performed at its home; one that is dropped is counted (R175, R244). -/
def postAtHome (p : Posted) (s : State) : State :=
  let s := if reachable s p.addr then s else s.count p.tenant fun k => { k with stores := k.stores + 1 }
  writePeerHome p.tenant p.addr true p.data s

/-- Posted stores that a test selects are performed at their homes, in order (R175). -/
def performPosted (sel : Posted → Bool) (s : State) : State :=
  (s.posted.filter sel).foldl (fun s p => postAtHome p s)
    { s with posted := s.posted.filter fun p => !sel p }

/-- An access at the home of a peer address crosses the link behind the posted stores to that home (R166 item 2, R175). -/
def afterPosted (pa : Nat) (s : State) : State := performPosted (fun q => q.dest = peerPackage pa) s

/-! ## Filling and reading -/

/-- The sector of an address is dropped from the copies of peer lines to make room: a free value (R129, R173; log entry 68).
While the link to its home trains it stays. -/
def evicted (s : State) (pa : Nat) : Bool := Config.evicts s.free (pa / 128) && !linkDown s (peerPackage pa)

/-- The granules of a range of peer bytes that the package does not hold whole. -/
def missing (s : State) (pa n : Nat) : List Nat :=
  (granules pa n).filter fun g => (List.range 32).any fun i => (fget s.peerCopy (g * 32 + i)).isNone

/-- The sector of an address comes into the package from its home, poison with it; what the package holds of it stays (R129,
R138). -/
def takeSector (tenant a : Nat) (s : State) : State :=
  (List.range 128).foldl (fun s i =>
    match fget s.peerCopy (a + i) with
    | some _ => s
    | none =>
      let s := if nmem s.poison (poisonKey false (a + i)) then s.setPoison (poisonKey true (a + i)) else s
      { s with peerCopy := fput s.peerCopy (a + i) { v := memRead s.peerHome (a + i), dirty := false, tenant := tenant } }) s

/-- Fills the peer sectors of a range from their homes; answers the granules that the homes answered with poison. Other
sectors may be evicted to make room, dirty bytes written back (R129, R173). -/
def fillPeer (tenant pa n : Nat) (s : State) : List Nat × State :=
  let first := pa / 128
  let m := (pa + n - 1) / 128 + 1 - first
  let sectors := (List.range m).map fun i => (first + i) * 128
  let absent := sectors.filter fun a => !(missing s a 128).isEmpty
  if absent.isEmpty then ([], s)
  else
    let sel := fun (a : Nat) (_ : PeerByte) => !sameSector pa (pa + n - 1) a a && evicted s a
    let s := if reachable s pa then dropPeers sel (writeBackPeers sel (afterPosted pa s)) else s
    let s := { s with free := s.free + 1 }
    let lost := homeLost s pa
    let s := absent.foldl (fun s a => askHome tenant a (.read a 128) s) s
    if lost then (missing s pa n, s) else ([], absent.foldl (fun s a => takeSector tenant a s) s)

/-- A request to a home, behind the posted stores to it: whether it is answered with poison, and the state after it (R166,
R175, R244). -/
def request (tenant pa : Nat) (p : FabPayload) (s : State) : Bool × State :=
  let s := if reachable s pa then afterPosted pa s else s
  (homeLost s pa, askHome tenant pa p s)

/-- An uncached read goes to the home; answers the granules answered with poison (R175). -/
def askRead (tenant pa n : Nat) (s : State) : List Nat × State :=
  let (lost, s) := request tenant pa (.read pa n) s
  (if lost then granules pa n else [], s)

/-- A read: the bytes, the granules that a peer's home answered with poison (R244), and the state after it. -/
def readBytes (x : CtxId) (held : List Store) (p : Nat) (nc : Bool) (n : Nat) (s : State) : List Byte × List Nat × State :=
  let t := s.tenantOf (coreOf x)
  let (lost, s) := if rangeOf p ≠ .peer then ([], s) else if nc then askRead t p n s else fillPeer t p n s
  let s := checkTags t p n s
  (if rangeOf p = .peer && nc then
      (List.range n).map fun i => (heldByte held (p + i)).getD (memRead s.peerHome (p + i))
    else readOver s x held p n, lost, s)

/-- A read of the context: the bytes, or the first poisoned granule, and the state after it. -/
def performRead (x : CtxId) (held : List Store) (p : Nat) (nc : Bool) (n : Nat) (s : State) : List Byte × Option Nat × State :=
  let (bs, lost, s) := readBytes x held p nc n s
  let copy := rangeOf p = .peer && !nc
  (bs, ((granules p n).find? fun g => nmem s.poison (poisonKey copy (g * 32)) || lost.contains g).map (· * 32), s)

/-! ## Performing a store -/

/-- Writes bytes into the package's own memory under a tenant's key: tag check of the blocks, counters, poison, hot rows. -/
def writeOwn (tenant pa : Nat) (data : List Byte) (s : State) : State :=
  let n := data.length
  let s := checkTags tenant pa n s
  let s := if encrypted s pa then (blocks pa n).foldl (fun s b => writeBlock tenant b (scrambleBlock tenant b s)) s else s
  let s := clearWhole false pa n { s with mem := memWriteList s.mem pa data }
  if s.msu.hot.any (fun h => h.pa < pa + n && pa < h.pa + h.bytes) then
    { s with msu := { s.msu with hot := s.msu.hot.map fun h =>
        if h.pa < pa + n ∧ pa < h.pa + h.bytes then { h with replica := false } else h } }
  else s

/-- Writes bytes of a peer line into the package's copy, dirty (R129). -/
def writePeerCopy (tenant pa : Nat) (data : List Byte) (s : State) : State :=
  clearWhole true pa data.length
    ((List.range data.length).foldl (fun s i =>
      { s with peerCopy := fput s.peerCopy (pa + i) { v := data.getD i 0, dirty := true, tenant := tenant } }) s)

/-- The joins that a write wakes: the counter word holds a written byte and reads zero (R51). -/
def joinersOf (s : State) (pa n : Nat) : List CtxId :=
  (s.ctxs.filter fun (_, c) => c.slot = .parked && match c.wait with
    | some (.join _ w true) => w < pa + n && pa < w + 8 && memNat s w 8 = 0
    | _ => false).map (·.1)

/-- A woken join reads its word again: poison traps, zero completes (R51). -/
def wakeJoin (x : CtxId) (s : State) : State :=
  let cur := s.cur
  let s := s.at x
  let s := match s.me.wait with
    | some (.join va pa _) =>
      match performRead x (heldStores s x) pa false 8 s with
      | (_, some _, s) => enterTrap { cause := 0x0C, tval := va } false s
      | (bs, none, s) => if leNat bs = 0 then completePark s else s
    | _ => s
  s.at cur

/-- The joins that bytes written in the package's own memory wake. -/
def wakeJoins (pa n : Nat) (s : State) : State := (joinersOf s pa n).foldl (fun s j => wakeJoin j s) s

/-- The bytes of a store reach memory, a peer's home or a device register. A system-scope release and a device store come
after the context's posted stores (R129, R176). -/
def placeStore (tag : Nat) (st : Store) (s : State) : State :=
  let t := s.tenantOf (tag / 4096)
  let mine := fun (q : Posted) => q.tag = tag
  let s := if st.rlSy then systemRelease t (performPosted mine s) else s
  if rangeOf st.pa = .peer then
    if st.nc then
      { s with posted := s.posted ++ [{ tag := tag, tenant := t, dest := peerPackage st.pa, addr := st.pa, data := st.data }] }
    else if st.atHome then
      let s := writePeerHome t st.pa false st.data (afterPosted st.pa s)
      (List.range st.data.length).foldl (fun s i =>
        match fget s.peerCopy (st.pa + i) with
        | some b => { s with peerCopy := fput s.peerCopy (st.pa + i) { b with v := st.data.getD i 0, dirty := false } }
        | none => s) s
    else writePeerCopy t st.pa st.data s
  else if rangeOf st.pa = .device then
    devWrite false (st.pa - 0xA0100000000) st.data.length (BitVec.ofNat 64 (leNat st.data)) (performPosted mine s)
  else writeOwn t st.pa st.data s

/-- The store is in the package's own memory. -/
def Store.own (st : Store) : Bool := rangeOf st.pa ≠ .peer && rangeOf st.pa ≠ .device

/-- The joins that a store wakes. -/
def wakeStore (st : Store) (s : State) : State := if st.own then wakeJoins st.pa st.data.length s else s

/-- Performs a store of the context of a tag towards the agents of the package (R380). -/
def performStoreOf (tag : Nat) (st : Store) (s : State) : State := wakeStore st (placeStore tag st s)

/-- Performs the writes of a job with the poison that they carry; the joins that they wake find that poison (R51, R138). -/
def performResult (tag : Nat) (r : Result) (s : State) : State :=
  let s := r.writes.foldl (fun s st => placeStore tag st s) s
  let s := r.poison.foldl (·.setPoison ·) (r.clean.foldl (·.clearPoison ·) s)
  r.writes.foldl (fun s st => wakeStore st s) s

def performStore (x : CtxId) (st : Store) (s : State) : State := performStoreOf (s.tagOf x) st s

/-- What a fence does once every earlier access of the context is performed: `fence.sy` waits for the posted stores, writes
back the tenant's dirty peer bytes and invalidates its peer sectors (R129, R167, R334). -/
def passFenceOf (tag : Nat) (sy : Bool) (s : State) : State :=
  if sy then systemAcquire (s.tenantOf (tag / 4096)) (performPosted (fun q => q.tag = tag) s) else s

def passFence (x : CtxId) (sy : Bool) (s : State) : State := passFenceOf (s.tagOf (pathOf s x)) sy s

/-- Stores of the context earlier in program order than a fence wait elsewhere: with the comparator, in the path of the
primary twin, or, for `fence.sy`, posted behind a link, with what else a system-scope release waits for. -/
def fenceWaits (s : State) (x : CtxId) (sy : Bool) (seq : Nat) : Bool :=
  (twinStores s x).any (·.seq < seq) || (sy && s.releaseWaitsAt x seq)
    || (pathOf s x ≠ x && (s.ctx (pathOf s x)).stores.any fun st => st.fence.isNone && st.seq < seq)

/-- A store of the context has to wait: for an agent, for maintenance, for the link to its home, or, a release or a device
store, for the stores posted before it. -/
def storeHeld (s : State) (x : CtxId) (st : Store) : Bool :=
  s.writeHeld x st.pa st.data.length st.seq || s.maintWaits x st.pa st.data.length st.seq
    || (st.atHome && linkWaits s true st.pa st.data.length) || (st.rlSy && s.releaseWaitsAt x st.seq)
    || (rangeOf st.pa = .device && s.postedWaits x)

/-- Performs the stores at the head of the store path of a context that nothing holds any more, in order. -/
def flushPath (x : CtxId) : Nat → State → State
  | 0, s => s
  | n + 1, s =>
    match (s.ctx x).stores with
    | [] => s
    | st :: rest =>
      let c := s.ctx x
      match st.fence with
      | some sy =>
        if fenceWaits s x sy st.seq then s
        else flushPath x n (passFence x sy (s.setCtx x { c with stores := rest }))
      | none =>
        if storeHeld s x st then s
        else flushPath x n (noteSram x st.pa st.data.length (performStore x st (s.setCtx x { c with stores := rest })))

/-- Writes back, and drops where asked, the peer sectors of a physical range (R326). -/
def maintain (m : Maint) (s : State) : State :=
  let sel := fun (a : Nat) (_ : PeerByte) => sameSector m.lo m.hi a a
  let s := writeBackPeers sel s
  if m.drop then dropPeers sel s else s

/-- The stores of the context of a tag that are not performed yet, in its slot or behind it. -/
def storesOf (s : State) (tag : Nat) : List Store :=
  match s.resident tag with
  | some x => heldStores s x
  | none => (fget s.orphans tag).getD []

/-- Maintenance of a sector waits: for the job that owns it exclusively, for an earlier store of its context to the sector, for
the link that its dirty bytes cross. -/
def maintHeld (s : State) (m : Maint) : Bool :=
  s.owned false m.lo 128
    || (storesOf s m.tag).any (fun st => st.seq < m.seq && st.fence.isNone && sameSector m.lo m.hi st.pa (st.pa + st.data.length - 1))
    || (linkDown s (peerPackage m.lo) && s.peerCopy.any fun (a, b) => b.dirty && sameSector m.lo m.hi a a)

/-- Cache maintenance at once, but for the sectors that have to wait: those follow one by one (R327). -/
def issueMaint (m : Maint) (s : State) : State :=
  (List.range (m.hi / 128 + 1 - m.lo / 128)).foldl (fun s i =>
    let n := m.lo / 128 + i
    let one : Maint := { m with lo := n * 128, hi := n * 128 + 127 }
    if maintHeld s one then { s with maint := s.maint ++ [one] } else maintain one s) s

/-- A store that a context left behind has to wait, also for an earlier tagged load of its bytes that a save cancelled and a
restore issues again (R159, R166 item 5). -/
def orphanHeld (s : State) (tag : Nat) (st : Store) : Bool :=
  let n := st.data.length
  s.deviceHeld st.pa n || (st.atHome && linkWaits s true st.pa n) || s.maintOf tag st.pa n st.seq
    || ((fget s.savedLoads tag).getD []).any (fun (_, e) => e.seq < st.seq && e.overlaps st.pa n)
    || (st.rlSy && s.releaseOfAt (s.tenantOf (tag / 4096)) tag st.seq) || (rangeOf st.pa = .device && s.postedOf tag)

/-- Performs the store path that a context left behind, in order, as far as nothing holds it. -/
def flushOrphan (tag : Nat) : List Store → State → State
  | [], s => { s with orphans := fdel s.orphans tag }
  | st :: rest, s =>
    let stay := { s with orphans := fput s.orphans tag (st :: rest) }
    match st.fence with
    | some sy =>
      if sy && s.releaseOfAt (s.tenantOf (tag / 4096)) tag st.seq then stay else flushOrphan tag rest (passFenceOf tag sy s)
    | none => if orphanHeld s tag st then stay else flushOrphan tag rest (performStoreOf tag st s)

def flushOrphans (s : State) : State := s.orphans.foldl (fun s (tag, sts) => flushOrphan tag sts s) s

/-- Plain bytes at package scope under a tenant's key, with the joins they wake. -/
def deviceWrite (tenant pa : Nat) (data : List Byte) (s : State) : State :=
  wakeJoins pa data.length (writeOwn tenant pa data s)

/-- The tenant whose key covers the HDM range (R304). -/
def hdmTenant (s : State) : Nat := (s.boot.record.map (·.hdmTenant)).getD 0

/-- Puts a packet on its way; same-cycle arrivals are pushed by rank (R55). -/
def insertPacket (t : Nat) (p : Packet) : List (Nat × Packet) → List (Nat × Packet)
  | [] => [(t, p)]
  | q :: rest => if q.2.rank ≤ p.rank then q :: insertPacket t p rest else (t, p) :: q :: rest

def addPacket (t : Nat) (p : Packet) (s : State) : State :=
  { s with net := { s.net with packets := insertPacket t p s.net.packets } }

/-- The window packets behind which no host store waits any more are on their way (R54). -/
def releasePackets (s : State) : State :=
  (s.hostPackets.filter (·.1 = 0)).foldl (fun s q => addPacket q.2.1 q.2.2 s)
    { s with hostPackets := s.hostPackets.filter (·.1 ≠ 0) }

/-- Performs the host's writes in order, as far as nothing holds them (R297); window packets follow the writes before them
(R54). -/
def flushHost : Nat → State → State
  | 0, s => releasePackets s
  | n + 1, s =>
    match s.hostStores with
    | [] => releasePackets s
    | st :: rest =>
      if s.deviceHeld st.pa st.data.length then releasePackets s
      else flushHost n (deviceWrite (hdmTenant s) st.pa st.data { s with
        hostStores := rest, hostPackets := s.hostPackets.map fun q => (q.1 - 1, q.2) })

/-- A write of a job waits: for an earlier job, a pending sector, a re-encryption or a copy of a row (R177). -/
def jobWriteHeld (s : State) (order : Nat) (st : Store) : Bool :=
  let n := st.data.length
  n ≠ 0 && (ownedBy (s.allJobs.filter (·.order < order)) true st.pa (st.pa + n - 1) || s.pending st.pa n || s.inReenc st.pa n
    || s.rowCopying st.pa n)

/-- The place of a waiting result: in the order of acceptance. -/
def insertLate (l : Late) : List Late → List Late
  | [] => [l]
  | q :: rest => if q.job.order ≤ l.job.order then q :: insertLate l rest else l :: q :: rest

/-- The result of a job: performed, or held together while one of its writes waits, which adds nothing to the job's time
(R210, R418; log entry 89). -/
def putResult (job : Job) (r : Result) (s : State) : State :=
  if r.writes.any (jobWriteHeld s job.order) then
    let owns := r.writes.map fun st => { excl := true, lo := st.pa, hi := st.pa + st.data.length - 1 : Own }
    { s with late := insertLate { job := { job with owns := owns }, res := r } s.late }
  else performResult job.cmd.tag r s

/-- Performs the results that nothing holds any more, in order. -/
def flushLate (s : State) : State :=
  s.late.foldl (fun s l => putResult l.job l.res s) { s with late := [] }

/-- Performs every store, and all cache maintenance, that nothing holds any more. -/
def flushAll (s : State) : State :=
  let s := flushHost s.hostStores.length (flushLate s)
  let s := flushOrphans (s.maint.foldl (fun s m => issueMaint m s) { s with maint := [] })
  (s.ctxs.filter fun (_, c) => !c.stores.isEmpty).foldl
    (fun s (x, c) => flushPath x c.stores.length s) s

/-- The place of a store in a path: behind what is earlier in program order. -/
def insertStore (st : Store) : List Store → List Store
  | [] => [st]
  | q :: rest => if q.seq ≤ st.seq then q :: insertStore st rest else st :: q :: rest

/-- A store of the context: performed, or placed in the store path behind earlier ones (R128, R166, R241). -/
def issueStore (x : CtxId) (st : Store) (s : State) : State :=
  let c := s.ctx x
  if c.stores.any (·.seq ≤ st.seq) || storeHeld s x st then
    s.setCtx x { c with stores := insertStore st c.stores }
  else noteSram x st.pa st.data.length (performStore x st s)

/-! ## Stores of a context that moves -/

/-- The posted stores, the maintenance and the stores left behind of a context follow it to a new tag. -/
def retagStores (old new : Nat) (s : State) : State :=
  let tag := fun (t : Nat) => if t = old then new else t
  { s with
    posted := s.posted.map fun p => { p with tag := tag p.tag }
    maint := s.maint.map fun m => { m with tag := tag m.tag } }

/-- A context that leaves its slot leaves its store path behind. -/
def leaveStores (x : CtxId) (s : State) : State :=
  let sts := (s.ctx x).stores
  if sts.isEmpty then s
  else { s with orphans := fput s.orphans (s.tagOf x) ((fget s.orphans (s.tagOf x)).getD [] ++ sts) }

/-- A context that is saved with stores in its path keeps the places of its tagged loads in flight: the stores behind them stay
held until the loads, issued again, have settled (R159, R166 item 5). -/
def keepLoads (x : CtxId) (s : State) : State :=
  let loads := (s.ctx x).landing.filter fun (_, e) => e.st = .inFlight
  if (s.ctx x).stores.isEmpty || loads.isEmpty then s
  else { s with savedLoads := fput s.savedLoads (s.tagOf x) loads }

/-- A restored context takes up the store path that it left under its old tag, ahead of its program order (R345). -/
def adoptStores (old : Nat) (x : CtxId) (s : State) : State :=
  let sts := (fget s.orphans old).getD []
  let c := s.ctx x
  let next := (sts.map (·.seq) ++ (s.maint.filter (·.tag = s.tagOf x)).map (·.seq)).foldl (fun n k => Nat.max n (k + 1)) c.seq
  { s.setCtx x { c with stores := sts, seq := next } with orphans := fdel s.orphans old, savedLoads := fdel s.savedLoads old }

/-! ## Writes of the device through physical addresses (R274, R280, R284, R419) -/

/-- Every byte of a physical range lies in the LPDDR6 class. -/
def allLpddr (s : State) (pa n : Nat) : Bool := n = 0 || (classOf s pa = .lpddr && classOf s (pa + n - 1) = .lpddr)

end Sys2Proof.Machine
end

