-- ==== Sys2Proof/Machine/Fetch.lean ====
section
/-! DEFINITION. Fetching an instruction: its parcels and the checks on them (R67, R68). -/

namespace Sys2Proof.Machine

/-- What fetching parcels gives: parcels, a wait for data that is held, or the trap of R68. -/
inductive Fetched where
  | parcels (ps : List Nat)
  | wait
  | trap (t : TrapInfo)

/-- The context's own stores that fetch sees although they are not performed yet: those that a fence follows in program order
(R68, R334). -/
def fencedStores (s : State) : List Store :=
  (heldStores s s.cur).filter fun st => s.me.stores.any fun f => f.fence.isSome && st.seq < f.seq

/-- Fetches one parcel: translation, execute permission, class, then poison (R68). -/
def fetchParcel (s : State) (va : Word) : Fetched :=
  match myTranslate s va with
  | none => .trap { cause := 0x08, tval := va }
  | some (pa, e) =>
    if !permits e s.me.priv .ex then .trap { cause := 0x0A, tval := va }
    else
      let cls := classOf s pa
      if cls = .none ∨ cls = .device then .trap { cause := 0x04, tval := va }
      else if !coveredBy (fencedStores s) pa 2
          && (s.readHeld pa 2 || s.maintWaits s.cur pa 2 s.me.seq || linkWaits s (pteNC e) pa 2) then .wait
      else
        match performRead s.cur (fencedStores s) pa (pteNC e) 2 s with
        | (_, some _, _) => .trap { cause := 0x0C, tval := va }
        | (bs, none, _) => .parcels [leNat bs]

/-- Fetches parcels up to the first base parcel, at most `n`. Where two parcels meet different conditions of R68, that of the
earlier parcel is reported: every check of a parcel comes before the next parcel (DESIGN CHOICE, log entry 92). -/
def fetchFrom (s : State) : Nat → Word → Fetched
  | 0, _ => .parcels []
  | n + 1, va =>
    match fetchParcel s va with
    | .parcels [p] =>
      if p / 4096 = 15 then
        match fetchFrom s n (va + 2) with
        | .parcels ps => .parcels (p :: ps)
        | r => r
      else .parcels [p]
    | r => r

/-- The parcels of the instruction at the pc of the context of the step. -/
def fetch (s : State) : Fetched :=
  if s.me.pc.getLsbD 0 then .trap { cause := 0x04, tval := s.me.pc } else fetchFrom s 5 s.me.pc

/-- What the fetch of `n` parcels leaves: translations noted, peer sectors filled, tags checked. -/
def noteFetch : Nat → Word → State → State
  | 0, _, s => s
  | n + 1, va, s =>
    let s := match myTranslate s va with
      | some (pa, e) => (performRead s.cur [] pa (pteNC e) 2 s).2.2
      | none => s
    noteFetch n (va + 2) (noteMine va s)

/-- What a fetch that traps leaves: a parcel whose block fails its tag check is stored poisoned (R136). -/
def noteTrap (i : TrapInfo) (s : State) : State :=
  if i.cause = 0x0C then noteFetch ((i.tval - s.me.pc).toNat / 2 + 1) s.me.pc s else s

/-- The instruction that parcels hold; what is no instruction is the illegal-instruction step (R84). -/
def instrOf (ps : List Nat) : Instr × Nat :=
  match decode ps with
  | .ok i n => (i, n)
  | .bad w k => (.illegalInstruction (BitVec.ofNat 16 w) (Fin.ofNat 5 k), ps.length)
  | .short => (.illegalInstruction (BitVec.ofNat 16 (ps.getLastD 0)) (Fin.ofNat 5 (ps.length - 1)), ps.length)

/-- The state in which a fetched instruction executes: the next address, the base parcel and its index. -/
def issued (ps : List Nat) (n : Nat) (s : State) : State :=
  (noteFetch ps.length s.me.pc s).onMe fun c =>
    { c with next := c.pc + BitVec.ofNat 64 (2 * n), base := ps.getD (n - 1) 0, index := n - 1 }

end Sys2Proof.Machine
end

