-- ==== Sys2Proof/Machine/Place.lean ====
section
/-! DEFINITION. A running module with one instruction placed where its only context fetches next (log entry 9). -/

namespace Sys2Proof.Machine

/-- The address of the placed instruction, and of the two page tables that map the first GiB onto itself. -/
def placeAt : Nat := 0x10000
def placeRoot : Nat := 0x20000
def placeTable : Nat := 0x30000

/-- The bytes of a table word, with zeros up to the longest instruction. -/
def placeBytesOf (nbits w : Nat) : List Byte :=
  (parcelBytes (tableParcels nbits w) ++ List.replicate 10 0).take 10

/-- Memory with the instruction and the page tables: a level-3 entry to the level-2 table, whose first entry is a leaf of
1 GiB at address 0 with U, R, W and X (R119, R120). -/
def placeMem (nbits w : Nat) (m : Memory) : Memory :=
  memWriteList (memWriteList (memWriteList m placeAt (placeBytesOf nbits w)) placeRoot (natLe 8 (placeTable + 1)))
    placeTable (natLe 8 0x7D)

/-- A tenant of the whole package with that page table. -/
def placeTenant : Tenant := { cx0 := 0, cy0 := 0, cw := 16, ch := 22, root := placeRoot }

/-- The module runs with every feature, tenant 0 has one ready user context in slot 0 of core 0, at cycle 0, and its pc
is at the instruction. -/
def placeWord (nbits w : Nat) (s : State) : State :=
  { s with
    cycle := 0, turn := 0, cur := 0, agenda := []
    mem := placeMem nbits w s.mem
    ctxs := [(0, { slot := .ready, inc := 1, pc := BitVec.ofNat 64 placeAt })]
    cores := [], clusters := [], tenants := [(0, placeTenant)], net := {}, coll := {}, msu := {}, tlb := []
    poison := [], pendSectors := [], reenc := [], encOwner := [], encTag := [], encTree := []
    maint := [], late := [], closing := false
    boot := { s.boot with state := 3, minimal := false, enabled := 0x7F, record := none } }

end Sys2Proof.Machine
end

