-- ==== Sys2Proof/Machine/Boot.lean ====
section
/-! DEFINITION. The start sequence, the features, audited jobs, the host's HDM range and the package number (R245, R297 to
R308). -/

namespace Sys2Proof.Machine

/-! ## Signed records (R303, R305) -/

/-- A signed record: its fields, its body, and the bytes that both signatures cover. -/
structure Signed where
  kind : Nat
  version : Nat
  signer : List Byte
  body : List Byte
  covered : List Byte
  ed : List Byte
  ml : List Byte
  deriving DecidableEq, Repr

/-- The record that bytes hold: LEN is in range and says how long the record is. -/
def signedRecord (bs : List Byte) : Option Signed :=
  let len := field bs 4 4
  if 1 ≤ len ∧ len ≤ 2 ^ 28 ∧ bs.length = 64 + len + 64 + 3309 then
    some { kind := field bs 0 4, version := field bs 8 8, signer := (bs.drop 16).take 48, body := (bs.drop 64).take len,
           covered := bs.take (64 + len), ed := (bs.drop (64 + len)).take 64, ml := bs.drop (128 + len) }
  else none

/-- A signer's two public keys. -/
structure Keys where
  ed : List Byte
  ml : List Byte

def sha384 (bs : List Byte) : List Byte := (List.range 48).map (Config.sha384 bs)

/-- The keys that SIGNER names are these, and both signatures verify under them. -/
def Signed.accepted (r : Signed) (kind : Nat) (k : Keys) : Bool :=
  r.kind = kind && r.signer = sha384 (k.ed ++ k.ml) && Config.edVerifies k.ed r.covered r.ed && Config.mlVerifies k.ml r.covered r.ml

/-- The vendor keys of the boot ROM. -/
def vendorKeys : Keys :=
  { ed := (List.range 32).map Config.vendorKey, ml := (List.range 1952).map fun i => Config.vendorKey (32 + i) }

/-- A record that is accepted; one without the layout of R303 is not (log entry 80). -/
def acceptedRecord (kind : Nat) (k : Keys) (bs : List Byte) : Option Signed :=
  match signedRecord bs with
  | some r => if r.accepted kind k then some r else none
  | none => none

/-- The keys that an owner record names, where its body has the layout of R305. -/
def ownerKeys (body : List Byte) : Option Keys :=
  if body.length = 2016 ∧ field body 0 4 = 1 ∧ field body 4 4 = 0 ∧ field body 2008 8 = 0 then
    some { ed := (body.drop 24).take 32, ml := (body.drop 56).take 1952 }
  else none

/-! ## The configuration record (R304) -/

/-- A tenant entry of 192 bytes. -/
def tenantEntry (bs : List Byte) : TenantEntry :=
  { tenant := field bs 0 2, cx0 := field bs 2 1, cy0 := field bs 3 1, cw := field bs 4 1, ch := field bs 5 1,
    root := field bs 8 8, steal := BitVec.ofNat 64 (field bs 16 8), members := BitVec.ofNat 1024 (field bs 64 128),
    reserved := field bs 6 2 + field bs 24 40 * 2 ^ 16 }

/-- The body of a configuration record. -/
def configOf (bs : List Byte) : ConfigRecord :=
  { format := field bs 0 4, minFw := field bs 8 8, minCfg := field bs 16 8, minOwn := field bs 24 8,
    win := (List.range 4).map fun d => field bs (32 + d) 1, hdmSize := field bs 36 2, hdmTenant := field bs 38 2,
    wdog := field bs 40 2, reserved := field bs 42 22,
    tenants := (List.range ((bs.length - 64) / 192)).map fun i => tenantEntry ((bs.drop (64 + 192 * i)).take 192) }

/-- LEN agrees with NTEN. -/
def configLength (bs : List Byte) : Bool := bs.length = 64 + 192 * field bs 4 4

/-- Two rectangles of clusters overlap. -/
def rectOverlap (a b : TenantEntry) : Bool :=
  a.cx0 < b.cx0 + b.cw && b.cx0 < a.cx0 + a.cw && a.cy0 < b.cy0 + b.ch && b.cy0 < a.cy0 + a.ch

/-- Every pair of entries passes a test. -/
def pairwise (ok : TenantEntry → TenantEntry → Bool) : List TenantEntry → Bool
  | [] => true
  | a :: rest => rest.all (ok a) && pairwise ok rest

/-- The fields of a tenant entry are in range. Which of R13's two sizes of LPDDR6 bounds ROOT and HDMSIZE is open while the
record is checked, before ENCMETA is settled: it is the larger (DESIGN CHOICE, log entry 62). -/
def entryOk (e : TenantEntry) : Bool :=
  e.tenant < 4096 && e.cx0 ≤ 15 && e.cy0 ≤ 21 && 1 ≤ e.cw && e.cw + e.cx0 ≤ 16 && 1 ≤ e.ch && e.ch + e.cy0 ≤ 22
    && e.root % 65536 = 0 && e.root + 65536 ≤ 1726900000000 && e.reserved = 0

/-- The configuration record has no field out of range (R304; HDMSIZE as ROOT, log entry 62). -/
def recordOk (r : ConfigRecord) : Bool :=
  r.format = 1 && 1 ≤ r.tenants.length && r.tenants.length ≤ 352 && r.win.length = 4 && r.win.all (· ≤ 12)
    && r.hdmSize ≤ 1726900000000 / 2 ^ 30 && r.wdog < 65536 && r.reserved = 0 && r.tenants.all entryOk
    && pairwise (fun a b => a.tenant ≠ b.tenant && !rectOverlap a b) r.tenants
    && r.tenants.any (·.tenant = r.hdmTenant)

/-- The firmware records that are accepted, where all of them are. -/
def startFirmware (i : ResetInput) : Option (List Signed) := i.firmware.mapM (acceptedRecord 1 vendorKeys)

/-- The accepted owner record, and the configuration record accepted under its keys. -/
def startRecords (i : ResetInput) : Option (Signed × Signed) :=
  match acceptedRecord 3 vendorKeys i.owner with
  | none => none
  | some o =>
    match ownerKeys o.body with
    | none => none
    | some k => (acceptedRecord 2 k i.config).map (o, ·)

/-- The REASON of the first failure of a start, in the order of the table of R301, or none. An owner record with another body
than R305 gives fails like its signature (log entry 80). -/
def startFailure (i : ResetInput) : Option Nat :=
  match startFirmware i, startRecords i with
  | none, _ => some 1
  | some _, none => some 2
  | some fw, some (o, c) =>
    let r := configOf c.body
    if fw.any (·.version < r.minFw) || c.version < r.minCfg || o.version < r.minOwn then some 3
    else if !configLength c.body || !recordOk r then some 4
    else if !i.lpddrOk then some 5
    else if !i.selfTestOk then some 6
    else if !i.hostLinkOk then some 7
    else none

/-! ## The start (R299, R301, R302) -/

/-- An expander that trained and reports 4 TB or less is present (R297). -/
def presentExpander (c : Option Nat) : Option Nat :=
  match c with
  | some n => if n ≤ 4000000000000 then some n else none
  | none => none

/-- The features offered (R299). -/
def offered (minimal : Bool) (ex : List (Option Nat)) : BitVec 256 :=
  let bit := fun (n : Nat) (b : Bool) => if b then 2 ^ n else 0
  let has := fun (p : Nat) => (ex.getD p none).isSome
  BitVec.ofNat 256 (bit 0 (!minimal) + bit 1 (!minimal && has 0) + bit 2 (!minimal && has 1) + bit 3 true
    + bit 4 (!minimal) + bit 5 true + bit 6 true)

/-- What a reset leaves: boot flash, and the memories of the other packages. -/
def resetKeeping (s : State) : State :=
  { State.reset with
    peerHome := s.peerHome
    poison := s.poison.filter fun g => g < 2 ^ 48 && rangeOf (g * 32) = .peer
    boot := { fails := s.boot.fails, flashReason := s.boot.flashReason, recordSeqs := s.boot.recordSeqs } }

/-- MODULE_RESET: verify, train and offer; a start that begins with FAILS = 3 is one in minimal mode. -/
def execModuleReset (i : ResetInput) (s : State) : Out :=
  let s := resetKeeping s
  let minimal := s.boot.fails = 3
  let b := { s.boot with minimal := minimal, fails := if minimal then 3 else s.boot.fails + 1 }
  .next
    (match startFailure i with
    | some r => { s with boot := { b with state := 5, reason := r, flashReason := r } }
    | none =>
      let ex := if minimal then [none, none] else i.expanders.map presentExpander
      { s with boot := { b with
          state := 2, reason := if minimal then s.boot.flashReason else 0, offer := offered minimal ex, expanders := ex,
          record := (startRecords i).map fun (_, c) => configOf c.body, measures := i.firmware.map sha384 } })

/-- ACCEPT_WRITE: a word of ACCEPT takes the offered bits, before GO (R298). -/
def execAcceptWrite (i : Nat) (v : Word) (s : State) : Out :=
  if 4 ≤ i then .fault (.noSuchUnit "ACCEPT_WRITE")
  else if s.boot.state = 3 ∨ s.boot.state = 4 then .next s
  else
    let m : BitVec 256 := BitVec.ofNat 256 (2 ^ 64 - 1) <<< (64 * i)
    let w : BitVec 256 := (v.setWidth 256 <<< (64 * i)) &&& s.boot.offer
    .next { s with boot := { s.boot with accept := (s.boot.accept &&& ~~~m) ||| w } }

/-- The initial c.steal of a record, as the register stores it (R56). -/
def stealWord (v : Word) : Word := (v &&& 0x00FFFFFFFFFFF000) ||| BitVec.ofNat 64 (Nat.min 4 (v.toNat % 8))

/-- The tenant of an entry. -/
def tenantOfEntry (wdog : Nat) (e : TenantEntry) : Tenant :=
  { cx0 := e.cx0, cy0 := e.cy0, cw := e.cw, ch := e.ch, root := e.root, steal := stealWord e.steal,
    wdog := BitVec.ofNat 64 wdog, members := e.members }

/-- The tenants that a start sets up: those of the record, or tenant 0 on die 0 in minimal mode (R302, R304). -/
def startTenants (minimal : Bool) (r : ConfigRecord) : FMap Tenant :=
  if minimal then
    let e := (r.tenants.find? (·.tenant = 0)).getD
      { tenant := 0, cx0 := 0, cy0 := 0, cw := 0, ch := 0, root := 0, steal := 0, members := 0, reserved := 0 }
    [(0, { tenantOfEntry r.wdog e with cx0 := 0, cy0 := 0, cw := 8, ch := 11, members := 0 })]
  else r.tenants.foldl (fun m e => fput m e.tenant (tenantOfEntry r.wdog e)) []

/-- GO: the accepted features are enabled, the tenants exist, the module runs. -/
def execGo (s : State) : Out :=
  if s.boot.state ≠ 2 then .next s
  else
    let b := s.boot
    .next { s with
      tenants := match b.record with
        | some r => startTenants b.minimal r
        | none => []
      boot := { b with
        state := if b.minimal then 4 else 3
        fails := if b.minimal then b.fails else 0
        enabled := b.accept &&& b.offer
        since := s.cycle } }

/-- A reset of the module: the security processor starts again at verify. -/
def toReset (s : State) : State := resetKeeping s

/-- RETRY: in minimal mode, FAILS := 2 and a reset (R302). -/
def execRetry (s : State) : Out :=
  .next (if s.boot.minimal then toReset { s with boot := { s.boot with fails := 2 } } else s)

/-- Cycles of a second. -/
def second : Nat := 1050000000

/-- OFFER_TIMEOUT: 60 s in offer without GO. -/
def offerLate (s : State) : Bool := s.boot.state = 2 && s.boot.since + 60 * second ≤ s.cycle

def execOfferTimeout (s : State) : Out :=
  .next (if offerLate s then
    { s with boot := { s.boot with state := 5, reason := 8, flashReason := 8, since := s.cycle } } else s)

/-- FAILURE_RESET_TIMER: a second after a failure the module resets itself. -/
def failureOver (s : State) : Bool := s.boot.state = 5 && s.boot.since + second ≤ s.cycle

def execFailureResetTimer (s : State) : Out := .next (if failureOver s then toReset s else s)

/-! ## Audited jobs (R307, R308) -/

def State.onAudit (s : State) (t : Nat) (f : AuditJob → AuditJob) : State :=
  if (fget s.tenants t).isSome then s.onTenant t fun k => { k with audit := f k.audit } else s

/-- A command of the job record block, where the job's state allows it; else STAT reads refused and nothing changes. -/
def jobCommand (t : Nat) (ok : Nat → Bool) (body : State → State) (s : State) : Out :=
  .next (if ok (s.tenant t).audit.stat then body (s.onAudit t fun a => { a with refused := false })
    else s.onAudit t fun a => { a with refused := true })

/-- The code image of a job cannot be read yet: a job owns a sector of it, or one is pending or under re-encryption (R128). -/
def codeHeld (s : State) (a : AuditJob) : Bool := a.codelen ≠ 0 && s.readHeld a.codebase.toNat a.codelen.toNat

/-- JOB_BEGIN: the code image is hashed as the tenant reads it, once it can be read, and the job opens. A poisoned granule
reads as its plain bytes (DESIGN CHOICE, log entry 83). -/
def execJobBegin (t : Nat) (s : State) : Out :=
  jobCommand t (· = 0) (fun s =>
    let a := (s.tenant t).audit
    let base := a.codebase.toNat
    if codeHeld s a then s.onAudit t fun a => { a with beginning := true }
    else
      let hash := sha384 (bytesFor s t base a.codelen.toNat)
      (checkTags t base a.codelen.toNat s).onAudit t fun a =>
        { a with stat := 1, beginning := false, beginCycle := s.cycle, hash := hash }) s

/-- The first 512 bytes of a job record. -/
def jobBytes (s : State) (t : Nat) : List Byte :=
  let k := s.tenant t
  let c := k.counts
  let body := natLe 4 1 ++ natLe 4 t ++ natLe 8 k.audit.jobid.toNat ++ natLe 8 (((fget s.boot.recordSeqs t).getD 0) + 1)
    ++ natLe 8 k.audit.beginCycle ++ natLe 8 s.cycle
    ++ [c.poison, c.twin, c.calib, c.trap, c.msgs, c.stores, c.lost].flatMap (natLe 4)
    ++ natLe 4 s.boot.measures.length ++ k.audit.hash ++ s.boot.measures.flatten
  (body ++ List.replicate 512 0).take 512

/-- JOB_END: the counts are frozen into the record and zeroed; signing begins. -/
def execJobEnd (t : Nat) (s : State) : Out :=
  jobCommand t (· = 1) (fun s =>
    let bs := jobBytes s t
    let n := ((fget s.boot.recordSeqs t).getD 0) + 1
    let s := { s with boot := { s.boot with recordSeqs := fput s.boot.recordSeqs t n } }
    s.onTenant t fun k => { k with counts := {}, audit := { k.audit with stat := 2, pendingRec := bs } }) s

/-- JOB_RECORD_SIGNED: the signed record can be read. -/
def execJobRecordSigned (t : Nat) (s : State) : Out :=
  .next (if (s.tenant t).audit.stat = 2 then
    s.onAudit t fun a => { a with
      stat := 3, refused := false
      record := a.pendingRec ++ (List.range 3373).map (Config.recordSignature a.pendingRec) } else s)

/-- JOB_ACK: the block is idle again. -/
def execJobAck (t : Nat) (s : State) : Out :=
  jobCommand t (· = 3) (fun s => s.onAudit t fun a => { a with stat := 0 }) s

/-! ## The HDM range and the package number (R245, R297) -/

/-- The bytes of the HDM range: the first HDMSIZE bytes of the LPDDR6 class (R13), none where HDM was not accepted (R299). -/
def hdmSize (s : State) : Nat :=
  if s.feature 4 then Nat.min ((s.boot.record.map (·.hdmSize)).getD 0 * 2 ^ 30) (lpddrSize s) else 0

/-- A host read has to wait: for the host's earlier writes, or for what holds a read of the range (R127, R128). -/
def hostReadHeld (s : State) (addr n : Nat) : Bool := !s.hostStores.isEmpty || s.readHeld addr n

/-- A host read returns its bytes under the key of the range's tenant, poisoned granules as poisoned (R136, R138). -/
def hostRead (addr n : Nat) (s : State) : State :=
  let s := checkTags (hdmTenant s) addr n s
  { s with
    hostData := bytesFor s (hdmTenant s) addr n
    hostPoison := (granules addr n).filter fun g => nmem s.poison (poisonKey false (g * 32)) }

/-- HOST_HDM_ACCESS: a host access to the HDM range, under the key of its tenant. A read waits like a core's. -/
def execHostHdmAccess (write : Bool) (addr : Nat) (data : List Byte) (s : State) : Out :=
  let n := data.length
  .next
    (if n = 0 ∨ hdmSize s < addr + n then s
    else if write then
      flushHost (s.hostStores.length + 1) { s with hostStores := s.hostStores ++ [{ pa := addr, data := data }] }
    else
      let s := { s with hostReads := s.hostReads.erase (addr, n) }
      if hostReadHeld s addr n then { s with hostReads := s.hostReads ++ [(addr, n)] } else hostRead addr n s)

/-- PACKAGE_NUMBER_SET (R245). -/
def execPackageNumberSet (n : Nat) (s : State) : Out :=
  if 1024 ≤ n then .fault (.noSuchUnit "PACKAGE_NUMBER_SET")
  else .next { s with fabric := { s.fabric with package := n } }

end Sys2Proof.Machine
end

