-- ==== Sys2Proof/Machine/MemInstr.lean ====
section
/-! DEFINITION. The memory forms of page 1 but the full/empty and landing-set families: loads, stores, atomics, `fence`,
`flrd`, cache maintenance and `spfence` (R312 to R315, R326 to R328, R334 to R336, R344 to R346, R378 to R381), with what
completes them, and the outgoing events of twins (R290). -/

namespace Sys2Proof.Machine

/-! ## Sizes -/

def szBytes : Sz → Nat
  | .b | .bu => 1 | .h | .hu => 2 | .w | .wu => 4 | .d => 8

def stBytes : StSz → Nat
  | .b => 1 | .h => 2 | .w => 4 | .d => 8

/-- A loaded number as xd receives it (R344). -/
def loadValue (z : Sz) (n : Nat) : Word :=
  match z with
  | .b => (BitVec.ofNat 8 n).signExtend 64
  | .h => (BitVec.ofNat 16 n).signExtend 64
  | .w => (BitVec.ofNat 32 n).signExtend 64
  | .bu => (BitVec.ofNat 8 n).setWidth 64
  | .hu => (BitVec.ofNat 16 n).setWidth 64
  | .wu => (BitVec.ofNat 32 n).setWidth 64
  | .d => BitVec.ofNat 64 n

/-! ## Twin events (R95, R290) -/

def mix64 (k x : Word) : Word :=
  let z := (x ^^^ k) + 0x9E3779B97F4A7C15
  let z := (z ^^^ (z >>> 30)) * 0xBF58476D1CE4E5B9
  let z := (z ^^^ (z >>> 27)) * 0x94D049BB133111EB
  z ^^^ (z >>> 31)

/-- The 8-byte words of an event's data, the last zero-filled. -/
def dataWords (bs : List Byte) : List Word :=
  (List.range ((bs.length + 7) / 8)).map fun i => BitVec.ofNat 64 (field bs (8 * i) 8)

def twinHash (key kind size addr : Nat) (data : List Byte) : Word :=
  let k : Word := BitVec.ofNat 64 key
  (dataWords data).foldl (fun h w => mix64 k (h ^^^ w))
    (mix64 k (BitVec.ofNat 64 (kind * 2 ^ 56 + size * 2 ^ 48 + addr % 2 ^ 48)))

/-- The twin of the step sends an event to the comparator. Kinds: 0 store, 1 `amo`, 2 message, 3 decrement (log entry 17). -/
def twinEmit (kind size addr : Nat) (data : List Byte) (act : TwinAct) (s : State) : State :=
  match s.me.pair with
  | none => s
  | some (p, primary) =>
    let key := (s.tenant s.myTenant).twin.toNat / 2 ^ 32
    let e : TwinEvent := { hash := twinHash key kind size addr data, act := act, at_ := s.cycle }
    let t := (fget s.twins p).getD {}
    { s with twins := fput s.twins p (if primary then { t with ea := t.ea ++ [e] } else { t with eb := t.eb ++ [e] }) }

/-! ## Migrate-on-touch (R62, R160) -/

/-- The migrations that keep a slot of a core free for their restore (R282). -/
def incoming (s : State) (core : Nat) : List Save :=
  s.cores.filterMap fun (_, k) => k.saving.filter fun v => v.target = some core && v.into.isSome

/-- The lowest empty slot of a core that no migration keeps free. -/
def emptySlot (s : State) (core : Nat) : Option Nat :=
  (List.range 16).find? fun i =>
    (s.ctx (core * 16 + i)).slot = .empty && !(incoming s core).any (·.into = some i)

/-- Nothing of the context keeps it from moving (R358). -/
def Ctx.movable (c : Ctx) : Bool :=
  !c.heavy && !c.twin && !c.specOn && c.landing.isEmpty && c.jobs.isEmpty && !c.cg.valid
    && c.mailbox.all (fun (_, l) => l.isEmpty) && c.held.isNone

/-- A command of the context waits at the core (R201). -/
def commandWaits (s : State) (x : CtxId) : Bool :=
  let tag := s.tagOf x
  let mine := fun (l : List Cmd) => l.any (·.tag = tag)
  mine s.coll.waiting || s.clusters.any fun (_, c) => mine c.clove.waiting || mine c.copy.waiting || mine c.sumac.waiting

/-- The core that an access to the page moves the context to, if it moves (R62). A context that `mig` would not move, or
whose owner lies outside its sub-mesh, makes the access from where it is (the spec names no outcome; DESIGN CHOICE, log
entry 69). -/
def touchTarget (s : State) (p : Phys) : Option Nat :=
  if pteMOT p.pte then
    match ownerOf s p.pa with
    | some core =>
      if core ≠ coreOf s.cur ∧ s.me.movable ∧ !commandWaits s s.cur ∧ s.inMesh s.myTenant core ∧ (emptySlot s core).isSome then some core
      else none
    | none => none
  else none

/-- Moves the context first where the page asks for it, else goes on (R62). The plain loads that `send`, `spawn`, `spawn.twin`,
`spawnd`, `fork` and `join` make, and the plain stores of `recv` and `recvn`, move no context: R62 does not say whether it
means them (DESIGN CHOICE, log entry 69). -/
def touch (p : Phys) (body : State → State) (s : State) : State :=
  match touchTarget s p with
  | some core => parkOn (.mig none core) s
  | none => body s

/-- `touch` for an access whose address translates. -/
def touchAt (va : Word) (body : State → State) (s : State) : State :=
  match myTranslate s va with
  | some (pa, e) => touch { pa := pa, pte := e, cls := classOf s pa } body s
  | none => body s

def pieceOf (va : Word) (n : Nat) (p : Phys) : Piece := { va := va, pa := p.pa, nc := pteNC p.pte, n := n }

/-! ## Loads -/

/-- R344: the checks of `ld` in their order, then the park. A device-class load parks until resolution during run-ahead. -/
def execLd (z : Sz) (aq : Bool) (scope : Scope) (d a : XReg) (e : Int) (s : State) : Out :=
  .next (scoreboard [xref a, xref d] (fun s =>
    let va := effAddr (s.x a) e
    let n := szBytes z
    if va.toNat % n ≠ 0 then takeTrap { cause := 0x04, tval := va } s
    else
      withCheck (check s va .rd 0x08 (fun pa => 4 ≤ n && coreMayLoad (pa - 0xA0100000000))) (fun p s =>
        if p.cls = .device ∧ s.me.specOn then parkOn .runAhead s
        else touch p (fun s =>
          parkOn (.load z (aq && scope == .sy) d.val (pieceOf va n p)) (noteMine va s)) s) s) s)

/-- Reads pieces in order over held stores: their bytes, the first poisoned granule as a virtual address, and the
state after. -/
def readPiecesOver (x : CtxId) (held : List Store) : List Piece → State → List Byte × Option Word × State
  | [], s => ([], none, s)
  | p :: ps, s =>
    let (bs, poison, s) := performRead x held p.pa p.nc p.n (noteSram x p.pa p.n s)
    let (rest, more, s) := readPiecesOver x held ps s
    (bs ++ rest, match poison with
      | some g => some (p.va - BitVec.ofNat 64 (p.pa % 32) + BitVec.ofNat 64 (g + p.pa % 32 - p.pa))
      | none => more, s)

/-- Reads pieces with the context's own newest values. -/
def readPieces (x : CtxId) (ps : List Piece) (s : State) : List Byte × Option Word × State :=
  readPiecesOver x (heldStores s x) ps s

/-- No maintenance of the bytes is still to come before the read, and the context's own stores hold them or nothing holds a
read of them. -/
def pieceFree (s : State) (x : CtxId) (p : Piece) : Bool :=
  !s.maintWaits x p.pa p.n (s.ctx x).seq && (coveredBy (heldStores s x) p.pa p.n
    || !(s.lookupHeld (lookUpOf s x) p.pa p.n || s.outOfTurn x p.pa p.n || linkWaits s p.nc p.pa p.n))

/-- A plain read of pieces can be performed now: no fence, no device store and no earlier tagged load of the bytes stands
before it, and nothing holds it. -/
def piecesReady (s : State) (x : CtxId) (ps : List Piece) : Bool :=
  !s.fencedBefore x (s.ctx x).seq && !s.deviceAhead x && ps.all fun p => !s.taggedAhead x p.pa p.n && pieceFree s x p

/-- A look-up of pieces can be performed: no pause of a table holds it either (R134). -/
def lookupReady (s : State) (x : CtxId) (ps : List Piece) : Bool :=
  piecesReady s x ps && ps.all fun p => coveredBy (heldStores s x) p.pa p.n || !s.pausedAt p.pa p.n

/-- Bytes of a device-class or memory load. -/
def loadBytes (x : CtxId) (p : Piece) (s : State) : List Byte × Option Word × State :=
  if rangeOf p.pa = .device then
    let s := performPosted (fun q => q.tag = s.tagOf (pathOf s x)) s
    (natLe p.n (devRead s (p.pa - 0xA0100000000) p.n), none, s)
  else readPieces x [p] (countLookup [p] s)

/-- The load of a context can be performed. A device-class load comes after every earlier access of the context (R176). -/
def loadReady (s : State) (x : CtxId) (p : Piece) : Bool :=
  if rangeOf p.pa = .device then s.storesDone x && !s.postedWaits x else lookupReady s x [p]

/-- Completes a parked `ld` (R344). -/
def completeLoad (z : Sz) (aqSy : Bool) (d : Nat) (p : Piece) (s : State) : State :=
  let t := s.myTenant
  let home := aqSy && rangeOf p.pa = .peer && !p.nc
  let s := if home then purgeSector p.pa p.n s else s
  let (bs, poison, s) := loadBytes s.cur { p with nc := p.nc || home } s
  match poison with
  | some g => takeTrap { cause := 0x0C, tval := g } s
  | none =>
    let s := if aqSy then systemAcquire t s else s
    completeX d (loadValue z (leNat bs)) s

/-! ## Stores -/

/-- Distinct sectors of held stores. -/
def sectorsOf (sts : List Store) : List Nat := sts.foldl (fun l st => nadd l (st.pa / 128)) []

/-- R379, R380: performed, held in the store path, held while running ahead, or compared in a twin pair. -/
def storeOut (st : Store) (va : Word) (s : State) : State :=
  let st := { st with seq := s.me.seq }
  if s.me.specOn ∧ (sectorsOf (s.me.spec ++ [st])).length > 64 then parkOn .runAhead s
  else
    let s := s.onMe fun c => { c with seq := c.seq + 1 }
    if s.me.specOn then retire 0 (s.onMe fun c => { c with spec := c.spec ++ [st] })
    else if s.me.twin then
      retire 0 (twinEmit 0 st.data.length va.toNat st.data (.store [st]) s)
    else retire 0 (issueStore s.cur st s)

def execSt (z : StSz) (rl : Bool) (scope : Scope) (v a : XReg) (e : Int) (s : State) : Out :=
  .next (scoreboard [xref v, xref a] (fun s =>
    let va := effAddr (s.x a) e
    let n := stBytes z
    if va.toNat % n ≠ 0 then takeTrap { cause := 0x04, tval := va } s
    else
      withCheck (check s va .wr 0x09 (fun pa => 4 ≤ n && coreMayStore (pa - 0xA0100000000))) (fun p s =>
        if p.cls = .device ∧ s.me.specOn then parkOn .runAhead s
        else touch p (fun s =>
          let rlSy := rl && scope == .sy
          storeOut { pa := p.pa, data := natLe n (s.x v).toNat, nc := pteNC p.pte,
                     atHome := rlSy && p.cls = .peer && !pteNC p.pte, rlSy := rlSy } va (noteMine va s)) s) s) s)

/-! ## Atomics (R312 to R314) -/

def amoNew (op : AmoOp) (n old v : Nat) : Nat :=
  let w := 8 * n
  let so := signedOf w old
  let sv := signedOf w v
  match op with
  | .add => (old + v) % 2 ^ w
  | .and => old &&& v
  | .or => old ||| v
  | .xor => old ^^^ v
  | .min => if so ≤ sv then old else v
  | .max => if so ≥ sv then old else v
  | .minu => Nat.min old v
  | .maxu => Nat.max old v
  | .swap => v
  | .cas => v

def execAmo (op : AmoOp) (w aq rl : Bool) (scope : Scope) (d b a : XReg) (s : State) : Out :=
  .next (notAhead (scoreboard [xref a, xref b, xref d] fun s =>
    let va := s.x a
    let n := if w then 4 else 8
    if va.toNat % n ≠ 0 then takeTrap { cause := 0x04, tval := va } s
    else
      withCheck (check s va .rw 0x09) (fun p s =>
        if p.cls = .cxl ∧ pteNC p.pte then takeTrap { cause := 0x04, tval := va } s
        else touch p (fun s =>
          let sy := scope == .sy
          let v := BitVec.ofNat 64 ((s.x b).toNat % 2 ^ (8 * n))
          let c := BitVec.ofNat 64 ((s.x d).toNat % 2 ^ (8 * n))
          let s := noteMine va s
          let s := if s.me.twin then
              twinEmit 1 n va.toNat (natLe 8 (op.code + (if w then 16 else 0)) ++ natLe n v.toNat ++ natLe n c.toNat) .amo s
            else s
          parkOn (.amo op w (aq && sy) (rl && sy) d.val v c (pieceOf va n p)) s) s) s) s)

/-- An atomic can be performed: the context's earlier stores are performed, for a system-scope release also what that waits
for, and nothing holds the word (R129, R314). -/
def amoReady (s : State) (x : CtxId) (rlSy : Bool) (p : Piece) : Bool :=
  s.storesDone x && !(rlSy && s.releaseWaits x) && !s.writeHeld x p.pa p.n (s.ctx x).seq
    && !s.maintWaits x p.pa p.n (s.ctx x).seq && !linkWaits s true p.pa p.n

/-- The read of an atomic at its home, behind the posted stores to it: one message asks for the whole atomic (R129, R174). One
that does not get there is answered with poison (R244). -/
def homeAmo (x : CtxId) (op : AmoOp) (n : Nat) (v c : Word) (p : Piece) (s : State) : List Byte × Option Word × State :=
  let (lost, s) := request (s.tenantOf (coreOf x)) p.pa (.amo op p.pa n v c) s
  let poison := if lost then some (p.pa / 32 * 32) else firstPoison s false p.pa n
  (memReadList s.peerHome p.pa n, poison.map fun g => p.va - BitVec.ofNat 64 (p.pa - g), s)

/-- Performs an atomic: the old value, poison, the state after. -/
def performAmo (x : CtxId) (op : AmoOp) (w rlSy : Bool) (v c : Word) (p : Piece) (s : State) : Nat × Option Word × State :=
  let t := s.tenantOf (coreOf x)
  let n := if w then 4 else 8
  let s := if rlSy then systemRelease t (performPosted (fun q => q.tag = s.tagOf x) s) else s
  let peer := rangeOf p.pa = .peer
  let s := if peer then purgeSector p.pa n s else s
  let (bs, poison, s) := if peer then homeAmo x op n v c p s else readPieces x [p] s
  let old := leNat bs
  match poison with
  | some g => (old, some g, s)
  | none =>
    if op = .cas ∧ old ≠ c.toNat then (old, none, s)
    else
      let new := natLe n (amoNew op n old v.toNat)
      (old, none, if peer then changeHome p.pa new s else performStore x { pa := p.pa, data := new } s)

/-- Completes a parked atomic: xd is the old value, sign-extended (R313). -/
def completeAmo (op : AmoOp) (w aqSy rlSy : Bool) (d : Nat) (v c : Word) (p : Piece) (s : State) : State :=
  let (old, poison, s) := performAmo s.cur op w rlSy v c p s
  match poison with
  | some g => enterTrap { cause := 0x0C, tval := g } false s
  | none =>
    let s := if aqSy then systemAcquire s.myTenant s else s
    completeX d (immWord (signedOf (if w then 32 else 64) old)) s

/-! ## `fence`, `flrd`, cache maintenance, `spfence` -/

/-- R334: completes at issue. Where earlier stores are not performed yet the fence stands in the store path behind them:
later accesses wait for it. -/
def execFence (scope : Scope) (s : State) : Out :=
  .next (notAhead (fun s =>
    let x := s.cur
    let sy := scope == .sy
    let n := s.me.seq
    let s' := s.onMe fun c => { c with seq := c.seq + 1 }
    retire 0
      (if s.storesDone x && !(sy && s.releaseWaits x) then passFence x sy s'
      else s'.onMe fun c => { c with stores := c.stores ++ [{ pa := 0, data := [], seq := n, fence := some sy }] })) s)

/-- R247, R336. -/
def execFlrd (a : XReg) (s : State) : Out :=
  .next (notAhead (scoreboard [xref a] fun s =>
    let va := s.x a
    withCheck (check s va .rd 0x08) (fun p s => parkOn (.flrd va p.pa) (noteMine va s)) s) s)

def flrdReady (s : State) (x : CtxId) (pa : Nat) : Bool := s.storesDone x && !linkWaits s true pa 1

/-- The home answers after the context's posted stores to it are performed; a request that does not get there is answered with
poison (R175, R244, R247). -/
def completeFlrd (va : Word) (pa : Nat) (s : State) : State :=
  if rangeOf pa = .peer then
    let (lost, s) := request s.myTenant pa (.read pa 0) s
    if lost then enterTrap { cause := 0x0C, tval := va } false s else completePark s
  else completePark s

/-- The physical ranges of a virtual range, page by page; on an NC page maintenance does nothing (R326). -/
def rangePieces (s : State) (va : Word) (len : Nat) : List (Nat × Nat) :=
  (pageStarts va len).filterMap fun p =>
    match myTranslate s p with
    | some (pa, e) =>
      let stop := Nat.min (va.toNat + len) (p.toNat / 65536 * 65536 + 65536)
      if pteNC e then none else some (pa, pa + (stop - p.toNat) - 1)
    | none => none

/-- The checks of `cwb` and `cinv` on a page; only a peer package is checked for the tenant (R326). -/
def maintCheck (s : State) (inval : Bool) (va : Word) : Option TrapInfo :=
  match check s va (if inval then .wr else .rd) (if inval then 0x09 else 0x08) with
  | .ok _ => none
  | .trap t =>
    if t.cause = 0x1D then
      match myTranslate s va with
      | some (pa, _) => if rangeOf pa = .peer then some t else none
      | none => some t
    else some t

def cacheOp (inval : Bool) (a b : XReg) (s : State) : Out :=
  .next (notAhead (scoreboard [xref a, xref b] fun s =>
    let va := s.x a
    let len := (s.x b).toNat
    if len = 0 then retire 0 s
    else if len > 2 ^ 24 then takeTrap { cause := 0x04, tval := s.x b } s
    else
      unlessTrap ((pageStarts va len).findSome? (maintCheck s inval)) (fun s =>
        let s := (rangePieces s va len).foldl (fun s (lo, hi) =>
          if rangeOf lo = .peer then issueMaint { tag := s.tagOf s.cur, seq := s.me.seq, lo := lo, hi := hi, drop := inval } s
          else s)
          ((pageStarts va len).foldl (fun s p => noteMine p s) s)
        retire 0 (s.onMe fun c => { c with seq := c.seq + 1 })) s) s)

/-- R326: for the package's own classes no value changes, whatever the scope. -/
def execCwb (_scope : Scope) (a b : XReg) (s : State) : Out := cacheOp false a b s
def execCinv (_scope : Scope) (a b : XReg) (s : State) : Out := cacheOp true a b s

/-- R212, R378: the operand generation of the issuing core's cluster advances. -/
def execSpfence (s : State) : Out :=
  .next (notAhead (fun s =>
    retire 0 (s.onCluster (clusterOf (coreOf s.cur)) fun c => { c with gen := c.gen + 1 })) s)

end Sys2Proof.Machine
end

