-- ==== Sys2Proof/Machine/Ahead.lean ====
section
/-! DEFINITION. Run-ahead behind a collective branch: commit, rollback, outcomes and refusals (R262 to R265), and the
deadline timers of a context (R256). -/

namespace Sys2Proof.Machine

/-! ## Deadline timers (R256) -/

/-- The time a running timer has left, for a context that stops. -/
def timeLeft (cycle : Nat) (t : Option Nat) : Option Nat := t.map (· - cycle)

/-- Freezes the timers of a context that is halted or saved. -/
def Ctx.freeze (c : Ctx) (cycle : Nat) : Ctx :=
  { c with
    barTimer := none
    cgTimer := none
    barLeft := match c.barTimer with
      | some t => some (t - cycle)
      | none => c.barLeft
    cgLeft := match c.cgTimer with
      | some t => some (t - cycle)
      | none => c.cgLeft }

/-- Runs the frozen timers of a context from the time they had left. -/
def Ctx.thaw (c : Ctx) (cycle : Nat) : Ctx :=
  { c with
    barTimer := c.barLeft.map (cycle + ·)
    cgTimer := c.cgLeft.map (cycle + ·)
    barLeft := none
    cgLeft := none }

/-- A deadline of a control register, from now: none where it is 0. -/
def deadlineOf (w : Word) (cycle : Nat) : Option Nat :=
  if bits w 0 32 = 0 then none else some (cycle + bits w 0 32 * 1024)

/-! ## Commit and rollback (R264) -/

/-- The context at its checkpoint: results of the run-ahead are discarded, writes of earlier instructions stand. -/
def Ctx.restoreCheckpoint (c : Ctx) (cp : Checkpoint) (pc : Word) (cycle : Nat) : Ctx :=
  let c := { c with
    x := cp.x
    k := cp.k
    pc := pc
    hold := Nat.max cp.hold ((c.lastIssue.map (· + 8)).getD 0)
    pend := cp.pend.filter (cycle < ·.due)
    slot := if c.slot = .parked then .ready else c.slot
    readyAt := if c.slot = .parked then cycle + 1 else c.readyAt
    wait := none
    spec := []
    cp := none }
  (cp.pend.filter (·.due ≤ cycle)).foldl (fun c p => c.land p.write) c

/-- Rolls a context back to its checkpoint, at the address that `pc` picks. -/
def Ctx.rollback (c : Ctx) (pc : Checkpoint → Word) (cycle : Nat) : Ctx :=
  match c.cp with
  | some cp => c.restoreCheckpoint cp (pc cp) cycle
  | none => c

/-- The acquire side of a resolution at a parking point or a `cbfence`: at scope `.sy` in a group across packages (R168,
R179, R260). -/
def acquireGroup (s : State) : State := if s.me.cg.fab then systemAcquire s.myTenant s else s

/-- The outcome equals the prediction: held stores are performed, the parked member is woken at its instruction, a
deferred trap is taken there. -/
def commitAhead (s : State) : State :=
  let x := s.cur
  let held := s.me.spec
  let s := s.onMe fun c => { c with cp := none, spec := [], cg := { c.cg with pend := false }, cgTimer := none }
  let s := held.foldl (fun s st => issueStore x st s) s
  let s := if s.me.slot = .parked then acquireGroup s else s
  match s.me.wait with
  | some .runAhead => reissue s
  | some (.deferred t) => enterTrap t true s
  | _ => s

/-- Applies an outcome to a member in the cycle it arrives (R264). -/
def applyOutcome (taken : Bool) (s : State) : State :=
  match s.me.cp with
  | some cp =>
    if taken = cp.predicted then commitAhead s
    else
      (if s.me.slot = .parked then acquireGroup s else s).onMe fun c =>
        { c.rollback (fun cp => if taken then cp.label else cp.next) s.cycle with
          cg := { c.cg with pend := false }, cgTimer := none }
  | none =>
    let s := s.onMe fun c => { c with cg := { c.cg with res := true, out := taken }, cgTimer := none, cgLeft := none }
    if s.me.slot = .parked ∧ s.me.wait = some .cbfence then completePark (acquireGroup s) else s

/-- The context at the `cbr` whose vote is pending: rolled back to it where it runs ahead, else with its address as the pc
(R264, R265). An image does not hold that address: a restored context in a handler has it in EPC (log entry 45). -/
def Ctx.atCbr (c : Ctx) (cycle : Nat) : Ctx :=
  match c.cp with
  | some cp => c.restoreCheckpoint cp cp.cbr cycle
  | none => { c with pc := c.cbrAt.getD (if c.priv then c.cr.epc else c.pc) }

/-- A refused member rolls back and traps at its `cbr` (R264). -/
def applyRefusal (s : State) : State :=
  enterTrap { cause := 0x19, info := 0x03 } false
    (s.onMe fun c => { c.atCbr s.cycle with cg := { c.cg with pend := false }, cgTimer := none, cgLeft := none })

end Sys2Proof.Machine
end

