-- ==== Sys2Proof/Machine/FullEmpty.lean ====
section
/-! DEFINITION. The full/empty family (R124 to R126, R347) and the arrival of its requests at the owning SRAM. -/

namespace Sys2Proof.Machine

def feReads : FeOp → Bool
  | .ldfe | .ldff => true
  | _ => false

/-- The checks of R347 in their order, then the request: the context parks on wake source 3. -/
def feInstr (op : FeOp) (scope : Scope) (r a : XReg) (s : State) : Out :=
  .next (notAhead (scoreboard [xref r, xref a] (notTwin fun s =>
    let va := s.x a
    if va.toNat % 8 ≠ 0 then takeTrap { cause := 0x04, tval := va } s
    else
      let t := s.myTenant
      withCheck (checkPage s s.myTlb t s.me.priv va (if feReads op then .rd else .wr) (if feReads op then 0x08 else 0x09))
        (fun p s =>
          if (p.cls ≠ .spad ∧ p.cls ≠ .window) ∨ !pteFE p.pte then takeTrap { cause := 0x04, tval := va } s
          else if !tenantOk s t p.pa then takeTrap { cause := 0x1D, tval := va } s
          else touch p (fun s => parkOn (.fe op (scope == .sy) r.val (s.x r) va p.pa) (noteMine va s)) s) s)) s)

def execLdfe (scope : Scope) (d a : XReg) (s : State) : Out := feInstr .ldfe scope d a s
def execLdff (scope : Scope) (d a : XReg) (s : State) : Out := feInstr .ldff scope d a s
def execStfe (scope : Scope) (v a : XReg) (s : State) : Out := feInstr .stfe scope v a s
def execStff (scope : Scope) (v a : XReg) (s : State) : Out := feInstr .stff scope v a s
def execFepurge (scope : Scope) (a : XReg) (s : State) : Out := feInstr .purge scope 0 a s

/-! ## The owning SRAM (R126) -/

/-- The condition of a request holds: full for `ldfe`, `ldff` and `stff`, empty for `stfe`, any for `fepurge` (R125). -/
def feHolds (s : State) (word : Nat) : FeOp → Bool
  | .ldfe | .ldff | .stff => nmem s.feFull word
  | .stfe => !nmem s.feFull word
  | .purge => true

/-- What c.tval holds for a poisoned word: its address by R347, the granule's by R139 and R271 (a free value, log entry 91). -/
def fePoisonAt (va : Word) : Word := if Config.feWordAddress then va else va - BitVec.ofNat 64 (va.toNat % 32)

/-- Performs the request of a parked context: poison traps and leaves the word as it is (R125, R139, R347). -/
def fePerform (x : CtxId) (s : State) : State :=
  let cur := s.cur
  let s := s.at x
  let s := match s.me.wait with
    | some (.fe op sy d v va pa) =>
      let t := s.myTenant
      let s := noteSram x pa 8 s
      if (firstPoison s false pa 8).isSome then
        enterTrap { cause := 0x0C, tval := fePoisonAt va } false s
      else
        let word := pa / 8
        let old := BitVec.ofNat 64 (memNat s pa 8)
        let s := if sy ∧ (op = FeOp.stfe ∨ op = FeOp.stff) then systemRelease t (performPosted (fun q => q.tag = s.tagOf x) s) else s
        let s := match op with
          | .ldfe | .purge => { s with feFull := ndel s.feFull word }
          | .ldff => s
          | .stfe => performStore x { pa := pa, data := natLe 8 v.toNat } { s with feFull := nadd s.feFull word }
          | .stff => performStore x { pa := pa, data := natLe 8 v.toNat } s
        let s := if sy ∧ (op = FeOp.ldfe ∨ op = FeOp.ldff) then systemAcquire t s else s
        if op = FeOp.ldfe ∨ op = FeOp.ldff then completeX d old s else completePark s
    | _ => s
  s.at cur

/-- The first waiting request of a word whose condition holds. -/
def feNext (s : State) (word : Nat) : Option FeReq :=
  ((fget s.feWait word).getD []).find? fun r => feHolds s word r.op

/-- Examines a wait list from its head after each change of the word (R126). -/
def feScan (word : Nat) : Nat → State → State
  | 0, s => s
  | n + 1, s =>
    match feNext s word with
    | none => s
    | some r =>
      let l := ((fget s.feWait word).getD []).filter (·.tag ≠ r.tag)
      let s := { s with feWait := if l.isEmpty then fdel s.feWait word else fput s.feWait word l }
      feScan word n (fePerform (r.tag / 256) s)

/-- The request of a context is in a wait list. -/
def feWaiting (s : State) (x : CtxId) : Bool := s.feWait.any fun (_, l) => l.any (·.tag / 256 = x)

/-- The request is a system-scope release (R129). -/
def feRelease (c : Ctx) : Bool :=
  match c.wait with
  | some (.fe op sy _ _ _ _) => sy && (op = .stfe || op = .stff)
  | _ => false

/-- A request can arrive: earlier stores of the context are performed, for a release also what that waits for, and no job
owns the word. -/
def feReady (s : State) (x : CtxId) (pa : Nat) : Bool :=
  !feWaiting s x && s.storesDone x && !s.writeHeld x pa 8 (s.ctx x).seq && !(feRelease (s.ctx x) && s.releaseWaits x)

/-- FE_REQUEST_ARRIVAL: a request whose condition holds is performed at once and the list is examined; else it joins the
tail of the list (R126). -/
def feArrive (s : State) : State :=
  let x := s.cur
  match s.me.wait with
  | some (.fe op _ _ v _ pa) =>
    if !feReady s x pa then s
    else
      let word := pa / 8
      let l := (fget s.feWait word).getD []
      if feHolds s word op then feScan word (l.length + 1) (fePerform x s)
      else { noteSram x pa 8 s with feWait := fput s.feWait word (l ++ [{ tag := s.tagOf x, op := op, value := v }]) }
  | _ => s

def execFeRequestArrival (x : CtxId) (s : State) : Out := onCtx "FE_REQUEST_ARRIVAL" x feArrive s

/-- Withdraws the request of an interrupted context (R275). -/
def feWithdraw (x : CtxId) (s : State) : State :=
  { s with feWait := (s.feWait.map fun (w, l) => (w, l.filter (·.tag / 256 ≠ x))).filter fun (_, l) => !l.isEmpty }

end Sys2Proof.Machine
end

