-- ==== Sys2Proof/Machine/Message.lean ====
section
/-! DEFINITION. Channels and messages: `send`, `recv`, `recvn`, `park`, the arrival of messages, blocked senders,
forwarding entries, tag caches and inbox buffers (R47, R63 to R66, R283, R284, R366, R372, R417). -/

namespace Sys2Proof.Machine

/-! ## Mailboxes (R63, R64) -/

/-- The number of a mailbox: channel and priority. -/
def boxKey (ch : Nat) (hi : Bool) : Nat := ch * 2 + hi.toNat

def Ctx.box (c : Ctx) (key : Nat) : List Msg := (fget c.mailbox key).getD []

/-- Puts a message in flight; messages that arrive in one cycle are taken in ascending sender tag (R366). -/
def insertMsg (m : Msg) : List Msg → List Msg
  | [] => [m]
  | q :: rest => if q.sender ≤ m.sender then q :: insertMsg m rest else m :: q :: rest

def addMsg (m : Msg) (s : State) : State := { s with net := { s.net with msgs := insertMsg m s.net.msgs } }

/-- Places of a mailbox that granted messages on their way hold. -/
def grantedTo (s : State) (tag key : Nat) : Nat :=
  (s.net.msgs.filter fun m => m.granted && !m.reserve && m.dest = tag && boxKey m.ch m.hi = key).length

/-- A mailbox has a place for a message that holds no grant: four places, the reserve entry not counted. -/
def boxFree (s : State) (x : CtxId) (key : Nat) : Bool :=
  ((s.ctx x).box key).countP (fun m => !m.reserve) + grantedTo s (s.tagOf x) key < 4

/-! ## Inbox buffers (R284, R419) -/

/-- The 72 bytes of a place (R284). -/
def placeBytes (m : Msg) : List Byte :=
  natLe 3 m.sender ++ natLe 3 m.dest ++ [BitVec.ofNat 8 m.data.length]
    ++ [BitVec.ofNat 8 (1 + 2 * m.hi.toNat + 4 * m.ch)] ++ (m.data ++ List.replicate 64 0).take 64

/-- The message of a place whose VALID is 1. -/
def placeMsg (bs : List Byte) : Option Msg :=
  let ctl := field bs 7 1
  if ctl % 2 = 0 then none
  else some { sender := field bs 0 3, dest := field bs 3 3, ch := ctl / 4 % 4, hi := ctl / 2 % 2 = 1,
              data := (bs.drop 8).take (field bs 6 1) }

/-- The inbox area of a tenant is valid (R419). -/
def inboxBase (s : State) (tenant : Nat) : Option Nat :=
  let b := (s.tenant tenant).inbox.toNat
  if b ≠ 0 ∧ b % 64 = 0 ∧ allLpddr s b (2816 * 16 * 18432) then some b else none

/-- The address of a place of an inbox buffer. -/
def placeAddr (base : Nat) (x : CtxId) (i : Nat) : Nat := base + x * 18432 + 72 * i

/-- A place of an inbox buffer is in use. -/
def placeUsed (s : State) (base : Nat) (x : CtxId) (i : Nat) : Bool :=
  (s.byteFor (s.tenantOf (coreOf x)) (placeAddr base x i + 7)).toNat % 2 = 1

/-- The place for the next message: behind the last used one, else the lowest free one (R284). -/
def inboxPlace (s : State) (base : Nat) (x : CtxId) : Option Nat :=
  let used := (List.range 256).filter (placeUsed s base x)
  let next := (used.getLast?.map (· + 1)).getD 0
  if next < 256 then some next else (List.range 256).find? fun i => !placeUsed s base x i

/-- An engine job owns a sector of the inbox buffer of a slot, or something else holds it: its places are neither read nor
written (R128, R177). -/
def inboxHeld (s : State) (x : CtxId) : Bool :=
  match inboxBase s (s.tenantOf (coreOf x)) with
  | some base => s.deviceHeld (placeAddr base x 0) 18432
  | none => false

/-- Diverts a message to the inbox buffer of a context's slot, or drops it into LOST; true where it is placed. -/
def toInbox (x : CtxId) (m : Msg) (s : State) : Bool × State :=
  let t := s.tenantOf (coreOf x)
  let lose := s.onTenant t fun k => { k with lostMsgs := k.lostMsgs + 1 }
  match inboxBase s t with
  | none => (false, lose)
  | some base =>
    match inboxPlace s base x with
    | none => (false, lose)
    | some i => (true, deviceWrite t (placeAddr base x i) (placeBytes m) s)

/-! ## Routing (R64, R283) -/

/-- Where a tag leads. -/
inductive Route where
  | resident (x : CtxId)
  | forward (core new : Nat)
  | inbox (x : CtxId)

def routeOf (s : State) (tag : Nat) : Route :=
  match s.resident tag with
  | some x => .resident x
  | none =>
    match fget (s.core (tag / 4096)).forwards tag with
    | some f => match f.new with
      | some n => .forward (tag / 4096) n
      | none => .inbox (tag / 256)
    | none => .inbox (tag / 256)

/-- A message from the core to the tag has not been delivered yet, forwarded on its way or not (R283). -/
def undelivered (s : State) (core tag : Nat) : Bool :=
  s.net.msgs.any (fun m => m.sender / 4096 = core && (m.dest = tag || m.via.any (·.1 = tag)))
    || s.ctxs.any (fun (x, c) => coreOf x = core && c.wait = some .space
        && s.ctxs.any (fun (_, r) => r.blocked.any (·.2 = s.tagOf x)) && c.held.any (·.dest = tag))

/-- The tag that the cache of a core gives for a tag, followed while it names others; used entries move to the front. -/
def throughCache (s : State) (core : Nat) : Nat → Nat → List (Nat × Nat) → Nat × List (Nat × Nat)
  | 0, tag, cache => (tag, cache)
  | n + 1, tag, cache =>
    match cache.find? (·.1 = tag) with
    | some (old, new) =>
      if undelivered s core tag then (tag, cache)
      else throughCache s core n new ((old, new) :: cache.filter (·.1 ≠ old))
    | none => (tag, cache)

/-- Presents the held message of a context under the tag the context has now: it is on its way to the tag it names, or
to the tag the cache gives, and arrives `late` cycles after the next. -/
def presentAt (late : Nat) (x : CtxId) (s : State) : State :=
  match (s.ctx x).held with
  | none => s
  | some m =>
    let core := coreOf x
    let (tag, cache) := throughCache s core 64 m.dest (s.core core).tagCache
    let s := s.onCore core fun k => { k with tagCache := cache }
    addMsg { m with sender := s.tagOf x, dest := tag, at_ := s.cycle + 1 + late, via := [], granted := false, done := false, reserve := false } s

def present (x : CtxId) (s : State) : State := presentAt 0 x s

/-- A `send` completes: its message counts as sent, the sender goes on. -/
def sendDone (tag : Nat) (s : State) : State :=
  match s.resident tag with
  | none => s
  | some x =>
    let cur := s.cur
    let s := (s.at x).onMe fun c => { c with held := none }
    (completePark s).at cur

/-- The message is accepted: a moved notice goes out for each forwarding entry it passed (R283). -/
def accepted (m : Msg) (s : State) : State :=
  let sent := fun (s : State) => s.onCore (m.sender / 4096) fun k => { k with sent := k.sent + 1 }
  let s := if m.done then s else sendDone m.sender (sent s)
  { s with net := { s.net with moved := s.net.moved ++ m.via.map fun (o, n) => { core := m.sender / 4096, old := o, new := n } } }

/-! ## Taking a message (R65, R366) -/

/-- The mailbox that R65 selects for a channel, where the channel holds a message. -/
def selectBox (c : Ctx) (ch : Nat) : Option Bool :=
  let h := !(c.box (boxKey ch true)).isEmpty
  let l := !(c.box (boxKey ch false)).isEmpty
  if h && l then some ((fget c.highRun ch).getD 0 < 7)
  else if h then some true
  else if l then some false
  else none

/-- Grants a place of a mailbox, or the reserve entry, to a blocked sender. -/
def grantTo (x : CtxId) (key tag : Nat) (reserve : Bool) (s : State) : State :=
  let c := s.ctx x
  let s := s.setCtx x { c with blocked := c.blocked.filter (· ≠ (key, tag)) }
  match (s.ctx (tag / 256)).held with
  | none => s
  | some m =>
    let s := addMsg { m with sender := tag, dest := s.tagOf x, at_ := s.cycle + 1, granted := true, done := true, reserve := reserve } s
    sendDone tag (s.onCore (tag / 4096) fun k => { k with sent := k.sent + 1 })

/-- The message of an inbox place, numbered context * 256 + place. -/
def inboxMsg (s : State) (tenant base p : Nat) : Option Msg :=
  placeMsg (bytesFor s tenant (placeAddr base (p / 256) (p % 256)) 72)

/-- The first inbox place that RESTORE left with a message for a mailbox (R282). -/
def inboxNext (s : State) (x : CtxId) (key : Nat) : Option (Nat × Nat × Msg) :=
  let t := s.tenantOf (coreOf x)
  match inboxBase s t with
  | none => none
  | some base => (s.ctx x).inbox.findSome? fun p =>
      (inboxMsg s t base p).bind fun m => if boxKey m.ch m.hi = key then some (base, p, m) else none

/-- An inbox buffer that RESTORE left messages of the context in is held: it is neither read nor written yet (R177). -/
def inboxWaits (s : State) (x : CtxId) : Bool := (s.ctx x).inbox.any fun p => inboxHeld s (p / 256)

/-- Moves a message from its inbox place into a mailbox. A block that fails its tag check is stored poisoned (R136); the
message is what its bytes say (DESIGN CHOICE, log entry 83). -/
def fromInbox (x : CtxId) (key base p : Nat) (m : Msg) (s : State) : State :=
  let c := s.ctx x
  let t := s.tenantOf (coreOf x)
  let a := placeAddr base (p / 256) (p % 256)
  deviceWrite t a (List.replicate 72 0) (checkTags t a 72 (s.setCtx x { c with
    inbox := c.inbox.erase p, mailbox := fput c.mailbox key (c.box key ++ [m]) }))

/-- Gives the free places of a mailbox away, at most `n` of them: to the messages that RESTORE left in inbox buffers (R282),
then to the first blocked senders, which are woken; their messages are placed no earlier than the next cycle (R64, R366).
That the inbox goes before the blocked senders is the model's choice (DESIGN CHOICE, log entry 92). -/
def settleBox (x : CtxId) (key : Nat) : Nat → State → State
  | 0, s => s
  | n + 1, s =>
    if !boxFree s x key || inboxWaits s x then s
    else
      match inboxNext s x key, (s.ctx x).blocked.find? (·.1 = key) with
      | some (base, p, m), _ => settleBox x key n (fromInbox x key base p m s)
      | none, some (_, tag) => settleBox x key n (grantTo x key tag false s)
      | none, none => s

def settleBoxes (x : CtxId) (s : State) : State := (List.range 8).foldl (fun s key => settleBox x key 4 s) s

/-- The pieces of a byte range, one per 64 KiB page, for a checked access. -/
def bytePieces (s : State) (va : Word) (n : Nat) : List Piece :=
  let first := 65536 - va.toNat % 65536
  let parts := if n ≤ first then [(va, n)] else [(va, first), (va + BitVec.ofNat 64 first, n - first)]
  parts.filterMap fun (a, k) =>
    match myTranslate s a with
    | some (pa, e) => some { va := a, pa := pa, nc := pteNC e, n := k }
    | none => none

/-- Plain stores of bytes at a virtual address by the context of the step, compared in a twin (R65, R290). -/
def storeBytes (va : Word) (bs : List Byte) (s : State) : State :=
  let ps := bytePieces s va bs.length
  let s := ps.foldl (fun s p => noteMine p.va s) s
  let rec cut : List Piece → List Byte → List Store
    | [], _ => []
    | p :: ps, bs => { pa := p.pa, data := bs.take p.n, nc := p.nc, seq := s.me.seq } :: cut ps (bs.drop p.n)
  let sts := cut ps bs
  let s := s.onMe fun c => { c with seq := c.seq + 1 }
  if s.me.twin then twinEmit 0 bs.length va.toNat bs (.store sts) s
  else sts.foldl (fun s st => issueStore s.cur st s) s

/-- R65's status word. -/
def statusWord (m : Msg) : Word := BitVec.ofNat 64 (m.sender % 2 ^ 24 + m.data.length * 2 ^ 24 + m.hi.toNat * 2 ^ 31)

/-- Takes the message that R65 selects, or leaves it and traps at the destination (R66). -/
def takeMsg (ch d : Nat) (va : Word) (hi : Bool) (done : State → State) (s : State) : State :=
  let key := boxKey ch hi
  match s.me.box key with
  | [] => s
  | m :: rest =>
    unlessTrap (checkRange s va m.data.length .wr 0x09) (fun s =>
      let c := s.me
      let both := !(c.box (boxKey ch true)).isEmpty && !(c.box (boxKey ch false)).isEmpty
      let run := if both then (if hi then (fget c.highRun ch).getD 0 + 1 else 0) else (fget c.highRun ch).getD 0
      let s := s.onMe fun c => { c with mailbox := fput c.mailbox key rest, highRun := fput c.highRun ch run }
      let s := if m.reserve then s.onCore (coreOf s.cur) fun k => { k with reserve := none }
               else settleBoxes s.cur s
      done ((storeBytes va m.data s).onMe (·.setX (Fin.ofNat 32 d) (statusWord m)))) s

def recvForm (parks : Bool) (n : Fin 4) (d a : XReg) (s : State) : Out :=
  .next (notAhead (scoreboard [xref a, xref d] fun s =>
    let va := s.x a
    if va.toNat % 8 ≠ 0 then takeTrap { cause := 0x04, tval := va } s
    else
      match selectBox s.me n.val with
      | some hi => takeMsg n.val d.val va hi (retire 0) s
      | none =>
        if parks then parkOn (.recv n.val d.val va) s
        else finishX d (BitVec.allOnes 64) s) s)

def execRecv (n : Fin 4) (d a : XReg) (s : State) : Out := recvForm true n d a s
def execRecvn (n : Fin 4) (d a : XReg) (s : State) : Out := recvForm false n d a s

/-- A watched channel holds a message (R47, R363). -/
def watchHit (c : Ctx) (mask : Nat) : Bool :=
  (List.range 4).any fun n => mask / 2 ^ n % 2 = 1 && (selectBox c n).isSome

def execPark (a : XReg) (s : State) : Out :=
  .next (notAhead (scoreboard [xref a] fun s =>
    let mask := bits (s.x a) 0 4
    if mask = 0 ∨ watchHit s.me mask then retire 0 s else parkOn (.watch mask) s) s)

/-- A message was placed in a context: a `recv` or `park` that waits for it completes. -/
def wakeReceiver (x : CtxId) (s : State) : State :=
  let cur := s.cur
  let s := s.at x
  let s := if s.me.slot ≠ .parked then s
    else match s.me.wait with
      | some (.recv ch d va) =>
        match selectBox s.me ch with
        | some hi => takeMsg ch d va hi completePark s
        | none => s
      | some (.watch mask) => if watchHit s.me mask then completePark s else s
      | _ => s
  s.at cur

/-- Places a message in a mailbox. -/
def placeMsgIn (x : CtxId) (m : Msg) (s : State) : State :=
  let key := boxKey m.ch m.hi
  let c := s.ctx x
  let s := s.setCtx x { c with mailbox := fput c.mailbox key (c.box key ++ [{ m with granted := false, done := false, via := [] }]) }
  s.onCore (coreOf x) fun k => { k with recv := k.recv + 1 }

/-- The messages that RESTORE left in inbox buffers enter the mailboxes of a context that have room, once the buffers can be
read, and what is free then goes to blocked senders (R64, R282). -/
def refill (x : CtxId) (s : State) : State := wakeReceiver x (settleBoxes x s)

/-- A message that holds no grant is placed: there is room, and nothing goes before it: no message that RESTORE left in an
inbox buffer and, while such buffers are emptied, no blocked sender of its mailbox. -/
def placeable (s : State) (x : CtxId) (key : Nat) : Bool :=
  boxFree s x key && (inboxNext s x key).isNone && ((s.ctx x).inbox.isEmpty || !(s.ctx x).blocked.any (·.1 = key))

/-! ## Arrival (R64, R372) -/

/-- Records a blocked sender in the order in which its send reached the mailbox; its time on wake source 9 starts. -/
def blockSender (x : CtxId) (m : Msg) (s : State) : State :=
  let c := s.ctx x
  let s := s.setCtx x { c with blocked := c.blocked ++ [(boxKey m.ch m.hi, m.sender)] }
  match s.resident m.sender with
  | none => s
  | some y => s.setCtx y { s.ctx y with
      parkedAt := s.cycle, probed := none, held := (s.ctx y).held.map fun h => { h with via := m.via } }

/-- A message reaches the core that its tag names: placed, blocked, forwarded, or diverted to the inbox buffer. -/
def arriveMsg (m : Msg) (s : State) : State :=
  match routeOf s m.dest with
  | .resident x =>
    if inboxWaits s x then addMsg { m with at_ := s.cycle + 1 } s
    else if m.granted || placeable s x (boxKey m.ch m.hi) then wakeReceiver x (accepted m (placeMsgIn x m s))
    else if m.done then addMsg { m with at_ := s.cycle + 1 } s
    else blockSender x m s
  | .forward core new =>
    let s := s.onCore core fun k =>
      { k with forwards := fput k.forwards m.dest { new := some new, used := s.cycle } }
    addMsg { m with dest := new, via := m.via ++ [(m.dest, new)], at_ := s.cycle + 1, granted := false, reserve := false } s
  | .inbox x =>
    if inboxHeld s x then addMsg { m with at_ := s.cycle + 1 } s
    else
      let (placed, s) := toInbox x m s
      let s := if placed then s.onCore (coreOf x) fun k => { k with recv := k.recv + 1 } else s
      accepted m s

/-- MESSAGE_ARRIVAL: the k-th message in flight, where it can be placed in this cycle. -/
def execMessageArrival (k : Nat) (s : State) : Out :=
  match s.net.msgs[k]? with
  | none => .next s
  | some m =>
    if s.cycle < m.at_ then .next s
    else .next (arriveMsg m { s with net := { s.net with msgs := s.net.msgs.eraseIdx k } })

/-- MOVED_NOTICE_ARRIVAL: the sender's tag cache learns the new tag; 64 entries, least recently used replaced (R283). -/
def execMovedNoticeArrival (k : Nat) (s : State) : Out :=
  match s.net.moved[k]? with
  | none => .next s
  | some n =>
    let s := { s with net := { s.net with moved := s.net.moved.eraseIdx k } }
    .next (s.onCore n.core fun c => { c with tagCache := ((n.old, n.new) :: c.tagCache.filter (·.1 ≠ n.old)).take 64 })

/-- FORWARDING_ENTRY_RETIRE: an entry unused for 52,500 cycles retires (R283). -/
def execForwardingEntryRetire (core old : Nat) (s : State) : Out :=
  onCoreEvent "FORWARDING_ENTRY_RETIRE" core (fun s =>
    match fget (s.core core).forwards old with
    | some f => if f.used + 52500 ≤ s.cycle then s.onCore core fun k => { k with forwards := fdel k.forwards old } else s
    | none => s) s

/-- Installs a forwarding entry; a seventeenth replaces the entry unused longest (R283). -/
def addForward (core old : Nat) (new : Option Nat) (s : State) : State :=
  s.onCore core fun k =>
    let fs := if k.forwards.length < 16 then k.forwards
      else
        match k.forwards.foldl (fun (r : Option (Nat × Forward)) e =>
            match r with
            | none => some e
            | some b => if e.2.used < b.2.used then some e else some b) none with
        | some (o, _) => fdel k.forwards o
        | none => k.forwards
    { k with forwards := fput fs old { new := new, used := s.cycle } }

/-! ## `send` (R372, R373) -/

/-- Presents the kept message of the context of the step. A twin's message is compared first, once (R290). -/
def offerHeld (s : State) : State :=
  match s.me.held, s.me.pair with
  | some m, some (p, primary) =>
    let t := (fget s.twins p).getD {}
    if (if primary then t.ea else t.eb).any (fun e => match e.act with
      | .send _ => true
      | _ => false) then s
    else twinEmit 2 m.data.length (m.dest + m.ch * 2 ^ 24 + m.hi.toNat * 2 ^ 26) m.data (.send m) s
  | _, _ => present s.cur s

/-- A send that issues again after an interruption presents its kept message without a second read (R275). -/
def sendForm (hi : Bool) (n : Fin 4) (t a l : XReg) (s : State) : Out :=
  .next (notAhead (scoreboard [xref t, xref a, xref l] fun s =>
    let va := s.x a
    let len := s.x l
    let dest := bits (s.x t) 0 24
    let core := dest / 4096
    if s.me.held.isSome && s.me.heldAt = s.me.pc then (if s.me.twin then offerHeld else present s.cur) (parkOn .space s)
    else if va.toNat % 8 ≠ 0 then takeTrap { cause := 0x04, tval := va } s
    else if len = 0 ∨ 64 < len.toNat then takeTrap { cause := 0x04, tval := len } s
    else
      unlessTrap (match checkRange s va len.toNat .rd 0x08 with
        | some t => if t.cause = 0x1D then none else some t
        | none => none) (fun s =>
          if coreCount ≤ core ∨ !s.inMesh s.myTenant core then
            takeTrap { cause := 0x1D, tval := BitVec.ofNat 64 core } s
          else
            unlessTrap (checkRange s va len.toNat .rd 0x08) (fun s =>
              let ps := bytePieces s va len.toNat
              parkOn (.sendRead dest n.val hi ps) (ps.foldl (fun s p => noteMine p.va s) s)) s) s) s)

def execSendHi (n : Fin 4) (t a l : XReg) (s : State) : Out := sendForm true n t a l s
def execSendLo (n : Fin 4) (t a l : XReg) (s : State) : Out := sendForm false n t a l s

/-- The read of a `send` returns: poison traps, else the message is held and presented; a twin's message is compared
first (R290). -/
def completeSendRead (dest ch : Nat) (hi : Bool) (ps : List Piece) (s : State) : State :=
  let x := s.cur
  let (bs, poison, s) := readPieces x ps s
  match poison with
  | some g => enterTrap { cause := 0x0C, tval := g } false s
  | none =>
    let m : Msg := { sender := s.tagOf x, dest := dest, ch := ch, hi := hi, data := bs }
    let s := s.onMe fun c => { c with held := some m, heldAt := c.pc, wait := some .space, parkedAt := s.cycle }
    if s.me.twin then
      twinEmit 2 bs.length (dest + ch * 2 ^ 24 + hi.toNat * 2 ^ 26) bs (.send m) s
    else present x s

/-! ## Withdrawing and releasing -/

/-- Withdraws a `send` that has read its message: its blocked-sender entry, or its message on the way (R275). -/
def withdrawSend (x : CtxId) (s : State) : State :=
  let tag := s.tagOf x
  { s with
    net := { s.net with msgs := s.net.msgs.filter fun m => m.done || m.sender ≠ tag }
    ctxs := s.ctxs.map fun (y, c) => (y, { c with blocked := c.blocked.filter (·.2 ≠ tag) }) }

/-- Releases the senders blocked at a slot that empties: their messages are delivered again, in the order of the record
(R417). -/
def releaseSenders (bs : List (Nat × Nat)) (s : State) : State :=
  bs.zipIdx.foldl (fun s (b, i) => presentAt i (b.2 / 256) s) s

end Sys2Proof.Machine
end

