-- ==== Sys2Proof/Machine/Group.lean ====
section
/-! DEFINITION. Barriers, collective groups and collective branches: the instructions, the arrival of arrivals and votes,
releases, outcomes and deadlines (R248, R254 to R266, R317, R318, R322 to R325). -/

namespace Sys2Proof.Machine

/-! ## The bitmap of missing members (R257, R265) -/

/-- The pieces of a long byte range, one per page. -/
def longPieces (s : State) (va : Word) (n : Nat) : List Piece :=
  (pageStarts va n).filterMap fun a =>
    match myTranslate s a with
    | some (pa, e) =>
      let stop := Nat.min (va.toNat + n) (a.toNat / 65536 * 65536 + 65536)
      some { va := a, pa := pa, nc := pteNC e, n := stop - a.toNat }
    | none => none

/-- Stores of a long byte range by the context of the step. -/
def storeLong (va : Word) (bs : List Byte) (s : State) : State :=
  ((longPieces s va bs.length).foldl (fun (r : List Byte × State) p =>
    (r.1.drop p.n, issueStore r.2.cur { pa := p.pa, data := r.1.take p.n, nc := p.nc, seq := r.2.me.seq } r.2))
    (bs, s.onMe fun c => { c with seq := c.seq + 1 })).2

/-- Bit i is 1 when member i is missing. -/
def missingBytes (count : Nat) (present : List Nat) : List Byte :=
  (List.range ((count + 7) / 8)).map fun j =>
    BitVec.ofNat 8 ((List.range 8).foldl (fun a b =>
      if 8 * j + b < count ∧ !present.contains (8 * j + b) then a + 2 ^ b else a) 0)

/-- Members that are missing. -/
def missingCount (count : Nat) (present : List Nat) : Nat :=
  count - ((List.range count).countP present.contains)

/-- Writes the bitmap at MAP of the context of the step, where every byte passes the checks of a plain store; answers
the value of c.tval, which is 0 where one does not. R265 says this of a branch; of `bar.fab` R257 names no check, and the
model does the same (DESIGN CHOICE, log entry 86). -/
def writeMissing (present : List Nat) (s : State) : Word × State :=
  let g := s.me.cg
  let bs := missingBytes g.count present
  match checkRange s g.map bs.length .wr 0x09 with
  | some _ => (0, s)
  | none => (g.map, storeLong g.map bs s)

/-! ## `bar` (R254, R255, R318) -/

def execBar (a b : XReg) (s : State) : Out :=
  .next (notAhead (scoreboard [xref a, xref b] (notTwin fun s =>
    let xa := s.x a
    let n := (s.x b).toNat
    if bits xa 4 60 ≠ 0 then takeTrap { cause := 0x04, tval := xa } s
    else if n < 1 ∨ 128 < n then takeTrap { cause := 0x04, tval := s.x b } s
    else parkOn (.bar false (bits xa 0 4) n none) s)) s)

def execBarFab (a b : XReg) (s : State) : Out :=
  .next (notAhead (scoreboard [xref a, xref b] (notTwin fun s =>
    let xa := s.x a
    let g := s.me.cg
    if bits xa 4 60 ≠ 0 then takeTrap { cause := 0x04, tval := xa } s
    else if !g.valid then takeTrap { cause := 0x19, info := 0x01, tval := s.x b } s
    else if (s.x b).toNat ≠ g.count then takeTrap { cause := 0x19, info := 0x04, tval := s.x b } s
    else parkOn (.bar true (bits xa 0 4) g.count none) s)) s)

/-- The barrier of a group. -/
def groupBar (s : State) (tenant group bar : Nat) : GroupBar :=
  (s.groupBars.find? fun b => b.tenant = tenant && b.group = group && b.bar = bar).getD
    { tenant := tenant, group := group, bar := bar }

def setGroupBar (b : GroupBar) (s : State) : State :=
  { s with groupBars := b :: s.groupBars.filter fun q => !(q.tenant = b.tenant && q.group = b.group && q.bar = b.bar) }

def clusterBar (s : State) (cl id : Nat) : Barrier := (fget (s.cluster cl).bars id).getD {}

def setClusterBar (cl id : Nat) (b : Barrier) (s : State) : State :=
  s.onCluster cl fun c => { c with bars := fput c.bars id b }

/-- The cluster whose barrier counts the arrival of a context tag. -/
def barCluster (s : State) (tag : Nat) : Option Nat :=
  (s.clusters.find? fun (_, c) => c.bars.any fun (_, b) => b.waiters.contains tag).map (·.1)

/-- The generation in which a context arrived is still open: it counts the arrival (R254). -/
def barWaits (s : State) (tag : Nat) : Bool :=
  (barCluster s tag).isSome || s.groupBars.any (·.waiters.contains tag)

/-- Delivers a trap of a barrier to a context; one that is halted stays halted, at its handler (R46, R275), a scrubbed one
takes none (R36). -/
def barTrap (t : TrapInfo) (s : State) : State :=
  let slot := s.me.slot
  if slot = .scrubbed then s
  else
    (enterTrap t false (s.onMe fun c => { c with barTimer := none, barLeft := none, again := none })).onMe fun c =>
      if slot = .halted then { c with slot := .halted, restart := 0 } else c

/-- An arrival made: the generation is recorded and the deadline timer starts (R256). -/
def arrived (gen : Nat) (s : State) : State :=
  s.onMe fun c =>
    match c.wait with
    | some (.bar fab id n _) =>
      let dl := deadlineOf c.cr.bardl s.cycle
      { c with
        wait := some (.bar fab id n (some gen))
        barTimer := if c.slot = .parked then dl else none
        barLeft := if c.slot = .parked then none else dl.map (· - s.cycle) }
    | _ => c

/-- An arrival at a cluster counter. -/
def arriveCluster (id n : Nat) (s : State) : State :=
  let cl := clusterOf (coreOf s.cur)
  let b := clusterBar s cl id
  let target := if b.count = 0 then n else b.n
  if target ≠ n then barTrap { cause := 0x1A, info := 0x02, tval := BitVec.ofNat 64 n } s
  else
    let s := arrived b.gen s
    setClusterBar cl id
      (if b.count + 1 = target then { gen := (b.gen + 1) % 65536, n := target }
       else { count := b.count + 1, n := target, gen := b.gen,
              cores := b.cores ||| 2 ^ clusterCore (coreOf s.cur), waiters := b.waiters ++ [s.tagOf s.cur] }) s

/-- One arrival of a member at a barrier of a group, from this package or another. -/
def countArrival (b : GroupBar) (n index : Nat) (waiter : Option Nat) : GroupBar :=
  if b.arrived.length + 1 = n then { b with n := n, gen := (b.gen + 1) % 65536, arrived := [], waiters := [] }
  else { b with n := n, arrived := b.arrived ++ [index], waiters := b.waiters ++ waiter.toList }

/-- The release side in a group across packages: posted stores are performed, dirty peer bytes written back (R129, R168,
R179). -/
def releaseGroup (x : CtxId) (s : State) : State :=
  systemRelease (s.tenantOf (coreOf x)) (performPosted (fun q => q.tag = s.tagOf x) s)

/-- The accesses that a release of the context covers are performed: its stores, and the posted ones where the group
reaches across packages. -/
def releaseReady (s : State) (x : CtxId) (fab : Bool) : Bool := s.storesDone x && !(fab && s.releaseWaits x)

def arriveGroup (id n : Nat) (s : State) : State :=
  let t := s.myTenant
  let g := s.me.cg
  let b := groupBar s t g.group id
  if !b.arrived.isEmpty ∧ b.n ≠ n then barTrap { cause := 0x1A, info := 0x02, tval := BitVec.ofNat 64 n } s
  else
    let s := if g.fab then toDomain t (.arrive g.group id g.index n) (releaseGroup s.cur s) else s
    setGroupBar (countArrival b n g.index (some (s.tagOf s.cur))) (arrived b.gen s)

/-- BARRIER_ARRIVAL: an arrival is a release, so it is made once the earlier stores are performed. -/
def barArrive (s : State) : State :=
  match s.me.wait with
  | some (.bar fab id n none) =>
    if !releaseReady s s.cur (fab && s.me.cg.fab) then s
    else if fab then arriveGroup id n s else arriveCluster id n s
  | _ => s

def execBarrierArrival (x : CtxId) (s : State) : Out := onCtx "BARRIER_ARRIVAL" x barArrive s

/-- A `bar` that issues again after an interruption waits on the generation that it has recorded, and makes no new arrival
(R275). -/
def retakesBar (s : State) (x : CtxId) : Bool :=
  match (s.ctx x).wait with
  | some (.bar _ _ _ none) => ((s.ctx x).recorded 7).isSome
  | _ => false

def retakeBar (s : State) : State :=
  match s.me.wait, s.me.recorded 7 with
  | some (.bar fab id n none), some g => s.onMe fun c => { c with wait := some (.bar fab id n (some g)), again := none }
  | _, _ => s

/-- The context waits on a generation that has been released. -/
def barReleased (s : State) (x : CtxId) : Bool :=
  let c := s.ctx x
  c.slot = .parked && match c.wait with
    | some (.bar _ _ _ (some _)) => !barWaits s (s.tagOf x)
    | _ => false

/-- BARRIER_RELEASE: the release reaches a member and wakes it; the wake is an acquire. -/
def barRelease (s : State) : State :=
  let s := retakeBar s
  if !barReleased s s.cur then s
  else
    let s := match s.me.wait with
      | some (.bar true ..) => acquireGroup s
      | _ => s
    (completePark s).onMe fun c => { c with barTimer := none, barLeft := none }

def execBarrierRelease (x : CtxId) (s : State) : Out := onCtx "BARRIER_RELEASE" x barRelease s

/-- The tval of a cancelled cluster barrier (R257). -/
def cancelTval (b : Barrier) : Word :=
  BitVec.ofNat 64 (b.count % 65536 + b.n % 65536 * 2 ^ 16 + b.gen % 65536 * 2 ^ 32 + b.cores % 256 * 2 ^ 48)

/-- Runs `f` in each resident context of a list of tags, scrubbed ones apart. -/
def eachTag (tags : List Nat) (f : State → State) (s : State) : State :=
  let cur := s.cur
  (tags.foldl (fun s tag =>
    match s.resident tag with
    | some x => if (s.ctx x).slot = .scrubbed then s else f (s.at x)
    | none => s) s).at cur

/-- The open generation of a group's barrier is cancelled: every context of the package that waits on it gets the bitmap
and traps (R257). -/
def cancelGroup (b : GroupBar) (s : State) : State :=
  let s := setGroupBar { b with gen := (b.gen + 1) % 65536, arrived := [], waiters := [] } s
  eachTag b.waiters (fun s =>
    let (tval, s) := writeMissing b.arrived s
    barTrap { cause := 0x1A, info := 0x01, tval := tval } s) s

/-- BARRIER_DEADLINE_EXPIRY: the generation is cancelled and every context waiting on it traps, those of other packages
when the cancellation reaches them (R257). -/
def barExpire (s : State) : State :=
  match s.me.barTimer, s.me.wait with
  | some t, some (.bar fab id _ (some _)) =>
    if s.cycle < t ∨ s.me.slot ≠ .parked ∨ !barWaits s (s.tagOf s.cur) then s
    else if fab then
      let t := s.myTenant
      let b := groupBar s t s.me.cg.group id
      cancelGroup b (if s.me.cg.fab then toDomain t (.cancel b.group id b.gen) s else s)
    else
      let cl := (barCluster s (s.tagOf s.cur)).getD (clusterOf (coreOf s.cur))
      let b := clusterBar s cl id
      let s := setClusterBar cl id { gen := (b.gen + 1) % 65536, n := b.n } s
      eachTag b.waiters (barTrap { cause := 0x1A, info := 0x01, tval := cancelTval b }) s
  | _, _ => s

def execBarrierDeadlineExpiry (x : CtxId) (s : State) : Out := onCtx "BARRIER_DEADLINE_EXPIRY" x barExpire s

/-! ## Groups (R258 to R260, R322, R325) -/

/-- The word of c.cg (R259). -/
def cgWord (g : Cg) : Word :=
  BitVec.ofNat 64 (g.valid.toNat * 2 ^ 63 + g.fab.toNat * 2 ^ 62 + g.pend.toNat * 2 ^ 61 + g.res.toNat * 2 ^ 60
    + g.out.toNat * 2 ^ 59 + g.group % 2 ^ 12 * 2 ^ 44 + g.count % 2 ^ 21 * 2 ^ 23 + g.index % 2 ^ 20)

/-- The group that a descriptor gives, or none where a field is out of range (R258, R325). -/
def groupOfDescriptor (s : State) (bs : List Byte) : Option Cg :=
  let group := field bs 0 2
  let fab := field bs 2 1
  let count := field bs 4 4
  if group < 4096 ∧ fab < 2 ∧ field bs 3 1 = 0 ∧ 1 ≤ count ∧ count ≤ 1048576 ∧ field bs 8 8 % 8 = 0
      ∧ zeros (bs.drop 16) ∧ (fab = 1 → s.feature 0) then
    some { valid := true, fab := fab = 1, group := group, count := count, map := BitVec.ofNat 64 (field bs 8 8) }
  else none

def execCgjoin (d a b : XReg) (s : State) : Out :=
  .next (notAhead (scoreboard [xref a, xref b, xref d] (notTwin fun s =>
    let xa := s.x a
    if s.me.cg.valid then takeTrap { cause := 0x19, info := 0x05, tval := xa } s
    else if xa.toNat % 64 ≠ 0 then takeTrap { cause := 0x04, tval := xa } s
    else
      withCheck (check s xa .rd 0x08) (fun p s =>
        (noteMine xa s).onMe fun c => { c with openHold := some (.descriptor d.val (pieceOf xa 64 p) (s.x b)) }) s)) s)

/-- The descriptor of a `cgjoin` returns (R260, R325). -/
def finishCgjoin (d : Nat) (p : Piece) (index : Word) (s : State) : State :=
  let (bs, poison, s) := readPieces s.cur [p] s
  match poison with
  | some g => takeTrap { cause := 0x0C, tval := g } s
  | none =>
    match groupOfDescriptor s bs with
    | none => takeTrap { cause := 0x04, tval := p.va } s
    | some g =>
      if g.count ≤ index.toNat then takeTrap { cause := 0x19, info := 0x02, tval := index } s
      else
        let g := { g with index := index.toNat }
        endHold (s.onMe fun c => { c.setX (Fin.ofNat 32 d) (cgWord g) with cg := g })

def execCgleave (s : State) : Out :=
  .next (notAhead (notTwin fun s =>
    if s.me.cg.pend then takeTrap { cause := 0x19, info := 0x06 } s
    else retire 0 (s.onMe fun c => { c with cg := {} })) s)

def execCbfence (s : State) : Out :=
  .next (notAhead (notTwin fun s =>
    let g := s.me.cg
    if !g.valid || !g.pend || g.res then retire 0 (acquireGroup s) else parkOn .cbfence s) s)

/-! ## `cbr` (R261, R262, R323, R324) -/

/-- Checkpoint, run-ahead and the deadline timer; one that runs goes on. -/
def startAhead (pt : Bool) (off : Int) (s : State) : State :=
  s.onMe fun c =>
    let label := targetOf c.pc off
    { c with
      cp := some { x := c.x, k := c.k, hold := s.cycle + 8, pend := c.pend, cbr := c.pc, next := c.next,
                   label := label, predicted := pt }
      cbrAt := some c.pc
      cgTimer := if c.cgTimer.isSome then c.cgTimer else deadlineOf c.cr.cgdl s.cycle
      pc := if pt then label else c.next
      hold := s.cycle + 8 }

def cbrForm (kind : VoteKind) (pt : Bool) (d : XReg) (off : Int) (s : State) : Out :=
  .next (notAhead (scoreboard [xref d] (notTwin fun s =>
    let g := s.me.cg
    if !g.valid then takeTrap { cause := 0x19, info := 0x01 } s
    else if g.pend && g.res then
      let s := s.onMe fun c => { c with cg := { g with pend := false, res := false }, cgTimer := none, cgLeft := none }
      if g.out then jumpTo (targetOf s.me.pc off) s else retire 0 s
    else if g.pend then startAhead pt off s
    else
      let t := s.myTenant
      let v : Vote := { voter := some (s.tagOf s.cur), tenant := t, group := g.group, index := g.index, count := g.count,
                        kind := kind, vote := s.x d != 0, fab := g.fab }
      let s := { s with net := { s.net with votes := s.net.votes ++ [v] } }
      startAhead pt off (s.onMe fun c => { c with cg := { g with pend := true } }))) s)

def execCbrAny (pt : Bool) (d : XReg) (off : Int) (s : State) : Out := cbrForm .any pt d off s
def execCbrAll (pt : Bool) (d : XReg) (off : Int) (s : State) : Out := cbrForm .all pt d off s
def execCbrMaj (pt : Bool) (d : XReg) (off : Int) (s : State) : Out := cbrForm .maj pt d off s

/-! ## Anise (R264) -/

/-- The outcome of a full round (R261). -/
def outcomeOf (kind : VoteKind) (votes : List Vote) : Bool :=
  let ones := votes.countP (·.vote)
  match kind with
  | .any => 0 < ones
  | .all => ones = votes.length
  | .maj => votes.length < 2 * ones

def addVerdicts (vs : List Verdict) (s : State) : State :=
  { s with net := { s.net with verdicts := s.net.verdicts ++ vs } }

/-- A vote joins the open round of its group, resolves it, or is refused. -/
def castVote (v : Vote) (s : State) : State :=
  let same := fun (r : Round) => r.tenant = v.tenant && r.group = v.group
  let r := (s.rounds.find? same).getD { tenant := v.tenant, group := v.group, count := v.count, kind := v.kind, votes := [] }
  if r.votes.any (·.index = v.index) ∨ r.count ≠ v.count ∨ r.kind ≠ v.kind then
    addVerdicts (v.voter.toList.map fun t => { member := t, taken := false, refused := true }) s
  else
    let votes := r.votes ++ [v]
    let rest := s.rounds.filter fun q => !same q
    if votes.length = r.count then
      let o := outcomeOf r.kind votes
      addVerdicts (votes.filterMap fun q => q.voter.map fun t => { member := t, taken := o }) { s with rounds := rest }
    else { s with rounds := rest ++ [{ r with votes := votes }] }

/-- What the release of a voter covers is performed, also where it has left its slot meanwhile. -/
def voteReady (s : State) (v : Vote) : Bool :=
  match v.voter with
  | none => true
  | some t =>
    match s.resident t with
    | some x => releaseReady s x v.fab
    | none => (fget s.orphans t).isNone && !(v.fab && s.releaseOf v.tenant t)

/-- A vote leaves its member: in a group across packages the release is made, as that of `fence.sy` (R262), and the vote goes
to the other packages too. -/
def sendVote (v : Vote) (s : State) : State :=
  if v.fab then
    let s := match v.voter with
      | some t => passFenceOf t true s
      | none => s
    toDomain v.tenant (.vote v.group v.index v.count v.kind v.vote) s
  else s

/-- ANISE_VOTE_ARRIVAL: the k-th vote in flight, once the accesses that it releases are performed. -/
def execAniseVoteArrival (k : Nat) (s : State) : Out :=
  match s.net.votes[k]? with
  | none => .next s
  | some v =>
    if voteReady s v then .next (castVote v (sendVote v { s with net := { s.net with votes := s.net.votes.eraseIdx k } }))
    else .next s

/-- The verdict on its way to a context, refusals apart. -/
def verdictFor (s : State) (x : CtxId) (refused : Bool) : Option Verdict :=
  s.net.verdicts.find? fun v => v.member = s.tagOf x && v.refused = refused

def dropVerdict (v : Verdict) (s : State) : State :=
  { s with net := { s.net with verdicts := s.net.verdicts.erase v } }

/-- The slot holds a context that an outcome can reach. -/
def outcomeReaches (s : State) (x : CtxId) : Bool :=
  (s.ctx x).slot ≠ .empty && (s.ctx x).slot ≠ .launching && (verdictFor s x false).isSome

/-- CBR_RESOLUTION_ARRIVAL. -/
def cbrResolve (s : State) : State :=
  match verdictFor s s.cur false with
  | some v => if outcomeReaches s s.cur then applyOutcome v.taken (dropVerdict v s) else s
  | none => s

def execCbrResolutionArrival (x : CtxId) (s : State) : Out := onCtx "CBR_RESOLUTION_ARRIVAL" x cbrResolve s

/-! ## Refusals and deadlines (R264, R265, R275) -/

/-- The row of R275 that an interruption meets, 0 at an instruction boundary; none where the interruption has to wait. -/
def haltRow (s : State) (x : CtxId) : Option Nat :=
  let c := s.ctx x
  if c.specOn then some 8
  else if c.openHold.isSome then none
  else
    match c.wait with
    | none => some 0
    | some w =>
      match w with
      | .load _ _ _ p => if rangeOf p.pa = .device then none else some 1
      | .vload .. | .gather .. | .flrd .. | .join .. | .recv .. | .watch .. | .take .. | .takex .. | .jwait .. | .cbfence => some 1
      | .amo .. => none
      | .fe .. => some 3
      | .packet .. | .mig .. => some 4
      | .sendRead .. | .space => some 5
      | .quitJobs | .quitVote => some 6
      | .quitEnd | .quitTwin | .quitGone _ => none
      | .bar .. => some 7
      | .runAhead | .deferred _ => some 8
      | .job .. | .submit .. => some 9

/-- What an interrupted `bar`, `mmul` or `mrow` waits on: it waits on that when it issues again at its address (R275). -/
def Ctx.record (c : Ctx) : Ctx :=
  match c.wait with
  | some (.bar _ _ _ (some g)) => { c with again := some (7, g, c.pc) }
  | some (.job id _) => { c with again := some (9, id, c.pc) }
  | _ => c

/-- The request of a parking instruction that an asynchronous trap interrupts is withdrawn (R275); during run-ahead no such
instruction has been issued (R263). -/
def withdrawRequest (s : State) : State :=
  if s.me.specOn then s else (feWithdraw s.cur (withdrawSend s.cur s)).onMe Ctx.record

/-- An asynchronous trap can be taken: the instruction can be interrupted, and the reply that gives `mmul` or `mrow` its job id
is there (R275). -/
def interruptible (s : State) (x : CtxId) : Bool :=
  (haltRow s x).isSome && match (s.ctx x).wait with
    | some (.submit _) => (s.ctx x).specOn
    | _ => true

/-- A refusal reaches a member that runs, once its instruction can be interrupted; a halted member meets it when it runs
again. -/
def refusalReaches (s : State) (x : CtxId) : Bool :=
  ((s.ctx x).slot = .ready || (s.ctx x).slot = .parked) && (verdictFor s x true).isSome && interruptible s x

/-- CBR_VOTE_REFUSED. -/
def cbrRefuse (s : State) : State :=
  match verdictFor s s.cur true with
  | some v => if refusalReaches s s.cur then applyRefusal (withdrawRequest (dropVerdict v s)) else s
  | none => s

def execCbrVoteRefused (x : CtxId) (s : State) : Out := onCtx "CBR_VOTE_REFUSED" x cbrRefuse s

/-- The indices that have voted in the open round of the context's group. -/
def votedIn (s : State) (x : CtxId) : List Nat :=
  let t := s.tenantOf (coreOf x)
  match s.rounds.find? fun r => r.tenant = t && r.group = (s.ctx x).cg.group with
  | some r => r.votes.map (·.index)
  | none => []

/-- A vote deadline has passed with the round unresolved, and the member's instruction can be interrupted. -/
def cbrExpired (s : State) (x : CtxId) : Bool :=
  let c := s.ctx x
  (c.slot = .ready || c.slot = .parked) && c.cg.pend && !c.cg.res && (verdictFor s x false).isNone && interruptible s x
    && match c.cgTimer with
    | some t => t ≤ s.cycle
    | none => false

/-- CBR_DEADLINE_EXPIRY: rollback with PEND kept, the missing-member bitmap, the trap (R265). -/
def cbrExpire (s : State) : State :=
  if !cbrExpired s s.cur then s
  else
    let present := votedIn s s.cur
    let missing := missingCount s.me.cg.count present
    let s := (withdrawRequest s).onMe fun c => { c.atCbr s.cycle with cgTimer := none }
    let (tval, s) := writeMissing present s
    enterTrap { cause := 0x18, info := Nat.min missing 255, tval := tval } false s

def execCbrDeadlineExpiry (x : CtxId) (s : State) : Out := onCtx "CBR_DEADLINE_EXPIRY" x cbrExpire s

/-- A context that takes a new tag keeps its vote, its outcome on the way, its barrier arrivals and its stores. -/
def retag (old new : Nat) (s : State) : State :=
  let vote := fun (v : Vote) => if v.voter = some old then { v with voter := some new } else v
  let tag := fun (t : Nat) => if t = old then new else t
  { retagStores old new s with
    net := { s.net with
      votes := s.net.votes.map vote
      verdicts := s.net.verdicts.map fun v => { v with member := tag v.member } }
    rounds := s.rounds.map fun r => { r with votes := r.votes.map vote }
    groupBars := s.groupBars.map fun b => { b with waiters := b.waiters.map tag }
    clusters := s.clusters.map fun (n, c) => (n, { c with bars := c.bars.map fun (i, b) =>
      (i, { b with waiters := b.waiters.map tag }) }) }

end Sys2Proof.Machine
end

