-- ==== Sys2Proof/Machine/Task.lean ====
section
/-! DEFINITION. Task packets, deques, spilling and stealing, dispatch; `spawn`, `fork`, `join`, `quit` and `mig` with what
completes them (R48 to R62, R337, R342, R358, R365, R377). -/

namespace Sys2Proof.Machine

/-! ## Packets on their way (R50, R55) -/

/-- Ranks of R55: a completed steal, then remote senders by core number, then the host. -/
def stealRank : Nat := 1
def senderRank (core : Nat) : Nat := 2 + core
def hostRank : Nat := 1000000

/-- FLAGS of a packet. -/
def packetFlags (bs : List Byte) : Nat := field bs 60 4

/-! ## Deques (R55, R56, R58) -/

/-- Packets that the hardware deque holds. -/
def Core.held (k : Core) : Nat := k.urgent.length + k.normal.length

/-- The deque is full: 64 packets in hardware and 4,096 spilled. -/
def Core.full (k : Core) : Bool := 64 ≤ k.held && 4096 ≤ k.spilled.length

/-- The deque, counting spilled packets, is not empty. -/
def Core.hasPacket (k : Core) : Bool := !k.urgent.isEmpty || !k.normal.isEmpty || !k.spilled.isEmpty

/-- The address of a core's spill ring (R56). -/
def spillAddr (s : State) (core : Nat) : Word :=
  ((s.tenant (s.tenantOf core)).steal &&& 0x00FFFFFFFFFFF000) + BitVec.ofNat 64 (core * 0x40000)

/-- The physical address of a place of a core's ring, where the ring has memory there that nothing holds. -/
def ringPlace (s : State) (core place : Nat) : Option Nat :=
  let t := s.tenantOf core
  match translateVa s (coreTlb core) t (spillAddr s core + BitVec.ofNat 64 (64 * place)) with
  | some (pa, _) =>
    if (classOf s pa = .lpddr ∨ classOf s pa = .cxl ∨ classOf s pa = .spad ∨ classOf s pa = .window) ∧ tenantOk s t pa
        ∧ !s.deviceHeld pa 64 then some pa
    else none
  | none => none

/-- A packet goes to the lowest free place of the ring, in memory; where the ring has no memory, the core keeps it (the spec
names no outcome; DESIGN CHOICE, log entry 47). -/
def spillPacket (core : Nat) (u : Bool) (p : Packet) (s : State) : State :=
  let k := s.core core
  let place := ((List.range 4096).find? fun i => !k.spilled.any (·.place = i)).getD 0
  let pa := ringPlace s core place
  let s := match pa with
    | some a => deviceWrite (s.tenantOf core) a p.bytes s
    | none => s
  s.onCore core fun k => { k with
    spilled := { urgent := u, place := place, pa := pa, pkt := if pa.isSome then { p with bytes := [] } else p } :: k.spilled }

/-- The place in the ring that holds a packet is held: it is not read yet (R177). -/
def ringHeld (s : State) (e : Spilled) : Bool := e.pa.any fun a => s.readHeld a 64

/-- A block of the ring that fails its tag check is stored poisoned (R136). -/
def noteRing (core : Nat) (e : Spilled) (s : State) : State :=
  match e.pa with
  | some a => checkTags (s.tenantOf core) a 64 s
  | none => s

/-- A packet of the deque: what the ring's memory holds now, for one that was spilled there, poisoned or not (the spec names
no outcome; DESIGN CHOICE, log entry 83). -/
def unspill (s : State) (core : Nat) (e : Spilled) : Packet :=
  match e.pa with
  | some a => { e.pkt with bytes := bytesFor s (s.tenantOf core) a 64 }
  | none => e.pkt

/-- Spills the top of the normal band, or of the urgent band where the normal one is empty (R56). -/
def spillTop (core : Nat) (s : State) : State :=
  match (s.core core).normal, (s.core core).urgent with
  | p :: rest, _ => spillPacket core false p (s.onCore core fun k => { k with normal := rest })
  | [], p :: rest => spillPacket core true p (s.onCore core fun k => { k with urgent := rest })
  | [], [] => s

/-- Pushes a packet onto the bottom of its band; with everything full it waits at the network interface (R377). -/
def pushPacket (core : Nat) (p : Packet) (s : State) : State :=
  if (s.core core).full then s.onCore core fun k => { k with ni := k.ni ++ [p] }
  else
    (if 64 ≤ (s.core core).held then spillTop core s else s).onCore core fun k =>
      if packetFlags p.bytes % 2 = 1 then { k with urgent := k.urgent ++ [p] } else { k with normal := k.normal ++ [p] }

/-- A packet is pushed in this cycle: a stolen one in the cycle after its probe, so that it comes before the remote arrivals
and the take of that cycle (R55). -/
def packetDue (s : State) (t : Nat) (p : Packet) : Bool := p.rank ≠ stealRank || (s.core t).stealFrom ≤ s.cycle

/-- PACKET_PUSH: the k-th packet on its way is pushed (R55). -/
def execPacketPush (k : Nat) (s : State) : Out :=
  match s.net.packets[k]? with
  | none => .next s
  | some (t, p) => .next (pushPacket t p { s with net := { s.net with packets := s.net.packets.eraseIdx k } })

/-- DEFERRED_PACKET_PUSH: the first packet at the network interface is pushed once a place is free (R377). -/
def execDeferredPacketPush (core : Nat) (s : State) : Out :=
  onCoreEvent "DEFERRED_PACKET_PUSH" core (fun s =>
    match (s.core core).ni with
    | [] => s
    | p :: rest =>
      if (s.core core).full then s else pushPacket core p (s.onCore core fun k => { k with ni := rest })) s

/-- A spilled packet can return: fewer than 32 in hardware, one a cycle (R56). -/
def spillDue (s : State) (k : Core) : Bool :=
  !(k.spilled.take 1).any (ringHeld s) && !k.spilled.isEmpty && k.held < 32 && k.spillAt ≠ some s.cycle

/-- SPILL_RETURN: the most recently spilled packet returns to the top of its band. -/
def execSpillReturn (core : Nat) (s : State) : Out :=
  onCoreEvent "SPILL_RETURN" core (fun s =>
    let k := s.core core
    if !spillDue s k then s
    else
      match k.spilled with
      | [] => s
      | e :: rest =>
        let p := unspill s core e
        let k := { k with spilled := rest, spillAt := some s.cycle }
        (noteRing core e s).setCore core (if e.urgent then { k with urgent := p :: k.urgent } else { k with normal := p :: k.normal })) s

/-- A band, counting spilled packets, is not empty. -/
def Core.band (k : Core) (u : Bool) : Bool := !(if u then k.urgent else k.normal).isEmpty || k.spilled.any (·.urgent = u)

/-- Removes the first spilled packet of a band. -/
def dropSpilled (u : Bool) : List Spilled → Option (Spilled × List Spilled)
  | [] => none
  | e :: rest =>
    if e.urgent = u then some (e, rest)
    else (dropSpilled u rest).map fun (q, r) => (q, e :: r)

/-- Takes from the bottom of a band. -/
def Core.takeBottom (k : Core) (u : Bool) : Option (Spilled × Core) :=
  let l := if u then k.urgent else k.normal
  match l.getLast? with
  | some p => some ({ urgent := u, pkt := p }, if u then { k with urgent := l.dropLast } else { k with normal := l.dropLast })
  | none => (dropSpilled u k.spilled).map fun (e, r) => (e, { k with spilled := r })

/-- Takes from the top of a band: the packets spilled first lie above all others. -/
def Core.takeTop (k : Core) (u : Bool) : Option (Spilled × Core) :=
  match dropSpilled u k.spilled.reverse with
  | some (e, r) => some (e, { k with spilled := r.reverse })
  | none =>
    match (if u then k.urgent else k.normal) with
    | [] => none
    | p :: rest => some ({ urgent := u, pkt := p }, if u then { k with urgent := rest } else { k with normal := rest })

/-- The band of the next take (R58). -/
def Core.takesUrgent (k : Core) : Bool := k.band true && !(k.band false && 7 ≤ k.urgentRun)

/-- The core takes a packet in this cycle (R58, R278). -/
def takeDue (s : State) (core : Nat) : Bool :=
  let k := s.core core
  k.hasPacket && !k.stopped && k.tookAt ≠ some s.cycle && (emptySlot s core).isSome
    && !(k.takeBottom k.takesUrgent).any fun (e, _) => ringHeld s e

/-- DEQUE_TAKE: a packet goes into the lowest empty slot, which launches for 8 cycles; the incarnation advances (R38,
R49, R58). -/
def execDequeTake (core : Nat) (s : State) : Out :=
  onCoreEvent "DEQUE_TAKE" core (fun s =>
    if !takeDue s core then s
    else
      let k := s.core core
      let u := k.takesUrgent
      match k.takeBottom u, emptySlot s core with
      | some (e, k), some i =>
        let p := unspill s core e
        let x := core * 16 + i
        let s := (noteRing core e s).setCore core { k with urgentRun := if u then k.urgentRun + 1 else 0, tookAt := some s.cycle }
        let inc := ((s.ctx x).inc + 1) % 256
        let s := s.setCtx x { inc := inc, slot := .launching, launch := some p, launchEnd := s.cycle + 8, pair := p.pair }
        match p.pair with
        | none => s
        | some (n, primary) =>
          let t := (fget s.twins n).getD {}
          let t := if primary then { t with a := some (x * 256 + inc) } else { t with b := some (x * 256 + inc) }
          { s with twins := fput s.twins n t }
      | _, _ => s) s

/-- The context that a packet starts (R49); messages and blocked senders that reached the launching slot stay with it. -/
def startCtx (p : Packet) (dvec : Word) (c : Ctx) : Ctx :=
  let w := fun off => BitVec.ofNat 64 (field p.bytes off 8)
  { mailbox := c.mailbox, blocked := c.blocked, highRun := c.highRun, inc := c.inc, pair := p.pair, twin := p.pair.isSome, slot := .ready,
    pc := w 0, join := w 48,
    x := ((((Vector.replicate 32 (0 : Word)).set 1 (w 8)).set 2 (w 16)).set 3 (w 24)).set 4 (w 32),
    cr := { scl := w 40 &&& 0x00FFFFFFFFFFFFFC,
            fmt := BitVec.ofNat 64 (field p.bytes 56 4) &&& 0xFFFFBFFF,
            tvec := dvec } }

/-- LAUNCH_END: the context is ready with its initial state; under a gang stop it is then halted (R49, R278). -/
def execLaunchEnd (x : CtxId) (s : State) : Out :=
  onCtx "LAUNCH_END" x (fun s =>
    match s.me.launch with
    | none => s
    | some p =>
      if s.me.slot ≠ .launching ∨ s.cycle < s.me.launchEnd then s
      else
        let c := startCtx p (s.tenant s.myTenant).dvec s.me
        let stopped := (s.core (coreOf x)).stopped
        s.setMe { c with
          readyAt := s.cycle, slot := if stopped then .halted else .ready, gangHalted := stopped }) s

/-! ## Stealing (R57, R59) -/

/-- The rectangle of the steal domain of a core: columns and rows of the block that holds it. -/
def domainSize : Nat → Nat × Nat
  | 1 => (4, 2)
  | 2 => (16, 2)
  | 3 => (32, 22)
  | _ => (64, 44)

/-- The other cores of the steal domain within the sub-mesh, ascending from the core's own number and wrapping. -/
def stealOrder (s : State) (core : Nat) : List Nat :=
  let t := s.tenantOf core
  let d := (s.tenant t).steal.toNat % 8
  if d = 0 then []
  else
    let (w, h) := domainSize d
    let x0 := colOf core / w * w
    let y0 := rowOf core / h * h
    let all := (List.range h).flatMap fun j => (List.range w).map fun i => (y0 + j) * 64 + x0 + i
    let own := all.filter fun n => s.inMesh t n
    own.filter (core < ·) ++ own.filter (· < core)

/-- The place in the thief's order of the core that it probes next. A circle that was cut short starts again after the core's
own number. -/
def probeAt (s : State) (core : Nat) (order : List Nat) : Nat :=
  let k := s.core core
  match k.stealAt with
  | some n => if k.stealFrom = s.cycle ∧ order.contains n then order.findIdx (· = n) else 0
  | none => 0

/-- What a steal finds at a core: the top of its normal band, else of its urgent one. -/
def Core.stolen (k : Core) : Option (Spilled × Core) := k.takeTop (!k.band false)

/-- The core probes in this cycle. A packet that lies in memory that is held is waited for. -/
def probeDue (s : State) (core : Nat) : Bool :=
  let k := s.core core
  let order := stealOrder s core
  diePowered s core && !k.hasPacket && k.ni.isEmpty && !k.stopped && k.stealFrom ≤ s.cycle && k.backoff.isNone
    && (emptySlot s core).isSome && !s.net.packets.any (·.1 = core) && !order.isEmpty
    && !(s.core (order.getD (probeAt s core order) core)).stolen.any fun (e, _) => ringHeld s e

/-- STEAL_PROBE: the thief probes the next core of its circle; a packet found there is on its way to the thief, after a
fruitless circle the core waits 256 cycles. -/
def execStealProbe (core : Nat) (s : State) : Out :=
  onCoreEvent "STEAL_PROBE" core (fun s =>
    if !probeDue s core then s
    else
      let order := stealOrder s core
      let i := probeAt s core order
      let v := order.getD i core
      match (s.core v).stolen with
      | some (p, rest) =>
        (addPacket core { unspill s v p with rank := stealRank } ((noteRing v p s).setCore v rest)).onCore core fun k =>
          { k with stealAt := none, stealFrom := s.cycle + 1 }
      | none =>
        if i + 1 < order.length then
          s.onCore core fun k => { k with stealAt := order[i + 1]?, stealFrom := s.cycle + 1 }
        else s.onCore core fun k => { k with stealAt := none, backoff := some (s.cycle + 256) }) s

/-- STEAL_BACKOFF_END (R59). -/
def execStealBackoffEnd (core : Nat) (s : State) : Out :=
  onCoreEvent "STEAL_BACKOFF_END" core (fun s =>
    match (s.core core).backoff with
    | some t => if t ≤ s.cycle then s.onCore core fun k => { k with backoff := none } else s
    | none => s) s

/-! ## Host launches (R54) -/

/-- The lowest mesh row of a tenant, and its lowest core. -/
def lowestRow (t : Tenant) : Nat := t.cy0 * 2

/-- HOST_SPAWN_WINDOW_WRITE: the packet goes out behind the host's earlier writes to the HDM range (R54). -/
def execHostSpawnWindowWrite (tenant offset : Nat) (data : List Byte) (s : State) : Out :=
  if 4096 ≤ tenant ∨ 0x40000 ≤ offset then .fault (.noSuchUnit "HOST_SPAWN_WINDOW_WRITE")
  else .next
    (match fget s.tenants tenant with
    | none => { s with boot := { s.boot with noTenant := s.boot.noTenant + 1 } }
    | some t =>
      let n := offset / 64
      if offset % 64 = 0 ∧ data.length = 64 ∧ t.hasCore n ∧ packetFlags data / 2 = 0 then
        let p : Packet := { bytes := data, rank := hostRank }
        if s.hostStores.isEmpty then addPacket n p s
        else { s with hostPackets := s.hostPackets ++ [(s.hostStores.length, n, p)] }
      else
        let r : TrapRec :=
          { cause := 0x1D, info := 0, row := lowestRow t, cores := 0,
            tval := BitVec.ofNat 64 (tenant * 0x40000 + offset), epc := 0, tag := 0, flags := 0, cycle := s.cycle,
            core := lowestRow t * 64 + t.cx0 * 4 }
        { s with net := { s.net with records := addRecord s.net.records tenant r } })

/-! ## The spawning forms (R377, R337) -/

/-- Waits for the read of a packet that has passed the issue checks. -/
def parkPacket (kind : SpawnKind) (va : Word) (targets : List Nat) (p : Phys) (s : State) : State :=
  parkOn (.packet kind (pieceOf va 64 p) targets) (noteMine va s)

/-- The first target outside the package or the sub-mesh traps (R53). -/
def withTargets (ts : List Nat) (body : State → State) (s : State) : State :=
  match ts.find? (fun t => coreCount ≤ t || !s.inMesh s.myTenant t) with
  | some t => takeTrap { cause := 0x1D, tval := BitVec.ofNat 64 t } s
  | none => body s

/-- The checks of a packet address, then `body`. -/
def withPacket (va : Word) (body : Phys → State → State) (s : State) : State :=
  if va.toNat % 64 ≠ 0 then takeTrap { cause := 0x04, tval := va } s
  else withCheck (check s va .rd 0x08) body s

def execSpawn (a b : XReg) (s : State) : Out :=
  .next (notAhead (scoreboard [xref a, xref b] (notTwin fun s =>
    let t := bits (s.x a) 0 12
    withPacket (s.x b) (fun p s => withTargets [t] (parkPacket .spawn (s.x b) [t] p) s) s)) s)

def execSpawnTwin (a b : XReg) (s : State) : Out :=
  .next (notAhead (scoreboard [xref a, xref b] (notTwin fun s =>
    if !(s.tenant s.myTenant).twin.getLsbD 0 then takeTrap { cause := 0x04, info := 0x50 } s
    else
      let t := bits (s.x a) 0 12
      let ts := [t, t ^^^ 4]
      withPacket (s.x b) (fun p s => withTargets ts (parkPacket .twin (s.x b) ts p) s) s)) s)

/-- The owning core of a virtual address, without a protection check, or the trap (R50, R53). -/
def ownerCheck (s : State) (va : Word) : Checked Nat :=
  match myTranslate s va with
  | none => .trap { cause := 0x08, tval := va }
  | some (pa, _) =>
    match ownerOf s pa with
    | none => .trap { cause := 0x04, tval := va }
    | some c => .ok c

def execSpawnd (a b : XReg) (s : State) : Out :=
  .next (notAhead (scoreboard [xref a, xref b] (notTwin fun s =>
    withPacket (s.x b) (fun p s =>
      match ownerCheck s (s.x a) with
      | .trap t => takeTrap t s
      | .ok t => withTargets [t] (parkPacket .spawnd (s.x b) [t] p) (noteMine (s.x a) s)) s)) s)

def execFork (a : XReg) (s : State) : Out :=
  .next (notAhead (scoreboard [xref a] (notTwin fun s =>
    withPacket (s.x a) (parkPacket .fork (s.x a) [coreOf s.cur]) s)) s)

/-- The packet of a spawning form has been read: poison and FLAGS trap, else it is sent. -/
def completePacket (kind : SpawnKind) (p : Piece) (targets : List Nat) (s : State) : State :=
  let core := coreOf s.cur
  let (bs, poison, s) := readPieces s.cur [p] s
  match poison with
  | some g => enterTrap { cause := 0x0C, tval := g } false s
  | none =>
    if packetFlags bs / 2 ≠ 0 then enterTrap { cause := 0x04, tval := p.va } false s
    else
      match kind with
      | .fork =>
        if (s.core core).full then enterTrap { cause := 0x04, tval := spillAddr s core } false s
        else completePark (pushPacket core { bytes := bs } s)
      | .twin =>
        let n := s.twinCtr
        let s := { s with twinCtr := n + 1, twins := fput s.twins n {} }
        completePark ((targets.zip [true, false]).foldl (fun s (t, primary) =>
          addPacket t { bytes := bs, rank := senderRank core, pair := some (n, primary) } s) s)
      | _ => completePark (targets.foldl (fun s t => addPacket t { bytes := bs, rank := senderRank core } s) s)

/-! ## `join` (R51, R342) -/

/-- The class of a counter word: the package's own memory (R53). -/
def ownMemory (c : MClass) : Bool := c = .lpddr || c = .spad || c = .window

/-- The checks of a counter word in the order of `Mem`. -/
def checkCounter (s : State) (va : Word) (acc : Acc) (cause : Nat) : Checked Phys :=
  if va.toNat % 8 ≠ 0 then .trap { cause := 0x04, tval := va }
  else
    match checkPage s s.myTlb s.myTenant s.me.priv va acc cause with
    | .trap t => .trap t
    | .ok p =>
      if !ownMemory p.cls then .trap { cause := 0x04, tval := va }
      else if !tenantOk s s.myTenant p.pa then .trap { cause := 0x1D, tval := va }
      else .ok p

/-- The first read of the word of a `join`: poison traps, zero completes, else the context waits for a write that leaves it
zero (R51). -/
def readJoin (va : Word) (pa : Nat) (done : State → State) (s : State) : State :=
  let (bs, poison, s') := readPieces s.cur [{ va := va, pa := pa, n := 8 }] s
  match poison with
  | some _ => enterTrap { cause := 0x0C, tval := va } false s'
  | none => if leNat bs = 0 then done s' else s'.onMe fun c => { c with wait := some (.join va pa true) }

def execJoin (a : XReg) (s : State) : Out :=
  .next (notAhead (scoreboard [xref a] (notTwin fun s =>
    let va := s.x a
    withCheck (checkCounter s va .rd 0x08) (fun p s =>
      let s := parkOn (.join va p.pa false) (noteMine va s)
      if piecesReady s s.cur [{ va := va, pa := p.pa, n := 8 }] then
        readJoin va p.pa (fun s => (completePark s).onMe fun c => { c with readyAt := 0, hold := s.cycle + 8 }) s
      else s) s)) s)

/-! ## `quit` (R52, R365) -/

/-- A slot empties: what the context leaves returns, blocked senders are released (R52, R411, R417). -/
def vacate (x : CtxId) (s : State) : State :=
  let c := s.ctx x
  let core := coreOf x
  let s := feWithdraw x (withdrawSend x s)
  let s := leaveStores x s
  let s := s.onCore core fun k =>
    { k with reserve := match k.reserve with
        | some (slot, b) => if slot = slotOf x then none else some (slot, b)
        | none => none }
  releaseSenders c.blocked (s.setCtx x { inc := c.inc })

/-- Messages in the mailboxes of a context. -/
def Ctx.messages (c : Ctx) : Nat := c.mailbox.foldl (fun n (_, l) => n + l.length) 0

/-- Discards a context's messages into the tenant's dropped-message count, then empties the slot. A message that an
interrupted `send` kept counts among them (R52 speaks of the mailboxes' messages; DESIGN CHOICE, log entry 75). A halt
command that waits for the slot is refused with reason 1 (R275). -/
def discard (x : CtxId) (s : State) : State :=
  let c := s.ctx x
  let s := s.count (s.tenantOf (coreOf x)) fun k => { k with msgs := k.msgs + c.messages + c.held.toList.length }
  let s := if c.haltPending then s.onCore (coreOf x) fun k => { k with stat := 3, reason := 1, saving := none } else s
  vacate x s

/-- Every engine job of the context is complete: no command waits and no record is pending. -/
def jobsDone (s : State) (x : CtxId) : Bool :=
  !commandWaits s x && (s.ctx x).jobs.all fun j => j.doneAt.isSome || j.fault.isSome

/-- No round of the context is unresolved. -/
def voteSettled (c : Ctx) : Bool := !c.cg.pend || c.cg.res

/-- The read of `quit`'s decrement: poisoned, or the value (R365). -/
def readCounter (x : CtxId) (p : Phys) (s : State) : Option Nat × State :=
  match performRead x [] p.pa false 8 (noteSram x p.pa 8 s) with
  | (_, some _, s) => (none, s)
  | (bs, none, s) => (some (leNat bs), s)

/-- The write of the decrement: one atomic pair with the read. -/
def decrement (x : CtxId) (p : Phys) (old : Nat) (s : State) : State :=
  performStore x { pa := p.pa, data := natLe 8 ((old + 2 ^ 64 - 1) % 2 ^ 64) } s

/-- The slot of a quit context empties in the next cycle. -/
def goneNext (s : State) : State := s.onMe fun c => { c with wait := some (.quitGone (s.cycle + 1)) }

/-- The last part of `quit`, once its waits have ended: the stores, then the decrement, then the slot empties in the
next cycle. In a twin pair the decrements are compared first. -/
def quitFinish (s : State) : State :=
  let j := s.me.join
  if !s.storesDone s.cur then s
  else if j = 0 then goneNext s
  else
    match checkCounter s j .wr 0x09 with
    | .trap t => enterTrap t false s
    | .ok p =>
      if s.writeHeld s.cur p.pa 8 s.me.seq then s
      else if s.me.twin then
        (twinEmit 3 8 j.toNat [] .quit s).onMe fun c => { c with wait := some .quitTwin }
      else
        match readCounter s.cur p (noteMine j s) with
        | (none, s) => enterTrap { cause := 0x0C, tval := j } false s
        | (some old, s) => goneNext (decrement s.cur p old s)

/-- `quit` goes on as far as its waits allow. -/
def quitStep (s : State) : State :=
  if !jobsDone s s.cur then s.onMe fun c => { c with wait := some .quitJobs }
  else if !voteSettled s.me then s.onMe fun c => { c with wait := some .quitVote }
  else quitFinish (s.onMe fun c => { c with wait := some .quitEnd })

/-- A waiting `quit` can go on. -/
def quitReady (s : State) (x : CtxId) : Bool :=
  let c := s.ctx x
  match c.wait with
  | some .quitJobs => jobsDone s x
  | some .quitVote => voteSettled c
  | some .quitEnd => s.storesDone x && (c.join = 0 ||
      (match checkCounter (s.at x) c.join .wr 0x09 with
        | .trap _ => true
        | .ok p => !s.writeHeld x p.pa 8 c.seq))
  | some (.quitGone t) => t ≤ s.cycle
  | _ => false

def execQuit (s : State) : Out :=
  .next (notAhead (fun s =>
    let start := fun (s : State) => quitStep (parkOn .quitJobs s)
    if s.me.join = 0 then start s
    else withCheck (checkCounter s s.me.join .wr 0x09) (fun _ s => start s) s) s)

/-! ## Migration of a light context (R61, R62, R358) -/

def execMig (d a : XReg) (s : State) : Out :=
  .next (notAhead (scoreboard [xref a, xref d] (notTwin fun s =>
    let va := s.x a
    if s.me.heavy then takeTrap { cause := 0x12 } s
    else
      match ownerCheck s va with
      | .trap t => takeTrap t s
      | .ok core =>
        let s := noteMine va s
        if !s.inMesh s.myTenant core then takeTrap { cause := 0x1D, tval := BitVec.ofNat 64 core } s
        else if core = coreOf s.cur then finishX d 1 s
        else parkOn (.mig (some d.val) core) s)) s)

/-- The context of the step moves to a slot of another core; its old slot empties and forwards to the new tag. What the spec
leaves open: its last issue does not move, so it counts as oldest for a lent position of the new core until it has issued
there; the history of R65 moves with it (DESIGN CHOICE, log entries 2 and 76). -/
def moveTo (core slot : Nat) (d : Option Nat) (s : State) : State :=
  let x := s.cur
  let y := core * 16 + slot
  let old := s.tagOf x
  let inc := ((s.ctx y).inc + 1) % 256
  let s := match d with
    | some d => completeX d 1 s
    | none => reissue s
  let c := s.me
  let s := s.setCtx y { c with inc := inc, former := (old :: c.former).take 3, blocked := [], lastIssue := none }
  let s := retagStores old (y * 256 + inc) (addForward (coreOf x) old (some (y * 256 + inc)) s)
  (vacate x s).at y

/-- The move can be made or refused: earlier stores are performed and outstanding writes have landed. -/
def moveDue (c : Ctx) : Bool := c.stores.isEmpty && c.pend.isEmpty && c.replies.isEmpty

/-- MIGRATION_MOVE_END: the context moves, or xd := 0, or the touching access goes on from where it is. -/
def migrationMoveEnd (s : State) : State :=
  match s.me.wait with
  | some (.mig d core) =>
    if s.me.slot ≠ .parked ∨ !moveDue s.me then s
    else
      match (if s.me.movable && !commandWaits s s.cur then emptySlot s core else none) with
      | some i => moveTo core i d s
      | none =>
        match d with
        | some d => completeX d 0 s
        | none => reissue s
  | _ => s

def execMigrationMoveEnd (x : CtxId) (s : State) : Out := onCtx "MIGRATION_MOVE_END" x migrationMoveEnd s

end Sys2Proof.Machine
end

