-- ==== Sys2Proof/Machine/Float.lean ====
section
/-! DEFINITION. Numbers: the element formats, exact values, rounding and conversions (R96 to R103). A value is computed
exactly on integers and rounded once. -/

namespace Sys2Proof.Machine

/-- An exact value: NaN, an infinity, or (−1)^neg × num × 2^e; a zero keeps its sign. -/
inductive XVal where
  | nan
  | inf (neg : Bool)
  | fin (neg : Bool) (num : Nat) (e : Int)
  deriving DecidableEq, Repr

/-! ## Formats (R96) -/

/-- Fraction bits. -/
def fracBits : Ty → Nat
  | .f32 => 23 | .bf16 => 7 | .f16 => 10 | .e4m3 => 3 | .e5m2 => 2 | _ => 0

/-- Exponent bits. -/
def expBits : Ty → Nat
  | .f32 | .bf16 => 8 | .f16 | .e5m2 => 5 | .e4m3 => 4 | _ => 0

def biasOf : Ty → Nat
  | .f32 | .bf16 => 127 | .f16 | .e5m2 => 15 | .e4m3 => 7 | _ => 0

/-- The code of the largest finite magnitude. -/
def maxCode (ty : Ty) : Nat :=
  if ty = .e4m3 then 0x7E else (2 ^ expBits ty - 1) * 2 ^ fracBits ty - 1

/-- The code of the canonical NaN. -/
def canonNaN (ty : Ty) : Nat :=
  if ty = .e4m3 then 0x7F else (2 ^ expBits ty - 1) * 2 ^ fracBits ty + 2 ^ (fracBits ty - 1)

/-- The sign bit of a float type, as a weight. -/
def signBit (ty : Ty) : Nat := 2 ^ (ty.width - 1)

/-- The value of a pattern (R96). -/
def toX (ty : Ty) (n : Nat) : XVal :=
  let m := fracBits ty
  let neg := n / signBit ty % 2 = 1
  let mag := n % signBit ty
  let e := mag / 2 ^ m
  let f := mag % 2 ^ m
  if ty = .e4m3 then
    if mag = 0x7F then .nan
    else if e = 0 then .fin neg f (-9) else .fin neg (f + 8) ((e : Int) - 10)
  else if e = 2 ^ expBits ty - 1 then (if f = 0 then .inf neg else .nan)
  else if e = 0 then .fin neg f (1 - (biasOf ty : Int) - m)
  else .fin neg (f + 2 ^ m) ((e : Int) - biasOf ty - m)

/-! ## Rounding (R99, R100) -/

/-- The integer nearest to N / D under a rounding mode, for a magnitude with sign `neg`. -/
def roundDiv (rm : Rm) (neg : Bool) (n d : Nat) : Nat :=
  let i := n / d
  let r := n % d
  match rm with
  | .rne => if 2 * r > d ∨ (2 * r = d ∧ i % 2 = 1) then i + 1 else i
  | .rtz => i
  | .rdn => if neg ∧ r ≠ 0 then i + 1 else i
  | .rup => if !neg ∧ r ≠ 0 then i + 1 else i

/-- num / den × 2^e as numerator and denominator over 2^q. -/
def scaleTo (num den : Nat) (e q : Int) : Nat × Nat :=
  if q ≤ e then (num * 2 ^ (e - q).toNat, den) else (num, den * 2 ^ (q - e).toNat)

/-- The floor of the binary logarithm of num / den × 2^e, num positive. -/
def floorLog (num den : Nat) (e : Int) : Int :=
  let k := (num.log2 : Int) - den.log2
  let (a, b) := scaleTo num den 0 k
  if a < b then k - 1 + e else k + e

/-- The magnitude code of num / den × 2^e rounded; it exceeds `maxCode` on overflow. -/
def roundMag (ty : Ty) (rm : Rm) (neg : Bool) (num den : Nat) (e : Int) : Nat :=
  let m := fracBits ty
  let low : Int := 1 - (biasOf ty : Int) - m
  let q : Int := max (floorLog num den e - m) low
  let (a, b) := scaleTo num den e q
  (q - low).toNat * 2 ^ m + roundDiv rm neg a b

/-- The code of an infinite value with its sign, by the format's rules (R100). -/
def infCode (ty : Ty) (sat neg : Bool) : Nat :=
  let sign := if neg then signBit ty else 0
  if ty = .e4m3 then canonNaN ty
  else if ty = .e5m2 ∧ sat then sign + maxCode ty
  else sign + (2 ^ expBits ty - 1) * 2 ^ fracBits ty

/-- The code of a finite value whose rounded magnitude exceeds the largest finite one (R99, R100). -/
def overflowCode (ty : Ty) (rm : Rm) (sat neg : Bool) : Nat :=
  let sign := if neg then signBit ty else 0
  let toMax := ty = .e4m3 || (ty = .e5m2 && sat) || (match rm with
    | .rne => false
    | .rtz => true
    | .rdn => !neg
    | .rup => neg)
  if toMax then sign + maxCode ty else infCode ty false neg

/-- Round of an exact rational with a sign: num / den × 2^e (R99). -/
def roundRat (ty : Ty) (rm : Rm) (sat neg : Bool) (num den : Nat) (e : Int) : Nat :=
  let sign := if neg then signBit ty else 0
  if num = 0 then sign
  else
    let mag := roundMag ty rm neg num den e
    if mag > maxCode ty then overflowCode ty rm sat neg else sign + mag

/-- Round of an exact value (R99 to R101). -/
def roundX (ty : Ty) (rm : Rm) (sat : Bool) : XVal → Nat
  | .nan => canonNaN ty
  | .inf neg => infCode ty sat neg
  | .fin neg num e => roundRat ty rm sat neg num 1 e

/-! ## Exact arithmetic -/

/-- The signed numerator at an exponent below both. -/
def signedAt (neg : Bool) (num : Nat) (e low : Int) : Int :=
  let v : Int := (num * 2 ^ (e - low).toNat : Nat)
  if neg then -v else v

/-- The exact sum; an exact zero of opposite signs is −0 in RDN only (R99). Two zeros of one sign keep it (DESIGN CHOICE, log
entry 82). -/
def addX (rm : Rm) : XVal → XVal → XVal
  | .nan, _ => .nan
  | _, .nan => .nan
  | .inf a, .inf b => if a = b then .inf a else .nan
  | .inf a, _ => .inf a
  | _, .inf b => .inf b
  | .fin sa na ea, .fin sb nb eb =>
    let low := min ea eb
    let v := signedAt sa na ea low + signedAt sb nb eb low
    if v = 0 then
      if na = 0 ∧ nb = 0 ∧ sa = sb then .fin sa 0 0 else .fin (rm == .rdn) 0 0
    else .fin (v < 0) v.natAbs low

def negX : XVal → XVal
  | .nan => .nan
  | .inf s => .inf !s
  | .fin s n e => .fin (!s) n e

/-- The exact product. A zero product has the sign that the signs of its factors give (DESIGN CHOICE, log entry 82). -/
def mulX : XVal → XVal → XVal
  | .nan, _ => .nan
  | _, .nan => .nan
  | .inf a, .inf b => .inf (a != b)
  | .inf a, .fin b n _ => if n = 0 then .nan else .inf (a != b)
  | .fin a n _, .inf b => if n = 0 then .nan else .inf (a != b)
  | .fin a m e, .fin b n f => .fin (a != b) (m * n) (e + f)

/-- a < b as exact values; false with a NaN; −0 = +0. -/
def ltX : XVal → XVal → Bool
  | .nan, _ => false
  | _, .nan => false
  | .inf a, .inf b => a && !b
  | .inf a, _ => a
  | _, .inf b => !b
  | .fin sa na ea, .fin sb nb eb =>
    let low := min ea eb
    signedAt sa na ea low < signedAt sb nb eb low

/-- a = b as exact values; false with a NaN; −0 = +0. -/
def eqX : XVal → XVal → Bool
  | .nan, _ => false
  | _, .nan => false
  | a, b => !ltX a b && !ltX b a

def isNaN : XVal → Bool
  | .nan => true
  | _ => false

def negOf : XVal → Bool
  | .nan => false
  | .inf s => s
  | .fin s _ _ => s

/-- −0 orders below +0 (R103). -/
def beforeX (a b : XVal) : Bool := ltX a b || (eqX a b && negOf a && !negOf b)

/-- `vmin` and `vmax` on patterns (R101, R103). -/
def fMin (ty : Ty) (a b : Nat) : Nat :=
  let x := toX ty a
  let y := toX ty b
  if isNaN x || isNaN y then canonNaN ty else if beforeX y x then b else a

def fMax (ty : Ty) (a b : Nat) : Nat :=
  let x := toX ty a
  let y := toX ty b
  if isNaN x || isNaN y then canonNaN ty else if beforeX x y then b else a

/-! ## Conversions (R102) -/

/-- The range of an integer type. -/
def intMin (ty : Ty) : Int := if ty.isSigned then -(2 ^ (ty.width - 1) : Int) else 0
def intMax (ty : Ty) : Int := if ty.isSigned then 2 ^ (ty.width - 1) - 1 else 2 ^ ty.width - 1

def clampInt (ty : Ty) (i : Int) : Int := max (intMin ty) (min (intMax ty) i)

/-- A rational rounded to an integer and clamped to an integer type. -/
def ratToInt (ty : Ty) (rm : Rm) (neg : Bool) (num den : Nat) (e : Int) : Int :=
  let (a, b) := scaleTo num den e 0
  let v : Int := roundDiv rm neg a b
  clampInt ty (if neg then -v else v)

/-- A float value converted to an integer type. -/
def xToInt (ty : Ty) (rm : Rm) : XVal → Int
  | .nan => 0
  | .inf neg => if neg then intMin ty else intMax ty
  | .fin neg num e => ratToInt ty rm neg num 1 e

/-- The conversion of an element between two types (R102): an integer is extended by the signedness of its source, into a type
of another sign too. -/
def convert (dst src : Ty) (rm : Rm) (sat : Bool) (n : Nat) : Nat :=
  if src.isFloat then
    if dst.isFloat then roundX dst rm sat (toX src n) else narrow dst.width (xToInt dst rm (toX src n))
  else
    let i := intElem src n
    if dst.isFloat then roundRat dst rm sat (i < 0) i.natAbs 1 0
    else narrow dst.width (if src.width < dst.width then i else clampInt dst i)

/-- An exact quotient x / s rounded into a type (R409, R216). By a zero or an infinite scale it is what IEEE 754 gives: the
rules state no quotient there (PRESUMED, log entry 82). -/
def quotTo (ty : Ty) (rm : Rm) (sat : Bool) (x s : XVal) : Nat :=
  let put := fun (v : XVal) => if ty.isFloat then roundX ty rm sat v else narrow ty.width (xToInt ty rm v)
  match x, s with
  | .nan, _ => put .nan
  | _, .nan => put .nan
  | .inf _, .inf _ => put .nan
  | .inf a, .fin b _ _ => put (.inf (a != b))
  | .fin a _ _, .inf b => put (.fin (a != b) 0 0)
  | .fin a m e, .fin b n f =>
    if n = 0 then (if m = 0 then put .nan else put (.inf (a != b)))
    else if ty.isFloat then roundRat ty rm sat (a != b) m n (e - f)
    else narrow ty.width (ratToInt ty rm (a != b) m n (e - f))

/-! ## Functions (R103, R398): the exact value rounded once under RNE -/

/-- The integer square root, from its bit `k` downwards. -/
def isqrtFrom : Nat → Nat → Nat → Nat
  | 0, _, r => r
  | k + 1, n, r => if (r + 2 ^ k) * (r + 2 ^ k) ≤ n then isqrtFrom k n (r + 2 ^ k) else isqrtFrom k n r

def isqrt (n : Nat) : Nat := isqrtFrom (n.log2 / 2 + 1) n 0

/-- Bits of the fixed-point arithmetic of `vexp2`, `vlog2` and `vtanh` (log entry 18). -/
def fxBits : Nat := 384

/-- Σ z^(2k+1) / (2k+1) for z = p / q, in fixed point: the inverse hyperbolic tangent. `t` is z^(2k+1). -/
def atanhSum : Nat → Nat → Nat → Nat → Nat → Nat
  | 0, _, _, _, _ => 0
  | n + 1, k, p, q, t => t / (2 * k + 1) + atanhSum n (k + 1) p q (t * (p * p) / (q * q))

def atanhFx (p q : Nat) : Nat := atanhSum 260 0 p q (p * 2 ^ fxBits / q)

/-- ln 2 in fixed point. -/
def ln2Fx : Nat := 2 * atanhFx 1 3

/-- Σ t^k / k! from the term `u` = t^(k−1) / (k−1)! on, in fixed point. -/
def expSum : Nat → Nat → Nat → Nat → Nat
  | 0, _, _, _ => 0
  | n + 1, k, t, u => u + expSum n (k + 1) t (u * t / (2 ^ fxBits * k))

/-- e^t for 0 ≤ t < 1 in fixed point. -/
def expFx (t : Nat) : Nat := expSum 100 1 t (2 ^ fxBits)

/-- 1 / x. -/
def fRcp (ty : Ty) : XVal → Nat
  | .nan => canonNaN ty
  | .inf s => roundX ty .rne false (.fin s 0 0)
  | .fin s n e => if n = 0 then infCode ty false s else roundRat ty .rne false s 1 n (-e)

/-- 1 / √x: an integer square root with a sticky bit, so the rounding is exact. -/
def fRsq (ty : Ty) : XVal → Nat
  | .nan => canonNaN ty
  | .inf s => if s then canonNaN ty else 0
  | .fin s n e =>
    if n = 0 then infCode ty false s
    else if s then canonNaN ty
    else
      let (n, e) := if e % 2 = 0 then (n, e) else (2 * n, e - 1)
      let p : Nat := 100
      let r := isqrt (4 ^ p / n)
      let v := 2 * r + (if n * r * r = 4 ^ p then 0 else 1)
      roundRat ty .rne false false v 1 (-(e / 2) - p - 1)

/-- 2^x. -/
def fExp2 (ty : Ty) : XVal → Nat
  | .nan => canonNaN ty
  | .inf s => if s then 0 else infCode ty false false
  | .fin s n e =>
    let v := signedAt s n e (min e (-(fxBits : Int)))
    let one : Int := 2 ^ (-(min e (-(fxBits : Int)))).toNat
    let i := v / one
    if i > 2000 then roundRat ty .rne false false 1 1 2000
    else if i < -2000 then roundRat ty .rne false false 1 1 (-2000)
    else
      let f := (v % one).toNat
      if f = 0 then roundRat ty .rne false false 1 1 i
      else roundRat ty .rne false false (expFx (f * ln2Fx / one.toNat)) 1 (i - fxBits)

/-- log2 x. The zero result for 1 is +0 (R103 gives it no sign; DESIGN CHOICE, log entry 82). -/
def fLog2 (ty : Ty) : XVal → Nat
  | .nan => canonNaN ty
  | .inf s => if s then canonNaN ty else infCode ty false false
  | .fin s n e =>
    if n = 0 then infCode ty false true
    else if s then canonNaN ty
    else
      let k := n.log2
      let i : Int := k + e
      let frac := if n = 2 ^ k then 0 else 2 * atanhFx (n - 2 ^ k) (n + 2 ^ k) * 2 ^ fxBits / ln2Fx
      let v : Int := i * 2 ^ fxBits + frac
      roundRat ty .rne false (v < 0) v.natAbs 1 (-(fxBits : Int))

/-- tanh x = (E − 1) / (E + 1) with E = e^(2|x|). -/
def fTanh (ty : Ty) : XVal → Nat
  | .nan => canonNaN ty
  | .inf s => roundRat ty .rne false s 1 1 0
  | .fin s n e =>
    if n = 0 then roundX ty .rne false (.fin s 0 0)
    else if floorLog n 1 e ≥ 7 then roundRat ty .rne false s (2 ^ 250 - 1) (2 ^ 250) 0
    else
      let x2 := (scaleTo (2 * n) 1 e (-(2 * fxBits : Nat) : Int)).1
      let w := x2 / ln2Fx
      let i := w / 2 ^ fxBits
      let f := w % 2 ^ fxBits
      let ex := expFx (f * ln2Fx / 2 ^ fxBits) * 2 ^ i
      roundRat ty .rne false s (ex - 2 ^ fxBits) (ex + 2 ^ fxBits) 0

end Sys2Proof.Machine
end

