-- ==== Sys2Proof/Machine/Vector.lean ====
section
/-! DEFINITION. The vector forms without memory access: page 2, and the permutes, broadcasts, element moves and register
allocation of page 3 (R388 to R400, R406 to R413). Every form parks during run-ahead (R388). -/

namespace Sys2Proof.Machine

def cfRm (c : Ctx) : Rm := (Rm.ofCode (bits c.cr.fmt 12 2)).getD .rne
def cfSat (c : Ctx) : Bool := c.cr.fmt.getLsbD 15
def cfAty (c : Ctx) : Nat := bits c.cr.fmt 0 4
def cfWty (c : Ctx) : Nat := bits c.cr.fmt 4 4
def cfOty (c : Ctx) : Nat := bits c.cr.fmt 8 4

/-- A type or group that the form does not accept makes the instruction illegal (R76, R84). -/
def legal (ok : Bool) (body : State → State) (s : State) : State := if ok then body s else illegalBase s

/-- A vector form: legal fields, run-ahead, scoreboard over `refs` and `vs`, claims and reservations of `vs` (R388). -/
def vecForm (ok : Bool) (refs : List RegRef) (vs : List Nat) (body : State → State) (s : State) : Out :=
  .next (legal ok (notAhead (scoreboard (refs ++ vs.map vref) (vectors vs body))) s)

/-- Results to several registers, then completion. -/
def finishVs (lat : Nat) (stall : Fin 16) (ws : List RegWrite) (s : State) : State :=
  retire stall.val (ws.foldl (fun s w => writeResult lat w s) s)

/-- Writes one whole vector register. -/
def finishV (lat : Nat) (stall : Fin 16) (d : Nat) (v : VecReg) (s : State) : State :=
  finishVs lat stall [.v d allBits v] s

/-- An element-wise form of the elements of d, a and b. -/
def elementwise (ok : Bool) (lat : Nat) (stall : Fin 16) (ty : Ty) (d a b : VReg)
    (f : Ctx → Nat → Nat → Nat → Nat) (s : State) : Out :=
  vecForm ok [] [d.val, a.val, b.val] (fun s =>
    let c := s.me
    let es := List.zipWith (fun (x : Nat) (y : Nat × Nat) => f c x y.1 y.2) (elems ty (c.vr d.val))
      ((elems ty (c.vr a.val)).zip (elems ty (c.vr b.val)))
    finishV lat stall d.val (ofElems ty es) s) s

/-- An element-wise form of the elements of a. -/
def elementwise1 (ok : Bool) (lat : Nat) (stall : Fin 16) (ty : Ty) (d a : VReg) (f : Ctx → Nat → Nat) (s : State) : Out :=
  vecForm ok [] [d.val, a.val] (fun s =>
    finishV lat stall d.val (ofElems ty ((elems ty (s.me.vr a.val)).map (f s.me))) s) s

/-! ## Arithmetic (R392) -/

/-- Float or integer arithmetic of one element: `g` on exact values, `h` on integers modulo 2^w. -/
def arith (ty : Ty) (c : Ctx) (g : Rm → XVal → XVal → XVal → XVal) (h : Int → Int → Int → Int) (d a b : Nat) : Nat :=
  if ty.isFloat then roundX ty (cfRm c) (cfSat c) (g (cfRm c) (toX ty d) (toX ty a) (toX ty b))
  else narrow ty.width (h (intElem ty d) (intElem ty a) (intElem ty b))

def execVadd (n : Fin 16) (ty : Ty) (d a b : VReg) (s : State) : Out :=
  elementwise ty.isArith 16 n ty d a b (fun c => arith ty c (fun rm _ x y => addX rm x y) (fun _ x y => x + y)) s
def execVsub (n : Fin 16) (ty : Ty) (d a b : VReg) (s : State) : Out :=
  elementwise ty.isArith 16 n ty d a b (fun c => arith ty c (fun rm _ x y => addX rm x (negX y)) (fun _ x y => x - y)) s
def execVmul (n : Fin 16) (ty : Ty) (d a b : VReg) (s : State) : Out :=
  elementwise ty.isArith 16 n ty d a b (fun c => arith ty c (fun _ _ x y => mulX x y) (fun _ x y => x * y)) s
def execVfma (n : Fin 16) (ty : Ty) (d a b : VReg) (s : State) : Out :=
  elementwise ty.isArith 20 n ty d a b
    (fun c => arith ty c (fun rm z x y => addX rm z (mulX x y)) (fun z x y => z + x * y)) s
def execVfms (n : Fin 16) (ty : Ty) (d a b : VReg) (s : State) : Out :=
  elementwise ty.isArith 20 n ty d a b
    (fun c => arith ty c (fun rm z x y => addX rm z (negX (mulX x y))) (fun z x y => z - x * y)) s

/-- `vmin` and `vmax` of one element (R392). -/
def elemMin (ty : Ty) (a b : Nat) : Nat :=
  if ty.isFloat then fMin ty a b else if intElem ty a ≤ intElem ty b then a else b
def elemMax (ty : Ty) (a b : Nat) : Nat :=
  if ty.isFloat then fMax ty a b else if intElem ty b ≤ intElem ty a then a else b

def execVmin (n : Fin 16) (ty : Ty) (d a b : VReg) (s : State) : Out :=
  elementwise ty.isArith 16 n ty d a b (fun _ _ x y => elemMin ty x y) s
def execVmax (n : Fin 16) (ty : Ty) (d a b : VReg) (s : State) : Out :=
  elementwise ty.isArith 16 n ty d a b (fun _ _ x y => elemMax ty x y) s

/-! ## Logic, shifts, comparisons, selection (R393, R395, R412, R413) -/

def logical (n : Fin 16) (d a b : VReg) (f : VecReg → VecReg → VecReg) (s : State) : Out :=
  vecForm true [] [d.val, a.val, b.val] (fun s =>
    finishV 16 n d.val (f (s.me.vr a.val) (s.me.vr b.val)) s) s

def execVand (n : Fin 16) (d a b : VReg) (s : State) : Out := logical n d a b (· &&& ·) s
def execVor (n : Fin 16) (d a b : VReg) (s : State) : Out := logical n d a b (· ||| ·) s
def execVxor (n : Fin 16) (d a b : VReg) (s : State) : Out := logical n d a b (· ^^^ ·) s

/-- The shift of one element by a signed count (R413). -/
def elemShift (ty : Ty) (a b : Nat) : Nat :=
  let w := ty.width
  let c := signedOf w b
  if 0 ≤ c then (if (w : Int) ≤ c then 0 else a * 2 ^ c.toNat % 2 ^ w)
  else
    let m := Nat.min (-c).toNat w
    if ty.isSigned then narrow w (intElem ty a / (2 ^ m : Nat)) else a / 2 ^ m

def execVsh (n : Fin 16) (ty : Ty) (d a b : VReg) (s : State) : Out :=
  elementwise ty.isInt 16 n ty d a b (fun _ _ x y => elemShift ty x y) s

/-- The condition of `vcmp` on one element (R395). -/
def elemCmp (c : VCond) (ty : Ty) (a b : Nat) : Bool :=
  if ty.isFloat then
    let x := toX ty a
    let y := toX ty b
    match c with
    | .eq => eqX x y
    | .ne => !eqX x y
    | .lt => ltX x y
    | .le => ltX x y || eqX x y
  else
    let x := intElem ty a
    let y := intElem ty b
    match c with
    | .eq => x == y
    | .ne => x != y
    | .lt => x < y
    | .le => x ≤ y

/-- Bits as a number, the first lowest. -/
def bitsNat : List Bool → Nat
  | [] => 0
  | b :: bs => b.toNat + 2 * bitsNat bs

def execVcmp (n : Fin 16) (c : VCond) (ty : Ty) (k : KReg) (a b : VReg) (s : State) : Out :=
  vecForm ty.isArith [kref k] [a.val, b.val] (fun s =>
    let r := bitsNat (List.zipWith (elemCmp c ty) (elems ty (s.me.vr a.val)) (elems ty (s.me.vr b.val)))
    finishVs 16 n [.k k.val (BitVec.ofNat 1024 r)] s) s

/-- The bits of a register that the elements chosen by a test occupy. -/
def elemMask (ty : Ty) (f : Nat → Bool) : VecReg :=
  ofElems ty ((List.range ty.count).map fun i => if f i then 2 ^ ty.width - 1 else 0)

/-- R412: only the elements whose mask bit is 1 are written. -/
def execVsel (n : Fin 16) (ty : Ty) (d a : VReg) (k : KReg) (s : State) : Out :=
  vecForm true [kref k] [d.val, a.val] (fun s =>
    let m := s.me.kr k
    finishVs 16 n [.v d.val (elemMask ty m.getLsbD) (s.me.vr a.val)] s) s

/-! ## One-operand forms (R391, R398) -/

def elemAbs (ty : Ty) (a : Nat) : Nat :=
  if ty.isFloat then a % signBit ty
  else if ty.isSigned then narrow ty.width (intElem ty a).natAbs else a

def elemNeg (ty : Ty) (a : Nat) : Nat :=
  if ty.isFloat then (a + signBit ty) % 2 ^ ty.width else narrow ty.width (-(intElem ty a))

def execVabs (n : Fin 16) (ty : Ty) (d a : VReg) (s : State) : Out :=
  elementwise1 true 16 n ty d a (fun _ => elemAbs ty) s
def execVneg (n : Fin 16) (ty : Ty) (d a : VReg) (s : State) : Out :=
  elementwise1 true 16 n ty d a (fun _ => elemNeg ty) s

def funcForm (n : Fin 16) (ty : Ty) (d a : VReg) (f : Ty → XVal → Nat) (s : State) : Out :=
  elementwise1 ty.isWide 32 n ty d a (fun _ x => f ty (toX ty x)) s

def execVrcp (n : Fin 16) (ty : Ty) (d a : VReg) (s : State) : Out := funcForm n ty d a fRcp s
def execVrsq (n : Fin 16) (ty : Ty) (d a : VReg) (s : State) : Out := funcForm n ty d a fRsq s
def execVexp2 (n : Fin 16) (ty : Ty) (d a : VReg) (s : State) : Out := funcForm n ty d a fExp2 s
def execVlog2 (n : Fin 16) (ty : Ty) (d a : VReg) (s : State) : Out := funcForm n ty d a fLog2 s
def execVtanh (n : Fin 16) (ty : Ty) (d a : VReg) (s : State) : Out := funcForm n ty d a fTanh s

/-! ## Conversions (R396, R407) -/

def execVcvt (n : Fin 16) (ty sty : Ty) (rm : Rm) (d a : VReg) (s : State) : Out :=
  vecForm (convertible ty sty) [] [d.val, a.val] (fun s =>
    finishV 16 n d.val (ofElems ty ((elems sty (s.me.vr a.val)).map (convert ty sty rm (cfSat s.me)))) s) s

/-- The registers of a group. -/
def groupOf (v k : Nat) : List Nat := (List.range k).map (v + ·)

/-- Every `k`-th element from `j` on. -/
def everyKth (k j : Nat) (l : List Nat) : List Nat :=
  (List.range (l.length / k)).map fun i => l.getD (i * k + j) 0

def execVwid (n : Fin 16) (ty sty : Ty) (d a : VReg) (s : State) : Out :=
  let k := ty.ratio sty
  vecForm (k != 0 && d.val % k == 0) [] (groupOf d.val k ++ [a.val]) (fun s =>
    let es := (elems sty (s.me.vr a.val)).map (convert ty sty .rne (cfSat s.me))
    finishVs 16 n ((List.range k).map fun j => .v (d.val + j) allBits (ofElems ty (everyKth k j es))) s) s

def execVpack (n : Fin 16) (ty sty : Ty) (rm : Rm) (d a : VReg) (s : State) : Out :=
  let k := sty.ratio ty
  vecForm (k != 0 && a.val % k == 0) [] (d.val :: groupOf a.val k) (fun s =>
    let srcs := (List.range k).map fun j => elems sty (s.me.vr (a.val + j))
    let es := (List.range ty.count).map fun i =>
      convert ty sty rm (cfSat s.me) ((srcs.getD (i % k) []).getD (i / k) 0)
    finishV 16 n d.val (ofElems ty es) s) s

/-! ## Quantise, Hadamard, hashed values (R108 to R110, R399, R400, R409) -/

/-- The types of c.fmt that `vquant` accepts; another one is illegal as if encoded (R104, R409). -/
def quantTypes (ty : Ty) (c : Ctx) : Bool :=
  cfAty c = ty.code && (cfOty c = 0 || cfOty c = 1 || cfOty c = 11 || cfOty c = 12)

def execVquant (n : Fin 16) (ty : Ty) (d a : VReg) (b : XReg) (s : State) : Out :=
  vecForm (ty.isWide && quantTypes ty s.me) [xref b] [d.val, a.val] (fun s =>
    let c := s.me
    let xb := s.x b
    if bits xb 35 29 ≠ 0 ∨ (ty = .f32 ∧ xb.getLsbD 34) then takeTrap { cause := 0x04, tval := xb } s
    else
      let o := (Ty.ofCode (cfOty c)).getD .i8
      let sc := toX .f32 (bits xb 0 32)
      let q := bits xb 32 2
      let src := ((elems ty (c.vr a.val)).drop (128 * bits xb 34 1)).take 128
      let es := src.map fun x => quotTo o (cfRm c) (cfSat c) (toX ty x) sc
      finishVs 24 n [.v d.val (elemMask .u8 fun i => i / 128 = q)
        (ofElems .u8 (List.replicate (128 * q) 0 ++ es))] s) s

/-- σ(k) = −1 (R108). -/
def flips (seed : Word) (k : Nat) : Bool := (mix64 seed (BitVec.ofNat 64 k)).getLsbD 63

/-- One stage of the transform over FP32 patterns (R109). -/
def hadStage (h : Nat) (y : List Nat) : List Nat :=
  (List.range y.length).map fun j =>
    let u := toX .f32 (y.getD j 0)
    if j / h % 2 = 0 then roundX .f32 .rne false (addX .rne u (toX .f32 (y.getD (j + h) 0)))
    else roundX .f32 .rne false (addX .rne (toX .f32 (y.getD (j - h) 0)) (negX u))

/-- The transform of one block of 128 FP32 patterns; the last step rounds once, into the result type (R109). -/
def hadBlock (ty : Ty) (seed : Word) (side kbase : Nat) (y : List Nat) : List Nat :=
  let y := (List.range 128).map fun j =>
    let e := y.getD j 0
    if flips seed (kbase + j) then (e + 2 ^ 31) % 2 ^ 32 else e
  let y := [1, 2, 4, 8, 16, 32, 64].foldl (fun y h => hadStage h y) y
  y.map fun e => roundX ty .rne false (mulX (toX .f32 e) (.fin false 1 (-3 - (side : Int))))

def execVhad (n : Fin 16) (ty : Ty) (d a : VReg) (b : XReg) (s : State) : Out :=
  vecForm (ty == .f32 || ty == .bf16) [xref b] [d.val, a.val] (fun s =>
    let c := s.me
    let xb := s.x b
    let kbase := xb.toNat / 128 * 128
    let src := (elems ty (c.vr a.val)).map (convert .f32 ty .rne false)
    let es := (List.range (ty.count / 128)).flatMap fun blk =>
      hadBlock ty c.cr.seed (bits xb 0 1) (kbase + 128 * blk) ((src.drop (128 * blk)).take 128)
    finishV 36 n d.val (ofElems ty es) s) s

/-- Element i of `vhrnd` (R110). -/
def hrndElem (ty : Ty) (seed xa : Word) (i : Nat) : Nat :=
  let a := if ty.width = 4 then xa + BitVec.ofNat 64 (i / 2) else xa + BitVec.ofNat 64 (i * (ty.width / 8))
  let h := mix64 seed a
  match ty with
  | .f32 => roundRat .f32 .rne false false (bits h 40 24) 1 (-24)
  | .bf16 => roundRat .bf16 .rne false false (bits h 56 8) 1 (-8)
  | .f16 => roundRat .f16 .rne false false (bits h 53 11) 1 (-11)
  | .i4 | .u4 => bits h (i % 2 * 4) 4
  | t => bits h 0 t.width

def execVhrnd (n : Fin 16) (ty : Ty) (d : VReg) (a : XReg) (s : State) : Out :=
  vecForm ty.isArith [xref a] [d.val] (fun s =>
    finishV 24 n d.val (ofElems ty ((List.range ty.count).map (hrndElem ty s.me.cr.seed (s.x a)))) s) s

/-! ## Reductions (R92, R106, R397) -/

/-- The cycles of the hold of `vdot` and `vred` (R92). -/
def holdCycles (ty : Ty) (sum : Bool) : Nat := if ty.isFloat && sum then 8 + ty.count else 24

/-- Writes the result of a hold form after its latency (R43) and sets its hold. -/
def finishHold (ty : Ty) (sum : Bool) (d : XReg) (v : Word) (s : State) : State :=
  (retire 0 (writeResult (holdCycles ty sum) (.x d.val v) s)).onMe fun c => { c with hold := s.cycle + holdCycles ty sum }

/-- The ordered FP32 sum (R106). -/
def orderedSum (rm : Rm) (ps : List XVal) : Nat :=
  ps.foldl (fun acc p => roundX .f32 rm false (addX rm (toX .f32 acc) p)) 0

def execVdot (ty : Ty) (d : XReg) (a b : VReg) (s : State) : Out :=
  vecForm true [xref d] [a.val, b.val] (fun s =>
    let es := (elems ty (s.me.vr a.val)).zip (elems ty (s.me.vr b.val))
    let v : Word := if ty.isFloat then
        BitVec.ofNat 64 (orderedSum (cfRm s.me) (es.map fun (x, y) => mulX (toX ty x) (toX ty y)))
      else BitVec.ofInt 64 (es.foldl (fun t (x, y) => t + intElem ty x * intElem ty y) (0 : Int))
    finishHold ty true d v s) s

/-- The least or greatest element; a float result is widened to FP32 (R397). -/
def reduceBest (ty : Ty) (f : Nat → Nat → Nat) (es : List Nat) : Word :=
  let m := es.tail.foldl f (es.headD 0)
  if ty.isFloat then BitVec.ofNat 64 (convert .f32 ty .rne false m) else BitVec.ofInt 64 (intElem ty m)

def execVred (op : RedOp) (ty : Ty) (d : XReg) (a : VReg) (s : State) : Out :=
  vecForm (op == .add || ty.isArith) [xref d] [a.val] (fun s =>
    let es := elems ty (s.me.vr a.val)
    let v : Word := match op with
      | .add => if ty.isFloat then BitVec.ofNat 64 (orderedSum (cfRm s.me) (es.map (toX ty)))
                else BitVec.ofInt 64 (es.foldl (fun t x => t + intElem ty x) (0 : Int))
      | .min => reduceBest ty (elemMin ty) es
      | .max => reduceBest ty (elemMax ty) es
    finishHold ty (op == .add) d v s) s

/-! ## Page 3 without memory (R394, R406, R408, R410) -/

/-- A page-3 form whose vector operands are names or indirect. -/
def vecForm3 (ok : Bool) (refs : List RegRef) (vs : List VArg) (body : List Nat → State → State) (s : State) : Out :=
  let ns := vs.map s.me.vnum
  vecForm ok (vs.flatMap vargRefs ++ refs) ns (body ns) s

def execVperm (n : Fin 16) (ty : Ty) (d a : VArg) (s : State) : Out :=
  vecForm3 ty.isInt [] [d, a] (fun ns s =>
    let src := elems ty (s.me.vr (ns.getD 1 0))
    let es := (elems ty (s.me.vr (ns.getD 0 0))).map fun j => src.getD (j % ty.count) 0
    finishV 16 n (ns.getD 0 0) (ofElems ty es) s) s

def execVbcast (n : Fin 16) (ty : Ty) (d : VArg) (b : XReg) (s : State) : Out :=
  vecForm3 true [xref b] [d] (fun ns s =>
    finishV 16 n (ns.getD 0 0) (ofElems ty (List.replicate ty.count ((s.x b).toNat % 2 ^ ty.width))) s) s

def execVidx (n : Fin 16) (ty : Ty) (d : VArg) (b : XReg) (s : State) : Out :=
  vecForm3 ty.isInt [xref b] [d] (fun ns s =>
    finishV 16 n (ns.getD 0 0)
      (ofElems ty ((List.range ty.count).map fun i => ((s.x b).toNat + i) % 2 ^ ty.width)) s) s

def execVmovsToVector (n : Fin 16) (ty : Ty) (d : VArg) (a b : XReg) (s : State) : Out :=
  vecForm3 true [xref a, xref b] [d] (fun ns s =>
    let i := (s.x b).toNat
    if i ≥ ty.count then takeTrap { cause := 0x04, tval := s.x b } s
    else
      finishVs 16 n [.v (ns.getD 0 0) (elemMask ty (· = i))
        (BitVec.ofNat 4096 ((s.x a).toNat % 2 ^ ty.width * 2 ^ (ty.width * i)))] s) s

def execVmovsToScalar (n : Fin 16) (ty : Ty) (d : XReg) (a : VArg) (b : XReg) (s : State) : Out :=
  vecForm3 true [xref b, xref d] [a] (fun ns s =>
    let i := (s.x b).toNat
    if i ≥ ty.count then takeTrap { cause := 0x04, tval := s.x b } s
    else
      let e := elemNat ty.width (s.me.vr (ns.getD 0 0)) i
      finishStall 16 n (.x d.val (BitVec.ofInt 64 (intElem ty e))) s) s

/-- The free registers of a core's pool: 256 less what its sixteen contexts have claimed (R410), and what migrations keep free
for their restore (R411). -/
def poolFree (s : State) (core : Nat) : Nat :=
  256 - (List.range 16).foldl (fun n i => n + (s.ctx (core * 16 + i)).v.length) 0
    - (incoming s core).foldl (fun n v => n + v.claims) 0

/-- R410. The D field names registers to claim or free and is exempt from the checks of R74 (R388). -/
def execVralloc (d : VArg) (b : XReg) (s : State) : Out :=
  .next (notAhead (fun s =>
    let v := s.me.vnum d
    let n := (s.x b).toNat
    let names := (List.range (Nat.min n 256)).map (v + ·)
    scoreboard (vargRefs d ++ [xref b] ++ names.map vref) (fun s =>
      let bad := fun (info : Nat) (val : Nat) => takeTrap { cause := 0x12, info := info, tval := BitVec.ofNat 64 val } s
      if n = 0 then retire 0 s
      else if v + n > 256 then bad 4 v
      else
        match names.find? (fun r => (fget s.me.v r).isSome) with
        | some r => bad 3 r
        | none =>
          if poolFree s (coreOf s.cur) < n then bad 2 n
          else retire 0 (s.onMe fun c => { c with v := names.foldl (fun m r => fput m r 0) c.v })) s) s)

/-- Frees the range once no outstanding write to it is left, else holds the next issue (R410, R416). -/
def freeRange (v n : Nat) (done : State → State) (s : State) : State :=
  let names := (List.range n).map (v + ·)
  if names.any (fun r => s.me.outstanding (.v r)) then s.onMe fun c => { c with openHold := some (.vrfree v n) }
  else done (s.onMe fun c => { c with v := names.foldl (fun m r => fdel m r) c.v })

def execVrfree (d : VArg) (b : XReg) (s : State) : Out :=
  .next (notAhead (fun s =>
    let v := s.me.vnum d
    let n := (s.x b).toNat
    let names := (List.range (Nat.min n 256)).map (v + ·)
    scoreboard (vargRefs d ++ [xref b] ++ names.map vref) (fun s =>
      let bad := fun (info : Nat) (val : Nat) => takeTrap { cause := 0x12, info := info, tval := BitVec.ofNat 64 val } s
      if n = 0 then retire 0 s
      else if v + n > 256 then bad 4 v
      else
        match names.find? (fun r => (fget s.me.v r).isNone) with
        | some r => bad 5 r
        | none =>
          match names.find? s.me.reserved with
          | some r => bad 1 r
          | none => freeRange v n (retire 0) s) s) s)

end Sys2Proof.Machine
end

