-- ==== Sys2Proof/Machine/Engine.lean ====
section
/-! DEFINITION. The engine commands: the checks at issue, the queues and acceptance with ownership, job ids, job records,
`jwait` and `jpoll`, and the reads and writes that a job makes (R128, R199 to R203, R213 to R215, R343, R357). -/

namespace Sys2Proof.Machine

/-! ## Queues -/

/-- The queue of an engine. -/
def State.queueOf (s : State) : EngineId → Queue
  | .clove c => (s.cluster c).clove.toQueue
  | .copy c => (s.cluster c).copy.toQueue
  | .sumac c => (s.cluster c).sumac.toQueue
  | .coll => s.coll.toQueue

def State.setQueue (s : State) (e : EngineId) (q : Queue) : State :=
  match e with
  | .clove c => s.onCluster c fun k => { k with clove := { k.clove with toQueue := q } }
  | .copy c => s.onCluster c fun k => { k with copy := { k.copy with toQueue := q } }
  | .sumac c => s.onCluster c fun k => { k with sumac := { k.sumac with toQueue := q } }
  | .coll => { s with coll := { s.coll with toQueue := q } }

/-- Places of a queue (R201, R235, R249). -/
def queueDepth : EngineId → Nat
  | .clove _ | .coll => 32
  | .copy _ | .sumac _ => 16

/-- The engine that a command of a cluster goes to. -/
def engineOf (cluster : Nat) : JobOp → EngineId
  | .cjob => .copy cluster
  | .prd | .prdsel => .sumac cluster
  | .cstep => .coll
  | _ => .clove cluster

/-! ## Issue (R200, R357) -/

/-- The context holds 32 job records, all faulted. -/
def Ctx.recordsFull (c : Ctx) : Bool := 32 ≤ c.jobs.length && c.jobs.all (·.fault.isSome)

/-- The first check that fails. -/
def firstBad (l : List (Bool × TrapInfo)) : Option TrapInfo := (l.find? (·.1)).map (·.2)

def misaligned (a : Word) : Bool × TrapInfo := (a.toNat % 64 ≠ 0, { cause := 0x04, tval := a })
/-- The bits of an operand word from `n` on are reserved. -/
def reservedFrom (n : Nat) (w : Word) : Bool × TrapInfo := (w.toNat / 2 ^ n ≠ 0, { cause := 0x04, tval := w })
def noRecord (s : State) : Bool × TrapInfo := (s.me.recordsFull, { cause := 0x15, info := 0x0F })

/-- A type of c.fmt that the form does not accept: the trap at its base parcel (R84, R104, R200). -/
def wrongType (s : State) (wrong : Ctx → Bool) : Bool × TrapInfo :=
  (wrong s.me, { cause := 0x01, tval := parcelTval s.me.base s.me.index })

/-! The types that the forms do not accept. -/

def wrongA (c : Ctx) : Bool := cfAty c ≠ 11
def wrongOut (c : Ctx) : Bool := cfOty c < 8 || 12 < cfOty c
def wrongAOut (c : Ctx) : Bool := wrongA c || wrongOut c
def wrongW (c : Ctx) : Bool := cfWty c ≠ 11

/-- The command with what is captured at issue. -/
def commandOf (op : JobOp) (stall d : Nat) (xa xb : Word) (s : State) : Cmd :=
  { op := op, tag := s.tagOf s.cur, tenant := s.myTenant, priv := s.me.priv, stall := stall, d := d, xa := xa, xb := xb,
    cr := s.me.cr, cg := s.me.cg, issued := s.cycle, members := (s.tenant s.myTenant).members }

/-- Sends a command to its engine. -/
def submit (c : Cmd) (s : State) : State :=
  let e := engineOf (clusterOf (coreOf s.cur)) c.op
  let q := s.queueOf e
  s.setQueue e { q with waiting := q.waiting ++ [c] }

/-- The reply of the command is outstanding from its issue on (R24, R201). -/
def expectReply (d : XReg) (s : State) : State :=
  if d.val = 0 then s else s.onMe fun c => { c with replies := c.replies ++ [{ due := s.cycle + 24, write := .x d.val 0 }] }

/-- The condition that traps of those that a command meets: the first in the order of its entry, or a wrong type before any
other (a free value, log entry 91). -/
def firstMet (l : List (Bool × TrapInfo)) : Option TrapInfo :=
  match firstBad l, firstBad (l.filter (·.2.cause = 0x01)) with
  | some t, some u => if t.cause = 0x01 then some t else if Config.typeFirst then some u else some t
  | r, _ => r

/-- An engine command: run-ahead, the twin check and the other conditions, then the command. A type of c.fmt that traps comes
before the scoreboard, and the scoreboard before the other conditions (R85; log entry 87). The command holds the next issue
for its stall count; where it has to wait for a queue place, a job record or a recalled read the hold goes on until its
reply (R201, R416; see `noteWaits`). An `mmul` or `mrow` that issues again after an interruption waits on the job that it has
recorded and submits nothing (R275). -/
def engineForm (op : JobOp) (stall : Nat) (d : XReg) (uses : List RegRef) (xa xb : State → Word)
    (checks : State → List (Bool × TrapInfo)) (s : State) : Out :=
  .next (notAhead (fun s =>
    match (if op = .mmul ∨ op = .mrow then s.me.recorded 9 else none) with
    | some id => parkOn (.job id d.val) (s.onMe fun c => { c with again := none })
    | none =>
      match firstMet ((s.me.twin, { cause := 0x04, info := 0x50 }) :: checks s) with
      | some t => if t.cause = 0x01 then takeTrap t s else scoreboard (uses ++ [xref d]) (takeTrap t) s
      | none => scoreboard (uses ++ [xref d]) (fun s =>
        let s := submit (commandOf op stall d.val (xa s) (xb s) s) s
        if op = .mmul ∨ op = .mrow then parkOn (.submit d.val) s else retire stall (expectReply d s)) s) s)

/-- A command of two registers. -/
def command2 (op : JobOp) (stall : Nat) (d a b : XReg) (checks : State → Word → Word → List (Bool × TrapInfo)) (s : State) :
    Out :=
  engineForm op stall d [xref a, xref b] (·.x a) (·.x b) (fun s => checks s (s.x a) (s.x b)) s

/-- A command of one register. -/
def command1 (op : JobOp) (stall : Nat) (d a : XReg) (checks : State → Word → List (Bool × TrapInfo)) (s : State) : Out :=
  engineForm op stall d [xref a] (·.x a) (fun _ => 0) (fun s => checks s (s.x a)) s

def execMjob (n : Fin 16) (d a b : XReg) (s : State) : Out :=
  command2 .mjob n.val d a b (fun s xa xb => [wrongType s wrongAOut, misaligned xa, reservedFrom 5 xb, noRecord s]) s

def execMmul (d a b : XReg) (s : State) : Out :=
  command2 .mmul 0 d a b (fun s xa xb => [wrongType s wrongAOut, misaligned xa, reservedFrom 5 xb, noRecord s]) s

def execMload (n : Fin 16) (d a b : XReg) (s : State) : Out :=
  command2 .mload n.val d a b (fun s xa xb => [wrongType s wrongW, misaligned xa, reservedFrom 5 xb, noRecord s]) s

def execMloadSp (n : Fin 16) (d a b : XReg) (s : State) : Out :=
  command2 .mloadSp n.val d a b (fun s xa xb => [wrongType s wrongW, misaligned xa, reservedFrom 5 xb, noRecord s]) s

def execMfree (n : Fin 16) (d a : XReg) (s : State) : Out :=
  command1 .mfree n.val d a (fun s xa => [reservedFrom 5 xa, noRecord s]) s

def execCjob (n : Fin 16) (d a b : XReg) (s : State) : Out :=
  command2 .cjob n.val d a b (fun s xa xb => [misaligned xa, reservedFrom 2 xb, noRecord s]) s

/-- R331: the further check comes after those of R200. -/
def execCstep (n : Fin 16) (d a b : XReg) (s : State) : Out :=
  command2 .cstep n.val d a b (fun s xa xb => [misaligned xa, noRecord s, reservedFrom 16 xb]) s

/-- The forms that are illegal where PRED was not accepted (R299). -/
def predicted (body : State → Out) (s : State) : Out := if s.feature 6 then body s else .next (illegalBase s)

/-! The type checks of R235 come after those of R200. -/

def execPrd (n : Fin 16) (d a b : XReg) (s : State) : Out :=
  predicted (command2 .prd n.val d a b fun s xa xb => [misaligned xa, misaligned xb, noRecord s, wrongType s wrongA]) s

def execPrdsel (n : Fin 16) (d a : XReg) (s : State) : Out :=
  predicted (command1 .prdsel n.val d a fun s xa => [misaligned xa, noRecord s]) s

def execMrow (d a b : XReg) (s : State) : Out :=
  predicted (command2 .mrow 0 d a b fun s xa xb => [misaligned xa, misaligned xb, noRecord s, wrongType s wrongAOut]) s

/-! ## Reads and writes of a job (R215) -/

/-- A job at work: the machine as it stands, what the job wrote, the sectors it resolved, the cycles of its work. -/
structure JobSt where
  s : State
  holds : Bool := false                         -- a read that has to wait ends the work
  before : Nat := 0                             -- it waits for the jobs accepted before this order
  bad : Option (Nat × JFault) := none           -- the record whose acceptance read failed, and the fault (R128)
  record : Nat := 0                             -- the address of the record that is read
  owns : List Own := []
  out : List Store := []                        -- oldest first
  work : Nat := 0
  rd : Nat := 0                                 -- bytes that R418 counts
  wr : Nat := 0
  moved : List (Nat × Bool) := []               -- bytes moved without being consumed, and whether from a poisoned granule
  rounds : Nat × List (Nat × Nat) := (0, [])    -- the staging macros, and each round of R230 with its macros and cycles
  lost : List Nat := []                         -- granules whose requests were answered with poison
  listed : Bool := false                        -- an `mrow` has read its lists, which hold rows
  res : Result := {}

/-- A computation of a job: a fault ends it. KIND 0 stands for a read that has to wait. -/
abbrev JobM := ExceptT JFault (StateM JobSt)

def jfail {α : Type} (kind : Nat) (addr : Nat) : JobM α := throw { kind := kind, addr := addr % 2 ^ 56 }

def jcheck (ok : Bool) (kind addr : Nat) : JobM Unit := if ok then pure () else jfail kind addr

/-- The channel of a physical address: in its own package, or by its offset in a peer package (R113). -/
def rowChannel (s : State) (pa : Nat) : Nat :=
  if rangeOf pa = .peer then homeOffset pa / 4096 % 144 else channelOf s pa

/-- The TLB that the accesses of a command use (R121): the second-level one of its cluster, that of a collective engine, or
that of a memory-side unit: the one at which the access is made, else that of the descriptor's channel. -/
def jobTlb (s : State) (c : Cmd) : Nat :=
  match c.op with
  | .cstep => collTlb (Config.stepEngine c.tag c.issued)
  | .rowadd | .rowcommit | .rowpause =>
    msuTlb (c.unit.getD (match walk s c.tenant c.xa with
      | some (pa, _) => rowChannel s pa
      | none => 0))
  | _ => clusterTlb (clusterOf (c.tag / 4096))

/-- The tenant check of R112 for a job: peer packages by the membership bitmap as of its command (R246). -/
def jobTenantOk (s : State) (c : Cmd) (pa : Nat) : Bool :=
  if classOf s pa = .peer then c.members.getLsbD (peerPackage pa) else tenantOk s c.tenant pa

/-- A checked access of a job within a page: its piece, or the kind and the address of the first byte that fails (R215). -/
def jobPiece (s : State) (c : Cmd) (va : Word) (n : Nat) (acc : Acc) : Except JFault Piece :=
  let bad := fun k a => Except.error { kind := k, addr := a % 2 ^ 56 : JFault }
  match translateVa s (jobTlb s c) c.tenant va with
  | none => bad 0x06 va.toNat
  | some (pa, e) =>
    if !permits e c.priv acc then bad 0x07 va.toNat
    else
      let classless := fun (a : Nat) => classOf s a = .none || classOf s a = .device
      match (blockEnds pa n).find? (fun a => classless a || !jobTenantOk s c a) with
      | some a => bad (if classless a then 0x08 else 0x09) (va.toNat + (a - pa))
      | none => .ok { va := va, pa := pa, nc := pteNC e, n := n }

/-- The checked pieces of a range, in ascending order. -/
def jobPieces (s : State) (c : Cmd) (acc : Acc) : List (Nat × Nat) → Except JFault (List Piece)
  | [] => .ok []
  | (va, n) :: rest =>
    match jobPiece s c (BitVec.ofNat 64 va) n acc with
    | .error f => .error f
    | .ok p =>
      match jobPieces s c acc rest with
      | .error f => .error f
      | .ok ps => .ok (p :: ps)

/-- The first granule of a piece that is poisoned, or whose request was answered with poison, and that the job has not written
whole. -/
def poisonOver (s : State) (lost : List Nat) (out : List Store) (p : Piece) : Option Nat :=
  let copy := rangeOf p.pa = .peer && !p.nc
  (granules p.pa p.n).find? fun g =>
    (nmem s.poison (poisonKey copy (g * 32)) || (rangeOf p.pa = .peer && lost.contains g)) && !coveredBy out (g * 32) 32

/-- A read of a job has to wait: for an earlier job, a sector that is pending or under re-encryption, a link. -/
def jobReadWaits (j : JobSt) (p : Piece) : Bool :=
  ownedBy (j.s.allJobs.filter (·.order < j.before)) false p.pa (p.pa + p.n - 1) || j.s.pending p.pa p.n
    || j.s.inReenc p.pa p.n || linkWaits j.s p.nc p.pa p.n

/-- Reads a piece over what the job wrote: its bytes and the first poisoned granule that the job has not written, as an
address. -/
def jobReadPiece (c : Cmd) (p : Piece) : JobM (List Byte × Option Nat) := do
  let j ← get
  if j.holds && jobReadWaits j p then jfail 0 0
  else
    let s := noteTlb (jobTlb j.s c) c.tenant p.va j.s
    let (bs, gone, s) := readBytes (c.tag / 256) j.out p.pa p.nc p.n s
    let lost := j.lost ++ gone
    set { j with s := s, lost := lost }
    pure (bs, (poisonOver s lost j.out p).map fun g => p.va.toNat - p.pa % 32 + (g * 32 + p.pa % 32 - p.pa))

/-- Reads pieces and consumes their poison. -/
def jobReadPieces (c : Cmd) : List Piece → JobM (List Byte)
  | [] => pure []
  | p :: ps => do
    match ← jobReadPiece c p with
    | (_, some g) => jfail 0x0A g
    | (bs, none) => do
      let rest ← jobReadPieces c ps
      pure (bs ++ rest)

/-- Reads parts of pages, lowest address first: what lies before a byte that fails its checks is read first. -/
def jreadParts (c : Cmd) : List (Nat × Nat) → JobM (List Byte)
  | [] => pure []
  | (va, n) :: rest => do
    let s := (← get).s
    match jobPiece s c (BitVec.ofNat 64 va) n .rd with
    | .ok p => do
      let bs ← jobReadPieces c [p]
      let more ← jreadParts c rest
      pure (bs ++ more)
    | .error f =>
      match (if va < f.addr then jobPiece s c (BitVec.ofNat 64 va) (f.addr - va) .rd else .error f) with
      | .ok p => do
        let _ ← jobReadPieces c [p]
        throw f
      | .error _ => throw f

/-- Reads a range. -/
def jread (c : Cmd) (va n : Nat) : JobM (List Byte) := jreadParts c (pageParts va n)

/-- Writes a range: every page is checked before a byte is written. -/
def jwrite (c : Cmd) (va : Nat) (bs : List Byte) : JobM Unit := do
  let j ← get
  match jobPieces j.s c .wr (pageParts va bs.length) with
  | .error f => throw f
  | .ok ps =>
    let rec cut : List Piece → List Byte → List Store
      | [], _ => []
      | p :: ps, bs => { pa := p.pa, data := bs.take p.n, nc := p.nc } :: cut ps (bs.drop p.n)
    set { j with s := ps.foldl (fun s (p : Piece) => noteTlb (jobTlb s c) c.tenant p.va s) j.s, out := j.out ++ cut ps bs }

/-- The work of a job grows. -/
def jwork (n : Nat) : JobM Unit := modify fun j => { j with work := j.work + n }

/-- Adds the sectors of a range that translates to what the job owns (R128). -/
def jown (c : Cmd) (excl : Bool) (va n : Nat) : JobM Unit :=
  modify fun j =>
    { j with owns := j.owns ++ (pageParts va n).filterMap fun (a, k) =>
        (translateVa j.s (jobTlb j.s c) c.tenant (BitVec.ofNat 64 a)).map fun (pa, _) => { excl := excl, va := a, lo := pa, hi := pa + k - 1 } }

/-- A 64-byte record at an aligned address, owned shared. A fault that its acceptance read met is reported here (R128). -/
def jrecord (c : Cmd) (va : Nat) : JobM (List Byte) := do
  match (← get).bad with
  | some (a, f) => if a = va then throw f else pure ()
  | none => pure ()
  modify fun j => { j with record := va }
  jcheck (va % 64 = 0) 0x08 va
  jown c false va 64
  jread c va 64

/-! ## Tensor headers and scales (R195 to R197) -/

structure Header where
  va : Nat
  ty : Nat
  sp : Nat
  valid : Nat
  rows : Nat
  cols : Nat
  scl : Nat
  hmeta : Nat
  clean : Bool                                  -- reserved bits zero, limits kept; FLAGS apart
  flags : Bool                                  -- FLAGS [31:1] zero

def headerOf (va : Nat) (bs : List Byte) : Header :=
  { va := va, ty := field bs 0 4 % 16, sp := field bs 0 4 / 16 % 2, valid := field bs 4 4 % 2,
    rows := field bs 8 4, cols := field bs 12 4, scl := field bs 16 8, hmeta := field bs 32 8,
    clean := field bs 0 4 / 32 = 0 && zeros (bs.drop 40) && 1 ≤ field bs 8 4 && field bs 8 4 ≤ 65535
      && 1 ≤ field bs 12 4 && field bs 12 4 ≤ 65535,
    flags := field bs 4 4 / 2 = 0 }

def jheader (c : Cmd) (va : Nat) : JobM Header := do
  let bs ← jrecord c va
  pure (headerOf va bs)

/-- The checks of a header in the order of R207; `reads` says whether FLAGS count. A fault reports the address of the header
(R213 gives the faulting address or 0; DESIGN CHOICE, log entry 84). -/
def checkHeader (h : Header) (reads typed shaped : Bool) : JobM Unit := do
  jcheck (!reads || h.valid = 1) 0x01 h.va
  jcheck typed 0x02 h.va
  jcheck (shaped && h.clean && (!reads || h.flags)) 0x03 h.va

/-- The base of a scale array: the header's, else the captured c.scl, else none (R197). -/
def scaleBase (c : Cmd) (h : Header) : Nat := if h.scl ≠ 0 then h.scl else c.cr.scl.toNat

/-- `n` scales from index `i` on, as FP32 patterns; 1.0 without an array. -/
def jscales (c : Cmd) (base i n : Nat) : JobM (List Nat) :=
  if base = 0 then pure (List.replicate n 0x3F800000)
  else do
    jcheck (base % 4 = 0) 0x08 base
    let bs ← jread c (base + 4 * i) (4 * n)
    pure ((List.range n).map fun k => field bs (4 * k) 4)

/-- Bytes as numbers. -/
def byteNats (bs : List Byte) : List Nat := bs.map (·.toNat)

/-- Elements of `w` bytes as bytes. -/
def elemBytes (w : Nat) (es : List Nat) : List Byte := es.flatMap (natLe w)

/-- The elements of `w` bytes that bytes hold. -/
def bytesElems (w : Nat) (bs : List Byte) : List Nat := (List.range (bs.length / w)).map fun i => field bs (w * i) w

/-- The captured formats of a command. -/
def Cmd.oty (c : Cmd) : Nat := bits c.cr.fmt 8 4
def Cmd.out (c : Cmd) : Ty := (Ty.ofCode c.oty).getD .f32
def Cmd.rm (c : Cmd) : Rm := (Rm.ofCode (bits c.cr.fmt 12 2)).getD .rne
def Cmd.sat (c : Cmd) : Bool := c.cr.fmt.getLsbD 15

/-! ## Ownership at acceptance (R128, R219, R236) -/

/-- The extent of an A operand with its scales, shared. -/
def ownA (c : Cmd) (h : Header) : JobM Unit := do
  jown c false (h.va + 64) (h.rows * h.cols)
  if scaleBase c h ≠ 0 then jown c false (scaleBase c h) (4 * h.rows * (h.cols / 128)) else pure ()

/-- The A, C and D headers of a job descriptor and what they name. -/
def ownMatrix (c : Cmd) (d : List Byte) : JobM Unit := do
  let a ← jheader c (field d 0 8)
  ownA c a
  let h ← jheader c (field d 8 8)
  jown c true (h.va + 64) (h.rows * h.cols * (c.out.width / 8))
  if field d 16 8 ≠ 0 then do
    let e ← jheader c (field d 16 8)
    jown c false (e.va + 64) (4 * e.rows * e.cols)
  else pure ()

/-- The B operand of a load. -/
def ownLoad (c : Cmd) (sp : Bool) : JobM Unit := do
  let h ← jheader c c.xa.toNat
  jown c false (h.va + 64) ((if sp then h.rows / 2 else h.rows) * h.cols)
  if scaleBase c h ≠ 0 then jown c false (scaleBase c h) (4 * (h.rows / 128) * ((h.cols + 127) / 128)) else pure ()
  if sp then jown c false h.hmeta (16 * (h.rows / 128) * (h.cols / 64)) else pure ()

/-- The fields of a layer descriptor (R223). -/
structure Layer where
  va : Nat
  up : Nat
  dn : Nat
  pred : Nat
  score : Nat
  list : Nat
  n : Nat
  d : Nat
  rank : Nat
  act : Nat
  hscale : Nat
  zero : Bool

def layerOf (va : Nat) (bs : List Byte) : Layer :=
  { va := va, up := field bs 0 8, dn := field bs 8 8, pred := field bs 16 8, score := field bs 24 8, list := field bs 32 8,
    n := field bs 40 2, d := field bs 42 2, rank := field bs 44 1, act := field bs 45 1, hscale := field bs 48 4,
    zero := field bs 46 2 = 0 && zeros (bs.drop 52) }

def Layer.vOff (l : Layer) : Nat := l.pred + 128 * l.d
def Layer.radOff (l : Layer) : Nat := l.pred + 128 * l.d + 128 * l.n
def Layer.nrmOff (l : Layer) : Nat := l.pred + 128 * l.d + 132 * l.n

def ownPrd (c : Cmd) : JobM Unit := do
  let bs ← jrecord c c.xa.toNat
  let l := layerOf c.xa.toNat bs
  let a ← jheader c c.xb.toNat
  ownA c a
  jown c true l.score (4 * l.n)
  jown c false l.pred (2 * l.d * l.rank)
  jown c false l.vOff (2 * l.rank * l.n)

def ownPrdsel (c : Cmd) : JobM Unit := do
  let bs ← jrecord c c.xa.toNat
  let l := layerOf c.xa.toNat bs
  jown c true l.list (64 + 4 * l.n)
  jown c false l.score (4 * l.n)
  jown c false l.radOff (8 * l.n)

/-- The extent of a projection (R224, R236). -/
def ownProjection (c : Cmd) (va n d : Nat) : JobM Unit := do
  let h ← jheader c va
  jown c false (va + 64) (n * d)
  if scaleBase c h ≠ 0 then jown c false (scaleBase c h) (4 * ((n + 127) / 128) * (d / 128)) else pure ()

def ownMrow (c : Cmd) : JobM Unit := do
  let bs ← jrecord c c.xa.toNat
  let l := layerOf c.xa.toNat bs
  let d ← jrecord c c.xb.toNat
  ownMatrix c d
  ownProjection c l.up l.n l.d
  ownProjection c l.dn l.n l.d
  jown c false l.list (64 + 4 * l.n)
  jown c false l.score (4 * l.n)
  jown c false l.radOff (8 * l.n)

/-- The element bytes of a tensor (R196, R198). -/
def tensorBytes (h : Header) : Nat :=
  let w := ((Ty.ofCode h.ty).map (·.width)).getD 8
  ((if h.sp = 1 then h.rows / 2 else h.rows) * h.cols * w + 7) / 8

def ownCopy (c : Cmd) : JobM Unit := do
  let bs ← jrecord c c.xa.toNat
  if c.xb.toNat = 0 then do
    jown c false (field bs 0 8) (field bs 16 8)
    jown c true (field bs 8 8) (field bs 16 8)
  else do
    let h ← jheader c (field bs 0 8)
    jown c false (h.va + 64) (tensorBytes h)
    jown c true (field bs 8 8) 64
    let g ← jheader c (field bs 8 8)
    jown c true (g.va + 64) (tensorBytes g)
    if c.xb.toNat = 2 ∧ scaleBase c g ≠ 0 then jown c false (scaleBase c g) (4 * g.rows * (g.cols / 128)) else pure ()
    if c.xb.toNat = 3 then jown c true g.hmeta (16 * (g.rows / 128) * (g.cols / 64)) else pure ()

/-- The bytes of a step's element types (R250). -/
def stepWidth (code : Nat) : Nat := if code = 4 ∨ code = 8 then 4 else 2

/-- The step descriptors of a chain, at most 64 (R249, R250). -/
def ownChain (c : Cmd) : Nat → Nat → JobM Unit
  | 0, _ => pure ()
  | n + 1, va => do
    let bs ← jrecord c va
    let k := field bs 32 4
    let src := stepWidth (field bs 39 1 % 16)
    let dst := stepWidth (field bs 39 1 / 16)
    if field bs 38 1 < 4 then jown c false (field bs 8 8) (k * src) else pure ()
    jown c false (field bs 16 8) (k * src)
    jown c true (field bs 24 8) (k * dst)
    if field bs 0 8 = 0 then pure () else ownChain c n (field bs 0 8)

/-- The acceptance reads of a command. -/
def ownOf (c : Cmd) : JobM Unit :=
  match c.op with
  | .mjob | .mmul => do
    let d ← jrecord c c.xa.toNat
    ownMatrix c d
  | .mload => ownLoad c false
  | .mloadSp => ownLoad c true
  | .mrow => ownMrow c
  | .cjob => ownCopy c
  | .cstep => ownChain c 64 c.xa.toNat
  | .prd => ownPrd c
  | .prdsel => ownPrdsel c
  | _ => pure ()

/-- The acceptance of a command: the sectors resolved, the fault that its reads met, and the state after them, or nothing
where a read waits. -/
def acceptReads (s : State) (c : Cmd) : Option (List Own × Option (Nat × JFault) × State) :=
  match (ownOf c).run { s := s, holds := true, before := s.jobOrder } |>.run with
  | (.error f, j) => if f.kind = 0 then none else some (j.owns, some (j.record, f), j.s)
  | (.ok _, j) => some (j.owns, none, j.s)

/-! ## Acceptance (R201, R203) -/

/-- The order of a core in the round robin of an engine. -/
def robin (e : EngineId) (core : Nat) : Nat :=
  match e with
  | .coll => core
  | _ => clusterCore core

/-- The engine commands that are not accepted yet. -/
def State.waitingCmds (s : State) : List Cmd :=
  s.coll.waiting ++ s.clusters.flatMap fun (_, c) => c.clove.waiting ++ c.copy.waiting ++ c.sumac.waiting

/-- A command that its context issued before waits, for whatever engine: commands are accepted in the order of issue (R201,
R236). -/
def behindOther (s : State) (c : Cmd) : Bool := s.waitingCmds.any fun w => w.tag = c.tag && w.issued < c.issued

/-- A command can be presented: its context's earlier stores are performed, its earlier commands accepted, and it holds fewer
than 32 job records. -/
def presentable (s : State) (c : Cmd) : Bool :=
  s.storesDone (c.tag / 256) && !behindOther s c && (s.ctx (c.tag / 256)).jobs.length < 32

/-- The first command of each core, in the order of the cores. -/
def heads : List Nat → List Cmd → List Cmd
  | _, [] => []
  | seen, c :: cs => if seen.contains (c.tag / 4096) then heads seen cs else c :: heads (c.tag / 4096 :: seen) cs

/-- The command that an engine accepts next in this cycle. -/
def acceptNext (s : State) (e : EngineId) : Option Cmd :=
  let q := s.queueOf e
  if queueDepth e ≤ q.queue.length ∨ q.acceptedAt = some s.cycle then none
  else
    let cs := (heads [] q.waiting).filter (presentable s)
    let key := fun (c : Cmd) => robin e (c.tag / 4096)
    let after := cs.filter fun c => match q.last with
      | some l => l < key c
      | none => true
    (if after.isEmpty then cs else after).foldl (fun r c =>
      match r with
      | none => some c
      | some b => if key c < key b then some c else some b) none

/-- Ids held in job records of the contexts of a cluster. -/
def heldIds (s : State) (cluster : Nat) : List Nat :=
  (s.ctxs.filter fun (x, _) => clusterOf (coreOf x) = cluster).flatMap fun (_, c) => c.jobs.map (·.id)

/-- The first id from `n` on that no record holds. -/
def freeId (held : List Nat) : Nat → Nat → Nat
  | 0, n => n
  | k + 1, n => if held.contains n then freeId held k ((n + 1) % 65536) else n

/-- Gives a command its id, its record and its acceptance order. -/
def openJob (c : Cmd) (owns : List Own) (bad : Option (Nat × JFault)) (s : State) : Job × State :=
  let x := c.tag / 256
  let cl := clusterOf (coreOf x)
  let id := freeId (heldIds s cl) 65536 (s.cluster cl).jobId
  let job : Job := { id := id, order := s.jobOrder, cmd := c, owns := owns, bad := bad }
  let s := { s with jobOrder := s.jobOrder + 1 }
  let s := s.onCluster cl fun k => { k with jobId := (id + 1) % 65536 }
  let k := s.ctx x
  (job, s.setCtx x { k with jobs := k.jobs ++ [{ id := id, order := job.order }] })

/-- Commands of a context that have waited and still wait. -/
def waitsOpen (s : State) (tag : Nat) : Bool :=
  let open_ := fun (l : List Cmd) => l.any fun c => c.tag = tag && c.waited
  open_ s.coll.waiting || s.clusters.any fun (_, c) => open_ c.clove.waiting || open_ c.copy.waiting || open_ c.sumac.waiting

/-- The reply of an accepted command: xd := id 24 cycles after issue, or in this cycle where that is past. Where the command
waited, the hold on the next issue ends with it (R201, R416). -/
def reply (c : Cmd) (id : Nat) (s : State) : State :=
  let x := c.tag / 256
  let at_ := Nat.max (c.issued + 24) s.cycle
  let k := s.ctx x
  let w : PendWrite := { due := at_, write := .x c.d (BitVec.ofNat 64 id) }
  let k := { k with replies := k.replies.erase { due := c.issued + 24, write := .x c.d 0 } }
  let k := if c.d = 0 then k
    else if at_ ≤ s.cycle then k.land w.write else { k with pend := k.pend ++ [w] }
  let k := if c.d = 0 then k else { k with cp := k.cp.map fun cp => { cp with pend := cp.pend ++ [w] } }
  match k.wait with
  | some (.submit d) => s.setCtx x { s.ctx x with wait := some (.job id d) }
  | _ =>
    match k.openHold with
    | some .reply =>
      s.setCtx x { k with
        hold := Nat.max k.hold at_, openHold := if waitsOpen s c.tag then some .reply else none }
    | some (.row _) =>
      s.setCtx x { k with
        openHold := none, pc := k.next, hold := Nat.max (c.issued + Nat.max 8 (8 * c.stall)) at_ }
    | _ => s.setCtx x k

/-- ENGINE_ACCEPT: the engine accepts its next command, where that is the command of the context named. -/
def execEngineAccept (e : EngineId) (x : CtxId) (s : State) : Out :=
  onCtx "ENGINE_ACCEPT" x (fun s =>
    match acceptNext s e with
    | none => s
    | some c =>
      if c.tag / 256 ≠ x then s
      else
        match acceptReads s c with
        | none => s
        | some (owns, bad, s) =>
          let (job, s) := openJob c owns bad s
          let q := s.queueOf e
          let s := s.setQueue e { q with
            waiting := q.waiting.erase c, queue := q.queue ++ [job], last := some (robin e (coreOf x)),
            acceptedAt := some s.cycle }
          reply c job.id s) s

/-- The engines that hold anything. -/
def engines (s : State) : List EngineId :=
  (s.clusters.flatMap fun (n, _) => [EngineId.clove n, .copy n, .sumac n]) ++ [.coll]

/-- A command waits for a queue place, for a job record, or for a recalled acceptance read (R416). -/
def waitsFor (s : State) (e : EngineId) (c : Cmd) : Bool :=
  queueDepth e ≤ (s.queueOf e).queue.length || 32 ≤ (s.ctx (c.tag / 256)).jobs.length
    || (presentable s c && (acceptReads s c).isNone)

/-- The commands that an engine has not accepted in this cycle: those that wait as R416 says hold the next issue of their
context until the reply. -/
def noteQueue (e : EngineId) (s : State) : State :=
  let q := s.queueOf e
  let ws := q.waiting.map fun c => { c with waited := c.waited || waitsFor s e c }
  (ws.filter (·.waited)).foldl (fun s c =>
    match s.resident c.tag with
    | none => s
    | some x => s.setCtx x { s.ctx x with openHold := match (s.ctx x).openHold, (s.ctx x).wait with
        | none, some (.submit _) => none
        | none, _ => some .reply
        | h, _ => h }) (s.setQueue e { q with waiting := ws })

def noteWaits (s : State) : State := (engines s).foldl (fun s e => noteQueue e s) s

/-! ## Records, `jwait` and `jpoll` (R213, R214, R343) -/

/-- A fault that a job completes with, as a status word. -/
def JFault.status (f : JFault) : Word := BitVec.ofNat 64 (f.kind * 2 ^ 56 + f.addr % 2 ^ 56)

/-- The trap of a faulted record (R214). -/
def JFault.trap (f : JFault) : TrapInfo :=
  if f.kind = 0x0B then { cause := 0x14, info := f.info, tval := BitVec.ofNat 64 (f.addr % 2 ^ 56) }
  else if f.kind = 0x12 then { cause := 0x24, tval := BitVec.ofNat 64 (f.addr % 2 ^ 56) }
  else { cause := 0x15, info := f.kind, tval := BitVec.ofNat 64 (f.addr % 2 ^ 56) }

/-- The records that a selector covers. -/
def selected (c : Ctx) (sel : Word) : List JobRec :=
  if sel.getLsbD 16 then c.jobs else c.jobs.filter (·.id = bits sel 0 16)

/-- The faulted record with the lowest acceptance order. -/
def firstFault (rs : List JobRec) : Option (JobRec × JFault) :=
  rs.foldl (fun r j =>
    match j.fault, r with
    | none, _ => r
    | some f, none => some (j, f)
    | some f, some b => if j.order < b.1.order then some (j, f) else r) none

/-- The status that records give, those for which `done` fails counting as pending. -/
def statusOf (rs : List JobRec) (done : JobRec → Bool) : Word :=
  match firstFault (rs.filter done) with
  | some (_, f) => f.status
  | none => if rs.all done then 0 else BitVec.allOnes 64

/-- Complete for a `jpoll`: in an earlier cycle. -/
def doneBefore (cycle : Nat) (j : JobRec) : Bool :=
  match j.doneAt with
  | some t => t < cycle
  | none => false

def execJpoll (n : Fin 16) (d a : XReg) (s : State) : Out :=
  .next (notAhead (scoreboard [xref a, xref d] (notTwin fun s =>
    let sel := s.x a
    if bits sel 18 46 ≠ 0 then takeTrap { cause := 0x04, tval := sel } s
    else
      let rs := selected s.me sel
      let v := statusOf rs (doneBefore s.cycle)
      let s := if sel.getLsbD 17 then
          match firstFault (rs.filter (doneBefore s.cycle)) with
          | some (j, _) => s.onMe fun c => { c with jobs := c.jobs.erase j }
          | none => s
        else s
      finishStall 24 n (.x d.val v) s)) s)

/-- Every selected record is complete. -/
def selDone (c : Ctx) (sel : Word) : Bool := (selected c sel).all (·.doneAt.isSome)

/-- A `jwait` whose jobs are complete: a trap of the first faulted record, or xd := 0. -/
def jwaitEnd (sel : Word) (ok : State → State) (s : State) : State :=
  match firstFault (selected s.me sel) with
  | some (_, f) => takeTrap f.trap s
  | none => ok s

def execJwait (d a : XReg) (s : State) : Out :=
  .next (notAhead (scoreboard [xref a, xref d] (notTwin fun s =>
    let sel := s.x a
    if bits sel 17 47 ≠ 0 then takeTrap { cause := 0x04, tval := sel } s
    else if selDone s.me sel then jwaitEnd sel (finishX d 0) s
    else parkOn (.jwait sel d.val) s)) s)

/-- The record of an id is complete, or there is none. -/
def recordDone (c : Ctx) (id : Nat) : Bool := c.jobs.all fun j => j.id ≠ id || j.doneAt.isSome

/-- Wakes a context parked for jobs, where they are complete: `mmul`, `mrow` and `jwait`. -/
def wakeJobs (x : CtxId) (s : State) : State :=
  let cur := s.cur
  let s := s.at x
  let c := s.me
  let s := if c.slot ≠ .parked then s
    else match c.wait with
      | some (.job id d) =>
        if !recordDone c id then s
        else
          match c.jobs.find? (·.id = id) with
          | some r =>
            match r.fault with
            | some f => enterTrap f.trap false (s.onMe fun c => { c with jobs := c.jobs.erase r })
            | none => completeX d 0 s
          | none => completeX d 0 s
      | some (.jwait sel d) => if selDone c sel then jwaitEnd sel (completeX d 0) s else s
      | _ => s
  s.at cur

/-- Enters the completion of a job in the record of its context, and wakes the context. -/
def recordJob (job : Job) (fault : Option JFault) (s : State) : State :=
  let s := match fault with
    | some f => if f.kind = 0x0A then s.count job.cmd.tenant (fun k => { k with poison := k.poison + 1 }) else s
    | none => s
  match s.resident job.cmd.tag with
  | none => s
  | some x =>
    let s := s.onCore (coreOf x) fun k =>
      { k with saving := k.saving.map fun v => if v.slot = slotOf x then { v with progress := s.cycle } else v }
    let c := s.ctx x
    wakeJobs x (s.setCtx x { c with jobs := c.jobs.map fun r =>
      if r.id = job.id ∧ r.order = job.order then { r with doneAt := some s.cycle, fault := fault } else r })

/-- Removes the fault-free records of jobs that completed up to a cycle (R203). -/
def Ctx.dropRecords (c : Ctx) (cycle : Nat) : Ctx :=
  { c with jobs := c.jobs.filter fun r => r.fault.isSome || match r.doneAt with
      | some t => cycle < t
      | none => true }

end Sys2Proof.Machine
end

