-- ==== Sys2Proof/Machine/Scalar.lean ====
section
/-! DEFINITION. The scalar forms of page 0 that write a register: arithmetic, logic, shifts, counts, moves, immediates,
`lea` and `gaddr` (R310 to R387). None orders memory; each executes during run-ahead (R263). -/

namespace Sys2Proof.Machine

/-- A form of latency 8 or less over registers: the scoreboard, then the result and the next instruction (R309). -/
def simple (uses : List RegRef) (d : XReg) (f : Ctx → Word) (s : State) : Out :=
  .next (scoreboard (uses ++ [xref d]) (fun s => finishX d (f s.me) s) s)

/-- A form of two scalar sources and latency 8 or less. -/
def simple2 (d a b : XReg) (f : Word → Word → Word) (s : State) : Out :=
  simple [xref a, xref b] d (fun c => f (c.xr a) (c.xr b)) s

/-- A form of one scalar source and latency 8 or less. -/
def simple1 (d a : XReg) (f : Word → Word) (s : State) : Out :=
  simple [xref a] d (fun c => f (c.xr a)) s

/-- A form of two scalar sources, latency `lat` and a stall count (R42, R43, R91). -/
def long2 (lat : Nat) (stall : Fin 16) (d a b : XReg) (f : Word → Word → Word) (s : State) : Out :=
  .next (scoreboard [xref a, xref b, xref d]
    (fun s => finishStall lat stall (.x d.val (f (s.x a) (s.x b))) s) s)

/-! ## Values -/

def mulhWord (a b : Word) : Word := BitVec.ofInt 64 (a.toInt * b.toInt / 2 ^ 64)
def mulhuWord (a b : Word) : Word := BitVec.ofNat 64 (a.toNat * b.toNat / 2 ^ 64)

/-- R332: −1 for a zero divisor; the quotient truncated toward zero, wrapping for −2^63 / −1. -/
def divWord (a b : Word) : Word := if b = 0 then BitVec.allOnes 64 else BitVec.ofInt 64 (a.toInt.tdiv b.toInt)
def divuWord (a b : Word) : Word := if b = 0 then BitVec.allOnes 64 else BitVec.ofNat 64 (a.toNat / b.toNat)
/-- R368: the dividend for a zero divisor, else the sign of the dividend. -/
def remWord (a b : Word) : Word := if b = 0 then a else BitVec.ofInt 64 (a.toInt.tmod b.toInt)
def remuWord (a b : Word) : Word := if b = 0 then a else BitVec.ofNat 64 (a.toNat % b.toNat)

def minWord (a b : Word) : Word := if a.sle b then a else b
def minuWord (a b : Word) : Word := if a.ule b then a else b
def maxWord (a b : Word) : Word := if b.sle a then a else b
def maxuWord (a b : Word) : Word := if b.ule a then a else b

/-- The shift count of a register form: its low six bits (R374). -/
def countOf (b : Word) : Nat := b.toNat % 64
def sllWord (a : Word) (c : Nat) : Word := a <<< c
def srlWord (a : Word) (c : Nat) : Word := a >>> c
def sraWord (a : Word) (c : Nat) : Word := a.sshiftRight c

/-- Zero bits above the highest one bit of the low `n` bits of a number. -/
def leadZeros : Nat → Nat → Nat
  | 0, _ => 0
  | n + 1, v => if v / 2 ^ n % 2 = 1 then 0 else 1 + leadZeros n v

/-- Zero bits below the lowest one bit, at most `n`. -/
def trailZeros : Nat → Nat → Nat
  | 0, _ => 0
  | n + 1, v => if v % 2 = 1 then 0 else 1 + trailZeros n (v / 2)

/-- One bits among the low `n`. -/
def oneBits : Nat → Nat → Nat
  | 0, _ => 0
  | n + 1, v => v % 2 + oneBits n (v / 2)

def clzWord (a : Word) : Word := BitVec.ofNat 64 (leadZeros 64 a.toNat)
def ctzWord (a : Word) : Word := BitVec.ofNat 64 (trailZeros 64 a.toNat)
def popcWord (a : Word) : Word := BitVec.ofNat 64 (oneBits 64 a.toNat)

def extWidth : ExtSz → Nat
  | .b => 8 | .h => 16 | .w => 32

def sxtWord (z : ExtSz) (a : Word) : Word := (a.setWidth (extWidth z)).signExtend 64
def zxtWord (z : ExtSz) (a : Word) : Word := (a.setWidth (extWidth z)).setWidth 64

/-! ## Page 0, MAJ 0x0 to 0x2 -/

def execAdd (d a b : XReg) (s : State) : Out := simple2 d a b (· + ·) s
def execSub (d a b : XReg) (s : State) : Out := simple2 d a b (· - ·) s
def execAnd (d a b : XReg) (s : State) : Out := simple2 d a b (· &&& ·) s
def execOr (d a b : XReg) (s : State) : Out := simple2 d a b (· ||| ·) s
def execXor (d a b : XReg) (s : State) : Out := simple2 d a b (· ^^^ ·) s
def execSll (d a b : XReg) (s : State) : Out := simple2 d a b (fun u v => sllWord u (countOf v)) s
def execSrl (d a b : XReg) (s : State) : Out := simple2 d a b (fun u v => srlWord u (countOf v)) s
def execSra (d a b : XReg) (s : State) : Out := simple2 d a b (fun u v => sraWord u (countOf v)) s
def execMul (n : Fin 16) (d a b : XReg) (s : State) : Out := long2 12 n d a b (· * ·) s
def execMulh (n : Fin 16) (d a b : XReg) (s : State) : Out := long2 12 n d a b mulhWord s
def execMulhu (n : Fin 16) (d a b : XReg) (s : State) : Out := long2 12 n d a b mulhuWord s
def execDiv (n : Fin 16) (d a b : XReg) (s : State) : Out := long2 40 n d a b divWord s
def execDivu (n : Fin 16) (d a b : XReg) (s : State) : Out := long2 40 n d a b divuWord s
def execRem (n : Fin 16) (d a b : XReg) (s : State) : Out := long2 40 n d a b remWord s
def execRemu (n : Fin 16) (d a b : XReg) (s : State) : Out := long2 40 n d a b remuWord s
def execMin (d a b : XReg) (s : State) : Out := simple2 d a b minWord s
def execMinu (d a b : XReg) (s : State) : Out := simple2 d a b minuWord s
def execMax (d a b : XReg) (s : State) : Out := simple2 d a b maxWord s
def execMaxu (d a b : XReg) (s : State) : Out := simple2 d a b maxuWord s
def execSlt (d a b : XReg) (s : State) : Out := simple2 d a b (fun u v => ofCond (u.slt v)) s
def execSltu (d a b : XReg) (s : State) : Out := simple2 d a b (fun u v => ofCond (u.ult v)) s
/-- R371: xd is the condition and the destination. -/
def execSel (d a b : XReg) (s : State) : Out :=
  simple [xref a, xref b] d (fun c => if c.xr d ≠ 0 then c.xr a else c.xr b) s

/-! ## `gaddr` (R122, R123, R338) -/

/-- The owning core and local offset of element (column j, row i), or none where `gaddr` traps. -/
def gaddrOf (dist : Word) (j i : Nat) : Option Nat :=
  let origin := bits dist 52 12
  let px := bits dist 46 6 + 1
  let py := bits dist 40 6 + 1
  let bx := bits dist 36 4
  let by' := bits dist 32 4
  let es := bits dist 30 2
  let lpw := bits dist 25 5
  let base := bits dist 12 13
  let ox := origin % 64
  let oy := origin / 64
  if origin ≥ 2816 ∨ ox + px > 64 ∨ oy + py > 44 then none
  else
    let bj := j / 2 ^ bx
    let bi := i / 2 ^ by'
    let lj := bj / px * 2 ^ bx + j % 2 ^ bx
    let li := bi / py * 2 ^ by' + i % 2 ^ by'
    let core := origin + bi % py * 64 + bj % px
    let off := base * 64 + (li * 2 ^ lpw + lj) * 2 ^ es
    if lj ≥ 2 ^ lpw ∨ off + 2 ^ es > 393216 then none else some (core * 2 ^ 32 + off)

def execGaddr (n : Fin 16) (d a b : XReg) (s : State) : Out :=
  .next (scoreboard [xref a, xref b, xref d] (fun s =>
    match gaddrOf s.me.cr.dist ((s.x a).toNat % 2 ^ 32) ((s.x b).toNat % 2 ^ 32) with
    | some v => finishStall 16 n (.x d.val (BitVec.ofNat 64 v)) s
    | none => takeTrap { cause := 0x04, tval := s.me.cr.dist } s) s)

/-! ## MAJ 0x3 -/

def execClz (d : XReg) (a : XK) (s : State) : Out := simple [xkRef a] d (fun c => clzWord (c.xk a)) s
def execCtz (d : XReg) (a : XK) (s : State) : Out := simple [xkRef a] d (fun c => ctzWord (c.xk a)) s
def execPopc (d : XReg) (a : XK) (s : State) : Out := simple [xkRef a] d (fun c => popcWord (c.xk a)) s

/-- The write of `mov` (R359). -/
def movCtx (d a : XK) (c : Ctx) : Ctx :=
  match d, a with
  | .x r, _ => c.setX r (c.xk a)
  | .k r, .x q => c.setK r ((c.xr q).setWidth 1024)
  | .k r, .k q => c.setK r (c.kr q)

def execMov (d a : XK) (s : State) : Out :=
  .next (scoreboard [xkRef a, xkRef d] (fun s => retire 0 (s.onMe (movCtx d a))) s)

def execSxt (z : ExtSz) (d a : XReg) (s : State) : Out := simple1 d a (sxtWord z) s
def execZxt (z : ExtSz) (d a : XReg) (s : State) : Out := simple1 d a (zxtWord z) s

/-! ## Immediate forms -/

def execAddi (d a : XReg) (imm : Int) (s : State) : Out := simple1 d a (· + immWord imm) s
def execAndi (d a : XReg) (imm : Int) (s : State) : Out := simple1 d a (· &&& immWord imm) s
def execOri (d a : XReg) (imm : Int) (s : State) : Out := simple1 d a (· ||| immWord imm) s
def execXori (d a : XReg) (imm : Int) (s : State) : Out := simple1 d a (· ^^^ immWord imm) s
def execSlti (d a : XReg) (imm : Int) (s : State) : Out := simple1 d a (fun u => ofCond (u.slt (immWord imm))) s
def execSlli (d a : XReg) (c : Fin 64) (s : State) : Out := simple1 d a (sllWord · c.val) s
def execSrli (d a : XReg) (c : Fin 64) (s : State) : Out := simple1 d a (srlWord · c.val) s
def execSrai (d a : XReg) (c : Fin 64) (s : State) : Out := simple1 d a (sraWord · c.val) s
def execLi (d : XReg) (imm : Int) (s : State) : Out := simple [] d (fun _ => immWord imm) s
/-- R351: the low 32 bits of the immediate become the upper half of xd. -/
def execLih (d : XReg) (imm : Int) (s : State) : Out :=
  simple [] d (fun c => BitVec.ofNat 64 ((immWord imm).toNat % 2 ^ 32 * 2 ^ 32 + (c.xr d).toNat % 2 ^ 32)) s
def execLea (d : XReg) (off : Int) (s : State) : Out := simple [] d (fun c => targetOf c.pc off) s

/-- R361. -/
def execNop (s : State) : Out := .next (retire 0 s)

end Sys2Proof.Machine
end

