-- ==== Sys2Proof/Machine/Clove.lean ====
section
/-! DEFINITION. The Clove jobs: operand handles, `mload`, `mload.sp`, `mfree`, and the matrix jobs of `mjob` and `mmul` with
their passes and the operand cache (R107, R198, R204 to R211, R418). -/

namespace Sys2Proof.Machine

/-! ## Exact block sums (R107, R209) -/

/-- An E4M3 element in units of 2^−9; none for a NaN. -/
def e4Fix (n : Nat) : Option Int :=
  match toX .e4m3 n with
  | .fin s m e => some (signedAt s m e (-9))
  | _ => none

/-- The exact sum of products over a block; a NaN element makes it a NaN. -/
def blockSum : List Nat → List Nat → Option Int
  | a :: as, w :: ws =>
    match e4Fix a, e4Fix w, blockSum as ws with
    | some x, some y, some r => some (x * y + r)
    | _, _, _ => none
  | _, _ => some 0

/-- A block sum as a value: units of 2^−18. A zero sum counts as +0 (log entry 82). -/
def sumX : Option Int → XVal
  | some v => .fin (v < 0) v.natAbs (-18)
  | none => .nan

/-- One rounding of acc + sa × sb × P, on FP32 patterns. -/
def promote (acc sa sb : Nat) (p : XVal) : Nat :=
  roundX .f32 .rne false (addX .rne (toX .f32 acc) (mulX (mulX (toX .f32 sa) (toX .f32 sb)) p))

/-- The planes with a one in blocks that hold no NaN, as a number. -/
def planeBits (block : List Nat) : Nat :=
  if block.any (fun e => (e4Fix e).isNone) then 0
  else block.foldl (fun m e => m ||| ((e4Fix e).getD 0).natAbs) 0

/-- The cycles of a pass over blocks. -/
def passCycles (blocks : List (List Nat)) : Nat :=
  Nat.max 1 (oneBits 18 (blocks.foldl (fun m b => m ||| planeBits b) 0))

/-! ## Handles (R204, R205) -/

/-- The macros of a cluster that no handle holds, ascending. -/
def freeMacros (k : Cluster) : List Nat :=
  (List.range 32).filter fun m => !k.handles.any fun (_, h) => h.macros.contains m

/-- The indices of a nibble, in ascending order. -/
def nibbleOk (v : Nat) : Bool := v % 4 < v / 4

/-- The nibble of a group: byte m of a tile's 16 holds the groups 2m and 2m + 1 (R198). -/
def nibbleAt (mb : List Nat) (n k col : Nat) : Nat :=
  let g := k % 128 / 4
  mb.getD (16 * (k / 128 * (n / 64) + col / 64) + g / 2) 0 / 16 ^ (g % 2) % 16

/-- The element at a logical row and column of a packed tensor. -/
def sparseElem (packed mb : List Nat) (n k col : Nat) : Nat :=
  let v := nibbleAt mb n k col
  if k % 4 = v % 4 then packed.getD (2 * (k / 4) * n + col) 0
  else if k % 4 = v / 4 then packed.getD ((2 * (k / 4) + 1) * n + col) 0
  else 0

/-- The first illegal nibble, lowest address first and the low half before the high one. -/
def badNibble (mb : List Nat) : Option (Nat × Nat × Nat) :=
  (List.range (2 * mb.length)).findSome? fun i =>
    let v := mb.getD (i / 2) 0 / 16 ^ (i % 2) % 16
    if nibbleOk v then none else some (i / 2, i % 2, v)

/-- Reads a metadata block, lowest address first, up to its first illegal nibble (R204): 16 bytes of a tile at a time. -/
def metaBytes (c : Cmd) (va : Nat) : Nat → JobM (List Nat)
  | 0 => pure []
  | n + 1 => do
    let bs ← jread c va 16
    match badNibble (byteNats bs) with
    | some (i, half, v) => throw { kind := 0x0B, addr := (va + i) % 2 ^ 56, info := v + 16 * half }
    | none => do
      let rest ← metaBytes c (va + 16) n
      pure (byteNats bs ++ rest)

/-- `mload` and `mload.sp` (R204). -/
def loadJob (c : Cmd) (sp : Bool) : JobM Unit := do
  let h ← jheader c c.xa.toNat
  let k := h.rows
  let n := h.cols
  let kb := k / 128
  checkHeader h true (h.ty = 11 && (h.sp = 1) == sp) (k % 128 = 0 && k ≤ 4096 && n % 64 = 0 && n ≤ 2048)
  let need := (if sp then (kb + 1) / 2 else kb) * (n / 64)
  let cl := clusterOf (c.tag / 4096)
  let s := (← get).s
  let id := c.xb.toNat
  jcheck (fget (s.cluster cl).handles id).isNone 0x04 0
  let free := freeMacros (s.cluster cl)
  jcheck (need ≤ free.length) 0x05 0
  let scales ← jscales c (scaleBase c h) 0 (kb * ((n + 127) / 128))
  let elems ← jread c (h.va + 64) ((if sp then k / 2 else k) * n)
  let elems ← if !sp then pure elems
    else do
      jcheck (h.hmeta % 16 = 0) 0x08 h.hmeta
      let mb ← metaBytes c h.hmeta (kb * (n / 64))
      let packed := byteNats elems
      pure ((List.range (k * n)).map fun i => BitVec.ofNat 8 (sparseElem packed mb n (i / n) (i % n)))
  jwork (128 * need)
  let r : Handle := { k := k, n := n, sparse := sp, elems := elems, scales := scales.map (BitVec.ofNat 32),
                      macros := free.take need }
  modify fun j => { j with res := { j.res with handle := some (id, some r) } }

/-- `mfree` (R205). -/
def freeJob (c : Cmd) : JobM Unit := do
  let s := (← get).s
  let id := c.xa.toNat
  jcheck (fget (s.cluster (clusterOf (c.tag / 4096))).handles id).isSome 0x04 0
  modify fun j => { j with res := { j.res with handle := some (id, none) } }

/-! ## The operand cache (R211) -/

/-- A 128-byte row-block of A: from the cache where an entry of the current generation holds it, else from memory; only
row-blocks of the scratchpad class are cached. The address is checked in either case. -/
def rowBlock (c : Cmd) (va : Nat) : JobM (List Nat) := do
  let j ← get
  match jobPieces j.s c .rd (pageParts va 128) with
  | .error f => throw f
  | .ok ps =>
    let cl := clusterOf (c.tag / 4096)
    let k := j.s.cluster cl
    let pas := ps.map fun p => (p.pa, p.n)
    let cached := ps.all fun p => rangeOf p.pa = .spad
    let keep := fun (e : CacheRow) => do
      modify fun j => { j with s := j.s.onCluster cl fun k =>
        { k with cache := (e :: k.cache.filter fun q => q.pas ≠ e.pas).take 64 } }
      pure (byteNats e.data)
    match k.cache.find? fun e => cached && e.pas = pas && e.gen = k.gen with
    | some e => keep e
    | none =>
      let bs ← jread c va 128
      if cached then keep { pas := pas, gen := k.gen, data := bs } else pure (byteNats bs)

/-! ## Matrix jobs (R207, R209, R210) -/

/-- The row-blocks of row `i` of A, from block `b` on, pass by pass: one block for a dense pass, two for a sparse one. -/
def passBlocks (c : Cmd) (sp : Bool) (base kb : Nat) : Nat → Nat → JobM (List (List Nat))
  | 0, _ => pure []
  | fuel + 1, b => do
    if kb ≤ b then pure []
    else do
      let first ← rowBlock c (base + 128 * b)
      if sp ∧ b + 1 < kb then do
        let second ← rowBlock c (base + 128 * (b + 1))
        jwork (passCycles [first, second])
        let rest ← passBlocks c sp base kb fuel (b + 2)
        pure (first :: second :: rest)
      else do
        jwork (passCycles [first])
        let rest ← passBlocks c sp base kb fuel (b + 1)
        pure (first :: rest)

/-- Column `col` of block `b` of a handle. -/
def Handle.column (h : Handle) (b col : Nat) : List Nat :=
  (List.range 128).map fun k => (h.elems.getD ((128 * b + k) * h.n + col) 0).toNat

/-- The accumulator of one output element: the blocks in ascending order. -/
def accumulate (h : Handle) (sas : List Nat) (col acc : Nat) (blocks : List (List Nat)) : Nat :=
  (blocks.zipIdx).foldl (fun acc (a, b) =>
    promote acc (sas.getD b 0) (h.scales.getD (b * ((h.n + 127) / 128) + col / 128) 0).toNat
      (sumX (blockSum a (h.column b col)))) acc

/-- A value rounded into the output type of the command (R100, R102). -/
def Cmd.round (c : Cmd) (acc : Nat) : Nat := roundX c.out c.rm c.sat (toX .f32 acc)

/-- The addend row: FP32 patterns, or +0. -/
def addendRow (c : Cmd) (dh : Option Header) (i n : Nat) : JobM (List Nat) :=
  match dh with
  | none => pure (List.replicate n 0)
  | some h => do
    let bs ← jread c (h.va + 64 + 4 * n * i) (4 * n)
    pure (bytesElems 4 bs)

/-- One row of a matrix job: reads, passes, the row of C. -/
def matrixRow (c : Cmd) (h : Handle) (a ch : Header) (dh : Option Header) (i : Nat) : JobM Unit := do
  let kb := h.k / 128
  let before := (← get).work
  let blocks ← passBlocks c h.sparse (a.va + 64 + i * h.k) kb kb 0
  let after := (← get).work
  modify fun j => { j with work := before }
  let sas ← jscales c (scaleBase c a) (i * kb) kb
  let d ← addendRow c dh i h.n
  modify fun j => { j with work := after }
  let w := c.out.width / 8
  jwrite c (ch.va + 64 + i * h.n * w)
    (elemBytes w ((List.range h.n).map fun col => c.round (accumulate h sas col (d.getD col 0) blocks)))

/-- The header of a C operand: its FLAGS are neither read nor written. -/
def resultHeader (c : Cmd) (va rows cols : Nat) : JobM Header := do
  let h ← jheader c va
  checkHeader h false (h.ty = c.oty && h.sp = 0) (h.rows = rows && h.cols = cols)
  pure h

/-- The header of an addend, where DHDR is not 0. -/
def addendHeader (c : Cmd) (va rows cols : Nat) : JobM (Option Header) :=
  if va = 0 then pure none
  else do
    let h ← jheader c va
    checkHeader h true (h.ty = 8 && h.sp = 0) (h.rows = rows && h.cols = cols)
    pure (some h)

/-- `mjob` and `mmul` (R207). -/
def matrixJob (c : Cmd) : JobM Unit := do
  let d ← jrecord c c.xa.toNat
  jcheck (zeros (d.drop 24)) 0x03 c.xa.toNat
  let s := (← get).s
  match fget (s.cluster (clusterOf (c.tag / 4096))).handles c.xb.toNat with
  | none => jfail 0x04 0
  | some h => do
    let a ← jheader c (field d 0 8)
    checkHeader a true (a.ty = 11 && a.sp = 0) (a.cols = h.k)
    let ch ← resultHeader c (field d 8 8) a.rows h.n
    let dh ← addendHeader c (field d 16 8) a.rows h.n
    (List.range a.rows).forM (matrixRow c h a ch dh)

end Sys2Proof.Machine
end

