-- ==== Sys2Proof/Machine/Copy.lean ====
section
/-! DEFINITION. The copy unit: copy, transpose, quantise and pack (R138, R216 to R218, R418). -/

namespace Sys2Proof.Machine

/-- The number of a byte in the space of poison keys: 32 bytes to a key. -/
def byteKey (p : Piece) (i : Nat) : Nat := p.pa + i + (if rangeOf p.pa = .peer && !p.nc then 2 ^ 53 else 0)

/-- Reads pieces without consuming poison: each byte with whether it is poisoned, by its granule or by the answer to a
request (R138, R244). -/
def movePieces (c : Cmd) : List Piece → JobM (List (Byte × Bool))
  | [] => pure []
  | p :: ps => do
    let (bs, _) ← jobReadPiece c p
    let s := (← get).s
    let answered := (← get).lost
    let bad := (List.range p.n).map fun i =>
      nmem s.poison (byteKey p i / 32) || (rangeOf p.pa = .peer && answered.contains ((p.pa + i) / 32))
    let rest ← movePieces c ps
    pure (bs.zip bad ++ rest)

/-- Reads a range without consuming poison; its bytes count (R418). -/
def jmove (c : Cmd) (va n : Nat) : JobM (List (Byte × Bool)) := do
  let j ← get
  match jobPieces j.s c .rd (pageParts va n) with
  | .error f => throw f
  | .ok ps => do
    let r ← movePieces c ps
    modify fun j => { j with rd := j.rd + n }
    pure r

/-- Writes a range; its bytes count. -/
def jput (c : Cmd) (va : Nat) (bs : List Byte) : JobM Unit := do
  jwrite c va bs
  modify fun j => { j with wr := j.wr + bs.length }

/-- Reads a range; its bytes count once all of it is read (log entry 85). -/
def jtake (c : Cmd) (va n : Nat) : JobM (List Byte) := do
  let bs ← jread c va n
  modify fun j => { j with rd := j.rd + n }
  pure bs

/-- Writes moved bytes and notes where their poison goes. -/
def jputMoved (c : Cmd) (va : Nat) (l : List (Byte × Bool)) : JobM Unit := do
  jput c va (l.map (·.1))
  let j ← get
  match jobPieces j.s c .wr (pageParts va l.length) with
  | .error f => throw f
  | .ok ps =>
    let rec keys : List Piece → List (Byte × Bool) → List (Nat × Bool)
      | [], _ => []
      | p :: ps, l => (List.range p.n).map (fun i => (byteKey p i, (l.getD i (0, false)).2)) ++ keys ps (l.drop p.n)
    set { j with moved := j.moved ++ keys ps l }

/-- The granules that a move poisons, and those that it writes in full from clean bytes (R138). -/
def movedPoison (moved : List (Nat × Bool)) : List Nat × List Nat :=
  let gs := moved.foldl (fun l b => nadd l (b.1 / 32)) []
  let poisoned := fun g => moved.any fun b => b.1 / 32 = g && b.2
  let full := fun g => (List.range 32).all fun i => moved.any fun b => b.1 = g * 32 + i
  (gs.filter poisoned, gs.filter fun g => !poisoned g && full g)

/-- OP 0: all bytes are read before any is written. -/
def copyJob (c : Cmd) (src dst len : Nat) : JobM Unit := do
  jcheck (1 ≤ len && len ≤ 2 ^ 32) 0x03 c.xa.toNat
  let l ← jmove c src len
  jputMoved c dst l

/-- Two ranges of bytes overlap. -/
def overlap (a n b m : Nat) : Bool := a < b + m && b < a + n

/-- The overlaps that R216 forbids: element bytes with each other and with the other tensor's header and metadata. -/
def tensorsOverlap (h g : Header) : Bool :=
  let n := tensorBytes h
  let m := tensorBytes g
  let blk := 16 * (g.rows / 128) * (g.cols / 64)
  overlap (h.va + 64) n (g.va + 64) m || overlap (h.va + 64) n g.va 64 || overlap (g.va + 64) m h.va 64
    || (g.sp = 1 && overlap (h.va + 64) n g.hmeta blk)

/-- FLAGS of the destination. -/
def putValid (c : Cmd) (g : Header) (v : Nat) : JobM Unit := jput c (g.va + 4) (natLe 4 v)

/-- OP 1: d[j][i] := s[i][j]. -/
def transposeRow (c : Cmd) (h g : Header) (w j : Nat) : JobM Unit := do
  let es ← (List.range h.rows).mapM fun i => jmove c (h.va + 64 + (i * h.cols + j) * w) w
  jputMoved c (g.va + 64 + j * h.rows * w) es.flatten

/-- OP 2: the exact quotient by the scale of the block, rounded once. -/
def quantiseRow (c : Cmd) (h g : Header) (ty : Ty) (i : Nat) : JobM Unit := do
  let w := ty.width / 8
  let kb := h.cols / 128
  let bs ← jtake c (h.va + 64 + i * h.cols * w) (h.cols * w)
  let sc ← jscales c (scaleBase c g) (i * kb) kb
  let es := ((bytesElems w bs).zipIdx).map fun (e, k) =>
    quotTo .e4m3 c.rm c.sat (toX ty e) (toX .f32 (sc.getD (k / 128) 0))
  jput c (g.va + 64 + i * h.cols) (elemBytes 1 es)

/-- The weight of a row's tile: the sum of magnitudes; a NaN counts above every sum (log entry 20). -/
def tileWeight (row : List Nat) : Nat :=
  if row.any (fun e => (e4Fix e).isNone) then 2 ^ 64 else row.foldl (fun n e => n + ((e4Fix e).getD 0).natAbs) 0

/-- The index with the largest weight, the lowest of equal ones, `skip` left out. -/
def heaviest (ws : List Nat) (skip : Option Nat) : Nat :=
  (ws.zipIdx.foldl (fun (r : Option (Nat × Nat)) (w, i) =>
    if some i = skip then r
    else match r with
      | none => some (w, i)
      | some b => if b.1 < w then some (w, i) else some b) none).map (·.2) |>.getD 0

/-- The two rows of a group that a tile keeps, in ascending order (R218). -/
def packPick (ws : List Nat) : Nat × Nat :=
  let a := heaviest ws none
  let b := heaviest ws (some a)
  (Nat.min a b, Nat.max a b)

/-- The picks of the group with rows 4g to 4g + 3, tile by tile. -/
def groupPicks (rows : List Nat) (n : Nat) : List (Nat × Nat) :=
  (List.range (n / 64)).map fun t =>
    packPick ((List.range 4).map fun i => tileWeight ((rows.drop (i * n + 64 * t)).take 64))

/-- OP 3: one group of four rows gives two packed rows; the picks are kept for the metadata. -/
def packGroup (c : Cmd) (h g : Header) (k : Nat) : JobM (List (Nat × Nat)) := do
  let n := h.cols
  let bs ← jtake c (h.va + 64 + 4 * k * n) (4 * n)
  let rows := byteNats bs
  let picks := groupPicks rows n
  let row := fun (second : Bool) => (List.range n).map fun col =>
    let p := picks.getD (col / 64) (0, 0)
    rows.getD ((if second then p.2 else p.1) * n + col) 0
  jput c (g.va + 64 + 2 * k * n) (elemBytes 1 (row false))
  jput c (g.va + 64 + (2 * k + 1) * n) (elemBytes 1 (row true))
  pure picks

/-- The metadata block of the picks of all groups (R198). -/
def packMeta (n kb : Nat) (picks : List (List (Nat × Nat))) : List Byte :=
  (List.range (16 * kb * (n / 64))).map fun i =>
    let b := i / (16 * (n / 64))
    let t := i / 16 % (n / 64)
    let nib := fun (half : Nat) =>
      let p := (picks.getD (32 * b + 2 * (i % 16) + half) []).getD t (0, 1)
      p.1 + 4 * p.2
    BitVec.ofNat 8 (nib 0 + 16 * nib 1)

/-- The role of the two headers of an operation: types, then shapes. -/
def copyRoles (op : Nat) (h g : Header) : (Bool × Bool) × (Bool × Bool) :=
  match op with
  | 1 => (((h.ty ≤ 5 || 8 ≤ h.ty) && h.ty ≤ 12 && h.sp = 0, true),
          (g.ty = h.ty && g.sp = 0, g.rows = h.cols && g.cols = h.rows))
  | 2 => ((8 ≤ h.ty && h.ty ≤ 10 && h.sp = 0, h.cols % 128 = 0),
          (g.ty = 11 && g.sp = 0, g.rows = h.rows && g.cols = h.cols))
  | _ => ((h.ty = 11 && h.sp = 0, h.rows % 128 = 0 && h.cols % 64 = 0),
          (g.ty = 11 && g.sp = 1, g.rows = h.rows && g.cols = h.cols))

/-- OP 1 to 3 in the steps of R217. -/
def tensorJob (c : Cmd) (src dst : Nat) : JobM Unit := do
  let op := c.xb.toNat
  let h ← jheader c src
  let (ht, hs) := (copyRoles op h h).1
  checkHeader h true ht hs
  let g ← jheader c dst
  let (gt, gs) := (copyRoles op h g).2
  checkHeader g false gt gs
  jcheck (op ≠ 3 || g.hmeta % 16 = 0) 0x08 g.hmeta
  jcheck (!tensorsOverlap h g) 0x10 dst
  putValid c g 0
  let ty := (Ty.ofCode h.ty).getD .f32
  match op with
  | 1 => (List.range h.cols).forM (transposeRow c h g (ty.width / 8))
  | 2 => (List.range h.rows).forM (quantiseRow c h g ty)
  | _ => do
    let picks ← (List.range (h.rows / 4)).mapM (packGroup c h g)
    jput c g.hmeta (packMeta h.cols (h.rows / 128) picks)
  putValid c g 1

/-- `cjob` (R216). -/
def cjobBody (c : Cmd) : JobM Unit := do
  let d ← jrecord c c.xa.toNat
  let len := field d 16 8
  jcheck (zeros (d.drop 24) && (c.xb.toNat = 0 || len = 0)) 0x03 c.xa.toNat
  if c.xb.toNat = 0 then copyJob c (field d 0 8) (field d 8 8) len
  else tensorJob c (field d 0 8) (field d 8 8)

end Sys2Proof.Machine
end

