-- ==== Sys2Proof/Machine/Sumac.lean ====
section
/-! DEFINITION. The predictor jobs: `prd`, `prdsel` and `mrow` (R223 to R235). -/

namespace Sys2Proof.Machine

/-! ## The layer descriptor (R223, R224) -/

/-- The class of every byte of an area; what does not translate is left to the access that needs it. -/
def jclass (c : Cmd) (spad : Bool) (va n : Nat) : JobM Unit := do
  let s := (← get).s
  let ok := fun p => classOf s p = .window || (spad && classOf s p = .spad)
  match (pageParts va n).findSome? (fun (a, k) =>
      match translateVa s (jobTlb s c) c.tenant (BitVec.ofNat 64 a) with
      | some (pa, _) => ((blockEnds pa k).find? fun p => !ok p).map fun p => a + (p - pa)
      | none => none) with
  | some a => jfail 0x08 a
  | none => pure ()

/-- The layer descriptor, checked. -/
def jlayer (c : Cmd) : JobM Layer := do
  let bs ← jrecord c c.xa.toNat
  let l := layerOf c.xa.toNat bs
  let hs := toX .f32 l.hscale
  jcheck (l.zero && l.n % 64 = 0 && 64 ≤ l.n && l.n ≤ 16384 && l.d % 128 = 0 && 128 ≤ l.d && l.d ≤ 2048
    && 1 ≤ l.rank && l.rank ≤ 64 && l.act ≤ 1 && ltX (.fin false 0 0) hs && ltX hs (.inf false)) 0x03 l.va
  jcheck (l.pred % 64 = 0) 0x08 l.pred
  jcheck (l.score % 64 = 0) 0x08 l.score
  jcheck (l.list % 64 = 0) 0x08 l.list
  pure l

/-- An FP32 value. -/
def jf32 (c : Cmd) (va : Nat) : JobM XVal := do
  let bs ← jread c va 4
  pure (toX .f32 (leNat bs))

/-- A radius or norm: finite and not negative; −0 counts as 0. -/
def jnorm (c : Cmd) (va : Nat) : JobM XVal := do
  match ← jf32 c va with
  | .fin s n e => if s ∧ n ≠ 0 then jfail 0x11 va else pure (.fin false n e)
  | _ => jfail 0x11 va

/-- A BF16 value of U or V: no NaN. -/
def jbf16 (c : Cmd) (va : Nat) : JobM XVal := do
  let bs ← jread c va 2
  let v := toX .bf16 (leNat bs)
  if isNaN v then jfail 0x11 va else pure v

/-- Round into FP32 as a value. -/
def round32 (rm : Rm) (v : XVal) : XVal := toX .f32 (roundX .f32 rm false v)

def zeroX : XVal := .fin false 0 0

/-- a ≤ b by the IEEE rules. -/
def leX (a b : XVal) : Bool := ltX a b || eqX a b

/-! ## `prd` (R225) -/

/-- The activation of `prd`: elements and scales of a 1 × d tensor. -/
def activation (c : Cmd) (h : Header) (d : Nat) : JobM (List Nat × List Nat) := do
  let bs ← jread c (h.va + 64) d
  let sa ← jscales c (scaleBase c h) 0 (d / 128)
  pure (byteNats bs, sa)

/-- Σ over k of terms, rounded term by term under RNE. -/
def runningSum (f : Nat → JobM XVal) (n : Nat) : JobM XVal :=
  (List.range n).foldlM (fun t k => do
    let p ← f k
    pure (round32 .rne (addX .rne t p))) zeroX

def prdJob (c : Cmd) : JobM Unit := do
  let l ← jlayer c
  let h ← jheader c c.xb.toNat
  checkHeader h true (h.ty = 11 && h.sp = 0) (h.rows = 1 && h.cols = l.d)
  jclass c false l.pred (2 * l.d * l.rank)
  jclass c false l.vOff (2 * l.rank * l.n)
  jclass c true l.score (4 * l.n)
  let (x, sa) ← activation c h l.d
  let xs := (x.zipIdx).map fun (e, k) => mulX (toX .e4m3 e) (toX .f32 (sa.getD (k / 128) 0))
  let tr ← (List.range l.rank).mapM fun r => runningSum (fun k => do
    let u ← jbf16 c (l.pred + 2 * (k * l.rank + r))
    pure (mulX (xs.getD k zeroX) u)) l.d
  jwork ((l.d * l.rank + 63) / 64)
  (List.range l.n).forM fun j => do
    let v ← runningSum (fun r => do
      let v ← jbf16 c (l.vOff + 2 * (r * l.n + j))
      pure (mulX (tr.getD r zeroX) v)) l.rank
    jwrite c (l.score + 4 * j) (natLe 4 (roundX .f32 .rne false v))
  jwork ((l.rank * l.n + 63) / 64)

/-! ## `prdsel` (R226 to R228) -/

/-- The class of a row. -/
inductive RowClass where
  | active | inactive
  | uncertain (t : XVal)

def classify (sc r nj : XVal) : RowClass :=
  if isNaN sc then .uncertain (.inf false)
  else if ltX zeroX (round32 .rdn (addX .rdn sc (negX r))) then .active
  else
    let hi := round32 .rup (addX .rup sc r)
    if leX hi zeroX then .inactive else .uncertain (round32 .rup (mulX hi nj))

/-- B(S): the terms of the skipped rows in ascending order, rounded up (R227). -/
def boundOf (rows : List (Nat × XVal)) : XVal := rows.foldl (fun b r => round32 .rup (addX .rup b r.2)) zeroX

/-- The row with the largest term, the lower of equal ones; a NaN term lies above all others (log entry 21). -/
def largestTerm (rows : List (Nat × XVal)) : Option (Nat × XVal) :=
  rows.foldl (fun r q =>
    match r with
    | none => some q
    | some b => if (!isNaN b.2 && isNaN q.2) || ltX b.2 q.2 then some q else some b) none

/-- Moves rows to the replay list until the bound holds: the replay list and the final skipped rows. -/
def replayRows (eps : XVal) : Nat → List (Nat × XVal) → List Nat × List (Nat × XVal)
  | 0, rows => ([], rows)
  | n + 1, rows =>
    if rows.isEmpty || leX (boundOf rows) eps then ([], rows)
    else
      match largestTerm rows with
      | none => ([], rows)
      | some q =>
        let (rep, rest) := replayRows eps n (rows.filter (·.1 ≠ q.1))
        (q.1 :: rep, rest)

/-- `prdsel`: its work counts once the lists are written (log entry 85). -/
def prdselJob (c : Cmd) : JobM Unit := do
  let l ← jlayer c
  jclass c true l.score (4 * l.n)
  jclass c false l.radOff (8 * l.n)
  jclass c true l.list (64 + 4 * l.n)
  let cls ← (List.range l.n).mapM fun j => do
    let sc ← jf32 c (l.score + 4 * j)
    let r ← jnorm c (l.radOff + 4 * j)
    let nj ← jnorm c (l.nrmOff + 4 * j)
    pure (j, classify sc r nj)
  let active := cls.filterMap fun (j, k) => match k with
    | .active => some j
    | _ => none
  let uncertain := cls.filterMap fun (j, k) => match k with
    | .uncertain t => some (j, t)
    | _ => none
  let (rep, rest) := replayRows (toX .f32 (bits c.cr.ffneps 0 32)) uncertain.length uncertain
  let f32 := fun v => natLe 4 (roundX .f32 .rne false v)
  jwrite c l.list (natLe 4 active.length ++ natLe 4 rep.length ++ natLe 4 uncertain.length ++ f32 (boundOf uncertain)
    ++ f32 (boundOf rest) ++ List.replicate 44 0)
  jwrite c (l.list + 64) (elemBytes 2 active)
  jwrite c (l.list + 64 + 2 * l.n) (elemBytes 2 rep)
  jwrite c (l.list + 64 + 2 * active.length) (List.replicate (2 * (l.n - active.length)) 0)
  jwrite c (l.list + 64 + 2 * l.n + 2 * rep.length) (List.replicate (2 * (l.n - rep.length)) 0)
  jwork (l.n / 16 + 4 * rep.length)

/-! ## `mrow` (R229 to R233) -/

/-- The two lists of the list area (R229). A fault of the lists reports the area's address (log entry 84). -/
def jlists (c : Cmd) (l : Layer) : JobM (List Nat) := do
  let bs ← jread c l.list 64
  let na := field bs 0 4
  let nr := field bs 4 4
  jcheck (na + nr ≤ l.n) 0x11 l.list
  let a ← jread c (l.list + 64) (2 * na)
  let r ← jread c (l.list + 64 + 2 * l.n) (2 * nr)
  let rows := bytesElems 2 a ++ bytesElems 2 r
  jcheck (rows.all (· < l.n) && rows.eraseDups.length = rows.length) 0x11 l.list
  pure rows

/-- The header of a projection. -/
def jprojection (c : Cmd) (va n d : Nat) : JobM Header := do
  let h ← jheader c va
  checkHeader h true (h.ty = 11 && h.sp = 0) (h.rows = n && h.cols = d)
  pure h

/-- A row of a projection with the scales of its blocks (R224). -/
def projectionRow (c : Cmd) (h : Header) (d j : Nat) : JobM (List Nat × List Nat) := do
  let bs ← jread c (h.va + 64 + j * d) d
  let sc ← jscales c (scaleBase c h) (j / 128 * (d / 128)) (d / 128)
  pure (byteNats bs, sc)

/-- The activation function (R223). -/
def actOf (six : Bool) (z : XVal) : XVal :=
  if isNaN z then .nan
  else
    let a := if ltX zeroX z then z else zeroX
    if six && ltX (.fin false 6 0) a then .fin false 6 0 else a

/-- What the up stage finds of a row: its h, whether z is a violation, its norm. -/
structure UpRow where
  j : Nat
  h : Nat
  viol : Bool
  norm : XVal

/-- A listed row as it is staged: its up elements and scales, and what R233 reads of it. -/
structure Staging where
  j : Nat
  u : List Nat
  su : List Nat
  score : XVal
  rad : XVal
  norm : XVal

/-- Reads a listed row for the up stage (R229, R233). -/
def stageRow (c : Cmd) (l : Layer) (up : Header) (j : Nat) : JobM Staging := do
  let (u, su) ← projectionRow c up l.d j
  let sc ← jf32 c (l.score + 4 * j)
  let r ← jnorm c (l.radOff + 4 * j)
  let nj ← jnorm c (l.nrmOff + 4 * j)
  pure { j := j, u := u, su := su, score := sc, rad := r, norm := nj }

/-- The up stage of a row (R229, R233). -/
def upRow (c : Cmd) (l : Layer) (x sa : List Nat) (r : Staging) : UpRow :=
  let z := (List.range (l.d / 128)).foldl (fun z b =>
    promote z (sa.getD b 0) (r.su.getD b 0) (sumX (blockSum ((x.drop (128 * b)).take 128) ((r.u.drop (128 * b)).take 128)))) 0
  let z := toX .f32 z
  let viol := isNaN z || isNaN r.score || ltX z (addX .rne r.score (negX r.rad)) || ltX (addX .rne r.score r.rad) z
  { j := r.j, h := quotTo .e4m3 .rtz c.sat (actOf (l.act = 1) z) (toX .f32 l.hscale), viol := viol, norm := r.norm }

/-- A round of the up stage: its rows are staged, then d / 128 passes follow, each over a row-block of x that it looks up in
the operand cache (R211, R230). Its rows, and the cycles of its passes. -/
def upRound (c : Cmd) (l : Layer) (a up : Header) (sa rows : List Nat) : JobM (List UpRow × Nat) := do
  let staged ← rows.mapM (stageRow c l up)
  let x ← (List.range (l.d / 128)).mapM fun b => do
    let block ← rowBlock c (a.va + 64 + 128 * b)
    jwork (passCycles [block])
    pure block
  pure (staged.map (upRow c l x.flatten sa), (x.map fun b => passCycles [b]).sum)

/-- The magnitude of a value. -/
def absX : XVal → XVal
  | .nan => .nan
  | .inf _ => .inf false
  | .fin _ n e => .fin false n e

/-- A row of the down stage: its terms of each column, and whether it violates the calibration. -/
def downRow (c : Cmd) (l : Layer) (dn : Header) (r : UpRow) : JobM (List XVal × Bool) := do
  let (w, sw) ← projectionRow c dn l.d r.j
  let ws := (w.zipIdx).map fun (e, k) => mulX (toX .e4m3 e) (toX .f32 (sw.getD (k / 128) 0))
  pure (ws.map (mulX (toX .e4m3 r.h)), r.viol || ws.any fun v => !leX (absX v) r.norm)

/-- Consecutive parts of a list of at most `n`. -/
def chunksOf {α : Type} (n : Nat) : Nat → List α → List (List α)
  | 0, _ => []
  | k + 1, l => if l.isEmpty then [] else l.take n :: chunksOf n k (l.drop n)

/-- The cycles in which rounds are requested (R230): each with its macros and the cycles of its passes. `past` holds the macros
and ends of earlier rounds, latest first; `work` is what earlier passes take, `ends` the cycle in which passes up to a work have
ended. -/
def requestTimes (f : Nat) (ends : Nat → Nat) : List (Nat × Nat) → List (Nat × Nat) → Nat → Nat → List Nat
  | [], _, _, _ => []
  | (need, cyc) :: rest, past, at_, work =>
    let rec fits : List (Nat × Nat) → Nat → Nat
      | [], _ => 0
      | (m, e) :: more, used => if f < used + m then e else fits more (used + m)
    let t := Nat.max at_ (fits past need)
    t :: requestTimes f ends rest ((need, ends (work + cyc)) :: past) t (work + cyc)

/-- Adds rows of terms column by column. -/
def addColumns (d : Nat) (rows : List (List XVal)) : List XVal :=
  rows.foldl (fun acc r => (acc.zip r).map fun (a, b) => addX .rne a b) (List.replicate d zeroX)

/-- `mrow`. The order of its checks beyond R229 is that of log entry 30. -/
def mrowJob (c : Cmd) : JobM Unit := do
  let l ← jlayer c
  let jd ← jrecord c c.xb.toNat
  jcheck (zeros (jd.drop 24)) 0x03 c.xb.toNat
  let a ← jheader c (field jd 0 8)
  checkHeader a true (a.ty = 11 && a.sp = 0) (a.rows = 1 && a.cols = l.d)
  let ch ← resultHeader c (field jd 8 8) 1 l.d
  let dh ← addendHeader c (field jd 16 8) 1 l.d
  let up ← jprojection c l.up l.n l.d
  let dn ← jprojection c l.dn l.n l.d
  jclass c true l.list (64 + 4 * l.n)
  jclass c true l.score (4 * l.n)
  jclass c false l.radOff (8 * l.n)
  let rows ← jlists c l
  modify fun j => { j with listed := !rows.isEmpty }
  let s := (← get).s
  let f := (freeMacros (s.cluster (clusterOf (c.tag / 4096)))).length
  jcheck (l.d / 64 ≤ f) 0x05 0
  let db := l.d / 128
  let sa ← if rows.isEmpty then pure [] else jscales c (scaleBase c a) 0 db
  let upRounds := chunksOf (64 * (f / db)) rows.length rows
  let upParts ← upRounds.mapM (upRound c l a up sa)
  let ups := upParts.map (·.1)
  let chunks := chunksOf 128 rows.length ups.flatten
  let addend ← addendRow c dh 0 l.d
  let hscale := toX .f32 l.hscale
  let downs ← chunks.mapM fun chunk => do
    let terms ← chunk.mapM (downRow c l dn)
    jwork (passCycles [chunk.map (·.h)])
    pure terms
  let acc := downs.foldl (fun acc terms =>
    (acc.zip (addColumns l.d (terms.map (·.1)))).map fun (v, p) =>
      roundX .f32 .rne false (addX .rne (toX .f32 v) (mulX hscale p))) addend
  let perRound := f / (l.d / 64)
  let upList := upParts.map fun (r, cycles) => ((r.length + 63) / 64 * db, cycles)
  let downList := (chunksOf perRound chunks.length chunks).map fun r =>
    (r.length * (l.d / 64), (r.map fun k => passCycles [k.map (·.h)]).sum)
  modify fun j => { j with rounds := (f, upList ++ downList) }
  let w := c.out.width / 8
  jwrite c (ch.va + 64) (elemBytes w (acc.map c.round))
  let bad := ((ups.flatten).zip ((downs.flatten).map (·.2))).filter (·.2)
  modify fun j => { j with res := { j.res with viol := bad.length } }
  match bad with
  | [] => pure ()
  | (r, _) :: _ =>
    if c.cr.ffnviol.getLsbD 0 then throw { kind := 0x12, addr := r.j + bad.length % 65536 * 2 ^ 32 } else pure ()

end Sys2Proof.Machine
end

