-- ==== Sys2Proof/Machine/EngineRun.lean ====
section
/-! DEFINITION. Jobs at work on the engines of a cluster: start, arrival of the data, the rounds of `mrow`, completion
(R128, R177, R202, R203, R210, R230, R233, R418). -/

namespace Sys2Proof.Machine

/-! ## The engines of a cluster -/

def State.engine (s : State) : EngineId → Engine
  | .clove c => (s.cluster c).clove
  | .copy c => (s.cluster c).copy
  | .sumac c => (s.cluster c).sumac
  | .coll => {}

def State.setEngine (s : State) (e : EngineId) (k : Engine) : State :=
  match e with
  | .clove c => s.onCluster c fun q => { q with clove := k }
  | .copy c => s.onCluster c fun q => { q with copy := k }
  | .sumac c => s.onCluster c fun q => { q with sumac := k }
  | .coll => s

/-- The cluster of an engine exists. -/
def engineExists : EngineId → Bool
  | .clove c | .copy c | .sumac c => c < clusterCount
  | .coll => true

/-- A gang stop holds the start of the job (R278). -/
def jobStopped (s : State) (j : Job) : Bool := (s.core (j.cmd.tag / 4096)).stopped

/-- The head of the queue can start. -/
def startable (s : State) (e : EngineId) : Bool :=
  (s.engine e).run.isNone && match (s.engine e).queue with
    | [] => false
    | j :: _ => !jobStopped s j

/-- The first job of the queue starts (R202). -/
def startEngine (e : EngineId) (s : State) : State :=
  if !startable s e then s
  else
    let k := s.engine e
    match k.queue with
    | [] => s
    | j :: rest => s.setEngine e { k with queue := rest, run := some { job := j, start := s.cycle } }

/-- An earlier job, a pending sector or a re-encryption holds an access that the job can make (R177): the collective engines
and the memory-side units wait with the whole of it. -/
def jobHeld (s : State) (j : Job) : Bool :=
  let earlier := s.allJobs.filter (·.order < j.order)
  j.owns.any fun o => ownedBy earlier o.excl o.lo o.hi || s.pending o.lo (o.hi + 1 - o.lo) || s.inReenc o.lo (o.hi + 1 - o.lo)

/-- What a job does. -/
def jobBody (c : Cmd) : JobM Unit :=
  match c.op with
  | .mjob | .mmul => matrixJob c
  | .mload => loadJob c false
  | .mloadSp => loadJob c true
  | .mfree => freeJob c
  | .mrow => mrowJob c
  | .cjob => cjobBody c
  | .prd => prdJob c
  | .prdsel => prdselJob c
  | _ => pure ()

/-- The granules that the stores of a job write whole. -/
def wholeGranules (out : List Store) : List Nat :=
  out.foldl (fun l st =>
    let copy := rangeOf st.pa = .peer && !st.nc
    (granules st.pa st.data.length).foldl (fun l g =>
      if coveredBy out (g * 32) 32 then nadd l (poisonKey copy (g * 32)) else l) l) []

/-- The work in cycles: of the passes, and of the bytes that a copy job moves. -/
def JobSt.cycles (j : JobSt) : Nat := j.work + (Nat.max j.rd j.wr + 63) / 64

/-- The result of a job that has run: what it leaves, and the cycles it takes apart from its waits. -/
def jobResult (r : Except JFault Unit) (j : JobSt) : Result × Nat :=
  let fault := match r with
    | .error f => some f
    | .ok _ => none
  let moved := movedPoison j.moved
  let ok := match fault with
    | some f => f.kind == 0x12
    | none => true
  ({ writes := j.out, poison := moved.1, clean := wholeGranules j.out ++ moved.2, fault := fault,
     handle := if ok then j.res.handle else none, viol := if ok then j.res.viol else 0 },
   40 + j.cycles)

/-- Carries out a job on the machine as it stands; a read that an earlier job, a link or a pending sector holds ends it with
KIND 0 (R177). -/
def carryOut (j : Job) (s : State) : Except JFault Unit × JobSt :=
  ((jobBody j.cmd).run { s := s, holds := true, before := j.order, bad := j.bad, lost := j.lost }).run

/-- The data of the running job can arrive: no read that it makes has to wait any more (R210, R418). -/
def dataReady (s : State) (e : EngineId) : Bool :=
  match (s.engine e).run with
  | some r => r.waiting && match (carryOut r.job s).1 with
    | .error f => f.kind ≠ 0
    | .ok _ => true
  | none => false

/-- The first cycle in which the pass that follows the work so far can begin: 16 cycles after the start, after the earlier
passes and their waits (R210, R418). -/
def Running.passDue (r : Running) (work : Nat) : Nat := r.start + 16 + work + r.delay

/-- The cycle in which the passes up to a work have ended, with the waits before them. -/
def Running.passEnd (r : Running) (work : Nat) : Nat :=
  r.start + 16 + work + ((r.pauses.filter fun (w, _) => w = 0 || w < work).map (·.2)).sum

/-- The job waits `n` cycles, with a work done before. -/
def Running.pause (r : Running) (work n : Nat) : Running :=
  { r with delay := r.delay + n, pauses := fput r.pauses work ((fget r.pauses work).getD 0 + n) }

/-- An `mrow` has read its lists in this cycle: its rows are requested from the next one on, so no pass begins before (R230). -/
def Running.readLists (r : Running) (cycle : Nat) : Running :=
  if r.lists.isSome then r else { r.pause 0 (cycle + 1 - r.passDue 0) with lists := some (cycle + 1), rounds := [cycle + 1] }

/-- The data of a pass has not arrived in this cycle though the pass is due: the job waits one cycle more. -/
def countDelay (e : EngineId) (s : State) : State :=
  match (s.engine e).run with
  | none => s
  | some r =>
    if !r.waiting then s
    else
      match carryOut r.job s with
      | (.error f, j) =>
        if f.kind ≠ 0 then s
        else
          let r := if j.listed then r.readLists s.cycle else r
          s.setEngine e { s.engine e with run := some (if r.passDue j.cycles ≤ s.cycle then r.pause j.cycles 1 else r) }
      | _ => s

/-- The data arrives: the job is carried out, its result comes about when its time has passed. -/
def arriveData (e : EngineId) (s : State) : State :=
  if !dataReady s e then s
  else
    match (s.engine e).run with
    | none => s
    | some r =>
      let (out, j) := carryOut r.job s
      let (res, time) := jobResult out j
      let k := j.s.engine e
      let (macros, rounds) := j.rounds
      let r := if j.listed then r.readLists s.cycle else r
      j.s.setEngine e { k with run := some { r with
        waiting := false, due := r.start + time + r.delay, res := res
        rounds := (requestTimes macros r.passEnd rounds [] (r.lists.getD (s.cycle + 1)) 0).filter (s.cycle ≤ ·) } }

/-- MROW_ROUND_REQUEST: the rounds whose cycle has come are requested (R230). -/
def execMrowRoundRequest (cluster : Nat) (s : State) : Out :=
  onClusterEvent "MROW_ROUND_REQUEST" cluster (fun s =>
    match (s.cluster cluster).clove.run with
    | some r => s.onCluster cluster fun k =>
        { k with clove := { k.clove with run := some { r with rounds := r.rounds.filter (s.cycle < ·) } } }
    | none => s) s

/-- The job's time has passed. -/
def completeDue (s : State) (e : EngineId) : Bool :=
  match (s.engine e).run with
  | some r => !r.waiting && r.due ≤ s.cycle
  | none => false

/-- The calibration violations of a job are counted (R233). -/
def countViolations (c : Cmd) (v : Nat) (s : State) : State :=
  if v = 0 then s
  else
    let s := s.count c.tenant fun k => { k with calib := k.calib + v }
    match s.resident c.tag with
    | none => s
    | some x =>
      let k := s.ctx x
      let n := Nat.min (bits k.cr.ffnviol 32 32 + v) (2 ^ 32 - 1)
      s.setCtx x { k with cr := { k.cr with ffnviol := BitVec.ofNat 64 (n * 2 ^ 32 + bits k.cr.ffnviol 0 32) } }

/-- What a job leaves comes about: its writes, their poison, a handle, the counts. -/
def applyResult (j : Job) (r : Result) (s : State) : State :=
  let s := putResult j r s
  let s := match r.handle with
    | none => s
    | some (id, h) => s.onCluster (clusterOf (j.cmd.tag / 4096)) fun k =>
        { k with handles := match h with
          | some h => fput k.handles id h
          | none => fdel k.handles id }
  countViolations j.cmd r.viol s

/-- The running job completes: its result, its ownership, its record; what waited for it goes on. -/
def completeEngine (e : EngineId) (s : State) : State :=
  if !completeDue s e then s
  else
    match (s.engine e).run with
    | none => s
    | some r =>
      let s := applyResult r.job r.res s
      let s := s.setEngine e { s.engine e with run := none }
      flushAll (recordJob r.job r.res.fault s)

def execCloveJobComplete (c : Nat) (s : State) : Out :=
  onClusterEvent "CLOVE_JOB_COMPLETE" c (completeEngine (.clove c)) s

def execCopyJobComplete (c : Nat) (s : State) : Out :=
  onClusterEvent "COPY_JOB_COMPLETE" c (completeEngine (.copy c)) s

def execSumacJobComplete (c : Nat) (s : State) : Out :=
  onClusterEvent "SUMAC_JOB_COMPLETE" c (completeEngine (.sumac c)) s

end Sys2Proof.Machine
end

