-- ==== Sys2Proof/Machine/CollEngine.lean ====
section
/-! DEFINITION. The collective engines: chains of steps, ready notices, partner data, acknowledgements, group reductions
through Anise, the partner wait (R249 to R253, R278, R281). -/

namespace Sys2Proof.Machine

def State.setChain (s : State) (c : Option Chain) : State := { s with coll := { s.coll with run := c } }

/-! ## Steps (R250) -/

/-- A step descriptor. -/
structure StepDesc where
  va : Nat
  next : Nat
  src : Nat
  loc : Nat
  dst : Nat
  count : Nat
  peer : Nat
  op : Nat
  sty : Nat                                     -- code of SRC and LOC
  dty : Nat
  clean : Bool

def stepDesc (va : Nat) (bs : List Byte) : StepDesc :=
  { va := va, next := field bs 0 8, src := field bs 8 8, loc := field bs 16 8, dst := field bs 24 8,
    count := field bs 32 4, peer := field bs 36 2, op := field bs 38 1, sty := field bs 39 1 % 16,
    dty := field bs 39 1 / 16, clean := zeros (bs.drop 40) }

def stepTy (code : Nat) : Ty := (Ty.ofCode code).getD .f32
def stepTyOk (code : Nat) : Bool := code = 4 || (8 ≤ code && code ≤ 10)

/-- The checks that a step raises as it begins, the membership bitmap as of the issue (R246, R253). -/
def stepCheck (s : State) (c : Cmd) (d : StepDesc) : Option JFault :=
  let bad := fun k => some { kind := k, addr := d.va : JFault }
  let limit := if d.op < 4 then 65536 else 2
  if !d.clean ∨ d.count < 1 ∨ limit < d.count ∨ 6 < d.op ∨ !stepTyOk d.sty ∨ !stepTyOk d.dty then bad 0x03
  else if d.op < 4 then
    if d.peer = s.fabric.package ∨ 1024 ≤ d.peer ∨ !s.fabric.present.getLsbD d.peer then bad 0x03
    else if !c.members.getLsbD d.peer then bad 0x09
    else none
  else if !c.cg.valid then bad 0x13
  else none

/-! ## Arithmetic (R251, R252) -/

/-- An element widened: FP32 pattern, or the 32 bits of an integer. -/
def widen (sty n : Nat) : Nat := if sty = 4 then n else roundX .f32 .rne false (toX (stepTy sty) n)

/-- One combination of widened elements, `l` the left operand. -/
def combine (op sty l u : Nat) : Nat :=
  let ty : Ty := if sty = 4 then .i32 else .f32
  match op % 4 with
  | 0 => if sty = 4 then (l + u) % 2 ^ 32 else roundX .f32 .rne false (addX .rne (toX .f32 l) (toX .f32 u))
  | 1 => elemMax ty l u
  | _ => elemMin ty l u

/-- A combined element as DST holds it. -/
def delivered (c : Cmd) (d : StepDesc) (n : Nat) : Nat :=
  convert (stepTy d.dty) (if d.sty = 4 then .i32 else .f32) .rne c.sat n

/-- One level of the group tree: neighbours are combined, an unpaired last value passes up. -/
def treeLevel (f : Nat → Nat → Nat) : List Nat → List Nat
  | a :: b :: rest => f a b :: treeLevel f rest
  | l => l

/-- The value that remains. -/
def treeFold (f : Nat → Nat → Nat) : Nat → List Nat → Nat
  | 0, l => l.headD 0
  | n + 1, l => if l.length ≤ 1 then l.headD 0 else treeFold f n (treeLevel f l)

/-! ## Running a chain -/

/-- Runs a part of a job on the machine as it stands: its result, the reads' effects and the writes made. -/
def runPart {α : Type} (job : Job) (m : JobM α) (s : State) : Except JFault α × State :=
  let (r, j) := (m.run { s := s, bad := job.bad, lost := job.lost }).run
  (r, j.out.foldl (fun s st => performStoreOf job.cmd.tag st s) j.s)

/-- The tag of the open step. -/
def Chain.tag (k : Chain) : Nat := (bits k.job.cmd.xb 0 16 + k.step) % 65536

/-- The count of a partner wait starts. -/
def waitFrom (s : State) : Nat := if s.coll.frozen then 0 else s.cycle

/-- The chain completes, with a fault or without. -/
def finishChain (k : Chain) (f : Option JFault) (s : State) : State :=
  flushAll (recordJob k.job f { s with coll := { s.coll with run := none, frozen := false } })

/-- Reads the descriptors of a chain; more than 64 steps fault. -/
def readChain (c : Cmd) : Nat → Nat → JobM Unit
  | 0, _ => jfail 0x03 c.xa.toNat
  | n + 1, va => do
    let bs ← jrecord c va
    if field bs 0 8 = 0 then pure () else readChain c n (field bs 0 8)

/-- The next chain that can start: the first of the queue whose tenant is not stopped. -/
def nextChain (s : State) : Option Job := s.coll.queue.find? fun j => !jobStopped s j

/-- A chain starts. -/
def startChain (s : State) : State :=
  if s.coll.run.isSome then s
  else
    match nextChain s with
    | none => s
    | some j =>
      { s with coll := { s.coll with
          queue := s.coll.queue.erase j
          run := some { job := j, step := 0, desc := j.cmd.xa.toNat, phase := .start, since := s.cycle } } }

/-- ENGINE_JOB_START. -/
def execEngineJobStart (e : EngineId) (s : State) : Out :=
  if !engineExists e then .fault (.noSuchUnit "ENGINE_JOB_START")
  else .next (match e with
    | .coll => startChain s
    | e => startEngine e s)

/-- Reads the descriptor of the open step. -/
def openStep (k : Chain) (s : State) : Except JFault StepDesc × State :=
  match runPart k.job (jrecord k.job.cmd k.desc) s with
  | (.ok bs, s) => (.ok (stepDesc k.desc bs), s)
  | (.error f, s) => (.error f, s)

/-! ## What the members of a group give (R252)

A member gives its values once for each group operation. Members of one package submit chains of their own to the one set of
engines, which runs one chain at a time: while the running chain waits for its group, a queued chain whose first step is that
operation gives its values too (DESIGN CHOICE, log entry 78). -/

/-- Values given for the group operation of a chain's open step. -/
def givenFor (k : Chain) (g : Given) : Bool :=
  g.tenant = k.job.cmd.tenant && g.group = k.job.cmd.cg.group && g.tag = k.tag

/-- The member of a chain has given values whose result it has not had. -/
def hasGiven (s : State) (k : Chain) : Bool :=
  s.coll.given.any fun g => givenFor k g && g.here && g.index = k.job.cmd.cg.index && !g.taken

/-- Values are given: kept here, and sent to the other packages of a group across packages. -/
def giveValues (k : Chain) (d : StepDesc) (bs : List Byte) (s : State) : State :=
  let c := k.job.cmd
  let vs := (bytesElems (stepWidth d.sty) bs).map (widen d.sty)
  let g : Given :=
    { tenant := c.tenant, group := c.cg.group, tag := k.tag, index := c.cg.index, op := d.op, values := vs, here := true }
  let s := { s with coll := { s.coll with given := s.coll.given ++ [g] } }
  if c.cg.fab then toDomain c.tenant (.contribute c.cg.group c.cg.index k.tag d.op vs) s else s

/-- The group step of the running chain begins: its LOC values are given. -/
def contribute (k : Chain) (d : StepDesc) (s : State) : State :=
  let waits := fun (s : State) => s.setChain (some { k with phase := .anise, since := waitFrom s })
  if hasGiven s k then waits s
  else
    match runPart k.job (jread k.job.cmd d.loc (d.count * stepWidth d.sty)) s with
    | (.error f, s) => finishChain k (some f) s
    | (.ok bs, s) => waits (giveValues k d bs s)

/-- A chain at its first step. -/
def firstStep (j : Job) (cycle : Nat) : Chain :=
  { job := j, step := 0, desc := j.cmd.xa.toNat, phase := .start, since := cycle }

/-- The group step that a queued chain begins with, and its LOC bytes; a fault, or a read that waits, gives nothing. -/
def readGroupStep (s : State) (j : Job) : Option (StepDesc × List Byte × State) :=
  let c := j.cmd
  let body : JobM (StepDesc × List Byte) := do
    let bs ← jrecord c c.xa.toNat
    let d := stepDesc c.xa.toNat bs
    match stepCheck (← get).s c d with
    | some f => throw f
    | none =>
      if d.op < 4 then jfail 0 0
      else do
        let loc ← jread c d.loc (d.count * stepWidth d.sty)
        pure (d, loc)
  match (body.run { s := s, holds := true, before := j.order, bad := j.bad, lost := j.lost }).run with
  | (.ok (d, bs), q) => some (d, bs, q.s)
  | (.error _, _) => none

/-- A queued chain can give its values to the group for which the running chain waits. -/
def canGive (s : State) (k : Chain) (j : Job) : Bool :=
  let q := firstStep j s.cycle
  q.tag = k.tag && j.cmd.tenant = k.job.cmd.tenant && j.cmd.cg.valid && j.cmd.cg.group = k.job.cmd.cg.group
    && !hasGiven s q && !jobStopped s j && (readGroupStep s j).isSome

/-- The first queued chain that can give its values, if any. -/
def earlyGiver (s : State) : Option Job :=
  match s.coll.run with
  | some k => if k.phase = .anise then s.coll.queue.find? (canGive s k) else none
  | none => none

/-- A queued chain gives its values. -/
def giveEarly (s : State) : State :=
  match earlyGiver s with
  | none => s
  | some j =>
    match readGroupStep s j with
    | none => s
    | some (d, bs, s) => giveValues (firstStep j s.cycle) d bs s

/-- The open step can begin: no earlier job holds its accesses and no gang stop holds the chain. -/
def chainReady (s : State) : Bool :=
  match s.coll.run with
  | some k => k.phase = .start && (k.cancelled || (!jobStopped s k.job && !jobHeld s k.job))
  | none => false

/-- The open step begins: the checks of the chain before its first step, then those of the step. -/
def beginStep (s : State) : State :=
  match s.coll.run with
  | none => s
  | some k =>
    let c := k.job.cmd
    if !chainReady s then s
    else if k.cancelled then finishChain k (some { kind := 0x15 }) s
    else
      match (if k.step = 0 then runPart k.job (readChain c 64 c.xa.toNat) s else (.ok (), s)) with
      | (.error f, s) => s.setChain (some { k with phase := .done, fault := some f, due := s.cycle + 40 })
      | (.ok _, s) =>
        match openStep k s with
        | (.error f, s) => finishChain k (some f) s
        | (.ok d, s) =>
          match stepCheck s c d with
          | some f => finishChain k (some f) s
          | none =>
            if d.op < 4 then
              (sendFab d.peer c.tenant (.notice k.tag d.count d.sty) s).setChain
                (some { k with phase := .notice, since := waitFrom s })
            else contribute k d s

/-- JOB_DATA_ARRIVAL: the data of an engine's job arrives; a step of the collective engines begins, or a queued chain gives
its values to a group. -/
def execJobDataArrival (e : EngineId) (s : State) : Out :=
  if !engineExists e then .fault (.noSuchUnit "JOB_DATA_ARRIVAL")
  else .next (match e with
    | .coll => if chainReady s then beginStep s else giveEarly s
    | e => arriveData e s)

/-- The step has ended: the next one, or the end of the chain. -/
def endStep (k : Chain) (next : Nat) (s : State) : State :=
  if next = 0 then finishChain k none s
  else s.setChain (some { k with
    step := k.step + 1, desc := next, phase := .start, since := s.cycle, wrote := false, acked := false })

/-- The step ends once DST is written and the partner has acknowledged. -/
def settleStep (k : Chain) (d : StepDesc) (s : State) : State :=
  if k.wrote && k.acked then endStep k d.next s else s.setChain (some k)

/-- The open step with its descriptor, where a chain runs. -/
def withStep (f : Chain → StepDesc → State → State) (s : State) : State :=
  match s.coll.run with
  | none => s
  | some k =>
    match openStep k s with
    | (.error e, s) => finishChain k (some e) s
    | (.ok d, s) => f k d s

/-- The open step of the running chain is that of a notice, by tenant, tag and partner (R251), and it stands in a phase. -/
def noticeAt (s : State) (p : Phase) (n : Notice) : Bool :=
  match s.coll.run with
  | some k => k.phase = p && k.tag = n.tag && k.job.cmd.tenant = n.tenant && (match openStep k s with
      | (.ok d, _) => d.peer = n.peer
      | (.error _, _) => false)
  | none => false

/-- A notice for the open step, in the wait for it. -/
def noticeFits (s : State) (n : Notice) : Bool := noticeAt s .notice n

/-- A second notice for a step that has had its notice already. -/
def noticeAgain (s : State) (n : Notice) : Bool := noticeAt s .data n

/-- Two notices are for one step. -/
def Notice.same (n q : Notice) : Bool := n.tenant = q.tenant && n.peer = q.peer && n.tag = q.tag

/-- The open step does not match its partner's (R253). -/
def mismatch (k : Chain) (d : StepDesc) (s : State) : State := finishChain k (some { kind := 0x13, addr := d.va }) s

/-- The partner is ready: SRC is read and sent (R251). Another count or type, or a second notice for the step, is a mismatch
(R253). -/
def takeNotice (n : Notice) (s : State) : State :=
  let kept := s.coll.notices.erase n
  withStep (fun k d s =>
    if n.count ≠ d.count ∨ n.ty ≠ d.sty ∨ kept.any n.same then mismatch k d s
    else
      match runPart k.job (jread k.job.cmd d.src (d.count * stepWidth d.sty)) s with
      | (.error f, s) => finishChain k (some f) s
      | (.ok bs, s) =>
        (sendFab d.peer k.job.cmd.tenant (.elements k.tag (bytesElems (stepWidth d.sty) bs)) s).setChain
          (some { k with phase := .data, since := waitFrom s }))
    { s with coll := { s.coll with notices := kept.filter (!n.same ·) } }

/-- READY_NOTICE_ARRIVAL: a notice for the open step is taken, one for another step is kept. -/
def execReadyNoticeArrival (partner : Partner) (tag count ty : Nat) (s : State) : Out :=
  let n : Notice := { tenant := partner.tenant, peer := partner.peer, tag := tag, count := count, ty := ty }
  .next
    (if noticeFits s n then takeNotice n s
    else if noticeAgain s n then withStep mismatch s
    else { s with coll := { s.coll with notices := s.coll.notices ++ [n] } })

/-- The result elements are written in ascending order (R251). -/
def writeElements (c : Cmd) (d : StepDesc) (es : List Nat) : JobM Unit :=
  let w := stepWidth d.dty
  (es.zipIdx).forM fun (e, i) => jwrite c (d.dst + w * i) (natLe w (delivered c d e))

/-- The partner's elements combined with LOC, the element of the lower package on the left. -/
def partnerResult (own : Nat) (d : StepDesc) (loc theirs : List Nat) : List Nat :=
  (loc.zip theirs).map fun (a, b) =>
    let a := widen d.sty a
    let b := widen d.sty b
    if d.op = 3 then b else if own < d.peer then combine d.op d.sty a b else combine d.op d.sty b a

/-- PARTNER_DATA_ARRIVAL: the elements are combined with LOC, DST is written and the partner acknowledged. -/
def execPartnerDataArrival (data : List Nat) (s : State) : Out :=
  .next (match s.coll.run with
    | none => s
    | some k =>
      if k.phase ≠ .data ∨ k.wrote then s
      else withStep (fun k d s =>
        if data.length ≠ d.count then s
        else
          let c := k.job.cmd
          let body : JobM Unit := do
            let bs ← jread c d.loc (d.count * stepWidth d.sty)
            writeElements c d (partnerResult s.fabric.package d (bytesElems (stepWidth d.sty) bs) data)
          match runPart k.job body s with
          | (.error f, s) => finishChain k (some f) s
          | (.ok _, s) => settleStep { k with wrote := true } d (sendFab d.peer c.tenant (.stepAck k.tag) s)) s)

/-- STEP_ACK_ARRIVAL: the partner has the data of this step; a chain that faulted in its checks completes when its time
has passed. -/
def execStepAckArrival (s : State) : Out :=
  .next (match s.coll.run with
    | none => s
    | some k =>
      match k.phase with
      | .data => withStep (fun k d s => settleStep { k with acked := true } d s) s
      | .done => if k.due ≤ s.cycle then finishChain k k.fault s else s
      | _ => s)

/-- Changes the first element that a test selects. -/
def changeFirst {α : Type} (p : α → Bool) (f : α → α) : List α → List α
  | [] => []
  | a :: l => if p a then f a :: l else a :: changeFirst p f l

/-- The member of a chain has had its result; values that every member of this package has had the result of are dropped. -/
def takeGiven (k : Chain) (l : List Given) : List Given :=
  let g := k.job.cmd.cg
  let l := changeFirst (fun q => givenFor k q && q.here && q.index = g.index && !q.taken) (fun q => { q with taken := true }) l
  let firsts := (List.range g.count).filterMap fun m => l.find? fun q => givenFor k q && q.index = m
  if firsts.all fun q => !q.here || q.taken then firsts.foldl (·.erase ·) l else l

/-- ANISE_GROUP_RESULT: what the members of the group gave, by index. -/
def execAniseGroupResult (ops counts : List Nat) (values : List (List Nat)) (s : State) : Out :=
  .next (match s.coll.run with
    | none => s
    | some k =>
      if k.phase ≠ .anise then s
      else withStep (fun k d s =>
        let n := k.job.cmd.cg.count
        let t := { s with coll := { s.coll with given := takeGiven k s.coll.given } }
        if ops.length ≠ n ∨ counts.length ≠ n ∨ values.length ≠ n then s
        else if ops.any (· ≠ d.op) ∨ counts.any (· ≠ d.count) then mismatch k d t
        else
          let body := writeElements k.job.cmd d ((List.range d.count).map fun i =>
            treeFold (combine d.op d.sty) n (values.map fun v => v.getD i 0))
          match runPart k.job body t with
          | (.error f, s) => finishChain k (some f) s
          | (.ok _, s) => endStep k d.next s) s)

/-- The group result that is complete: every member of the group has given its values for the operation whose result the
running chain waits for. -/
def groupResult (s : State) : Option Instr :=
  match s.coll.run with
  | none => none
  | some k =>
    if k.phase ≠ .anise then none
    else
      let g := k.job.cmd.cg
      let mine := s.coll.given.filter (givenFor k)
      let past := (mine.filter fun q => q.index = g.index && q.taken).length
      let of := (List.range g.count).map fun m => (mine.filter (·.index = m))[past]?
      if of.all (·.isSome) then
        let vs := of.filterMap id
        some (.aniseGroupResult (vs.map (·.op)) (vs.map (·.values.length)) (vs.map (·.values)))
      else none

/-- The partner wait of the open step has passed its deadline (R253). -/
def partnerLate (s : State) : Bool :=
  match s.coll.run with
  | some k =>
    let dl := bits k.job.cmd.cr.cgdl 0 32
    (k.phase = .notice || (k.phase = .data && !k.wrote)) && !s.coll.frozen && dl ≠ 0 && k.since + dl * 1024 ≤ s.cycle
  | none => false

/-- PARTNER_WAIT_EXPIRY. -/
def execPartnerWaitExpiry (s : State) : Out :=
  .next (match s.coll.run with
    | some k => if partnerLate s then finishChain k (some { kind := 0x14, addr := k.desc % 2 ^ 56 }) s else s
    | none => s)

end Sys2Proof.Machine
end

