-- ==== Sys2Proof/Machine/Collector.lean ====
section
/-! DEFINITION. The collectors of trap records and their rings, ring notices, and the registers of the tenant control
block that are steps of their own (R246, R270, R272 to R274, R295, R419). -/

namespace Sys2Proof.Machine

/-- The 64 bytes of a trap record (R272). -/
def recBytes (r : TrapRec) : List Byte :=
  natLe 1 r.cause ++ natLe 1 r.info ++ natLe 2 r.row ++ natLe 4 r.count ++ natLe 8 r.cores ++ natLe 8 r.tval.toNat
    ++ natLe 8 r.epc.toNat ++ natLe 4 r.tag ++ natLe 4 r.flags ++ natLe 8 r.cycle ++ natLe 8 r.join.toNat ++ natLe 8 0

/-- The log2 of the ring's size in records. -/
def ringLog (t : Tenant) : Nat := t.ringlog.toNat % 32

/-- The trap ring of a tenant is valid (R419). -/
def ringValid (s : State) (t : Tenant) : Bool :=
  let b := t.ringbase.toNat
  4 ≤ ringLog t && ringLog t ≤ 20 && b ≠ 0 && b % 64 = 0 && allLpddr s b (64 * 2 ^ ringLog t)

/-- The ring is valid and not full. -/
def ringRoom (s : State) (tenant : Nat) : Bool :=
  let t := s.tenant tenant
  ringValid s t && (t.head + 2 ^ 64 - t.tail.toNat) % 2 ^ 64 ≠ 2 ^ ringLog t

/-- The address of the next record of a tenant's ring. -/
def ringNext (t : Tenant) : Nat := t.ringbase.toNat + 64 * (t.head % 2 ^ ringLog t)

/-- A record can be appended: the ring has room, and no engine job or other hold keeps its memory (R128, R274). -/
def ringOpen (s : State) (tenant : Nat) : Bool := ringRoom s tenant && !s.deviceHeld (ringNext (s.tenant tenant)) 64

/-- Sends the number of an appended record to MONITOR, where its mailbox has a free entry (R274). -/
def ringNotice (tenant n : Nat) (s : State) : State :=
  let tag := (s.tenant tenant).monitor.toNat
  if tag = 0 then s
  else
    match s.resident tag with
    | none => s
    | some x =>
      if boxFree s x (boxKey 3 true) then
        wakeReceiver x (placeMsgIn x
          { sender := Config.noticeSender n, dest := tag, ch := 3, hi := true, data := natLe 8 n } s)
      else s

/-- Appends a record to the ring of its tenant (R274). -/
def appendRecord (tenant : Nat) (r : TrapRec) (s : State) : State :=
  let t := s.tenant tenant
  let s := deviceWrite tenant (ringNext t) (recBytes r) s
  ringNotice tenant t.head (s.onTenant tenant fun t => { t with head := (t.head + 1) % 2 ^ 64 })

/-- The records held by the collector of a mesh row. -/
def heldRecords (s : State) (tenant row : Nat) : List TrapRec := (fget (s.tenant tenant).held row).getD []

/-- Drops a record into LOST. -/
def loseRecord (tenant : Nat) (s : State) : State :=
  (s.onTenant tenant fun t => { t with lostRecs := t.lostRecs + 1 }).count tenant fun k => { k with lost := k.lost + 1 }

/-- COLLECTOR_APPEND: the k-th record on the trap channel reaches its collector, which appends it, holds it behind those
it holds, at most 64, or drops it. -/
def execCollectorAppend (k : Nat) (s : State) : Out :=
  match s.net.records[k]? with
  | none => .next s
  | some (tenant, r) =>
    let s := { s with net := { s.net with records := s.net.records.eraseIdx k } }
    let held := heldRecords s tenant r.row
    .next
      (if held.isEmpty && ringOpen s tenant then appendRecord tenant r s
      else if held.length < 64 then s.onTenant tenant fun t => { t with held := fput t.held r.row (held ++ [r]) }
      else loseRecord tenant s)

/-- HELD_RECORD_APPEND: the oldest held record of a collector is appended once the ring is open. -/
def execHeldRecordAppend (tenant row : Nat) (s : State) : Out :=
  .next
    (match heldRecords s tenant row with
    | [] => s
    | r :: rest =>
      if ringOpen s tenant then
        appendRecord tenant r (s.onTenant tenant fun t =>
          { t with held := if rest.isEmpty then fdel t.held row else fput t.held row rest })
      else s)

/-! ## Registers of the tenant control block (R270) -/

/-- A tenant that the configuration record names. -/
def ofTenant (tenant : Nat) (f : Tenant → Tenant) (s : State) : State :=
  if (fget s.tenants tenant).isSome then s.onTenant tenant f else s

/-- RINGBASE_WRITE: the ring is set and HEAD restarts. -/
def execRingbaseWrite (tenant : Nat) (v : Word) (s : State) : Out :=
  .next (ofTenant tenant (fun t => { t with ringbase := v, head := 0 }) s)

/-- TAIL_WRITE. -/
def execTailWrite (tenant : Nat) (v : Word) (s : State) : Out :=
  .next (ofTenant tenant (fun t => { t with tail := v }) s)

/-- MEMBERS_WRITE: word i of the membership bitmap (R246). -/
def execMembersWrite (tenant i : Nat) (v : Word) (s : State) : Out :=
  if 16 ≤ i then .fault (.noSuchUnit "MEMBERS_WRITE")
  else .next (ofTenant tenant (fun t =>
    { t with members := (t.members &&& ~~~(BitVec.ofNat 1024 (2 ^ 64 - 1) <<< (64 * i))) ||| (v.setWidth 1024 <<< (64 * i)) }) s)

/-- REGISTER_WRITE: a host write to a device register (R295). One that is not 4 or 8 bytes wide or not aligned changes
nothing; one to a spawn window is no packet and is dropped there (R54). -/
def execRegisterWrite (offset width : Nat) (v : Word) (s : State) : Out :=
  .next
    (match devRow offset with
    | .spawn t o => s.post [.hostSpawnWindowWrite t o (natLe width v.toNat)]
    | _ => if (width = 4 ∨ width = 8) ∧ offset % width = 0 then devWrite true offset width v s else s)

end Sys2Proof.Machine
end

