-- ==== Sys2Proof/Machine/Control.lean ====
section
/-! DEFINITION. Branches, jumps, `brk`, `trap`, `eret` and the illegal-instruction step (R319 to R321, R333, R340, R387, R84). -/

namespace Sys2Proof.Machine

/-- R319. -/
def execBc (c : Cc) (a b : XReg) (off : Int) (s : State) : Out :=
  .next (scoreboard [xref a, xref b] (fun s =>
    if ccHolds c (s.x a) (s.x b) then jumpTo (targetOf s.me.pc off) s else retire 0 s) s)

/-- R320. -/
def execBr (c : Cz) (a : XReg) (off : Int) (s : State) : Out :=
  .next (scoreboard [xref a] (fun s =>
    if czHolds c (s.x a) then jumpTo (targetOf s.me.pc off) s else retire 0 s) s)

/-- R340. -/
def execJ (off : Int) (s : State) : Out := .next (jumpTo (targetOf s.me.pc off) s)

def execJal (d : XReg) (off : Int) (s : State) : Out :=
  .next (scoreboard [xref d] (fun s =>
    jumpTo (targetOf s.me.pc off) (s.onMe fun c => c.setX d c.next)) s)

/-- A register jump: an odd target traps at the jump (R340). -/
def registerJump (a : XReg) (link : State → State) (s : State) : State :=
  if (s.x a).getLsbD 0 then takeTrap { cause := 0x04, tval := s.x a } s else jumpTo (s.x a) (link s)

def execJr (a : XReg) (s : State) : Out := .next (scoreboard [xref a] (registerJump a id) s)

def execJalr (d a : XReg) (s : State) : Out :=
  .next (scoreboard [xref a, xref d] (registerJump a (fun s => s.onMe fun c => c.setX d c.next)) s)

/-- R321: always traps; the return address is the next instruction. -/
def execBrk (code : Fin 1024) (s : State) : Out :=
  .next (takeTrap { cause := 0x30, tval := BitVec.ofNat 64 code.val } s)

/-- R387. -/
def execTrap (code : Fin 256) (s : State) : Out :=
  .next (takeTrap { cause := 0x31, tval := BitVec.ofNat 64 code.val } s)

/-- R333: `eret` parks during run-ahead and traps at user level. -/
def execEret (s : State) : Out :=
  .next (notAhead (supervisor fun s => s.onMe fun c => { eretCtx c with hold := s.cycle + 8 }) s)

/-- R84: the encodings that are not instructions. -/
def execIllegalInstruction (parcel : BitVec 16) (index : Fin 5) (s : State) : Out :=
  .next (takeTrap { cause := 0x01, tval := parcelTval parcel.toNat index.val } s)

end Sys2Proof.Machine
end

