-- ==== Sys2Proof/Machine/Deadlock.lean ====
section
/-! DEFINITION. The deadlock probe (R285, R419). -/

namespace Sys2Proof.Machine

/-- The context, with its mailbox, that records a tag as a blocked sender. -/
def blockedAt (s : State) (tag : Nat) : Option (CtxId × Nat) :=
  s.ctxs.findSome? fun (x, c) => (c.blocked.find? (·.2 = tag)).map fun b => (x, b.1)

/-- A context has been parked on a full mailbox long enough for a probe, and none of its own is on its way. -/
def probeStarts (s : State) (x : CtxId) : Bool :=
  let c := s.ctx x
  c.slot = .parked && c.wait = some .space && (c.probed.getD c.parkedAt) + 21000 < s.cycle
    && (blockedAt s (s.tagOf x)).isSome && !s.net.probes.any (·.origin = s.tagOf x)

/-- DEADLOCK_PROBE_START: a probe goes to the receiver of the context's send. -/
def startProbe (s : State) : State :=
  let tag := s.tagOf s.cur
  match probeStarts s s.cur, blockedAt s tag with
  | true, some (y, _) =>
    let p : Probe := { origin := tag, tenant := s.myTenant, path := [tag], recv := false, at_ := s.tagOf y }
    ({ s with net := { s.net with probes := s.net.probes ++ [p] } }).onMe fun c => { c with probed := some s.cycle }
  | _, _ => s

def execDeadlockProbeStart (x : CtxId) (s : State) : Out := onCtx "DEADLOCK_PROBE_START" x startProbe s

/-- A context holds an outstanding probe with a lower origin: its own, or one that has reached it. -/
def holdsLower (s : State) (p : Probe) : Bool :=
  s.net.probes.any fun q => q.origin < p.origin && (q.at_ = p.at_ || q.path.contains p.at_)

/-- A cycle of sends only: the receiver grants its core's reserve entry to the origin's message. -/
def grantReserve (origin : Nat) (s : State) : State :=
  match blockedAt s origin with
  | none => s
  | some (y, key) =>
    if (s.core (coreOf y)).reserve.isSome then s
    else grantTo y key origin true (s.onCore (coreOf y) fun k => { k with reserve := some (slotOf y, key) })

/-- The address of the next record of a tenant's deadlock area, 0 while it is not valid (R419). -/
def deadlockAddr (s : State) (tenant : Nat) : Nat :=
  let b := (s.tenant tenant).dlarea.toNat
  if b ≠ 0 ∧ b % 4096 = 0 ∧ allLpddr s b 4096 then b + 64 * ((s.tenant tenant).dlCount % 64) else 0

/-- A cycle through a receive: the record is written and every context of the path traps at its parking instruction. -/
def breakCycle (p : Probe) (s : State) : State :=
  let a := deadlockAddr s p.tenant
  let s := if a = 0 then s
    else (deviceWrite p.tenant a ((p.path.flatMap (natLe 4) ++ List.replicate 64 0).take 64) s).onTenant p.tenant fun t =>
      { t with dlCount := t.dlCount + 1 }
  eachTag p.path (fun s =>
    if s.me.slot = .parked then
      enterTrap { cause := 0x1C, info := p.path.length, tval := BitVec.ofNat 64 a } false (withdrawSend s.cur s)
    else s) s

/-- The probe has closed a cycle through a receive and its record cannot be written yet: an engine job owns its memory, or
something else holds it (R128). -/
def probeHeld (s : State) (p : Probe) : Bool :=
  let a := deadlockAddr s p.tenant
  p.at_ = p.origin && p.recv && a ≠ 0 && s.deviceHeld a 64

/-- PROBE_HOP: the k-th probe reaches a context: it passes on, ends, or has come back to its origin. -/
def execProbeHop (k : Nat) (s : State) : Out :=
  match s.net.probes[k]? with
  | none => .next s
  | some p =>
    let s := { s with net := { s.net with probes := s.net.probes.eraseIdx k } }
    let pass := fun (dest : Nat) (recv : Bool) =>
      { s with net := { s.net with
        probes := s.net.probes ++ [{ p with path := p.path ++ [p.at_], recv := p.recv || recv, at_ := dest }] } }
    .next
      (if probeHeld s p then { s with net := { s.net with probes := s.net.probes ++ [p] } }
      else if p.at_ = p.origin then (if p.recv then breakCycle p s else grantReserve p.origin s)
      else
        match s.resident p.at_ with
        | none => s
        | some x =>
          if holdsLower s p ∨ 16 ≤ p.path.length ∨ (s.ctx x).slot ≠ .parked then s
          else
            match (s.ctx x).wait with
            | some .space => match blockedAt s p.at_ with
              | some (y, _) => pass (s.tagOf y) false
              | none => s
            | some (.recv ..) => match (s.ctx x).blocked.head? with
              | some (_, tag) => pass tag true
              | none => s
            | _ => s)

end Sys2Proof.Machine
end

