-- ==== Sys2Proof/Machine/Landing.lean ====
section
/-! DEFINITION. Landing sets: the tagged loads, the takes and the management forms of page 1 and page 3, and the settling
of entries (R140 to R162, R348, R353, R384, R403). -/

namespace Sys2Proof.Machine

def kindBytes : LKind → Nat
  | .scalar z => szBytes z
  | _ => 512

/-- The alignment of R144. -/
def kindAlign : LKind → Nat
  | .scalar z => szBytes z
  | _ => 64

/-- The pieces of a vector or scalar access: one per 64 bytes, or the first trap of a page. -/
def piecesAt (s : State) (u tenant : Nat) (priv : Bool) (va : Word) (n : Nat) (acc : Acc) (cause : Nat) :
    Checked (List Piece) :=
  let step := Nat.min n 64
  (List.range (n / step)).foldl (fun r i =>
    match r with
    | .trap t => .trap t
    | .ok ps =>
      let a := va + BitVec.ofNat 64 (i * step)
      match checkPage s u tenant priv a acc cause with
      | .trap t => .trap t
      | .ok p => .ok (ps ++ [pieceOf a step p])) (.ok [])

/-- The class and tenant conditions of R145, after translation. -/
def tagCheck (s : State) (tenant : Nat) (row : Bool) (va : Word) (ps : List Piece) : Option TrapInfo :=
  match ps.find? (fun p => classOf s p.pa = .none || classOf s p.pa = .device || (match myTranslate s p.va with
      | some (_, e) => pteFE e
      | none => false)) with
  | some _ => some { cause := 0x04, tval := va }
  | none =>
    if row ∧ ps.any (fun p => classOf s p.pa ≠ .lpddr) then some { cause := 0x04, tval := va }
    else if ps.any (fun p => !tenantOk s tenant p.pa) then some { cause := 0x1D, tval := va }
    else none

/-- Translates the load of an entry: in flight with its translation, or in flight with the cause it will settle faulted
with, or a trap of R145. Its return takes a free number of cycles, that of a fault as well: the walk itself takes no time and
holds no issue (R145, R416; DESIGN CHOICE, log entries 3 and 65). -/
def startEntry (e : LEntry) (s : State) : Checked LEntry :=
  let t := s.myTenant
  let e := { e with st := .inFlight, due := s.cycle + Config.flight s.free, place := none, got := none, data := [], bad := none,
                    ps := [] }
  match piecesAt s s.myTlb t s.me.priv e.addr (kindBytes e.kind) .rd 0x08 with
  | .trap f => .ok { e with cause := f.cause }
  | .ok ps =>
    match tagCheck s t (e.kind == .row) e.addr ps with
    | some f => .trap f
    | none => .ok { e with cause := 0, ps := ps }

/-- What the issue of a tagged load leaves beside its entry: its translations, a free value used. -/
def noteEntry (e : LEntry) (s : State) : State :=
  let s := (if kindBytes e.kind = 512 then pageStarts e.addr 512 else [e.addr]).foldl (fun s a => noteMine a s) s
  { s with free := s.free + 1 }

/-- R145 for the three forms; a light context with an empty landing set moves first where the page asks for it (R62, R160).
`v` is the vector register of the vector forms. -/
def taggedLoad (kind : LKind) (t : Fin 64) (va : Word) (v : Nat) (s : State) : State :=
  let c := s.me
  if va.toNat % kindAlign kind ≠ 0 ∨ (kind = .row ∧ va.toNat / 4096 ≠ (va.toNat + 511) / 4096) then
    takeTrap { cause := 0x04, tval := va } s
  else if (fget c.landing t.val).isSome then
    takeTrap { cause := 0x04, info := 0x40, tval := BitVec.ofNat 64 t.val } s
  else if kindBytes kind = 512 ∧ c.reserved v then
    takeTrap { cause := 0x12, info := 1, tval := BitVec.ofNat 64 v } s
  else
    match startEntry { st := .inFlight, kind := kind, addr := va, vreg := v, num := c.issueCtr, seq := c.seq } s with
    | .trap f => takeTrap f s
    | .ok e =>
      let issue := fun (s : State) => retire 0 ((noteEntry e s).onMe fun c =>
        { c with landing := fput c.landing t.val e, issueCtr := c.issueCtr + 1, seq := c.seq + 1 })
      if e.cause = 0 then touchAt va issue s else issue s

def execLdt (z : Sz) (t : Fin 64) (a : XReg) (e : Int) (s : State) : Out :=
  .next (notAhead (scoreboard [xref a] fun s => taggedLoad (.scalar z) t (effAddr (s.x a) e) 0 s) s)

/-- R74 for the register that a tagged vector load names. -/
def claimed (v : Nat) (body : State → State) (s : State) : State :=
  if (fget s.me.v v).isNone then takeTrap { cause := 0x12, tval := BitVec.ofNat 64 v } s else body s

def vectorTagged (kind : LKind) (t : Fin 64) (d : VArg) (b : XReg) (e : Int) (s : State) : Out :=
  .next (notAhead (fun s =>
    let v := s.me.vnum d
    scoreboard (vargRefs d ++ [xref b, vref v]) (claimed v fun s => taggedLoad kind t (effAddr (s.x b) e) v s) s) s)

def execVldt (t : Fin 64) (d : VArg) (b : XReg) (e : Int) (s : State) : Out := vectorTagged .vector t d b e s
def execVldtRow (t : Fin 64) (d : VArg) (b : XReg) (e : Int) (s : State) : Out := vectorTagged .row t d b e s

/-! ## Takes (R147 to R151) -/

/-- Settled entries in land order: by cycle, then by tag (R142); those of an image come first, in the order they had (R159). -/
def landBefore (a b : Nat × LEntry) : Bool :=
  match a.2.place, b.2.place with
  | some i, some j => i < j
  | some _, none => true
  | none, some _ => false
  | none, none => a.2.at_ < b.2.at_ || (a.2.at_ = b.2.at_ && a.1 < b.1)

/-- The entry has settled before a cycle. -/
def LEntry.landedBefore (e : LEntry) (limit : Nat) : Bool := e.st ≠ .inFlight && (e.place.isSome || e.at_ < limit)

/-- The first in land order among entries settled before a cycle. -/
def firstLanded (limit : Nat) (l : FMap LEntry) : Option (Nat × LEntry) :=
  (l.filter fun (_, e) => e.landedBefore limit).foldl (fun r e =>
    match r with
    | none => some e
    | some b => if landBefore e b then some e else some b) none

/-- The non-empty entry with the lowest issue number (R148). -/
def lowestNumber (l : FMap LEntry) : Option (Nat × LEntry) :=
  l.foldl (fun r e =>
    match r with
    | none => some e
    | some b => if e.2.num < b.2.num then some e else some b) none

def lsModeOf (c : Ctx) : Nat := bits c.cr.lsmode 0 2
def lsLeft (c : Ctx) : Nat := bits c.cr.lsmode 32 32

/-- What a take finds: an entry to take, none yet, a trap, or a log byte that has to be waited for. -/
inductive Found where
  | entry (tag : Nat) (e : LEntry)
  | wait
  | log
  | trap (t : TrapInfo)

/-- A settled entry is taken, or traps with its cause or granule (R149). -/
def foundEntry (limit : Nat) (r : Option (Nat × LEntry)) : Found :=
  match r with
  | none => .wait
  | some (t, e) =>
    if !e.landedBefore limit then .wait
    else if e.st = .faulted then
      .trap { cause := 0x0D, info := e.cause, tval := BitVec.ofNat 64 (t * 2 ^ 56 + e.addr.toNat) }
    else if e.st = .poisoned then .trap { cause := 0x0C, tval := BitVec.ofNat 64 (t * 2 ^ 56 + e.granule % 2 ^ 56) }
    else .entry t e

/-- An access to the log byte: translation, protection, class and tenant, as of `Mem` (R93, R112, R384). -/
def logAccess (s : State) (acc : Acc) (cause : Nat) : Checked Phys := check s s.me.cr.lslog acc cause

/-- The entry that the mode designates (R148, R149), seen among those settled before `limit`. In replay the log byte is
read when the take is tested, at its issue and at each test that could wake it (the spec does not say when the one read of
a parked take is performed; DESIGN CHOICE, log entry 70). -/
def findTake (limit : Nat) (s : State) : Found :=
  let c := s.me
  match lsModeOf c with
  | 1 => foundEntry limit (lowestNumber c.landing)
  | 3 =>
    if lsLeft c = 0 then .trap { cause := 0x04, info := 0x42, tval := c.cr.lslog }
    else
      match logAccess s .rd 0x08 with
      | .trap t => .trap t
      | .ok p =>
        let piece := pieceOf c.cr.lslog 1 p
        if !lookupReady s s.cur [piece] then .log
        else
          match readPieces s.cur [piece] s with
          | (_, some _, _) => .trap { cause := 0x0C, tval := c.cr.lslog }
          | (bs, none, _) =>
            let b := leNat bs
            match fget c.landing b with
            | some e => if 64 ≤ b then .trap { cause := 0x04, info := 0x43, tval := c.cr.lslog }
                        else foundEntry limit (some (b, e))
            | none => .trap { cause := 0x04, info := 0x43, tval := c.cr.lslog }
  | _ => foundEntry limit (firstLanded limit c.landing)

/-- The state after the read of the log byte that a take in replay has made: a look-up like that of a plain load. -/
def afterLog (s : State) : State :=
  if lsModeOf s.me = 3 ∧ lsLeft s.me ≠ 0 then
    match logAccess s .rd 0x08 with
    | .trap _ => s
    | .ok p =>
      let piece := pieceOf s.me.cr.lslog 1 p
      (readPieces s.cur [piece] (countLookup [piece] (noteMine s.me.cr.lslog s))).2.2
  else s

/-- Advances the take log (R149). -/
def advanceLog (c : Ctx) : Ctx :=
  { c with cr := { c.cr with
      lslog := BitVec.ofNat 64 ((c.cr.lslog.toNat + 1) % 2 ^ 56)
      lsmode := c.cr.lsmode - 0x100000000 } }

/-- The value a take writes to xd (R149). -/
def takeValue (e : LEntry) : Word :=
  match e.kind with
  | .scalar _ => e.value
  | _ => e.addr

/-- Takes an entry: in record mode its tag is appended to the log first; the results are written and the entry empties. -/
def takeEntry (d t : Nat) (tag : Nat) (e : LEntry) (done : State → State) (s : State) : State :=
  let c := s.me
  let mode := lsModeOf c
  let finish := fun (s : State) =>
    done (s.onMe fun c =>
      { (c.setX (Fin.ofNat 32 d) (takeValue e)).setX (Fin.ofNat 32 t) (BitVec.ofNat 64 tag) with
        landing := fdel c.landing tag })
  if mode = 2 then
    if lsLeft c = 0 then takeTrap { cause := 0x04, info := 0x42, tval := c.cr.lslog } s
    else
      withCheck (logAccess s .wr 0x09) (fun p s =>
        let st : Store := { pa := p.pa, data := [BitVec.ofNat 8 tag], nc := pteNC p.pte, seq := s.me.seq }
        let s := if s.me.twin then twinEmit 0 1 c.cr.lslog.toNat st.data (.store [st]) s else issueStore s.cur st s
        finish (s.onMe fun c => advanceLog { c with seq := c.seq + 1 })) s
  else if mode = 3 then finish (s.onMe advanceLog)
  else finish s

/-- A take with nothing outstanding (R149). -/
def takeNothing (d t : Nat) (done : State → State) (s : State) : State :=
  done (s.onMe fun c => (c.setX (Fin.ofNat 32 d) 0).setX (Fin.ofNat 32 t) (BitVec.allOnes 64))

def execTake (d t : XReg) (s : State) : Out :=
  .next (notAhead (scoreboard [xref d, xref t] fun s =>
    if s.me.landing.isEmpty then takeNothing d.val t.val (retire 0) s
    else
      match findTake s.cycle s with
      | .trap f => takeTrap f (afterLog s)
      | .entry tag e => takeEntry d.val t.val tag e (retire 0) (afterLog s)
      | _ => parkOn (.take d.val t.val s.cycle) s) s)

/-- The result of a `taken` that does not take: xd 0, xt −2 (R150). -/
def takenNot (d t : Nat) (s : State) : State :=
  s.onMe fun c => (c.setX (Fin.ofNat 32 d) 0).setX (Fin.ofNat 32 t) (BitVec.ofInt 64 (-2))

def execTaken (d t : XReg) (s : State) : Out :=
  .next (notAhead (scoreboard [xref d, xref t] fun s =>
    if s.me.landing.isEmpty then takeNothing d.val t.val (retire 0) s
    else
      match findTake s.cycle s with
      | .trap f => takeTrap f (afterLog s)
      | .entry tag e => takeEntry d.val t.val tag e (retire 0) (afterLog s)
      | .wait => retire 0 (takenNot d.val t.val (afterLog s))
      | .log => s.onMe fun c => { c with openHold := some (.logByte d.val t.val) }) s)

/-- The entry of `takex` (R151). -/
def findTakex (limit : Nat) (a : Word) (s : State) : Found :=
  match (if a.toNat < 64 then fget s.me.landing a.toNat else none) with
  | none => .trap { cause := 0x04, info := 0x41, tval := a }
  | some e => foundEntry limit (some (a.toNat, e))

/-- `takex` neither writes a tag nor touches the take log (R151). -/
def takexEntry (d tag : Nat) (e : LEntry) (done : State → State) (s : State) : State :=
  done (s.onMe fun c => { c.setX (Fin.ofNat 32 d) (takeValue e) with landing := fdel c.landing tag })

def execTakex (d a : XReg) (s : State) : Out :=
  .next (notAhead (scoreboard [xref d, xref a] fun s =>
    match findTakex s.cycle (s.x a) s with
    | .trap f => takeTrap f s
    | .entry tag e => takexEntry d.val tag e (retire 0) s
    | _ => parkOn (.takex d.val (s.x a).toNat s.cycle) s) s)

/-- R152, R353. -/
def execLsre (a : XReg) (s : State) : Out :=
  .next (notAhead (scoreboard [xref a] fun s =>
    let bad : TrapInfo := { cause := 0x04, info := 0x41, tval := s.x a }
    let t := (s.x a).toNat
    match (if t < 64 then fget s.me.landing t else none) with
    | none => takeTrap bad s
    | some e =>
      if e.st ≠ .faulted ∧ e.st ≠ .poisoned then takeTrap bad s
      else
        match startEntry { e with seq := s.me.seq, granule := 0 } s with
        | .trap f => takeTrap f s
        | .ok e' =>
          retire 0 ((noteEntry e s).onMe fun c =>
            { c with landing := fput c.landing t e', seq := c.seq + 1 })) s)

/-- Empties the landing set; loads in flight are cancelled (R153, R162). -/
def Ctx.clearLanding (c : Ctx) : Ctx := { c with landing := [], issueCtr := 0 }

def execLsclr (s : State) : Out :=
  .next (notAhead (fun s => retire 0 (s.onMe Ctx.clearLanding)) s)

/-- R153: bit t is set when entry t is not empty. -/
def landingBits (l : FMap LEntry) : Word := BitVec.ofNat 64 (l.foldl (fun a (t, _) => a ||| 2 ^ t) 0)

def execLsinfo (d : XReg) (s : State) : Out :=
  .next (scoreboard [xref d] (fun s => finishX d (landingBits s.me.landing) s) s)

/-! ## Settling (R142, R143, R145) -/

/-- The landing port of a core has a grant left in this cycle (R143). -/
def portFree (s : State) (core : Nat) : Bool :=
  let (c, n) := (s.core core).landUsed
  c ≠ s.cycle || n < 4

/-- Uses a grant of the landing port. -/
def usePort (x : CtxId) (s : State) : State :=
  s.onCore (coreOf x) fun k =>
    { k with landed := slotOf x, landUsed := (s.cycle, if k.landUsed.1 = s.cycle then k.landUsed.2 + 1 else 1) }

/-- The read of an entry can be performed, but for a pause of a table: its time has come, and nothing recalls or holds it
(R157). A later fence does not hold it; the context's earlier stores to its bytes are performed first (R156, R166 item 4). -/
def entryReaches (s : State) (x : CtxId) (e : LEntry) : Bool :=
  e.st = .inFlight && e.got.isNone && e.due ≤ s.cycle && (e.cause ≠ 0 ||
    (!s.fencedBefore x e.seq && e.ps.all fun p =>
      !(s.storeAhead x p.pa p.n e.seq || s.lookupHeld (entryLookUp s x e) p.pa p.n || s.outOfTurn x p.pa p.n
        || s.maintWaits x p.pa p.n e.seq || linkWaits s p.nc p.pa p.n)))

/-- The return of an entry can reach the core: no pause of a table holds its read either (R134). -/
def entryArrives (s : State) (x : CtxId) (e : LEntry) : Bool :=
  entryReaches s x e && (e.cause ≠ 0 || !e.ps.any fun p => s.pausedAt p.pa p.n)

/-- The return of an entry, or its fault, reaches the core: its data is read now, it waits for the landing port. -/
def arriveEntry (x : CtxId) (t : Nat) (e : LEntry) (s : State) : State :=
  let put := fun (e : LEntry) (s : State) =>
    s.setCtx x { s.ctx x with landing := fput (s.ctx x).landing t { e with got := some s.cycle } }
  if e.cause ≠ 0 then put e s
  else
    let (bs, poison, s) := readPiecesOver x [] e.ps (countLookup e.ps s)
    put { e with data := bs, bad := poison.map (·.toNat) } s

/-- A return waits for the landing port and can be granted. -/
def entryWaits (s : State) (x : CtxId) (e : LEntry) : Bool :=
  e.st = .inFlight && e.got.isSome && portFree s (coreOf x)

/-- Settles an entry: faulted, poisoned, or landed with its value; a vector entry writes its register (R145). -/
def settleEntry (x : CtxId) (t : Nat) (e : LEntry) (s : State) : State :=
  let s := usePort x s
  let c := s.ctx x
  let e' := { e with at_ := s.cycle, got := none, data := [], bad := none, ps := [] }
  let put := fun (c : Ctx) (e : LEntry) => s.setCtx x { c with landing := fput c.landing t e }
  if e.cause ≠ 0 then put c { e' with st := .faulted }
  else
    match e.bad, e.kind with
    | some g, _ => put c { e' with st := .poisoned, granule := g }
    | none, .scalar z => put c { e' with st := .landed, value := loadValue z (leNat e.data) }
    | none, _ => put (c.land (.v e.vreg allBits (bytesVec e.data))) { e' with st := .landed }

/-- The entries that a parked take sees: one that parked in an earlier cycle is woken in the cycle of the settling, one
that parked in the cycle of the settling a cycle later (R142). -/
def wakeLimit (issued : Nat) (s : State) : Nat := if issued < s.cycle then s.cycle + 1 else s.cycle

/-- Wakes a parked take once an entry it can take has settled (R142). -/
def wakeTake (s : State) : State :=
  match s.me.wait with
  | some (.take d t issued) =>
    match findTake (wakeLimit issued s) s with
    | .trap i => enterTrap i false (afterLog s)
    | .entry tag e => takeEntry d t tag e completePark (afterLog s)
    | _ => s
  | some (.takex d a issued) =>
    match findTakex (wakeLimit issued s) (BitVec.ofNat 64 a) s with
    | .trap i => enterTrap i false s
    | .entry tag e => takexEntry d tag e completePark s
    | _ => s
  | _ => s

/-- LANDING_SETTLE: the return of an entry reaches the core, or one that waits is granted and the entry settles; where the
entry has settled, the take parked for it completes or traps. Stores held behind the entry are performed once it settles
(R166 item 5). -/
def landingSettle (t : Nat) (s : State) : State :=
  let x := s.cur
  match fget s.me.landing t with
  | none => s
  | some e =>
    if entryArrives s x e then arriveEntry x t e s
    else if entryWaits s x e then
      let y := pathOf s x
      flushPath y (s.ctx y).stores.length (settleEntry x t e s)
    else if e.st = .inFlight then s
    else if s.me.slot = .parked then wakeTake s
    else s

def execLandingSettle (x : CtxId) (t : Fin 64) (s : State) : Out := onCtx "LANDING_SETTLE" x (landingSettle t.val) s

/-- LOG_BYTE_RETURN: the log byte of a parked take, or of a `taken` under its hold, returns (R149, R150). A held `taken`
sees the entries settled before the cycle of the return (the spec says of a held `taken` only that it then proceeds as
stated; DESIGN CHOICE, log entry 71). -/
def logByteReturn (s : State) : State :=
  match s.me.openHold with
  | some (.logByte d t) =>
    match findTake s.cycle s with
    | .log => s
    | .trap f => takeTrap f (afterLog s)
    | .entry tag e => takeEntry d t tag e endHold (afterLog s)
    | .wait => endHold (takenNot d t (afterLog s))
  | _ => wakeTake s

def execLogByteReturn (x : CtxId) (s : State) : Out := onCtx "LOG_BYTE_RETURN" x logByteReturn s

end Sys2Proof.Machine
end

