-- ==== Sys2Proof/Machine/Msu.lean ====
section
/-! DEFINITION. The memory-side units: `rowadd`, `rowcommit`, `rowpause`, hot rows, and the end of a re-encryption
(R130 to R135, R137, R369, R370). -/

namespace Sys2Proof.Machine

/-! ## The table descriptor (R130) -/

structure Table where
  va : Nat
  base : Nat
  rows : Nat
  rbytes : Nat
  ety : Nat
  defer : Bool
  hot : Bool
  step : Nat
  stage : Nat
  cap : Nat
  hotn : Nat
  ok : Bool                                     -- every field within its limits

def tableOf (va : Nat) (bs : List Byte) : Table :=
  let rb := field bs 12 2
  let md := field bs 15 1
  let ety := field bs 14 1
  { va := va, base := field bs 0 8, rows := field bs 8 4, rbytes := rb, ety := ety, defer := md % 2 = 1,
    hot := md / 2 % 2 = 1, step := field bs 16 8, stage := field bs 24 8, cap := field bs 32 4, hotn := field bs 36 2,
    ok := [64, 128, 256, 512, 1024, 2048, 4096].contains rb && field bs 0 8 % rb = 0 && 1 ≤ field bs 8 4
      && stepTyOk ety && md / 4 = 0 && field bs 24 8 % 64 = 0 && zeros (bs.drop 38) }

def Table.rowAddr (t : Table) (row : Nat) : Nat := t.base + row * t.rbytes

/-- The table as a command keeps it, named by the physical address of its descriptor. -/
def Table.range (t : Table) (desc : Nat) : TableRange := { desc := desc, base := t.base, rows := t.rows, rbytes := t.rbytes }

/-- The memory-side unit that serves a physical address: those of this package by channel, then those of each peer. -/
def unitOf (s : State) (pa : Nat) : Nat :=
  (if rangeOf pa = .peer then (1 + peerPackage pa) * 144 else 0) + rowChannel s pa

/-- The units that hold rows of a table. -/
def tableUnits (s : State) (tenant : Nat) (t : TableRange) : List Nat :=
  (pageParts t.base (t.rows * t.rbytes)).foldl (fun l (va, k) =>
    match walk s tenant (BitVec.ofNat 64 va) with
    | none => l
    | some (pa, _) => (List.range ((pa + k - 1) / 4096 + 1 - pa / 4096)).foldl (fun l i => nadd l (unitOf s (pa + 4096 * i))) l) []

/-! ## Staged contributions (R133, R369)

A contribution lies in memory, in the slot that `slotVa` gives; the units keep which slots are filled. -/

structure Contribution where
  at_ : Staged
  va : Nat
  row : Nat
  seq : Nat
  pkg : Nat
  step : Nat

/-- The address of slot `i` of a channel. -/
def Table.slotVa (t : Table) (ch i : Nat) : Nat := t.stage + (ch * t.cap + i) * (64 + t.rbytes)

/-- What the head of a filled slot says. -/
def contribution (t : Table) (g : Staged) (bs : List Byte) : Contribution :=
  { at_ := g, va := t.slotVa g.channel g.slot, row := field bs 0 8, seq := field bs 8 8, pkg := field bs 16 2,
    step := field bs 24 8 }

/-- The filled slots of a table, and what their heads hold as they stand, through the TLBs of their units (R121). -/
def stagedOf (s : State) (desc : Nat) : List Staged := s.msu.staged.filter (·.desc = desc)

def contributions (s : State) (tenant desc : Nat) (t : Table) : List Contribution :=
  (stagedOf s desc).filterMap fun g =>
    (translateVa s (msuTlb g.channel) tenant (BitVec.ofNat 64 (t.slotVa g.channel g.slot))).map fun (pa, _) =>
      contribution t g (memReadList (if rangeOf pa = .peer then s.peerHome else s.mem) pa 32)

/-- The lowest slot of a channel that is neither filled nor owned by a command before (R370). -/
def freeSlot (s : State) (desc ch : Nat) (t : Table) : Option Nat :=
  (List.range t.cap).find? fun i =>
    !(stagedOf s desc).any (fun g => g.channel = ch && g.slot = i)
      && !s.msu.jobs.any fun j => j.table.desc = desc && j.channel.map (· % 144) = some ch && j.slot = some i

/-! ## Issue (R131, R369) -/

/-- The checks of the descriptor's address at issue, in their order. What else a read of it meets, protection and poison, is a
fault of the job (R131). -/
def rowCheck (s : State) (xa : Word) : Option TrapInfo :=
  if xa.toNat % 64 ≠ 0 then some { cause := 0x04, tval := xa }
  else if s.me.recordsFull then some { cause := 0x15, info := 0x0F }
  else
    match myTranslate s xa with
    | none => some { cause := 0x08, tval := xa }
    | some (pa, _) =>
      if classOf s pa ≠ .lpddr ∧ classOf s pa ≠ .peer then some { cause := 0x04, tval := xa }
      else if !tenantOk s s.myTenant pa then some { cause := 0x1D, tval := xa }
      else none

/-- The command holds the next issue until its reads have returned and it is accepted. -/
def rowForm (op : JobOp) (n : Fin 16) (d a b : XReg) (s : State) : Out :=
  .next (notAhead (scoreboard [xref a, xref b, xref d] (notTwin fun s =>
    unlessTrap (rowCheck s (s.x a)) (fun s =>
      let c := commandOf op n.val d.val (s.x a) (s.x b) s
      (noteMine (s.x a) s).onMe fun k => { k with openHold := some (.row c) }) s)) s)

def execRowadd (n : Fin 16) (d a b : XReg) (s : State) : Out := rowForm .rowadd n d a b s
def execRowcommit (n : Fin 16) (d a b : XReg) (s : State) : Out := rowForm .rowcommit n d a b s
def execRowpause (n : Fin 16) (d a b : XReg) (s : State) : Out := rowForm .rowpause n d a b s

/-! ## Acceptance -/

/-- The result of a read that the command makes before it is accepted: bytes, a wait, a fault of the job, a trap. -/
inductive RowRead where
  | ok (bs : List Byte) (s : State)
  | wait
  | bad (f : JFault)
  | trap (t : TrapInfo)

/-- A plain load of the command (R369): only a missing translation traps (R131). A peer package is tested against the
membership bitmap as of the issue (R246). -/
def rowRead (c : Cmd) (va : Word) (n : Nat) (s : State) : RowRead :=
  let bad := fun (kind : Nat) (a : Word) => RowRead.bad { kind := kind, addr := a.toNat % 2 ^ 56 }
  match check (s.onTenant c.tenant fun t => { t with members := c.members }) va .rd 0x08 with
  | .trap t =>
    if t.cause = 0x08 then .trap t
    else bad (if t.cause = 0x0A then 0x07 else if t.cause = 0x04 then 0x08 else 0x09) va
  | .ok p =>
    let ps := [pieceOf va n p]
    if !piecesReady s s.cur ps then .wait
    else
      match readPieces s.cur ps s with
      | (bs, none, s) => .ok bs s
      | (_, some g, _) => bad 0x0A g

/-- What a command works on: its table, and for a `rowadd` its row, unit and staging slot. -/
structure RowWork where
  table : TableRange
  row : Nat := 0
  seq : Nat := 0
  channel : Option Nat := none
  slot : Option Nat := none
  bad : Option JFault := none

/-- The work of a `rowadd` on a row, which the TLB of its sender leads to its unit. -/
def addWork (s : State) (u tenant desc : Nat) (t : Table) (row seq : Nat) : RowWork :=
  let pa := match translateVa s u tenant (BitVec.ofNat 64 (t.rowAddr row)) with
    | some (pa, _) => pa
    | none => 0
  { table := t.range desc, row := row, seq := seq, channel := some (unitOf s pa),
    slot := if t.defer then freeSlot s desc (rowChannel s pa) t else none }

/-- The command as its accesses are made at a unit. -/
def Cmd.atUnit (c : Cmd) (u : Nat) : Cmd := { c with unit := some u }

/-- The unit of a row. -/
def rowUnit (s : State) (tenant : Nat) (t : Table) (row : Nat) : Nat :=
  match walk s tenant (BitVec.ofNat 64 (t.rowAddr row)) with
  | some (pa, _) => unitOf s pa
  | none => 0

/-- The row or slot that a `rowadd` owns, where its record has named one; the rows and slots of the contributions that a
`rowcommit` owns, where its table is known (R128, R370). -/
def ownRows (c : Cmd) (w : RowWork) (t : Table) (s : State) : JobM Unit :=
  match c.op with
  | .rowadd =>
    match w.bad, w.channel with
    | none, some u =>
      if !t.defer then jown (c.atUnit u) true (t.rowAddr w.row) t.rbytes
      else match w.slot with
        | some i => jown (c.atUnit u) true (t.slotVa (u % 144) i) (64 + t.rbytes)
        | none => pure ()
    | _, _ => pure ()
  | .rowcommit =>
    if w.bad.isSome then pure ()
    else ((contributions s c.tenant w.table.desc t).filter (·.step = t.step)).forM fun g => do
      jown (c.atUnit (rowUnit s c.tenant t g.row)) true (t.rowAddr g.row) t.rbytes
      jown (c.atUnit g.at_.channel) true g.va (64 + t.rbytes)
  | _ => pure ()

/-- What a computation of a job adds to its ownership. -/
def ownsOf (m : JobM Unit) (s : State) : List Own := ((m.run { s := s }).run).2.owns

/-- The ownership of a command of this package: its descriptor and record, and the rows (R370). -/
def rowOwns (c : Cmd) (w : RowWork) (t : Table) (s : State) : List Own :=
  ownsOf (do
    jown c (c.op = .rowcommit) t.va 64
    if c.op = .rowadd then jown c false c.xb.toNat (64 + t.rbytes) else pure ()
    ownRows c w t s) s

/-- The pieces of a parked load that is a look-up. -/
def lookUpPieces (c : Ctx) : List Piece :=
  match c.slot, c.wait with
  | .parked, some (.load _ _ _ p) => [p]
  | .parked, some (.vload _ ps) | .parked, some (.gather _ _ ps) => ps
  | _, _ => []

/-- The look-ups that a pause alone holds (R134): they have arrived at their units. -/
def heldLookUps (s : State) : List LookUp :=
  (s.ctxs.flatMap fun (x, c) =>
    let ps := lookUpPieces c
    (if !ps.isEmpty && piecesReady s x ps && !lookupReady s x ps then [lookUpOf s x] else [])
      ++ (c.landing.filter fun (_, e) => entryReaches s x e && !entryArrives s x e).map fun (_, e) => entryLookUp s x e)
    ++ s.fabric.waiting.filterMap fun m => match m.payload with
      | .read a n => if s.pausedAt (homeOffset a) n then some { msg := some m } else none
      | _ => none

/-- A job of the units joins their queues, behind the look-ups that a pause holds there (R134). -/
def queueRow (job : Job) (w : RowWork) (remote : Option RemoteRow) (s : State) : State :=
  let j : MsuJob :=
    { job := job, table := w.table, row := w.row, seq := w.seq, channel := w.channel, slot := w.slot, remote := remote,
      after := heldLookUps s }
  { s with msu := { s.msu with jobs := s.msu.jobs ++ [j] } }

/-- A command that has made its reads is accepted: id, record, ownership, reply. -/
def acceptRow (c : Cmd) (w : RowWork) (t : Table) (s : State) : State :=
  let (job, s) := openJob c (rowOwns c w t s) (w.bad.map (c.xa.toNat, ·)) s
  reply c job.id (queueRow job w none s)

/-- The first page of a range that does not translate. -/
def untranslated (s : State) (va : Word) (n : Nat) : Option Word := (pageStarts va n).find? fun a => (myTranslate s a).isNone

/-- The checks of R131 once the descriptor is read. -/
def rowChecked (c : Cmd) (desc : Nat) (t : Table) (s : State) : State :=
  let trap := fun (cause : Nat) (v : Word) (s : State) => takeTrap { cause := cause, tval := v } s
  if !t.ok then trap 0x04 c.xa s
  else
    match c.op with
    | .rowadd =>
      if c.xb.toNat % 64 ≠ 0 then trap 0x04 c.xb s
      else
        match rowRead c c.xb 16 s with
        | .trap i => takeTrap i s
        | .wait => s
        | .bad f => acceptRow c { table := t.range desc, channel := some (unitOf s desc), bad := some f } t s
        | .ok bs s =>
          let row := field bs 0 8
          if t.rows ≤ row then trap 0x04 c.xb s
          else
            match untranslated s c.xb (64 + t.rbytes) <|> untranslated s (BitVec.ofNat 64 (t.rowAddr row)) 1 with
            | some a => trap 0x08 a s
            | none => acceptRow c (addWork s s.myTlb c.tenant desc t row (field bs 8 8)) t s
    | .rowpause => if c.xb.toNat / 2 ≠ 0 then trap 0x04 c.xb s else acceptRow c { table := t.range desc } t s
    | _ => acceptRow c { table := t.range desc } t s

/-- A held command goes on: earlier stores performed, a job record free, its reads returned. -/
def rowGoesOn (c : Cmd) (s : State) : State :=
  let desc := ((myTranslate s c.xa).map (·.1)).getD 0
  if !s.storesDone s.cur ∨ behindOther s c ∨ 32 ≤ s.me.jobs.length then s
  else
    match rowRead c c.xa 64 s with
    | .trap t => takeTrap t s
    | .wait => s
    | .bad f =>
      let t := tableOf c.xa.toNat []
      acceptRow c { table := t.range desc, channel := some (unitOf s desc), bad := some f } t s
    | .ok bs s => rowChecked c desc (tableOf c.xa.toNat bs) s

/-! ## Accesses at the home of the table -/

/-- A piece read or written at its home. -/
def homePiece (p : Piece) : Piece := { p with nc := p.nc || rangeOf p.pa = .peer }

def hread (c : Cmd) (va n : Nat) : JobM (List Byte) := do
  let j ← get
  match jobPieces j.s c .rd (pageParts va n) with
  | .error f => throw f
  | .ok ps => jobReadPieces c (ps.map homePiece)

/-- A store that is performed at its home. -/
def homeStore (st : Store) : Store := if rangeOf st.pa = .peer then { st with nc := false, atHome := true } else st

def hwrite (c : Cmd) (va : Nat) (bs : List Byte) : JobM Unit := do
  jwrite c va bs
  modify fun j => { j with out := j.out.map homeStore }

/-- An address lies in the LPDDR6 class of the home of a descriptor. -/
def atHomeOf (desc pa : Nat) : Bool :=
  rangeOf pa = rangeOf desc && (rangeOf pa = .lpddr || (rangeOf pa = .peer && peerPackage pa = peerPackage desc))

/-- The physical address of a row or slot, all of which must lie in the LPDDR6 class of the table's home (R130, R369). -/
def homeAddr (c : Cmd) (desc va n : Nat) : JobM Nat := do
  match jobPieces (← get).s c .rw (pageParts va n) with
  | .error f => throw f
  | .ok ps =>
    match ps.find? fun p => !atHomeOf desc p.pa with
    | some p => jfail 0x08 p.va.toNat
    | none => pure ((ps.head?.map (·.pa)).getD 0)


/-! ## Arithmetic (R132, R133) -/

/-- Elements of a row. -/
def rowElems (t : Table) (bs : List Byte) : List Nat := bytesElems (stepWidth t.ety) bs

/-- row[e] + delta[e], rounded into ETY, or modulo 2^32. -/
def addElem (t : Table) (a b : Nat) : Nat :=
  if t.ety = 4 then (a + b) % 2 ^ 32
  else roundX (stepTy t.ety) .rne false (addX .rne (toX (stepTy t.ety) a) (toX (stepTy t.ety) b))

/-- acc + c[e] in FP32, or modulo 2^32. -/
def accElem (t : Table) (acc e : Nat) : Nat :=
  if t.ety = 4 then (acc + e) % 2 ^ 32
  else roundX .f32 .rne false (addX .rne (toX .f32 acc) (toX (stepTy t.ety) e))

/-- row[e] + acc, rounded into ETY. -/
def commitElem (t : Table) (row acc : Nat) : Nat :=
  if t.ety = 4 then (row + acc) % 2 ^ 32
  else roundX (stepTy t.ety) .rne false (addX .rne (toX (stepTy t.ety) row) (toX .f32 acc))

/-! ## Jobs -/

/-- The update record of a `rowadd` from byte `n` on: in memory, or in the command of another package. -/
def rowRecord (j : MsuJob) (t : Table) (n : Nat) : JobM (List Byte) :=
  match j.remote with
  | some r => pure ((List.range (64 + t.rbytes - n)).map fun i => r.record.getD (n + i) 0)
  | none => jread j.job.cmd (j.job.cmd.xb.toNat + n) (64 + t.rbytes - n)

/-- `rowadd` with DEFER = 0: the row is updated as one access. -/
def addRowJob (j : MsuJob) (t : Table) : JobM Unit := do
  let c := j.job.cmd
  let d ← rowRecord j t 64
  let va := t.rowAddr j.row
  let _ ← homeAddr c j.table.desc va t.rbytes
  let r ← hread c va t.rbytes
  hwrite c va (elemBytes (stepWidth t.ety) (((rowElems t r).zip (rowElems t d)).map fun (a, b) => addElem t a b))

/-- `rowadd` with DEFER = 1: the contribution goes into its slot, the lowest free one of the row's channel (R369). -/
def stageJob (j : MsuJob) (t : Table) : JobM Staged := do
  let s := (← get).s
  let c := j.job.cmd
  let desc := j.table.desc
  let pa ← homeAddr c desc (t.rowAddr j.row) t.rbytes
  let ch := rowChannel s pa
  let pkg := (j.remote.map (·.package)).getD s.fabric.package
  match j.slot <|> freeSlot s desc ch t with
  | none => jfail 0x0C t.va
  | some i => do
    jcheck (!(contributions s c.tenant desc t).any fun g =>
      g.row = j.row && g.step = t.step && g.pkg = pkg && g.seq = j.seq) 0x0E c.xb.toNat
    let r ← rowRecord j t 0
    let va := t.slotVa ch i
    let _ ← homeAddr c desc va (64 + t.rbytes)
    hwrite c va (r.take 16 ++ natLe 2 pkg ++ (r.drop 18).take 6 ++ natLe 8 t.step ++ r.drop 32)
    pure { desc := desc, channel := ch, slot := i }

/-- Contributions in ascending (package, SEQ). -/
def insertStaged (g : Contribution) : List Contribution → List Contribution
  | [] => [g]
  | h :: rest =>
    if h.pkg < g.pkg ∨ (h.pkg = g.pkg ∧ h.seq ≤ g.seq) then h :: insertStaged g rest else g :: h :: rest

/-- Applies the contributions of one row, at the row's unit. -/
def commitRow (c : Cmd) (t : Table) (gs : List Contribution) (row : Nat) : JobM Unit := do
  let c := c.atUnit (rowUnit (← get).s c.tenant t row)
  let mine := (gs.filter (·.row = row)).foldl (fun l g => insertStaged g l) []
  let n := t.rbytes / stepWidth t.ety
  let acc ← mine.foldlM (fun acc g => do
    let d ← hread c (g.va + 64) t.rbytes
    pure ((acc.zip (rowElems t d)).map fun (a, e) => accElem t a e)) (List.replicate n 0)
  let r ← hread c (t.rowAddr row) t.rbytes
  hwrite c (t.rowAddr row) (elemBytes (stepWidth t.ety) (((rowElems t r).zip acc).map fun (a, b) => commitElem t a b))

/-- The heads of the filled slots. A ROW that a store has put outside the table is a fault (log entry 27). -/
def readSlots (c : Cmd) (t : Table) (gs : List Staged) : JobM (List Contribution) :=
  gs.mapM fun g => do
    let bs ← hread (c.atUnit g.channel) (t.slotVa g.channel g.slot) 64
    let k := contribution t g bs
    jcheck (k.step ≠ t.step || k.row < t.rows) 0x03 k.va
    pure k

/-- Writes STEP, through the descriptor's address or, for a command of another package, where it lies. -/
def writeStep (j : MsuJob) (t : Table) : JobM Unit :=
  let bs := natLe 8 ((t.step + 1) % 2 ^ 64)
  match j.remote with
  | none => hwrite j.job.cmd (t.va + 16) bs
  | some _ => modify fun q => { q with out := q.out ++ [{ pa := j.table.desc + 16, data := bs }] }

/-- `rowcommit`: rows in ascending order, then STEP advances. Answers the slots that it frees. -/
def commitJob (j : MsuJob) (t : Table) : JobM (List Staged) := do
  let c := j.job.cmd
  jcheck (c.xb.toNat = t.step) 0x0D t.va
  let all ← readSlots c t (stagedOf (← get).s j.table.desc)
  let gs := all.filter (·.step = t.step)
  (gs.foldl (fun l g => nadd l g.row) []).forM (commitRow c t gs)
  writeStep j t
  pure (gs.map (·.at_))

/-- The table of a command, read by the job. -/
def tableJob (j : MsuJob) : JobM Table := do
  let c := j.job.cmd
  let bs ← match j.remote with
    | none => hread c c.xa.toNat 64
    | some _ => jobReadPieces c [{ va := c.xa, pa := j.table.desc, n := 64 }]
  let t := tableOf c.xa.toNat bs
  jcheck (t.ok && (c.op ≠ .rowadd || j.row < t.rows)) 0x03 t.va
  pure t

/-- The units of this package know a table from a command on it. -/
def noteTable (tenant desc : Nat) (t : Table) (s : State) : State :=
  if rangeOf desc = .peer then s
  else
    let k : KnownTable := { tenant := tenant, desc := desc, base := t.base, rows := t.rows, rbytes := t.rbytes,
                            hot := t.hot, hotn := t.hotn }
    { s with msu := { s.msu with tables := k :: s.msu.tables.filter (·.desc ≠ desc) } }

/-- The pause or release of a table; its replicas are invalidated, those that are being made too (R134). -/
def pauseTable (c : Cmd) (desc : Nat) (t : Table) (s : State) : State :=
  if c.xb.toNat = 1 then
    if s.msu.paused.any (·.desc = desc) then s
    else
      { s with msu := { s.msu with
          paused := s.msu.paused ++ [{ tenant := c.tenant, desc := desc, base := t.base, bytes := t.rows * t.rbytes }]
          hot := s.msu.hot.map fun h =>
            if inRows s c.tenant t.base (t.rows * t.rbytes) h.pa h.bytes then { h with replica := false, copying := false } else h } }
  else { s with msu := { s.msu with paused := s.msu.paused.filter (·.desc ≠ desc) } }

/-- A `rowadd` of a paused table: it is set aside until the release (R134). -/
def rowPaused (s : State) (j : MsuJob) : Bool := j.job.cmd.op = .rowadd && s.msu.paused.any (·.desc = j.table.desc)

/-- The units that a job uses. -/
def jobUnits (s : State) (j : MsuJob) : List Nat :=
  match j.channel with
  | some u => [u]
  | none => tableUnits s j.job.cmd.tenant j.table

/-- An earlier command of a unit that the job uses has still to run there: a unit runs its jobs in arrival order (R369). -/
def unitBusy (s : State) (k : Nat) (j : MsuJob) : Bool :=
  (s.msu.jobs.take k).any fun i =>
    i.due.isNone && !rowPaused s i && (jobUnits s i).any fun u => (jobUnits s j).contains u

/-- The bytes that a look-up has still to read, as physical ranges. -/
def lookUpLeft (s : State) (l : LookUp) : List (Nat × Nat) :=
  let ranges := fun (ps : List Piece) => ps.map fun p => (p.pa, p.n)
  match l.msg with
  | some m =>
    match m.payload with
    | .read a n => if s.fabric.waiting.contains m then [(homeOffset a, n)] else []
    | _ => []
  | none =>
    match s.resident l.tag with
    | none => []
    | some x =>
      match l.entry with
      | some num => ((s.ctx x).landing.filter fun (_, e) => e.num = num && e.st = .inFlight && e.got.isNone).flatMap
          fun (_, e) => ranges e.ps
      | none => if (s.ctx x).slot = .parked ∧ some (s.ctx x).parkedAt = l.parked then ranges (lookUpPieces (s.ctx x)) else []

/-- A look-up that a pause held at the unit before the command arrived, and that no pause holds any more, has still to read what
the command writes: the held requests are released in arrival order (R134). -/
def behindLookUp (s : State) (j : MsuJob) : Bool :=
  j.after.any fun l => (lookUpLeft s l).any fun (pa, n) =>
    !s.pausedAt pa n && j.job.owns.any fun o => o.excl && o.lo < pa + n && pa ≤ o.hi

/-- A gang stop of its tenant in this package (R278), a pause, a look-up before it, the unit, an earlier job, a copy of the row
to its replicas or a link holds the k-th command. -/
def rowHeld (s : State) (k : Nat) (j : MsuJob) : Bool :=
  jobStopped s j.job || rowPaused s j || behindLookUp s j || unitBusy s k j || jobHeld s j.job
    || (j.job.owns.any fun o => o.excl && s.rowCopying o.lo (o.hi + 1 - o.lo))
    || linkWaits s true j.table.desc 64

/-- The k-th command can run at its unit now. -/
def rowArrives (s : State) (k : Nat) : Bool :=
  match s.msu.jobs[k]? with
  | some j => j.due.isNone && !rowHeld s k j
  | none => false

/-- Ends the k-th command with a fault or without. -/
def endRow (k : Nat) (j : MsuJob) (f : Option JFault) (s : State) : State :=
  { s with msu := { s.msu with jobs := s.msu.jobs.set k { j with due := some s.cycle, fault := f } } }

/-- Runs a part of the k-th command: a fault ends it, else it goes on. -/
def rowPart {α : Type} (k : Nat) (j : MsuJob) (m : JobM α) (go : α → State → State) (s : State) : State :=
  match runPart j.job m s with
  | (.error f, s) => endRow k j (some f) s
  | (.ok a, s) => go a s

/-- The k-th command runs at the units of its table. -/
def runAtHome (k : Nat) (j : MsuJob) (s : State) : State :=
  rowPart k j (tableJob j) (fun t s =>
    let c := j.job.cmd
    let desc := j.table.desc
    let s := noteTable c.tenant desc t s
    match c.op with
    | .rowadd =>
      if t.defer then
        rowPart k j (stageJob j t) (fun g s =>
          endRow k j none { s with msu := { s.msu with staged := s.msu.staged ++ [g] } }) s
      else rowPart k j (addRowJob j t) (fun _ s => endRow k j none s) s
    | .rowcommit =>
      rowPart k j (commitJob j t) (fun gs s =>
        endRow k j none { s with msu := { s.msu with staged := s.msu.staged.filter fun g => !gs.contains g } }) s
    | _ => endRow k j none (pauseTable c desc t s)) s

/-- The number of an operation in a message. -/
def rowCode : JobOp → Nat
  | .rowadd => 0
  | .rowcommit => 1
  | _ => 2

/-- The k-th command goes to the package of its table as a message, with its record, and runs there; one that does not get there
is answered with poison (R244, R369; log entry 27). -/
def sendRow (k : Nat) (j : MsuJob) (s : State) : State :=
  let c := j.job.cmd
  let desc := j.table.desc
  rowPart k j (if c.op = .rowadd then jread c c.xb.toNat (64 + j.table.rbytes) else pure []) (fun r s =>
    let (lost, s) := request c.tenant desc (.row (rowCode c.op) j.job.id (homeOffset desc) c.xb r) s
    if lost then endRow k j (some { kind := 0x0A, addr := c.xa.toNat % 2 ^ 56 }) s else runAtHome k j s) s

/-- MSU_COMMAND_ARRIVAL: the k-th command reaches its unit and runs. -/
def runRow (k : Nat) (s : State) : State :=
  if !rowArrives s k then s
  else
    match s.msu.jobs[k]? with
    | none => s
    | some j =>
      let j : MsuJob := { j with job := { j.job with cmd := { j.job.cmd with unit := j.channel } } }
      match j.job.bad with
      | some (_, f) => endRow k j (some f) s
      | none => if j.remote.isNone ∧ rangeOf j.table.desc = .peer then sendRow k j s else runAtHome k j s

def execMsuCommandArrival (k : Nat) (s : State) : Out := .next (runRow k s)

/-- MSU_JOB_COMPLETE: the units have finished the k-th command: its record is entered, or the package that sent it has the
acknowledgement (R369). -/
def execMsuJobComplete (k : Nat) (s : State) : Out :=
  .next (match s.msu.jobs[k]? with
    | none => s
    | some j =>
      if j.due.isNone then s
      else
        let s := { s with msu := { s.msu with jobs := s.msu.jobs.eraseIdx k } }
        flushAll (match j.remote with
          | none => recordJob j.job j.fault s
          | some r =>
            sendFab r.package j.job.cmd.tenant (.rowDone r.job ((j.fault.map (·.kind)).getD 0) ((j.fault.map (·.addr)).getD 0)) s))

/-! ## Commands of other packages (R130, R369) -/

/-- The first core of a tenant's sub-mesh: accesses for another package's command are made under its tenant. -/
def firstCore (t : Tenant) : Nat := t.cy0 * 128 + t.cx0 * 4

/-- The operation that a message names. -/
def rowOp (fn : Nat) : JobOp := if fn = 0 then .rowadd else if fn = 1 then .rowcommit else .rowpause

/-- A command of another package on a table of this one joins the queues of the units. Its package has made the checks of
issue; what they would have trapped on is a fault here (log entry 27). -/
def acceptRemote (tenant : Nat) (r : RemoteRow) (fn desc : Nat) (arg : Word) (s : State) : State :=
  if rangeOf desc ≠ .lpddr ∨ classOf s desc ≠ .lpddr ∨ desc % 64 ≠ 0 then sendFab r.package tenant (.rowDone r.job 0x08 desc) s
  else
    let c : Cmd :=
      { op := rowOp fn, tag := firstCore (s.tenant tenant) * 4096, tenant := tenant, d := 0, xa := BitVec.ofNat 64 desc,
        xb := arg, cr := {}, issued := s.cycle, members := (s.tenant tenant).members }
    let s := checkTags tenant desc 64 s
    let t := tableOf desc (memReadList s.mem desc 64)
    let bad := fun (kind : Nat) => some { kind := kind, addr := desc : JFault }
    let w : RowWork := if c.op = .rowadd then
        addWork s (msuTlb (channelOf s desc)) tenant desc t (field r.record 0 8) (field r.record 8 8)
      else { table := t.range desc }
    let w := { w with bad := if (firstPoison s false desc 64).isSome then bad 0x0A else if t.ok then none else bad 0x03 }
    let own : Own := { excl := c.op = .rowcommit, lo := desc, hi := desc + 63 }
    let job : Job := { id := 0, order := s.jobOrder, cmd := c, owns := own :: ownsOf (ownRows c w t s) s, bad := w.bad.map (desc, ·) }
    queueRow job w (some r) { s with jobOrder := s.jobOrder + 1 }

/-! ## Hot rows (R135) -/

/-- The window of a channel ends: rows above HOTN are copied, rows below half of it dropped, the counts start again. -/
def endWindow (channel : Nat) (s : State) : State :=
  let mine := fun (h : HotRow) => rowChannel s h.pa = channel
  let kept := s.msu.hot.filterMap fun h =>
    if !mine h then some h
    else if h.replica ∨ h.copying then
      (if h.count < h.hotn / 2 ∧ !h.copying then none else some { h with count := 0 })
    else if h.hotn < h.count then some { h with count := 0, copying := true, since := s.cycle }
    else none
  let held := kept.filter mine
  let excess := held.length - 256
  let oldest := fun (l : List HotRow) => l.foldl (fun (r : Option HotRow) h =>
    match r with
    | none => some h
    | some b => if h.since < b.since then some h else some b) none
  let drop := (List.range excess).foldl (fun (l : List HotRow) _ =>
    match oldest l with
    | some h => l.filter (· ≠ h)
    | none => l) held
  { s with msu := { s.msu with hot := (kept.filter fun h => !mine h) ++ drop } }

def execHotWindowEnd (channel : Nat) (s : State) : Out :=
  if 144 ≤ channel then .fault (.noSuchUnit "HOT_WINDOW_END")
  else .next (if s.cycle % 65536 = 0 then endWindow channel s else s)

/-- REPLICA_COPY_COMPLETE: the copy of the row at a physical address is complete; held writes are performed, which
invalidates the replicas again. -/
def execReplicaCopyComplete (row : Nat) (s : State) : Out :=
  .next (flushAll { s with msu := { s.msu with hot := s.msu.hot.map fun h =>
    if h.pa = row ∧ h.copying then { h with copying := false, replica := true } else h } })

/-! ## Re-encryption (R137) -/

/-- REENCRYPT_COMPLETE: the major counter of the page has advanced, its minor counters are zero, held accesses go on. -/
def execReencryptComplete (page : Nat) (s : State) : Out :=
  .next (if !nmem s.reenc page then s
    else flushAll { s with
      reenc := ndel s.reenc page
      encMajor := fput s.encMajor page (((fget s.encMajor page).getD 0 + 1) % 2 ^ 64)
      encMinor := s.encMinor.filter fun (b, _) => b / 64 ≠ page })

end Sys2Proof.Machine
end

