-- ==== Sys2Proof/Machine/VectorMem.lean ====
section
/-! DEFINITION. The vector loads and stores of page 3 (R401, R402, R404) and what completes the parked ones. -/

namespace Sys2Proof.Machine

/-- Checks accesses in their order: their pieces, or the first trap. -/
def checkPieces (s : State) (acc : Acc) (cause : Nat) : List (Word × Nat) → Checked (List Piece)
  | [] => .ok []
  | (va, n) :: rest =>
    match check s va acc cause with
    | .trap t => .trap t
    | .ok p =>
      match checkPieces s acc cause rest with
      | .trap t => .trap t
      | .ok ps => .ok (pieceOf va n p :: ps)

/-- Checks the parts of a register in a page: class before tenant, every trap with the first address in the page (R401). -/
def checkVectorPage (s : State) (acc : Acc) (cause : Nat) (va n : Nat) : Checked (List Piece) :=
  let parts := (List.range (n / 64)).map fun i => (BitVec.ofNat 64 (va + 64 * i), 64)
  let traps := parts.filterMap fun (p, _) => match check s p acc cause with
    | .trap t => some t
    | .ok _ => none
  match traps.find? (·.cause ≠ 0x1D) <|> traps.head? with
  | some t => .trap { t with tval := BitVec.ofNat 64 va }
  | none => checkPieces s acc cause parts

/-- Checks the pages of a register in memory, ascending. -/
def checkVector (s : State) (acc : Acc) (cause : Nat) : List (Nat × Nat) → Checked (List Piece)
  | [] => .ok []
  | (va, n) :: rest =>
    match checkVectorPage s acc cause va n with
    | .trap t => .trap t
    | .ok ps =>
      match checkVector s acc cause rest with
      | .trap t => .trap t
      | .ok qs => .ok (ps ++ qs)

/-- The element accesses of a gather or scatter (R404). -/
def elementsOf (ty : Ty) (base : Word) (idx : VecReg) : List (Word × Nat) :=
  let n := ty.width / 8
  (elems ty idx).map fun i => (base + BitVec.ofNat 64 (i * n), n)

/-- Notes the translations of pieces. -/
def notePieces (ps : List Piece) (s : State) : State := ps.foldl (fun s p => noteMine p.va s) s

/-- Runs `body` with the checked pieces of an access, or traps. -/
def withPieces (r : Checked (List Piece)) (body : List Piece → State → State) (s : State) : State :=
  match r with
  | .trap t => takeTrap t s
  | .ok ps => body ps (notePieces ps s)

/-- A page-3 memory form: run-ahead, scoreboard, claims and reservations (R388). -/
def vecMem (b : XReg) (vs : List VArg) (body : List Nat → State → State) (s : State) : Out :=
  .next (notAhead (fun s =>
    let ns := vs.map s.me.vnum
    scoreboard (vs.flatMap vargRefs ++ [xref b] ++ ns.map vref) (vectors ns (body ns)) s) s)

/-- R401: the scope of `vld` adds no ordering. -/
def execVld (_scope : Scope) (d : VArg) (b : XReg) (e : Int) (s : State) : Out :=
  vecMem b [d] (fun ns s =>
    let a := effAddr (s.x b) e
    if a.toNat % 64 ≠ 0 then takeTrap { cause := 0x04, tval := a } s
    else withPieces (checkVector s .rd 0x08 (pageParts a.toNat 512)) (fun ps s => parkOn (.vload (ns.getD 0 0) ps) s) s) s

/-- Stores that one instruction issues together at a virtual address, at one place of program order; a twin's are
compared first (R290). -/
def storesOut (va : Word) (bs : List Byte) (sts : List Store) (s : State) : State :=
  let n := s.me.seq
  let sts := sts.map ({ · with seq := n })
  let s := s.onMe fun c => { c with seq := c.seq + 1 }
  if s.me.twin then twinEmit 0 bs.length va.toNat bs (.store sts) s
  else sts.foldl (fun s st => issueStore s.cur st s) s

/-- The stores of pieces with the bytes of a register. -/
def pieceStores : List Piece → List Byte → List Store
  | [], _ => []
  | p :: ps, bs => { pa := p.pa, data := bs.take p.n, nc := p.nc } :: pieceStores ps (bs.drop p.n)

def execVst (_scope : Scope) (v : VArg) (b : XReg) (e : Int) (s : State) : Out :=
  vecMem b [v] (fun ns s =>
    let a := effAddr (s.x b) e
    if a.toNat % 64 ≠ 0 then takeTrap { cause := 0x04, tval := a } s
    else
      withPieces (checkVector s .wr 0x09 (pageParts a.toNat 512)) (fun ps s =>
        let bs := vecBytes (s.me.vr (ns.getD 0 0))
        retire 0 (storesOut a bs (pieceStores ps bs) s)) s) s

/-- TY 6 and 7 are illegal (R404). -/
def execVldx (_scope : Scope) (ty : Ty) (d : VArg) (b : XReg) (a : VArg) (s : State) : Out :=
  if ty.width = 4 then .next (illegalBase s)
  else vecMem b [d, a] (fun ns s =>
    let base := s.x b
    if base.toNat % (ty.width / 8) ≠ 0 then takeTrap { cause := 0x04, tval := base } s
    else
      withPieces (checkPieces s .rd 0x08 (elementsOf ty base (s.me.vr (ns.getD 1 0))))
        (fun ps s => parkOn (.gather ty (ns.getD 0 0) ps) s) s) s

/-- The element writes of a scatter are separate events in ascending element number (R404). -/
def scatter (va : List (Word × Nat)) (sts : List Store) (s : State) : State :=
  (va.zip sts).foldl (fun s (a, st) => storesOut a.1 st.data [st] s) s

def execVstx (_scope : Scope) (ty : Ty) (v : VArg) (b : XReg) (a : VArg) (s : State) : Out :=
  if ty.width = 4 then .next (illegalBase s)
  else vecMem b [v, a] (fun ns s =>
    let base := s.x b
    if base.toNat % (ty.width / 8) ≠ 0 then takeTrap { cause := 0x04, tval := base } s
    else
      let as := elementsOf ty base (s.me.vr (ns.getD 1 0))
      withPieces (checkPieces s .wr 0x09 as) (fun ps s =>
        retire 0 (scatter as (pieceStores ps (vecBytes (s.me.vr (ns.getD 0 0)))) s)) s) s

/-- Completes a parked vector read: poison traps and leaves the register as it is (R401, R404). -/
def completeVector (d : Nat) (ps : List Piece) (s : State) : State :=
  let (bs, poison, s) := readPieces s.cur ps (countLookup ps s)
  match poison with
  | some g => enterTrap { cause := 0x0C, tval := g } false s
  | none => completePark (s.onMe (·.land (.v d allBits (bytesVec bs))))

end Sys2Proof.Machine
end

