-- ==== Sys2Proof/Machine/System.lean ====
section
/-! DEFINITION. The control registers (R86 to R90, R355, R356), `snap` and `tlbinv`, the end of open-ended holds (R416),
and the timed and returning events of a context and its core (R39, R42, R43, R45). -/

namespace Sys2Proof.Machine

/-! ## Control registers -/

/-- Word of c.status (R88). -/
def statusOfCtx (c : Ctx) : Word :=
  BitVec.ofNat 64 (c.twin.toNat * 128 + c.specOn.toNat * 64 + c.heavy.toNat * 32 + c.ppriv.toNat * 2 + c.priv.toNat)

/-- The word that `mfc` reads. -/
def readCr (s : State) : CReg → Word
  | .status => statusOfCtx s.me
  | .core => BitVec.ofNat 64 (coreOf s.cur)
  | .slot => BitVec.ofNat 64 (s.me.inc % 256 * 256 + slotOf s.cur)
  | .cycle => BitVec.ofNat 64 s.cycle
  | .tenant => BitVec.ofNat 64 s.myTenant
  | .fmt => s.me.cr.fmt
  | .scl => s.me.cr.scl
  | .seed => s.me.cr.seed
  | .rot => BitVec.ofNat 64 (s.core (coreOf s.cur)).rot.toNat
  | .stl => s.me.cr.stl
  | .split => BitVec.ofNat 64 (s.core (coreOf s.cur)).spad
  | .vpool => BitVec.ofNat 64 (s.cluster (clusterOf (coreOf s.cur))).vpool
  | .dist => s.me.cr.dist
  | .steal => (s.tenant s.myTenant).steal
  | .lsmode => s.me.cr.lsmode
  | .lslog => s.me.cr.lslog
  | .cg => cgWord s.me.cg
  | .cgdl => s.me.cr.cgdl
  | .bardl => s.me.cr.bardl
  | .tvec => s.me.cr.tvec
  | .epc => s.me.cr.epc
  | .cause => s.me.cr.cause
  | .tval => s.me.cr.tval
  | .twin => (s.tenant s.myTenant).twin
  | .ffneps => s.me.cr.ffneps
  | .ffnviol => s.me.cr.ffnviol

/-- The registers that user level has no access to. -/
def CReg.supervisor : CReg → Bool
  | .rot | .split | .vpool | .steal | .tvec | .epc | .cause | .tval | .twin => true
  | _ => false

/-- The registers that no level writes. -/
def CReg.readOnly : CReg → Bool
  | .core | .slot | .cycle | .tenant | .cg => true
  | _ => false

/-- The access that the table marks "—" traps (R87). -/
def crAccess (c : CReg) (body : State → State) (s : State) : State :=
  if CReg.supervisor c && !s.me.priv then takeTrap { cause := 0x02, tval := BitVec.ofNat 64 c.code } s else body s

def execMfc (d : XReg) (c : CReg) (s : State) : Out :=
  .next (crAccess c (scoreboard [xref d] fun s => finishX d (readCr s c) s) s)

/-- A value written under the mask of a register's writable bits. -/
def masked (mask old v : Word) : Word := (old &&& ~~~mask) ||| (v &&& mask)

/-- Sets a control register of the context. -/
def setCr (f : CRegs → CRegs) (s : State) : State := s.onMe fun c => { c with cr := f c.cr }

/-- The physical range of a core's scratchpad between two sizes. -/
def spadRange (core a b : Nat) : Nat × Nat :=
  (0xA0000000000 + core * 0x80000 + 32768 * Nat.min a b, 0xA0000000000 + core * 0x80000 + 32768 * Nat.max a b)

/-- The contexts with a full/empty request for a word of a range. -/
def feIn (s : State) (lo hi : Nat) : List CtxId :=
  (s.ctxs.filter fun (_, c) => c.slot = .parked && match c.wait with
    | some (.fe _ _ _ _ _ pa) => lo ≤ pa && pa < hi
    | _ => false).map (·.1)

/-- c.split changes: the words between the old and the new size read 0, are empty and clean; a context parked on a word
that is discarded is woken with a trap (R115). -/
def changeSplit (core n : Nat) (s : State) : State :=
  let old := (s.core core).spad
  let (lo, hi) := spadRange core old n
  let cur := s.cur
  let s := if n < old then
      (feIn s lo hi).foldl (fun s x =>
        let s := (feWithdraw x s).at x
        match s.me.wait with
        | some (.fe _ _ _ _ va _) => enterTrap { cause := 0x04, tval := va } false s
        | _ => s) s
    else s
  let s := s.at cur
  { (s.onCore core fun k => { k with spad := n }) with
    mem := s.mem.filter fun (a, _) => !(lo ≤ a && a < hi)
    feFull := s.feFull.filter fun w => !(lo ≤ w * 8 && w * 8 < hi)
    poison := s.poison.filter fun g => !(lo ≤ g * 32 && g * 32 < hi) }

/-- The write of `mtc` (R355, R356). A new steal domain starts its circles after each core's own number (R59). -/
def writeCr (c : CReg) (v : Word) (s : State) : State :=
  let core := coreOf s.cur
  match c with
  | .status => s.onMe fun k => { k with ppriv := v.getLsbD 1 }
  | .core | .slot | .cycle | .tenant | .cg => s
  | .fmt => setCr (fun r => { r with fmt := masked 0xFFFFBFFF r.fmt v }) s
  | .scl => setCr (fun r => { r with scl := masked 0x00FFFFFFFFFFFFFC r.scl v }) s
  | .seed => setCr (fun r => { r with seed := v }) s
  | .rot => s.onCore core fun k => { k with rot := v.getLsbD 0 }
  | .stl => setCr (fun r => { r with stl := masked 1 r.stl v }) s
  | .split => changeSplit core (Nat.min 12 (bits v 0 4)) s
  | .vpool => s.onCluster (clusterOf core) fun k => { k with vpool := bits v 0 8 }
  | .dist => setCr (fun r => { r with dist := masked 0xFFFFFFFFFFFFF000 r.dist v }) s
  | .steal => (s.meshCores s.myTenant).foldl
      (fun s n => if (s.core n).stealAt.isSome then s.onCore n fun k => { k with stealAt := none } else s)
      (s.onTenant s.myTenant fun t =>
        { t with steal := (v &&& 0x00FFFFFFFFFFF000) ||| BitVec.ofNat 64 (Nat.min 4 (bits v 0 3)) })
  | .lsmode => setCr (fun r => { r with lsmode := masked 0xFFFFFFFF00000003 r.lsmode v }) s
  | .lslog => setCr (fun r => { r with lslog := masked 0x00FFFFFFFFFFFFFF r.lslog v }) s
  | .cgdl => setCr (fun r => { r with cgdl := masked 0xFFFFFFFF r.cgdl v }) s
  | .bardl => setCr (fun r => { r with bardl := masked 0xFFFFFFFF r.bardl v }) s
  | .tvec => setCr (fun r => { r with tvec := masked 0x00FFFFFFFFFFFFFE r.tvec v }) s
  | .epc => setCr (fun r => { r with epc := masked 0xFFFFFFFFFFFFFFFE r.epc v }) s
  | .cause => setCr (fun r => { r with cause := masked 0x1FFFF r.cause v }) s
  | .tval => setCr (fun r => { r with tval := v }) s
  | .twin => s.onTenant s.myTenant fun t =>
      { t with twin := (v &&& 0xFFFFFFFF00000000) ||| (if s.feature 5 then v &&& 1 else 0) }
  | .ffneps => setCr (fun r => { r with ffneps := masked 0xFFFFFFFF r.ffneps v }) s
  | .ffnviol => setCr (fun r => { r with ffnviol := masked 0xFFFFFFFF00000001 r.ffnviol v }) s

def execMtc (c : CReg) (v : XReg) (s : State) : Out :=
  if CReg.readOnly c || (c = .status && !s.me.priv) then .next (illegalBase s)
  else .next (notAhead (crAccess c (scoreboard [xref v] fun s =>
    let s' := writeCr c (s.x v) s
    match c with
    | .split => s'.onMe fun k => { k with openHold := some .split }
    | .vpool => s'.onMe fun k => { k with openHold := some .vpool }
    | _ => retire 0 s')) s)

/-! ## `snap`, `tlbinv` (R279, R306, R376, R386) -/

/-- The clusters of a tenant. -/
def tenantClusters (s : State) (tenant : Nat) : List Nat :=
  let t := s.tenant tenant
  (List.range clusterCount).filter fun c =>
    t.cx0 ≤ c % 16 && c % 16 < t.cx0 + t.cw && t.cy0 ≤ c / 16 && c / 16 < t.cy0 + t.ch && (fget s.tenants tenant).isSome

/-- A snapshot trigger on its way to every block of a tenant under a sequence number. -/
def spreadTrigger (tenant n : Nat) (s : State) : State :=
  s.post ((s.meshCores tenant).map (fun c => Instr.snapshotTriggerArrival (.core c) n)
    ++ (tenantClusters s tenant).map fun c => Instr.snapshotTriggerArrival (.cluster c) n)

/-- The sequence number of the next trigger or stop that the module issues (R306). -/
def State.nextSnap (s : State) : Nat := (s.snapSeq + 1) % 2 ^ 64

/-- A trigger that the module issues, under the next sequence number. -/
def sendTrigger (tenant : Nat) (s : State) : State := spreadTrigger tenant s.nextSnap { s with snapSeq := s.nextSnap }

def execSnap (s : State) : Out :=
  .next (notAhead (supervisor fun s => retire 0 (sendTrigger s.myTenant s)) s)

def execTlbinv (a b : XReg) (s : State) : Out :=
  .next (notAhead (supervisor (scoreboard [xref a, xref b] fun s =>
    s.onMe fun c => { c with openHold := some (.tlbAck (s.x a) (s.x b)) })) s)

/-- Drops the translations of a tenant whose leaf page holds a byte of the range (R386). -/
def dropTlb (tenant : Nat) (a b : Word) (s : State) : State :=
  if b = 0 then s
  else
    { s with tlb := s.tlb.filter fun e =>
        let n := 2 ^ pageBits e.level
        let lo := e.vpage * 65536 / n * n
        !(e.tenant = tenant && (2 ^ 56 ≤ b.toNat || (lo < a.toNat + b.toNat && a.toNat < lo + n))) }

/-! ## The end of open-ended holds (R416) -/

/-- The hold of a context can end now. An engine command's hold ends at its acceptance, that of `taken` with its log byte. -/
def holdEnds (s : State) (x : CtxId) : Bool :=
  let c := s.ctx x
  match c.openHold with
  | some (.row k) => s.storesDone x && !behindOther s k && c.jobs.length < 32 && match myTranslate (s.at x) k.xa with
      | some (pa, e) => piecesReady s x [{ va := k.xa, pa := pa, nc := pteNC e, n := 64 }]
      | none => true
  | some (.tlbAck ..) => s.storesDone x
  | some (.descriptor _ p _) => piecesReady s x [p]
  | some (.vrfree v n) => !(List.range n).any fun i => c.outstanding (.v (v + i))
  | some .split | some .vpool => true
  | _ => false

/-- OPEN_ENDED_HOLD_END. -/
def holdEnd (s : State) : State :=
  if !holdEnds s s.cur then s
  else
    match s.me.openHold with
    | some (.row c) => rowGoesOn c s
    | some (.tlbAck a b) => endHold (dropTlb s.myTenant a b s)
    | some (.descriptor d p i) => finishCgjoin d p i s
    | some (.vrfree v n) => freeRange v n endHold s
    | some .split | some .vpool => endHold s
    | _ => s

def execOpenEndedHoldEnd (x : CtxId) (s : State) : Out := onCtx "OPEN_ENDED_HOLD_END" x holdEnd s

/-! ## Timed events of a context and its core -/

/-- The writes of a context that land in this cycle or earlier. -/
def writesDue (s : State) (x : CtxId) : Bool := (s.ctx x).pend.any (·.due ≤ s.cycle)

/-- RESULT_WRITEBACK: in order of issue among those of one cycle (R43). -/
def writeback (s : State) : State :=
  s.onMe fun c =>
    let c' := (c.pend.filter (·.due ≤ s.cycle)).foldl (fun c p => c.land p.write) c
    { c' with pend := c.pend.filter (s.cycle < ·.due) }

def execResultWriteback (x : CtxId) (s : State) : Out := onCtx "RESULT_WRITEBACK" x writeback s

/-- The stall hold of a context has run out. -/
def holdOver (s : State) (x : CtxId) : Bool := (s.ctx x).hold ≠ 0 && (s.ctx x).hold ≤ s.cycle

/-- STALL_HOLD_EXPIRY (R42). -/
def execStallHoldExpiry (x : CtxId) (s : State) : Out :=
  onCtx "STALL_HOLD_EXPIRY" x (fun s => if holdOver s x then s.onMe fun c => { c with hold := 0 } else s) s

/-- A written issue mode waits for a position-0 cycle. -/
def modeDue (s : State) (core : Nat) : Bool := s.cycle % 16 = 0 && (s.core core).rot ≠ (s.core core).lend

/-- ROT_MODE_SWITCH (R39). -/
def execRotModeSwitch (core : Nat) (s : State) : Out :=
  onCoreEvent "ROT_MODE_SWITCH" core
    (fun s => if modeDue s core then s.onCore core fun k => { k with lend := k.rot } else s) s

/-! ## Returns (R45) -/

/-- A quit context leaves: its faulted records count as traps, then the slot empties (R52, R214). -/
def quitGone (s : State) : State :=
  let n := s.me.jobs.countP (·.fault.isSome)
  discard s.cur (s.count s.myTenant fun k => { k with trap := k.trap + n })

/-- What a parked context has asked for can return now. -/
def returnReady (s : State) (x : CtxId) : Bool :=
  let c := s.ctx x
  c.slot = .parked && match c.wait with
    | some (.load _ _ _ p) => loadReady s x p
    | some (.vload _ ps) | some (.gather _ _ ps) => lookupReady s x ps
    | some (.flrd _ pa) => flrdReady s x pa
    | some (.amo _ _ _ rl _ _ _ p) => !c.twin && amoReady s x rl p
    | some (.packet _ p _) => s.storesDone x && piecesReady s x [p]
    | some (.sendRead _ _ _ ps) => s.storesDone x && piecesReady s x ps
    | some (.join va pa seen) => !seen && piecesReady s x [{ va := va, pa := pa, n := 8 }]
    | some (.job id _) => recordDone c id
    | some (.jwait sel _) => selDone c sel
    | some .quitJobs | some .quitVote | some .quitEnd | some (.quitGone _) => quitReady s x
    | _ => false

/-- PLAIN_LOAD_RETURN: the data, the answer or the awaited completion reaches the parked context. -/
def loadReturn (s : State) : State :=
  if !returnReady s s.cur then s
  else
    match s.me.wait with
    | some (.load z aq d p) => completeLoad z aq d p s
    | some (.vload d ps) => completeVector d ps s
    | some (.gather _ d ps) => completeVector d ps s
    | some (.flrd va pa) => completeFlrd va pa s
    | some (.amo op w aq rl d v c p) => completeAmo op w aq rl d v c p s
    | some (.packet kind p ts) => completePacket kind p ts s
    | some (.sendRead dest ch hi ps) => completeSendRead dest ch hi ps s
    | some (.join va pa _) => readJoin va pa completePark s
    | some (.job ..) | some (.jwait ..) => wakeJobs s.cur s
    | some .quitJobs | some .quitVote | some .quitEnd => quitStep s
    | some (.quitGone _) => quitGone s
    | _ => s

def execPlainLoadReturn (x : CtxId) (s : State) : Out := onCtx "PLAIN_LOAD_RETURN" x loadReturn s

end Sys2Proof.Machine
end

