-- ==== Sys2Proof/Machine/Halt.lean ====
section
/-! DEFINITION. Halting under R275, the commands HALT, RESUME and KILL, gang stops, snapshots, the watchdog and lost
contexts (R269, R276 to R279, R286, R287, R306). -/

namespace Sys2Proof.Machine

/-! ## Halting (R275) -/

/-- Halts the context of the step, which meets the row: requests are withdrawn, a run-ahead is rolled back to its `cbr`,
the timers stop. -/
def haltAt (row : Nat) (s : State) : State :=
  let x := s.cur
  let s := if row = 3 then feWithdraw x s else if row = 5 then withdrawSend x s else s
  s.onMe fun c =>
    let c := (c.rollback (·.cbr) s.cycle).freeze s.cycle
    { c with
      slot := .halted, restart := row, stopPending := false
      wait := if row = 7 ∨ row = 9 then c.wait else none }

/-- `halt` (R339). -/
def execHalt (s : State) : Out :=
  .next (notAhead (supervisor fun s =>
    let s := haltAt 0 (s.onMe fun c => { c with pc := c.next })
    sendRecord s.cur { cause := 0 } s.me.pc 2 0 s) s)

/-! ## Commands (R276) -/

def setStat (core stat reason : Nat) (s : State) : State := s.onCore core fun k => { k with stat := stat, reason := reason }

def refuse (core reason : Nat) (s : State) : State := setStat core 3 reason s

/-- A halted or running context that the commands can halt. -/
def Ctx.runs (c : Ctx) : Bool := c.slot = .ready || c.slot = .parked

/-- HALT: at once, or when what the interruption waits for has ended. -/
def haltCommand (s : State) : State :=
  let core := coreOf s.cur
  let done := fun (s : State) => s.onMe fun c => { c with haltPending := false }
  if s.me.haltPending ∧ s.me.slot = .halted then setStat core 2 0 (done s)
  else if !s.me.runs then refuse core 1 (done s)
  else
    match haltRow s s.cur with
    | some row => setStat core 2 0 (haltAt row (done s))
    | none => setStat core 1 0 (s.onMe fun c => { c with haltPending := true })

/-- A command that had to wait to halt a context can go on. -/
def haltDue (s : State) (x : CtxId) : Bool :=
  let c := s.ctx x
  c.haltPending && (!c.runs || (haltRow s x).isSome)

def execHaltCommand (x : CtxId) (s : State) : Out := onCtx "HALT_COMMAND" x haltCommand s

/-- The context of the step parks again on a wait that an interruption left standing. -/
def parkAgain (s : State) : State := s.onMe fun c => { c with slot := .parked, parkedAt := s.cycle, probed := none }

/-- Returns the halted context of the step to its restart point (R276): it waits again where its row waits, presents again the
message that the `send` at its pc has read, or is ready at its pc (R373). -/
def resumeCtx (s : State) : State :=
  let row := s.me.restart
  let s := s.onMe fun c =>
    { c.thaw s.cycle with slot := .ready, restart := 0, gangHalted := false, readyAt := s.cycle + 1 }
  match s.me.wait with
  | some (.bar ..) => barRelease (parkAgain s)
  | some (.job ..) => wakeJobs s.cur (parkAgain s)
  | some (.submit ..) => parkAgain s
  | _ =>
    if row = 5 ∧ s.me.held.isSome ∧ s.me.heldAt = s.me.pc then
      offerHeld (parkAgain (s.onMe fun c => { c with wait := some .space }))
    else s

/-- RESUME. -/
def execResume (x : CtxId) (s : State) : Out :=
  onCtx "RESUME" x (fun s =>
    if s.me.slot = .halted then setStat (coreOf x) 2 0 (resumeCtx s) else refuse (coreOf x) 1 s) s

/-- CMD_REFUSED: an OP that is no command. -/
def execCmdRefused (core _op : Nat) (s : State) : Out := onCoreEvent "CMD_REFUSED" core (refuse core 7) s

/-! ## Collective chains of a context that leaves (R277, R281) -/

/-- The chain is at a step boundary, or in a step whose partner has not given its notice. -/
def Chain.stoppable (k : Chain) : Bool := k.phase = .start || k.phase = .notice || k.phase = .done

/-- Cancels the chains of a context: queued ones at once, a running one at its next step boundary; their records are
faulted with KIND 0x15. -/
def cancelChains (tag : Nat) (s : State) : State :=
  let mine := fun (j : Job) => j.cmd.tag = tag
  let gone := s.coll.queue.filter mine
  let s := { s with coll := { s.coll with queue := s.coll.queue.filter fun j => !mine j } }
  let s := gone.foldl (fun s j => recordJob j (some { kind := 0x15 }) s) s
  match s.coll.run with
  | none => s
  | some k =>
    if !mine k.job then s
    else if k.stoppable then finishChain k (some { kind := 0x15 }) s
    else s.setChain (some { k with cancelled := true })

/-! ## KILL (R277) -/

/-- The queue without the jobs and the waiting commands of a context. -/
def Queue.without (q : Queue) (tag : Nat) : Queue :=
  { q with waiting := q.waiting.filter (·.tag ≠ tag), queue := q.queue.filter (·.cmd.tag ≠ tag) }

/-- Jobs of a context that have not started. -/
def queuedJobs (s : State) (tag : Nat) : Nat :=
  (s.clusters.flatMap fun (_, c) => c.clove.queue ++ c.copy.queue ++ c.sumac.queue).countP (·.cmd.tag = tag)
    + s.coll.queue.countP (·.cmd.tag = tag) + s.msu.jobs.countP fun j => j.remote.isNone && j.job.cmd.tag = tag && j.due.isNone

/-- Removes the jobs of a context that have not started. -/
def dropQueued (tag : Nat) (s : State) : State :=
  { s with
    clusters := s.clusters.map fun (n, c) => (n, { c with
      clove := { c.clove with toQueue := c.clove.toQueue.without tag }
      copy := { c.copy with toQueue := c.copy.toQueue.without tag }
      sumac := { c.sumac with toQueue := c.sumac.toQueue.without tag } })
    coll := { s.coll with toQueue := s.coll.toQueue.without tag }
    msu := { s.msu with jobs := s.msu.jobs.filter fun j => !(j.remote.isNone && j.job.cmd.tag = tag && j.due.isNone) } }

/-- A chain of the context runs. -/
def chainRuns (s : State) (tag : Nat) : Bool :=
  match s.coll.run with
  | some k => k.job.cmd.tag = tag
  | none => false

/-- Settles everything that a halted or scrubbed context holds, and empties its slot. -/
def killCtx (s : State) : State :=
  let x := s.cur
  let tag := s.tagOf x
  let lost := s.me.jobs.countP (·.fault.isSome) + queuedJobs s tag + (chainRuns s tag).toNat
  let s := dropQueued tag s
  let s := s.onMe fun c => { c with jobs := [] }
  let s := cancelChains tag s
  let s := s.count s.myTenant fun k => { k with trap := k.trap + lost }
  let s := { s with net := { s.net with verdicts := s.net.verdicts.filter (·.member ≠ tag) } }
  flushAll (discard x s)

def execKill (x : CtxId) (s : State) : Out :=
  onCtx "KILL" x (fun s =>
    if s.me.slot = .halted ∨ s.me.slot = .scrubbed then setStat (coreOf x) 2 0 (killCtx s) else refuse (coreOf x) 1 s) s

/-! ## Snapshots (R279, R306) -/

/-- A core latches its snapshot registers. -/
def latchCore (core seq : Nat) (s : State) : State :=
  s.onCore core fun k =>
    { k with snap := { seq := seq, cycle := s.cycle, sent := k.sent, recv := k.recv, slots := slotsWord s core } }

/-- Queue depth in [15:0], running job id in [31:16]. -/
def engineWord (depth : Nat) (run : Option Job) : Nat := depth % 65536 + (run.map (·.id)).getD 0 % 65536 * 65536

/-- The memory-side units whose channels have their home in a cluster, at most 4 (R113). -/
def unitsIn (cl : Nat) : List Nat := (List.range 144).filter fun c => clusterOf (channelHome c) = cl

/-- The word of a memory-side unit: the jobs that wait for it, and the one that it has run last and not completed. -/
def unitWord (s : State) (u : Nat) : Nat :=
  let js := s.msu.jobs.filter fun j => (jobUnits s j).contains u
  engineWord (js.countP (·.due.isNone)) ((js.find? (·.due.isSome)).map (·.job))

/-- A cluster latches its snapshot registers (R306). -/
def latchCluster (cl seq : Nat) (s : State) : State :=
  let word := fun (e : Engine) => engineWord e.queue.length (e.run.map (·.job))
  s.onCluster cl fun c =>
    { c with snap := ([seq, word c.clove, word c.copy, word c.sumac] ++ (unitsIn cl).map (unitWord s) ++ List.replicate 4 0).take 8 }

def execSnapshotTriggerArrival (b : SnapBlock) (seq : Nat) (s : State) : Out :=
  match b with
  | .core n => onCoreEvent "SNAPSHOT_TRIGGER_ARRIVAL" n (latchCore n seq) s
  | .cluster c => onClusterEvent "SNAPSHOT_TRIGGER_ARRIVAL" c (latchCluster c seq) s

/-! ## Gang stops (R278, R279) -/

/-- The code of a gang operation, with the number of a stop or trigger, for the other packages of the domain. -/
def gangOut (fab : Bool) (tenant op n : Nat) (s : State) : State := if fab then toDomain tenant (.gang op n) s else s

/-- The running chain belongs to the tenant. -/
def chainOf (s : State) (tenant : Nat) : Bool :=
  match s.coll.run with
  | some k => k.job.cmd.tenant = tenant
  | none => false

/-- Freezes the partner wait of the running chain. -/
def freezeChain (s : State) : State :=
  if s.coll.frozen then s
  else { s with coll := { s.coll with
    frozen := true, run := s.coll.run.map fun k => { k with since := s.cycle - k.since } } }

/-- Runs it from the time it had waited. -/
def thawChain (s : State) : State :=
  if s.coll.frozen then { s with coll := { s.coll with
    frozen := false, run := s.coll.run.map fun k => { k with since := s.cycle - k.since } } }
  else s

/-- A stop on its way to every core and cluster of a tenant under a sequence number. -/
def spreadStop (tenant n : Nat) (s : State) : State :=
  let s := if chainOf s tenant then freezeChain s else s
  s.post ((s.meshCores tenant).map (fun c => Instr.coreStop c n)
    ++ (tenantClusters s tenant).map fun c => Instr.snapshotTriggerArrival (.cluster c) n)

/-- GANG_STOP: the stop goes out under the next sequence number. -/
def execGangStop (tenant : Nat) (fab : Bool) (s : State) : Out :=
  .next (spreadStop tenant s.nextSnap (gangOut fab tenant 1 s.nextSnap { s with snapSeq := s.nextSnap }))

/-- A stop halts a context, or waits for what the interruption waits for. -/
def stopCtx (x : CtxId) (s : State) : State :=
  let cur := s.cur
  let s := s.at x
  let s := if !s.me.runs then s
    else
      match haltRow s x with
      | some row => (haltAt row s).onMe fun c => { c with gangHalted := true }
      | none => s.onMe fun c => { c with stopPending := true }
  s.at cur

/-- The resident slots of a core. -/
def slotsOf (core : Nat) : List CtxId := (List.range 16).map (core * 16 + ·)

/-- A context that a stop could not halt yet can be halted now. -/
def stopDue (s : State) (x : CtxId) : Bool :=
  (s.ctx x).stopPending && (s.ctx x).runs && (haltRow s x).isSome

/-- CORE_STOP: a stop reaches a core. Where contexts that a stop had to wait for can be halted now, that is done under its
sequence number. -/
def execCoreStop (core seq : Nat) (s : State) : Out :=
  onCoreEvent "CORE_STOP" core (fun s =>
    if (s.core core).stopped ∧ (s.core core).snap.seq = seq ∧ (slotsOf core).any (stopDue s) then
      ((slotsOf core).filter (stopDue s)).foldl (fun s x => stopCtx x s) s
    else
      let s := (slotsOf core).foldl (fun s x => stopCtx x s) s
      latchCore core seq (s.onCore core fun k => { k with stopped := true, stopCyc := s.cycle })) s

/-- The stop of a core is reversed: what it halted goes on as RESUME lets it. -/
def resumeCore (core : Nat) (s : State) : State :=
  let cur := s.cur
  let s := s.onCore core fun k => { k with stopped := false }
  ((slotsOf core).foldl (fun s x =>
    let s := s.at x
    let s := if s.me.stopPending then s.onMe fun c => { c with stopPending := false } else s
    if s.me.slot = .halted ∧ s.me.gangHalted then resumeCtx s else s) s).at cur

/-- GANG_RESUME. -/
def execGangResume (tenant : Nat) (fab : Bool) (s : State) : Out :=
  let s := gangOut fab tenant 2 0 s
  let s := if chainOf s tenant ∨ s.coll.run.isNone then thawChain s else s
  .next ((s.meshCores tenant).foldl (fun s c => resumeCore c s) s)

/-- GANG_SNAPSHOT. -/
def execGangSnapshot (tenant : Nat) (fab : Bool) (s : State) : Out :=
  .next (sendTrigger tenant (gangOut fab tenant 3 s.nextSnap s))

/-! ## Causes delivered as halted (R269, R286, R287) -/

/-- A save of a context that is lost ends: STAT reads refused, the slot being in the wrong state (R276). -/
def endSave (x : CtxId) (s : State) : State :=
  if (s.core (coreOf x)).saving.any (·.slot = slotOf x) then
    (refuse (coreOf x) 1 s).onCore (coreOf x) fun k => { k with saving := none }
  else s

/-- Halts a context for a cause, with its record; `lose` scrubs it: registers, landing set and checkpoint become zero,
and a save of it ends. -/
def haltFor (t : TrapInfo) (lose : Bool) (row : Nat) (s : State) : State :=
  let x := s.cur
  let s := if lose then endSave x s else s
  let s := haltAt row (feWithdraw x (withdrawSend x s))
  let s := if lose then s.onMe fun c => { c with
      slot := .scrubbed, wait := none, openHold := none, restart := 0
      x := Vector.replicate 32 0, k := Vector.replicate 8 0, v := c.v.map fun (r, _) => (r, 0)
      landing := [], pend := [], replies := [], cp := none, spec := [] } else s
  sendRecord x t s.me.pc (if lose then 6 else 2) s.me.join s

/-- The period of a tenant's watchdog in cycles, 0 for none. -/
def watchPeriod (s : State) (tenant : Nat) : Nat := (s.tenant tenant).wdog.toNat * 65536

/-- A context has been parked for the watchdog period and can be interrupted. -/
def watchdogDue (s : State) (x : CtxId) : Bool :=
  let c := s.ctx x
  let w := watchPeriod s (s.tenantOf (coreOf x))
  c.slot = .parked && w ≠ 0 && c.parkedAt + w ≤ s.cycle && (haltRow s x).isSome

/-- WATCHDOG_EXPIRY (R287). -/
def execWatchdogExpiry (x : CtxId) (s : State) : Out :=
  onCtx "WATCHDOG_EXPIRY" x (fun s =>
    match watchdogDue s x, haltRow s x with
    | true, some row =>
      haltFor { cause := 0x22, tval := BitVec.ofNat 64 ((s.cycle - s.me.parkedAt) / 65536) } false row s
    | _, _ => s) s

/-- An error in a context's own state: the context alone is lost (R286). -/
def contextError (s : State) : State :=
  if s.me.runs ∨ s.me.slot = .halted then haltFor { cause := 0x21, info := 1 } true 0 s else s

/-- UNCORRECTABLE_ERROR: in a context's state it loses the context (R286); a granule of LPDDR6, SRAM or expander memory is
poisoned (R138), the package's copy of a peer line likewise; the stored tag of a block, or a node of the counter tree, fails
its check from then on (R136). -/
def execUncorrectableError (site : ErrorSite) (s : State) : Out :=
  match site with
  | .context x => onCtx "UNCORRECTABLE_ERROR" x contextError s
  | .granule pa =>
    let copy := rangeOf pa = .peer && (fget s.peerCopy pa).isSome
    let own := classOf s pa = .lpddr || classOf s pa = .cxl || classOf s pa = .spad || classOf s pa = .window
    .next (if copy || own then s.setPoison (poisonKey copy pa) else s)
  | .tag b => .next { s with encTag := fput s.encTag b (blockTag s b ^^^ 1) }
  | .node lo hi => .next { s with encTree := s.encTree ++ [(lo, hi)] }

/-- The cycle from which a save that makes no progress loses its context: a period from its start, then a further one
without progress. -/
def stuckAt (w : Nat) (v : Save) : Nat := Nat.max (v.started + w) v.progress + w

/-- A running save is stuck, its context halted or still waited for. -/
def saveStuck (s : State) (core : Nat) : Bool :=
  let w := watchPeriod s (s.tenantOf core)
  match (s.core core).saving with
  | some v =>
    let c := s.ctx (core * 16 + v.slot)
    v.restore.isNone && w ≠ 0 && stuckAt w v ≤ s.cycle && (c.slot = .halted || c.runs)
  | none => false

/-- SAVE_STUCK_EXPIRY (R287): STAT reads done with reason 3. -/
def execSaveStuckExpiry (core : Nat) (s : State) : Out :=
  onCoreEvent "SAVE_STUCK_EXPIRY" core (fun s =>
    match saveStuck s core, (s.core core).saving with
    | true, some v =>
      let cur := s.cur
      let s := haltFor { cause := 0x21, info := 2 } true 0
        ((s.at (core * 16 + v.slot)).onMe fun c => { c with haltPending := false })
      (s.onCore core fun k => { k with saving := none, stat := 2, reason := 3 }).at cur
    | _, _ => s) s

end Sys2Proof.Machine
end

