-- ==== Sys2Proof/Machine/Fabric.lean ====
section
/-! DEFINITION. The Shoari fabric: frames, acknowledgements, link training, route tables, messages and posted stores
(R175, R239 to R246). -/

namespace Sys2Proof.Machine

/-- An event of a port, which must exist. -/
def onPortEvent (name : String) (p : Nat) (f : State → State) (s : State) : Out :=
  if p < 32 then .next (f s) else .fault (.noSuchUnit name)

/-! ## Frames (R239, R241) -/

/-- Writes a received byte into its sector. For a peer line the byte is what its home holds, where the frame verifies: it
refreshes the package's copy, but not a byte that the package has written and not written back (R173). -/
def frameByte (good : Bool) (s : State) (c : Host.Cell) : State :=
  if rangeOf c.1 = .peer then
    let s := if good then { s with peerHome := memWrite s.peerHome c.1 c.2 } else s
    match fget s.peerCopy c.1 with
    | some b => if b.dirty then s else { s with peerCopy := fput s.peerCopy c.1 { b with v := c.2 } }
    | none => s
  else { s with mem := memWrite s.mem c.1 c.2 }

/-- The sectors of a frame. -/
def frameSectors (f : Frame) : List Nat := f.payload.foldl (fun l c => nadd l (c.1 / 128)) []

/-- The poison keys of a sector. -/
def sectorKeys (n : Nat) : List Nat := (List.range 4).map fun i => poisonKey (rangeOf (n * 128) = MClass.peer) (n * 128 + 32 * i)

/-- The granules that a frame covers in full. -/
def frameGranules (f : Frame) : List Nat :=
  (frameSectors f).flatMap fun n => ((List.range 4).map fun i => n * 4 + i).filter fun g =>
    (List.range 32).all fun i => f.payload.any (·.1 = g * 32 + i)

/-- The pending sectors of a port that a test selects leave pending; what waited on them goes on. -/
def leavePending (sel : PendSector → Bool) (s : State) : State :=
  flushAll { s with pendSectors := s.pendSectors.filter fun p => !sel p }

/-- Joins whose counter word a frame has made zero (R51). -/
def wakeFrame (f : Frame) (s : State) : State := f.payload.foldl (fun s c => wakeJoins c.1 1 s) s

/-- A frame verifies: its fields lie within the layout of R239, its flits hold its bytes, and its TAG is the one of the link's
present keys (log entry 58). -/
def frameOk (port : Nat) (k : Port) (f : Frame) (tag : BitVec 128) : Bool :=
  1 ≤ f.nflit && f.nflit ≤ 16 && f.vc ≤ 3 && f.reserved = 0 && f.payload.length + f.data.length ≤ 64 * f.nflit
    && tag = frameSeal f port false k.keys

/-- An engine job owns a sector of the frame, or a re-encryption or a replica copy holds it: its flits are not written yet
(R128). -/
def frameHeld (s : State) (f : Frame) : Bool :=
  (frameSectors f).any fun n => s.owned true (n * 128) 128 || s.inReenc (n * 128) 128 || s.rowCopying (n * 128) 128

/-- The flits are written pending, then the tag is checked (R241). -/
def frameReceive (port : Nat) (f : Frame) (tag : BitVec 128) (s : State) : State :=
  let k := s.port port
  if !k.inService ∨ f.seq ≠ k.seqIn then s
  else
    let good := frameOk port k f tag
    let s := f.payload.foldl (frameByte good) s
    let fresh := (frameSectors f).filter fun n => !s.pendSectors.any (fun p => p.port = port && p.sector = n)
    let s := { s with pendSectors := s.pendSectors ++ fresh.map fun n => ({ sector := n, port := port, seq := f.seq } : PendSector) }
    let mine := fun (p : PendSector) => p.port = port && p.seq = f.seq
    if good then
      let s := (frameGranules f).foldl (fun s g => s.clearPoison (poisonKey (rangeOf (g * 32) = MClass.peer) (g * 32))) s
      let s := s.onPort port fun k => { k with seqIn := k.seqIn + 1, fails := 0 }
      let s := if (s.port port).spent then s.post [.linkRetrain port] else s
      wakeFrame f (leavePending mine s)
    else
      let s := (frameSectors f).foldl (fun s n => (sectorKeys n).foldl (·.setPoison ·) s) s
      let n := k.fails + 1
      let s := s.onPort port fun k => { k with failed := k.failed + 1, fails := if n = 3 then 0 else n }
      (if n = 3 then leavePending mine s else s).post [.linkRetrain port]

/-- FRAME_RECEIVE: a frame arrives; it waits, with those behind it, while its sectors are held. -/
def execFrameReceive (port : Nat) (f : Frame) (tag : BitVec 128) (s : State) : Out :=
  onPortEvent "FRAME_RECEIVE" port (fun s =>
    let s := { s with fabric := { s.fabric with frames := s.fabric.frames.erase (port, f, tag) } }
    if frameHeld s f ∨ s.fabric.frames.any (fun q => q.1 = port && q.2.1.seq < f.seq) then
      { s with fabric := { s.fabric with frames := s.fabric.frames ++ [(port, f, tag)] } }
    else frameReceive port f tag s) s

/-- A waiting frame that can be received: nothing holds it, and it is the next one of its port. -/
def frameDue (s : State) : Option (Nat × Frame × BitVec 128) :=
  s.fabric.frames.find? fun (p, f, _) => !frameHeld s f && !s.fabric.frames.any fun q => q.1 = p && q.2.1.seq < f.seq

/-- FRAME_ACK: the frames up to a sequence number leave the retry buffer; frames that waited for its room follow. -/
def execFrameAck (port seq : Nat) (s : State) : Out :=
  onPortEvent "FRAME_ACK" port (fun s => s.onPort port fun k =>
    let k := Port.take port k.pend { k with retry := k.retry.filter (seq < ·.seq), onLink := k.onLink.filter (seq < ·.1.seq) }
    if k.spent then k.train else k) s

/-! ## Links (R240, R242, R243) -/

/-- LINK_RETRAIN: the link leaves service to train; its new keys are not visible. Frames that waited here have not been
acknowledged, so they come again. -/
def execLinkRetrain (port : Nat) (s : State) : Out :=
  onPortEvent "LINK_RETRAIN" port (fun s =>
    { s with fabric := { s.fabric with frames := s.fabric.frames.filter (·.1 ≠ port) } }.onPort port Port.train) s

/-- The two ends agree (R243). -/
def agree (a b : TrainRecord) : Bool := a.width = b.width && a.laneMap = b.laneMap && a.speed = b.speed

/-- TRAINING_RECORD: the link returns to service and every frame that is not acknowledged goes out again, or it enters degraded
hold: both records go to the fabric manager, the frames of the retry buffer are given up and the sectors pending on the link
stay poisoned (R241, R243). -/
def execTrainingRecord (port : Nat) (own other : TrainRecord) (s : State) : Out :=
  onPortEvent "TRAINING_RECORD" port (fun s =>
    let k := s.port port
    if k.inService ∨ k.retired ∨ k.degraded ∨ !s.feature 0 then s
    else if agree own other then
      flushAll (s.onPort port fun k => Port.restart port { k with ownRec := some own, otherRec := some other })
    else
      leavePending (·.port = port) (s.onPort port fun k =>
        { k with degraded := true, retry := [], onLink := [], pend := [], fails := 0,
                 ownRec := some own, otherRec := some other })) s

/-- LINK_RETURN_TO_SERVICE: the fabric manager returns or retires a link in degraded hold. One that returns starts with new
keys and numbers (log entry 58). -/
def execLinkReturnToService (port : Nat) (retire : Bool) (s : State) : Out :=
  onPortEvent "LINK_RETURN_TO_SERVICE" port (fun s =>
    if (s.port port).degraded then
      flushAll (s.onPort port fun k =>
        if retire then { k with degraded := false, retired := true }
        else Port.restart port { k with degraded := false, seqOut := 0, seqIn := 0 })
    else s) s

/-! ## Routes and messages (R244, R245) -/

/-- ROUTE_TABLE_LOAD: entries by destination × 4 + hop, and the packages that are present. -/
def execRouteTableLoad (entries : List (Nat × Nat)) (present : BitVec 1024) (s : State) : Out :=
  .next { s with fabric := { s.fabric with routes := entries, present := present } }

/-- The route entry of a destination at a hop: 63 for the own package, 62 where none is loaded. -/
def routeEntry (s : State) (dest hop : Nat) : Nat :=
  if dest = s.fabric.package then 63
  else ((s.fabric.routes.find? fun e => e.1 = dest * 4 + hop).map (·.2)).getD 62

/-- A request is answered with poison: a read, an atomic, or a row command with the fault of consumed poison. -/
def poisonAnswer (m : FabMessage) (s : State) : State :=
  match m.payload with
  | .read a n | .amo _ a n .. => sendFab m.source m.tenant (.answer a true (List.replicate n 0)) s
  | .row _ job desc .. => sendFab m.source m.tenant (.rowDone job 0x0A desc) s
  | _ => s

/-- A request that expects an answer is answered with poison; a dropped posted store is counted (R244). -/
def dropMessage (m : FabMessage) (s : State) : State :=
  let s := s.dropped
  match m.payload with
  | .read .. | .amo .. | .row .. => poisonAnswer m s
  | .write _ _ true => if (fget s.tenants m.tenant).isSome then s.count m.tenant fun k => { k with stores := k.stores + 1 } else s
  | _ => s

/-- A message from a package outside the tenant's bitmap is dropped with a record of cause 0x1D (R245). -/
def violation (m : FabMessage) (s : State) : State :=
  match fget s.tenants m.tenant with
  | none => s
  | some t =>
    let r : TrapRec :=
      { cause := 0x1D, info := 0, row := t.cy0 * 2, cores := 0, tval := BitVec.ofNat 64 m.source, epc := 0, tag := 0,
        flags := 0, cycle := s.cycle, core := t.cy0 * 128 + t.cx0 * 4 }
    { s with net := { s.net with records := addRecord s.net.records m.tenant r } }

/-- The open step of the running chain is the one that a partner's message names. -/
def chainExpects (s : State) (m : FabMessage) (tag : Nat) : Bool :=
  match s.coll.run with
  | some k => k.job.cmd.tenant = m.tenant && k.tag = tag && (match openStep k s with
      | (.ok d, _) => d.peer = m.source
      | (.error _, _) => false)
  | none => false

/-- The home has the bytes: they lie in the LPDDR6 that its software can allocate (R13). One that it does not have is
answered with poison, and a write of it is dropped (the spec names no outcome; DESIGN CHOICE, log entry 16). -/
def homeHas (s : State) (a n : Nat) : Bool := allLpddr s (homeOffset a) n

/-- Something holds the remote access; a read may be a look-up of a paused table (R134). -/
def remoteHeld (s : State) (m : FabMessage) : Bool :=
  match m.payload with
  | .write a d _ => homeHas s a d.length && !d.isEmpty && s.deviceHeld (homeOffset a) d.length
  | .amo _ a n .. => homeHas s a n && s.deviceHeld (homeOffset a) n
  | .read a n =>
    n ≠ 0 && homeHas s a n && (s.lookupHeld { msg := some m } (homeOffset a) n || s.pausedAt (homeOffset a) n)
  | .row _ _ desc .. => s.readHeld (homeOffset desc) 64
  | _ => false

/-! ## Answers with poison (R139, R244, R245) -/

/-- The pieces that a parked context waits for at a peer. -/
def awaitedPieces : Wait → List Piece
  | .load _ _ _ p | .amo _ _ _ _ _ _ _ p | .packet _ p _ => [p]
  | .vload _ ps | .gather _ _ ps | .sendRead _ _ _ ps => ps
  | _ => []

/-- The piece that a request of `n` bytes at an address was for. -/
def pieceAt (a n : Nat) (ps : List Piece) : Option Piece := ps.find? fun p => p.pa < a + Nat.max 1 n && a < p.pa + p.n

/-- The virtual address of the first granule of a piece that a request covers. -/
def granuleVa (p : Piece) (a : Nat) : Word := BitVec.ofNat 64 (p.va.toNat + Nat.max a p.pa / 32 * 32 - p.pa)

/-- What c.tval holds when a context's own read is answered with poison: for `flrd` its address (R247), else the granule. -/
def lostRead (c : Ctx) (a n : Nat) : Option Word :=
  match c.slot, c.wait, c.openHold with
  | .parked, some (.flrd va pa), _ => if pa = a then some va else none
  | .parked, some w, _ => (pieceAt a n (awaitedPieces w)).map (granuleVa · a)
  | .ready, _, some (.descriptor _ p _) => (pieceAt a n [p]).map (granuleVa · a)
  | _, _, _ => none

/-- A context whose read, or tagged load, is answered with poison: it traps, during run-ahead once that ends (R263), or the
load returns poisoned. -/
def loseRead (a n : Nat) (x : CtxId) (s : State) : State :=
  let c := s.ctx x
  let s := s.setCtx x { c with landing := c.landing.map fun (t, e) =>
    match (if e.st = .inFlight ∧ e.got.isNone then pieceAt a n e.ps else none) with
    | some p => (t, { e with got := some s.cycle, bad := some (granuleVa p a).toNat })
    | none => (t, e) }
  match lostRead c a n with
  | some v => takeTrap { cause := 0x0C, tval := v } (s.at x)
  | none => s

/-- A job whose read is answered with poison finds the granules poisoned. -/
def loseIn (tenant a n : Nat) (j : Job) : Job :=
  if j.cmd.tenant = tenant ∧ j.owns.any (fun o => o.lo < a + n && a ≤ o.hi) then { j with lost := j.lost ++ granules a n } else j

/-- An engine's jobs; the running one is carried out again where its read is among those answered. -/
def Engine.lose (tenant a n : Nat) (e : Engine) : Engine :=
  { e with
    queue := e.queue.map (loseIn tenant a n)
    run := e.run.map fun r =>
      let j := loseIn tenant a n r.job
      if j = r.job then r else { r with job := j, waiting := true } }

/-- The jobs of the engines and units. -/
def loseJobs (tenant a n : Nat) (s : State) : State :=
  let f := loseIn tenant a n
  { s with
    clusters := s.clusters.map fun (k, c) =>
      (k, { c with clove := c.clove.lose tenant a n, copy := c.copy.lose tenant a n, sumac := c.sumac.lose tenant a n })
    coll := { s.coll with queue := s.coll.queue.map f }
    msu := { s.msu with jobs := s.msu.jobs.map fun j => { j with job := f j.job } } }

/-- A running chain whose read is answered with poison ends with that fault. -/
def loseChain (tenant a n : Nat) (s : State) : State :=
  match s.coll.run with
  | some k =>
    match (if k.job.cmd.tenant = tenant then k.job.owns.find? (fun o => !o.excl && o.lo < a + n && a ≤ o.hi) else none) with
    | some o => finishChain k (some { kind := 0x0A, addr := (o.va + (a - o.lo)) % 2 ^ 56 }) s
    | none => s
  | none => s

/-- The package's copy of bytes answered with poison is poisoned, but for granules that it has written whole. -/
def poisonCopy (a n : Nat) (s : State) : State :=
  (granules a n).foldl (fun s g =>
    if (List.range 32).any fun i => (fget s.peerCopy (g * 32 + i)).any (!·.dirty) then s.setPoison (poisonKey true (g * 32))
    else s) s

/-- A request of this package is answered with poison. -/
def answeredPoison (tenant a n : Nat) (s : State) : State :=
  let s := if n = 0 then s else loseChain tenant a n (loseJobs tenant a n (poisonCopy a n s))
  let cur := s.cur
  ((s.ctxs.filter fun (x, _) => s.tenantOf (coreOf x) = tenant).foldl (fun s (x, _) => loseRead a n x s) s).at cur

/-- The acknowledgement of a row command of this package with a fault: its job, where it has not run, ends with that fault. -/
def rowAnswered (tenant job kind addr : Nat) (s : State) : State :=
  if kind = 0 then s
  else
    { s with msu := { s.msu with jobs := s.msu.jobs.map fun j =>
      if j.remote.isNone ∧ j.job.cmd.tenant = tenant ∧ j.job.id = job ∧ rangeOf j.table.desc = .peer ∧ j.due.isNone then
        { j with job := { j.job with bad := some (0, { kind := kind, addr := addr }) } }
      else j } }

/-- An atomic of another package at this home: the old bytes go back, the new ones are written as one access (R129, R174). -/
def answerAmo (m : FabMessage) (op : AmoOp) (a n : Nat) (v c : Word) (s : State) : State :=
  let h := homeOffset a
  let s := checkTags m.tenant h n s
  let old := memReadList s.mem h n
  if !homeHas s a n ∨ (firstPoison s false h n).isSome then poisonAnswer m s
  else
    let s := sendFab m.source m.tenant (.answer a false old) s
    if op = .cas ∧ leNat old ≠ c.toNat then s else deviceWrite m.tenant h (natLe n (amoNew op n (leNat old) v.toNat)) s

/-- The read of another package: the bytes go back, or poison. -/
def answerRead (m : FabMessage) (a n : Nat) (s : State) : State :=
  let h := homeOffset a
  if n = 0 then sendFab m.source m.tenant (.answer a false []) s
  else if !homeHas s a n then poisonAnswer m s
  else
    let s := countLookup [{ va := 0, pa := h, n := n }] (checkTags m.tenant h n s)
    if (firstPoison s false h n).isSome then poisonAnswer m s
    else sendFab m.source m.tenant (.answer a false (bytesFor s m.tenant h n)) s

/-- What an accepted message does. A gang stop or trigger keeps the number of the module that issued it (R306). An answer
without poison, and the acknowledgement of a row command without a fault, find the access made: it is made at the home when
it is performed (log entry 27). -/
def deliverPayload (m : FabMessage) (s : State) : State :=
  match m.payload with
  | .read a n => answerRead m a n s
  | .amo op a n v c => answerAmo m op a n v c s
  | .write a d _ => if d.isEmpty ∨ !homeHas s a d.length then s else deviceWrite m.tenant (homeOffset a) d s
  | .vote g i n kind v =>
    { s with net := { s.net with
      votes := s.net.votes ++ [{ tenant := m.tenant, group := g, index := i, count := n, kind := kind, vote := v }] } }
  | .arrive g b i n =>
    let q := groupBar s m.tenant g b
    if !q.arrived.isEmpty ∧ q.n ≠ n then s else setGroupBar (countArrival q n i none) s
  | .gang op n =>
    match op with
    | 1 => spreadStop m.tenant n s
    | 2 => s.post [.gangResume m.tenant false]
    | 3 => spreadTrigger m.tenant n s
    | _ => s
  | .cancel g b gen =>
    let q := groupBar s m.tenant g b
    if q.gen = gen then cancelGroup q s else s
  | .answer a poison d => if poison then answeredPoison m.tenant a d.length s else s
  | .row fn job desc arg record =>
    acceptRemote m.tenant { package := m.source, job := job, record := record } fn (homeOffset desc) arg s
  | .rowDone job kind addr => rowAnswered m.tenant job kind addr s
  | .notice tag n ty => s.post [.readyNoticeArrival ⟨m.tenant, m.source⟩ tag n ty]
  | .elements tag d => if chainExpects s m tag then s.post [.partnerDataArrival d] else s
  | .stepAck tag => if chainExpects s m tag then s.post [.stepAckArrival] else s
  | .contribute g i tag op vs =>
    { s with coll := { s.coll with
      given := s.coll.given ++ [{ tenant := m.tenant, group := g, tag := tag, index := i, op := op, values := vs }] } }

/-- A message that has passed the tenancy check: its access, once nothing holds it. It waits under a fifth channel number,
which no arriving message has (R244). -/
def performMessage (m : FabMessage) (s : State) : State :=
  if remoteHeld s m then { s with fabric := { s.fabric with waiting := s.fabric.waiting ++ [{ m with vc := 4 }] } }
  else deliverPayload m s

/-- A message for this package: the tenancy check as of its arrival (R245, R246). -/
def acceptMessage (m : FabMessage) (s : State) : State :=
  if (s.tenant m.tenant).members.getLsbD m.source && (fget s.tenants m.tenant).isSome then performMessage m s
  else poisonAnswer m (violation m s)

/-- FABRIC_MESSAGE_RECEIVE: a message that waits here goes on; one that arrives is delivered, sent on with the next channel, or dropped. -/
def execFabricMessageReceive (m : FabMessage) (s : State) : Out :=
  .next
    (if 4 ≤ m.vc then
      if s.fabric.waiting.contains m then
        performMessage m { s with fabric := { s.fabric with waiting := s.fabric.waiting.erase m } }
      else s
    else if m.dest ≠ s.fabric.package ∧ 3 ≤ m.vc then dropMessage m s
    else
      let e := routeEntry s m.dest (m.vc + 1)
      if e = 63 then acceptMessage m s
      else if e < 32 ∧ !(s.port e).absent then toPort e { m with vc := m.vc + 1 } s
      else dropMessage m s)

/-! ## Posted stores (R175) -/

/-- The k-th posted store can be performed: the link to its home is up, and earlier ones of its context to that package are
performed. -/
def postedDue (s : State) (k : Nat) (p : Posted) : Bool :=
  !linkWaits s true p.addr 1 && !(s.posted.take k).any fun q => q.tag = p.tag && q.dest = p.dest

/-- The first posted store that can be performed. -/
def nextPosted (s : State) : Option Nat :=
  (List.range s.posted.length).find? fun k => match s.posted[k]? with
    | some p => postedDue s k p
    | none => false

/-- POSTED_STORE_ARRIVAL: the k-th posted store is performed at its home; earlier ones of its context to that package
come first. Without a route it is dropped and counted (R244). -/
def execPostedStoreArrival (k : Nat) (s : State) : Out :=
  match s.posted[k]? with
  | none => .next s
  | some p =>
    if !postedDue s k p then .next s
    else
      let s := { s with posted := s.posted.eraseIdx k }
      .next (postAtHome p s)

end Sys2Proof.Machine
end

