-- ==== Sys2Proof/Machine/Save.lean ====
section
/-! DEFINITION. The save image and the commands SAVE, RESTORE and MIGRATE (R159, R276, R280 to R283, R411). -/

namespace Sys2Proof.Machine

/-! ## The image (R280) -/

/-- The bytes of an image with `v` claimed vector registers. -/
def imageSize (v : Nat) : Nat := 6016 + 512 * v

/-- IMAGE is aligned and every byte of the image lies in the LPDDR6 or CXL class. -/
def imageOk (s : State) (base n : Nat) : Bool :=
  base % 64 = 0 && (List.range (n / 64)).all fun i =>
    classOf s (base + 64 * i) = .lpddr || classOf s (base + 64 * i) = .cxl

/-- Time left of a frozen timer, in units of 1,024 cycles rounded up. -/
def timerUnits (t : Option Nat) : Nat := (t.getD 0 + 1023) / 1024 % 2 ^ 32

def szCode : Sz → Nat
  | .b => 0 | .h => 1 | .w => 2 | .d => 3 | .bu => 4 | .hu => 5 | .wu => 6

def szOf (n : Nat) : Sz := ([Sz.b, .h, .w, .d, .bu, .hu, .wu][n]?).getD .d

/-- State codes of the image: in flight, to be issued again, is 1. -/
def stateCode : LState → Nat
  | .inFlight => 1 | .landed => 2 | .faulted => 3 | .poisoned => 4

def kindCode : LKind → Nat × Nat
  | .scalar z => (0, szCode z)
  | .vector => (1, 0)
  | .row => (2, 0)

/-- Places of the settled entries in land order. -/
def landPlace (l : FMap LEntry) (t : Nat) (e : LEntry) : Nat :=
  if e.st = .inFlight then 0 else l.countP fun q => q.2.st ≠ .inFlight && landBefore q (t, e)

/-- The 24 bytes of a landing-set tag. -/
def entryBytes (l : FMap LEntry) (t : Nat) : List Byte :=
  match fget l t with
  | none => List.replicate 24 0
  | some e =>
    let (k, z) := kindCode e.kind
    let settled := fun (n : Nat) => if e.st = .inFlight then 0 else n
    natLe 4 (stateCode e.st + k * 8 + z * 32 + e.vreg % 256 * 256 + settled (e.cause % 256) * 65536
        + landPlace l t e % 64 * 2 ^ 24)
      ++ natLe 4 e.num ++ natLe 8 e.addr.toNat
      ++ natLe 8 (match e.st with
        | .landed => (match e.kind with
          | .scalar _ => e.value.toNat
          | _ => 0)
        | .poisoned => e.granule
        | _ => 0)

/-- Four places of a mailbox. -/
def boxBytes (c : Ctx) (key : Nat) : List Byte :=
  let ms := (c.box key).take 4
  ms.flatMap placeBytes ++ List.replicate (72 * (4 - ms.length)) 0

/-- The mailboxes in the order of the image: channel 0 high, channel 0 low, and so on. -/
def boxOrder : List Nat := [1, 0, 3, 2, 5, 4, 7, 6]

/-- The 16 bytes of a job record. -/
def recordBytes (r : JobRec) : List Byte :=
  match r.fault with
  | some f => natLe 8 (r.id % 65536 + (if f.kind = 0x0B then f.info % 32 * 65536 else 0)) ++ natLe 8 f.status.toNat
  | none => natLe 8 (r.id % 65536) ++ natLe 8 0

/-- RESUME: the row, and the recorded generation or job id. -/
def resumeWord (c : Ctx) : Nat :=
  let recorded := fun (row : Nat) => (c.recorded row).map (row + 256 * ·)
  match (if c.restart = 0 then recorded 7 <|> recorded 9 else none) with
  | some w => w
  | none => c.restart + 256 * match c.wait with
    | some (.bar _ _ _ (some g)) => g
    | some (.bar _ _ _ none) => (c.recorded 7).getD 0
    | some (.job id _) => id
    | _ => 0

/-- The control registers of the image. -/
def imageCrs (c : Ctx) : List Nat :=
  [c.cr.fmt, c.cr.scl, c.cr.seed, c.cr.stl, c.cr.dist, c.cr.lsmode, c.cr.lslog, cgWord c.cg].map (·.toNat)
    ++ [bits c.cr.cgdl 0 32 + timerUnits c.cgLeft * 2 ^ 32, bits c.cr.bardl 0 32 + timerUnits c.barLeft * 2 ^ 32]
    ++ [c.cr.tvec, c.cr.epc, c.cr.cause, c.cr.tval, c.cr.ffneps, c.cr.ffnviol].map (·.toNat)

/-- The image of a halted context. -/
def imageOf (s : State) (x : CtxId) : List Byte :=
  let c := s.ctx x
  natLe 8 c.pc.toNat
    ++ (List.range 31).flatMap (fun i => natLe 8 (c.xr (Fin.ofNat 32 (i + 1))).toNat)
    ++ natLe 8 (statusOfCtx c).toNat
    ++ natLe 8 (resumeWord c)
    ++ natLe 8 c.join.toNat
    ++ natLe 4 c.issueCtr ++ natLe 4 (Nat.min 15 ((c.hold - s.cycle + 7) / 8))
    ++ (((s.tagOf x :: c.former) ++ [0, 0, 0]).take 4).flatMap (natLe 8)
    ++ (imageCrs c).flatMap (natLe 8)
    ++ natLe 32 (c.v.foldl (fun a (r, _) => a ||| 2 ^ r) 0)
    ++ c.k.toList.flatMap (fun m => natLe 128 m.toNat)
    ++ (List.range 64).flatMap (entryBytes c.landing)
    ++ boxOrder.flatMap (boxBytes c)
    ++ (match c.held with
      | some m => placeBytes m
      | none => List.replicate 72 0)
    ++ natLe 8 c.cg.map.toNat ++ List.replicate 16 0
    ++ (c.jobs.flatMap recordBytes ++ List.replicate 512 0).take 512
    ++ List.replicate 64 0
    ++ c.v.flatMap fun (_, r) => natLe 512 r.toNat

/-! ## SAVE (R280, R281) -/

/-- The context that a save takes is halted, or is halted now under R275, or is waited for; its chains are cancelled. -/
def haltToSave (s : State) : State :=
  let core := coreOf s.cur
  let done := fun (s : State) => s.onMe fun c => { c with haltPending := false }
  if s.me.slot = .halted then cancelChains (s.tagOf s.cur) (done s)
  else if !s.me.runs then (refuse core 1 (done s)).onCore core fun k => { k with saving := none }
  else
    match haltRow s s.cur with
    | some row => cancelChains (s.tagOf s.cur) (haltAt row (done s))
    | none => s.onMe fun c => { c with haltPending := true }

/-- A save of the context of the step begins: STAT reads busy. -/
def beginSave (target : Option Nat) (s : State) : State :=
  let core := coreOf s.cur
  haltToSave (s.onCore core fun k =>
    { k with stat := 1, reason := 0, saving := some { slot := slotOf s.cur, image := k.image.toNat, target := target,
                                                      started := s.cycle, progress := s.cycle } })

/-- The save of this context is running and waits to halt it. -/
def savePending (s : State) : Bool :=
  s.me.haltPending && (s.core (coreOf s.cur)).saving.any (·.slot = slotOf s.cur)

def execSave (x : CtxId) (s : State) : Out :=
  onCtx "SAVE" x (fun s =>
    let core := coreOf x
    if savePending s then haltToSave s
    else if s.me.slot ≠ .halted ∧ !s.me.runs then refuse core 1 s
    else if !imageOk s (s.core core).image.toNat (imageSize s.me.v.length) then refuse core 5 s
    else beginSave none s) s

/-- The image at an address, with `v` vector registers, can be read and written: no engine job owns a sector of it, nothing
else holds it (R128, R177). -/
def imageFree (s : State) (image v : Nat) : Bool := !s.deviceHeld image (imageSize v)

/-- What the save waits for has ended: outstanding writes, the context's engine jobs, its barrier arrival, the
memory of its image and its inbox buffer. -/
def saveReady (s : State) (core : Nat) : Bool :=
  match (s.core core).saving with
  | none => false
  | some v =>
    let x := core * 16 + v.slot
    let c := s.ctx x
    v.restore.isNone && c.slot = .halted && !c.haltPending && c.pend.isEmpty && c.replies.isEmpty && jobsDone s x
      && imageFree s v.image c.v.length && !inboxHeld s x && match c.wait with
        | some (.bar _ _ _ none) => false
        | _ => true

/-- Messages of a mailbox beyond its four places go to the inbox buffer of the slot (log entry 34). -/
def spillBoxes (x : CtxId) (s : State) : State :=
  boxOrder.foldl (fun s key => (((s.ctx x).box key).drop 4).foldl (fun s m => (toInbox x m s).2) s) s

/-- The image is written, the slot empties, and a forwarding entry stands for the tag. -/
def writeImage (x : CtxId) (image : Nat) (s : State) : State :=
  let tag := s.tagOf x
  let s := deviceWrite (s.tenantOf (coreOf x)) image (imageOf s x) s
  flushAll (addForward (coreOf x) tag none (vacate x (keepLoads x (spillBoxes x s))))

/-! ## RESTORE (R282, R159) -/

/-- The bytes of an image as the tenant reads them. A poisoned granule of it reads as its plain bytes (the spec names no
outcome; DESIGN CHOICE, log entry 83). -/
def imageBytes (s : State) (tenant base n : Nat) : List Byte := bytesFor s tenant base n

def imgWord (bs : List Byte) (off : Nat) : Word := BitVec.ofNat 64 (field bs off 8)

/-- The vector registers that an image claims. -/
def claimedIn (bs : List Byte) : List Nat := (List.range 256).filter fun v => field bs (448 + v / 8) 1 / 2 ^ (v % 8) % 2 = 1

/-- The tags of an image, current first. -/
def imageTags (bs : List Byte) : List Nat :=
  ((List.range 4).map fun i => field bs (288 + 8 * i) 8 % 2 ^ 24).filter (· ≠ 0)

/-- The entry of a landing-set tag in an image; a settled one keeps its place in land order. -/
def entryOf (bs : List Byte) (t : Nat) : Option LEntry :=
  let o := 1504 + 24 * t
  let w := field bs o 4
  let kind : LKind := if w / 8 % 4 = 0 then .scalar (szOf (w / 32 % 8)) else if w / 8 % 4 = 1 then .vector else .row
  let v := field bs (o + 16) 8
  let e : LEntry := { st := .inFlight, kind := kind, addr := imgWord bs (o + 8), vreg := w / 256 % 256,
                      num := field bs (o + 4) 4, place := some (w / 2 ^ 24 % 64), cause := w / 65536 % 256 }
  match w % 8 with
  | 1 => some { e with cause := 0, place := none }
  | 2 => some { e with st := .landed, value := BitVec.ofNat 64 v }
  | 3 => some { e with st := .faulted }
  | 4 => some { e with st := .poisoned, granule := v }
  | _ => none

def landingOf (bs : List Byte) : FMap LEntry :=
  (List.range 64).filterMap fun t => (entryOf bs t).map (t, ·)

/-- The messages of the four places of the i-th mailbox of an image. -/
def boxOf (bs : List Byte) (i : Nat) : List Msg :=
  (List.range 4).filterMap fun j => placeMsg ((bs.drop (3040 + 288 * i + 72 * j)).take 72)

/-- The faulted records of an image, with acceptance orders from `n` on. -/
def recordsOf (bs : List Byte) (n : Nat) : List JobRec :=
  (List.range 32).filterMap fun i =>
    let w := field bs (5440 + 16 * i) 8
    let st := field bs (5448 + 16 * i) 8
    if st = 0 ∨ st = 2 ^ 64 - 1 then none
    else some { id := w % 65536, order := n + i, doneAt := some 0,
                fault := some { kind := st / 2 ^ 56, addr := st % 2 ^ 56, info := w / 65536 % 32 } }

/-- c.cg from its word and the saved MAP. -/
def cgOf (w map : Word) : Cg :=
  { valid := w.getLsbD 63, fab := w.getLsbD 62, pend := w.getLsbD 61, res := w.getLsbD 60, out := w.getLsbD 59,
    group := bits w 44 12, count := bits w 23 21, index := bits w 0 20, map := map }

/-- A timer of an image that runs. -/
def timerOf (w : Word) : Option Nat := if bits w 32 32 = 0 then none else some (bits w 32 32 * 1024)

/-- The context of an image, halted at its restart point. The words of c.fmt and c.scl are taken as they stand in the image, bits
that an `mtc` could not set among them (DESIGN CHOICE, log entry 94). -/
def ctxOf (bs : List Byte) (inc cycle order : Nat) : Ctx :=
  let cr := fun (i : Nat) => imgWord bs (320 + 8 * i)
  let status := imgWord bs 256
  let held := placeMsg ((bs.drop 5344).take 72)
  let row := field bs 264 1
  { slot := .halted, inc := inc, pc := imgWord bs 0
    x := Vector.ofFn fun (i : Fin 32) => if i.val = 0 then 0 else imgWord bs (8 * i.val)
    k := Vector.ofFn fun (i : Fin 8) => BitVec.ofNat 1024 (field bs (480 + 128 * i.val) 128)
    v := (claimedIn bs).zipIdx.map fun (r, i) => (r, BitVec.ofNat 4096 (field bs (6016 + 512 * i) 512))
    cr := { fmt := cr 0, scl := cr 1, seed := cr 2, stl := cr 3, dist := cr 4, lsmode := cr 5, lslog := cr 6,
            cgdl := BitVec.ofNat 64 (bits (cr 8) 0 32), bardl := BitVec.ofNat 64 (bits (cr 9) 0 32),
            tvec := cr 10, epc := cr 11, cause := cr 12, tval := cr 13, ffneps := cr 14, ffnviol := cr 15 }
    cg := cgOf (cr 7) (imgWord bs 5416)
    cgLeft := timerOf (cr 8), barLeft := timerOf (cr 9)
    twin := status.getLsbD 7, ppriv := status.getLsbD 1, priv := status.getLsbD 0
    join := imgWord bs 272
    issueCtr := field bs 280 4, hold := cycle + 8 * (field bs 284 1 % 16)
    landing := landingOf bs
    mailbox := (boxOrder.zipIdx.map fun (key, i) => (key, boxOf bs i)).foldl (fun m (k, l) => if l.isEmpty then m else fput m k l) []
    held := held, heldAt := if row = 5 then imgWord bs 0 else cr 11
    jobs := recordsOf bs order
    former := (imageTags bs).take 3
    restart := row }

/-- The wait that a restored context of row 7 or 9 takes up again, and the address after its instruction. Where the instruction
cannot be fetched yet, the context goes on at it, and the form takes up its wait when it issues (R275). -/
def rewait (bs : List Byte) (s : State) : State :=
  match fetch s with
  | .parcels ps =>
    let (i, n) := instrOf ps
    let extra := field bs 264 8 / 256
    let w : Option Wait := match s.me.restart, i with
      | 7, .bar a b => some (.bar false (bits (s.x a) 0 4) (s.x b).toNat (some extra))
      | 7, .barFab a _ => some (.bar true (bits (s.x a) 0 4) s.me.cg.count (some extra))
      | 9, .mmul d _ _ => some (.job extra d.val)
      | 9, .mrow d _ _ => some (.job extra d.val)
      | _, _ => none
    s.onMe fun c => { c with wait := w, next := c.pc + BitVec.ofNat 64 (2 * n) }
  | _ => s.onMe fun c => { c with
      restart := 0
      again := if c.restart = 7 ∨ c.restart = 9 then some (c.restart, field bs 264 8 / 256, c.pc) else none }

/-- Issues a to-reissue entry again, at the place of program order that it had where stores wait behind it. Where a class or
tenant condition is found it settles faulted, in this cycle if the landing port has a grant left (R143, R159). -/
def reissueEntry (loads : FMap LEntry) (t : Nat) (s : State) : State :=
  match fget s.me.landing t with
  | none => s
  | some e =>
    let e := { e with seq := match fget loads t with
      | some l => if l.num = e.num then l.seq else s.me.seq
      | none => s.me.seq }
    let e' := match startEntry e s with
      | .ok e' => e'
      | .trap f => { e with st := .inFlight, cause := f.cause, due := s.cycle }
    (noteEntry e s).onMe fun c => { c with landing := fput c.landing t e', seq := c.seq + 1 }

/-- The tags of the in-flight entries by ascending issue number. -/
def reissueOrder : Nat → FMap LEntry → List Nat
  | 0, _ => []
  | n + 1, l =>
    match lowestNumber (l.filter fun (_, e) => e.st = .inFlight) with
    | none => []
    | some (t, _) => t :: reissueOrder n (fdel l t)

/-- Moves the messages that the inbox buffers hold for the tags into the mailboxes of the context of the step, in inbox
order; those that find no room stay and enter later. -/
def takeInboxes (tags : List Nat) (s : State) : State :=
  match inboxBase s s.myTenant with
  | none => s
  | some base =>
    let places := (tags.map (· / 256)).eraseDups.flatMap fun x => (List.range 256).map (x * 256 + ·)
    places.foldl (fun s p =>
      let a := placeAddr base (p / 256) (p % 256)
      let s := checkTags s.myTenant a 72 s
      match inboxMsg s s.myTenant base p with
      | none => s
      | some m =>
        let key := boxKey m.ch m.hi
        if !tags.contains m.dest then s
        else if (s.me.box key).length < 4 then
          deviceWrite s.myTenant a (List.replicate 72 0)
            (s.onMe fun c => { c with mailbox := fput c.mailbox key (c.box key ++ [m]) })
        else s.onMe fun c => { c with inbox := c.inbox ++ [p] }) s

/-- A restored twin context has lost its partner: it stands alone in a pair of its own. -/
def lonelyPair (s : State) : State :=
  if !s.me.twin then s
  else
    let n := s.twinCtr
    ({ s with twinCtr := n + 1, twins := fput s.twins n { a := some (s.tagOf s.cur) } }).onMe fun c =>
      { c with pair := some (n, true) }

/-- The vector registers that the image at an address claims. -/
def claimedAt (s : State) (core image : Nat) : Nat := (claimedIn (imageBytes s (s.tenantOf core) image 512)).length

/-- Reads an image into an empty slot of a core, which then goes on at its restart point. -/
def restoreInto (core slot image : Nat) (s : State) : State :=
  let t := s.tenantOf core
  let y := core * 16 + slot
  let s := checkTags t image (imageSize (claimedAt s core image)) s
  let head := imageBytes s t image 6016
  let bs := head ++ imageBytes s t (image + 6016) (512 * (claimedIn head).length)
  let tags := imageTags bs
  let loads := (tags.head?.bind (fget s.savedLoads)).getD []
  let inc := ((s.ctx y).inc + 1) % 256
  let new := y * 256 + inc
  let s := (s.setCtx y (ctxOf bs inc s.cycle s.jobOrder)).at y
  let s := { s with jobOrder := s.jobOrder + 32 }
  let s := deviceWrite t (image + 288) (((new :: tags ++ [0, 0, 0]).take 4).flatMap (natLe 8)) s
  let s := tags.foldl (fun s old =>
    let s := if tags.head? = some old then adoptStores old y (retag old new s) else s
    s.onCore (old / 4096) fun k => match fget k.forwards old with
      | some f => if f.new.isNone then { k with forwards := fput k.forwards old { f with new := some new } } else k
      | none => k) s
  let s := lonelyPair (rewait bs s)
  let s := (reissueOrder 64 s.me.landing).foldl (fun s t => reissueEntry loads t s) s
  resumeCtx (takeInboxes tags s)

/-- The reason that refuses a RESTORE on a core, after the alignment of IMAGE, or none: no empty slot, a small pool. A core of
a die that minimal mode leaves without power has no slot (R302). -/
def restoreRefused (s : State) (core image : Nat) : Option Nat :=
  let v := claimedAt s core image
  if !imageOk s image (imageSize v) then some 5
  else if !diePowered s core ∨ (emptySlot s core).isNone then some 2
  else if poolFree s core < v then some 4
  else none

/-- The restore on `target` that a command at `core` asks for is made, or refused. -/
def restoreNow (core target image : Nat) (s : State) : State :=
  let s := s.onCore core fun k => { k with saving := none }
  match restoreRefused s target image, emptySlot s target with
  | some r, _ => refuse core r s
  | none, none => refuse core 2 s
  | none, some i => setStat core 2 0 ((restoreInto target i image s).at s.cur)

/-- A restore has still to be made: STAT reads busy. That of a migration keeps a slot of the target free, and the vector
registers that its image claims (R282, R411). -/
def awaitRestore (core target image due : Nat) (into : Option Nat) (claims : Nat) (s : State) : State :=
  let v : Save := { slot := 16, image := image, target := some target, restore := some due, into := into, claims := claims }
  s.onCore core fun k => { k with stat := 1, reason := 0, saving := some v }

/-- What a restore reads is free: its image and the inbox buffers of the image's tags (R177). -/
def restoreFree (s : State) (core image : Nat) : Bool :=
  imageFree s image (claimedAt s core image)
    && (imageTags (imageBytes s (s.tenantOf core) image 512)).all fun t => !inboxHeld s (t / 256)

/-- The restore that a core waits with can be made. -/
def restoreReady (s : State) (core : Nat) : Bool :=
  match (s.core core).saving with
  | some v => match v.restore, v.target with
    | some due, some t => due ≤ s.cycle && restoreFree s t v.image
    | _, _ => false
  | none => false

/-- RESTORE: at once, or once the image can be read. -/
def execRestore (core : Nat) (s : State) : Out :=
  onCoreEvent "RESTORE" core (fun s =>
    let image := (s.core core).image.toNat
    if !imageOk s image (imageSize 0) then refuse core 5 s
    else if restoreFree s core image then restoreNow core core image s
    else awaitRestore core core image s.cycle none 0 s) s

/-! ## MIGRATE (R282) -/

/-- The target has an empty slot and room in its pool, or the reason for a refusal. -/
def targetRefused (s : State) (target v : Nat) : Option Nat :=
  if !diePowered s target ∨ (emptySlot s target).isNone then some 2
  else if poolFree s target < v then some 4
  else none

def execMigrate (x : CtxId) (target : Nat) (s : State) : Out :=
  onCtx "MIGRATE" x (fun s =>
    let core := coreOf x
    if savePending s then haltToSave s
    else if s.me.slot ≠ .halted ∧ !s.me.runs then refuse core 1 s
    else if !imageOk s (s.core core).image.toNat (imageSize s.me.v.length) then refuse core 5 s
    else if coreCount ≤ target ∨ !s.inMesh s.myTenant target then refuse core 6 s
    else
      match targetRefused s target s.me.v.length with
      | some r => refuse core r s
      | none => beginSave (some target) s) s

/-- A chain of the context that a save waits for was accepted after its halt: it is cancelled as well (R281). -/
def chainsLeft (s : State) (core : Nat) : Bool :=
  match (s.core core).saving with
  | some v =>
    let tag := s.tagOf (core * 16 + v.slot)
    v.restore.isNone && (s.ctx (core * 16 + v.slot)).slot = .halted
      && (s.coll.queue.any (·.cmd.tag = tag) || s.coll.run.any fun k => k.job.cmd.tag = tag && !k.cancelled)
  | none => false

/-- SAVE_COMPLETE: the image is written and the slot empties. A migration is then restored on its target in a later cycle: until
then the tag leads to the inbox buffer (R283, R284; the time is a free value, log entry 79). Where the target has no room at
the save, the migration is refused and nothing is saved; once it is saved, a slot and registers of the target stay free for it. -/
def execSaveComplete (core : Nat) (s : State) : Out :=
  onCoreEvent "SAVE_COMPLETE" core (fun s =>
    match saveReady s core, (s.core core).saving with
    | true, some v =>
      let x := core * 16 + v.slot
      let ended := fun (s : State) => s.onCore core fun k => { k with saving := none }
      match v.target with
      | none => setStat core 2 0 (ended (writeImage x v.image s))
      | some t =>
        match targetRefused s t (s.ctx x).v.length with
        | some r => refuse core r (ended s)
        | none =>
          let due := s.cycle + 1 + Config.moveTime s.free
          awaitRestore core t v.image due (emptySlot s t) (s.ctx x).v.length (writeImage x v.image { s with free := s.free + 1 })
    | _, some v =>
      match restoreReady s core, v.target with
      | true, some t => restoreNow core t v.image s
      | _, _ => if chainsLeft s core then cancelChains (s.tagOf (core * 16 + v.slot)) s else s
    | _, none => s) s

end Sys2Proof.Machine
end

