-- ==== Sys2Proof/Machine/Twin.lean ====
section
/-! DEFINITION. The comparator of twin pairs (R269, R289, R290). -/

namespace Sys2Proof.Machine

/-- The contexts of a pair that are still resident: primary, secondary. -/
def twinCtx (s : State) (tag : Option Nat) : Option CtxId :=
  match tag with
  | some t => s.resident t
  | none => none

/-- Both twins are halted and scrubbed, and neither event is performed (R269). -/
def twinFail (k : Nat) (t : TwinPair) (info : Nat) (s : State) : State :=
  let cur := s.cur
  let s := { s with twins := fdel s.twins k }
  let hit := (twinCtx s t.a).toList ++ (twinCtx s t.b).toList
  let s := match hit with
    | [] => s
    | x :: _ => s.count (s.tenantOf (coreOf x)) fun c => { c with twin := c.twin + 1 }
  (hit.foldl (fun s x =>
    if (s.ctx x).slot = .scrubbed then s
    else haltFor { cause := 0x20, info := info, tval := BitVec.ofNat 64 t.seq } true 0 (s.at x)) s).at cur

/-- The operands of a parked atomic. -/
def amoWait (c : Ctx) : Option (AmoOp × Bool × Bool × Bool × Nat × Word × Word × Piece) :=
  match c.slot, c.wait with
  | SlotState.parked, some (.amo op w aq rl d v k p) => some (op, w, aq, rl, d, v, k, p)
  | _, _ => none

/-- Nothing keeps the event from being performed now. A message and a decrement come after the stores that have been compared
(R52, R373). -/
def actReady (s : State) (a b : CtxId) : TwinAct → Bool
  | .amo =>
    match amoWait (s.ctx a), amoWait (s.ctx b) with
    | some (_, _, _, rl, _, _, _, p), some _ => amoReady s a rl p
    | _, _ => false
  | .send _ => (s.ctx a).stores.isEmpty
  | .quit => (s.ctx a).stores.isEmpty && match checkCounter (s.at a) (s.ctx a).join .wr 0x09 with
    | .trap _ => true
    | .ok p => !s.writeHeld a p.pa 8 (s.ctx a).seq
  | .store _ => true

/-- The answer of a twin's atomic, in the context of the step. -/
def twinAnswer (old : Nat) (poison : Option Word) (s : State) : State :=
  match amoWait s.me with
  | none => s
  | some (_, w, aq, _, d, _, _, _) =>
    match poison with
    | some g => enterTrap { cause := 0x0C, tval := g } false s
    | none =>
      completeX d (immWord (signedOf (if w then 32 else 64) old)) (if aq then systemAcquire s.myTenant s else s)

/-- A `send` whose message has gone out is complete, also in a halted twin. -/
def twinSent (x : CtxId) (s : State) : State :=
  (sendDone (s.tagOf x) s).setCtx x { (sendDone (s.tagOf x) s).ctx x with restart := 0 }

/-- Performs the primary's event once (R290). What the decrement of a `quit` meets reaches both twins (R365). -/
def twinPerform (a b : CtxId) (act : TwinAct) (s : State) : State :=
  let cur := s.cur
  let s := match act with
    | .store sts => sts.foldl (fun s st => issueStore a st s) s
    | .amo =>
      match amoWait (s.ctx a) with
      | none => s
      | some (op, w, _, rl, _, v, c, p) =>
        let (old, poison, s) := performAmo a op w rl v c p s
        twinAnswer old poison ((twinAnswer old poison (s.at a)).at b)
    | .send m =>
      let s := twinSent b s
      if (s.ctx a).slot = SlotState.parked then present a s
      else
        addMsg { m with at_ := s.cycle + 1, done := true }
          (twinSent a (s.onCore (coreOf a) fun k => { k with sent := k.sent + 1 }))
    | .quit =>
      let both := fun (f : State → State) (s : State) => f ((f (s.at a)).at b)
      match checkCounter (s.at a) (s.ctx a).join .wr 0x09 with
      | .trap i => both (enterTrap i false) s
      | .ok p =>
        match readCounter a p (noteTlb (coreTlb (coreOf a)) (s.tenantOf (coreOf a)) (s.ctx a).join s) with
        | (none, s) => both (enterTrap { cause := 0x0C, tval := (s.ctx a).join } false) s
        | (some old, s) => both goneNext (decrement a p old s)
  s.at cur

/-- The k-th pair has a pair of events that can be compared now. -/
def twinReady (s : State) (k : Nat) : Bool :=
  match fget s.twins k with
  | none => false
  | some t =>
    match t.ea, t.eb, twinCtx s t.a, twinCtx s t.b with
    | e :: _, f :: _, some a, some b => e.hash ≠ f.hash || actReady s a b e.act
    | _, _, _, _ => false

/-- TWIN_EVENT_COMPARE: the next events of the twins are compared; equal ones are performed once. -/
def execTwinEventCompare (k : Nat) (s : State) : Out :=
  .next
    (if !twinReady s k then s
    else
      let t := (fget s.twins k).getD {}
      match t.ea, t.eb, twinCtx s t.a, twinCtx s t.b with
      | e :: ea, f :: eb, some a, some b =>
        if e.hash ≠ f.hash then twinFail k t 1 s
        else twinPerform a b e.act { s with twins := fput s.twins k { t with ea := ea, eb := eb, seq := t.seq + 1 } }
      | _, _, _, _ => s)

/-- An event waits for a partner that is missing 4,200 cycles after it. -/
def twinLate (s : State) (k : Nat) : Bool :=
  match fget s.twins k with
  | none => false
  | some t =>
    let old := fun (l : List TwinEvent) => match l with
      | e :: _ => e.at_ + 4200 ≤ s.cycle
      | [] => false
    (old t.ea && (t.eb.isEmpty || (twinCtx s t.b).isNone)) || (old t.eb && (t.ea.isEmpty || (twinCtx s t.a).isNone))

/-- TWIN_WINDOW_EXPIRY. -/
def execTwinWindowExpiry (k : Nat) (s : State) : Out :=
  .next
    (if !twinLate s k then s
    else
      match fget s.twins k with
      | some t => twinFail k t 2 s
      | none => s)

end Sys2Proof.Machine
end

