-- ==== Sys2Proof/Machine/Dispatch.lean ====
section
/-! DEFINITION. The meaning of every step: one arm per constructor of `Instr`. -/

namespace Sys2Proof.Machine

def exec (i : Instr) (s : State) : Host.Outcome State Fault Refusal :=
  match i with
  | .add d a b => Sys2Proof.Machine.execAdd d a b s
  | .sub d a b => Sys2Proof.Machine.execSub d a b s
  | .and d a b => Sys2Proof.Machine.execAnd d a b s
  | .or d a b => Sys2Proof.Machine.execOr d a b s
  | .xor d a b => Sys2Proof.Machine.execXor d a b s
  | .sll d a b => Sys2Proof.Machine.execSll d a b s
  | .srl d a b => Sys2Proof.Machine.execSrl d a b s
  | .sra d a b => Sys2Proof.Machine.execSra d a b s
  | .mul stall d a b => Sys2Proof.Machine.execMul stall d a b s
  | .mulh stall d a b => Sys2Proof.Machine.execMulh stall d a b s
  | .mulhu stall d a b => Sys2Proof.Machine.execMulhu stall d a b s
  | .div stall d a b => Sys2Proof.Machine.execDiv stall d a b s
  | .divu stall d a b => Sys2Proof.Machine.execDivu stall d a b s
  | .rem stall d a b => Sys2Proof.Machine.execRem stall d a b s
  | .remu stall d a b => Sys2Proof.Machine.execRemu stall d a b s
  | .min d a b => Sys2Proof.Machine.execMin d a b s
  | .minu d a b => Sys2Proof.Machine.execMinu d a b s
  | .max d a b => Sys2Proof.Machine.execMax d a b s
  | .maxu d a b => Sys2Proof.Machine.execMaxu d a b s
  | .slt d a b => Sys2Proof.Machine.execSlt d a b s
  | .sltu d a b => Sys2Proof.Machine.execSltu d a b s
  | .sel d a b => Sys2Proof.Machine.execSel d a b s
  | .gaddr stall d a b => Sys2Proof.Machine.execGaddr stall d a b s
  | .clz d a => Sys2Proof.Machine.execClz d a s
  | .ctz d a => Sys2Proof.Machine.execCtz d a s
  | .popc d a => Sys2Proof.Machine.execPopc d a s
  | .mov d a => Sys2Proof.Machine.execMov d a s
  | .sxt z d a => Sys2Proof.Machine.execSxt z d a s
  | .zxt z d a => Sys2Proof.Machine.execZxt z d a s
  | .jr a => Sys2Proof.Machine.execJr a s
  | .jalr d a => Sys2Proof.Machine.execJalr d a s
  | .addi d a imm => Sys2Proof.Machine.execAddi d a imm s
  | .andi d a imm => Sys2Proof.Machine.execAndi d a imm s
  | .ori d a imm => Sys2Proof.Machine.execOri d a imm s
  | .xori d a imm => Sys2Proof.Machine.execXori d a imm s
  | .slti d a imm => Sys2Proof.Machine.execSlti d a imm s
  | .slli d a c => Sys2Proof.Machine.execSlli d a c s
  | .srli d a c => Sys2Proof.Machine.execSrli d a c s
  | .srai d a c => Sys2Proof.Machine.execSrai d a c s
  | .li d imm => Sys2Proof.Machine.execLi d imm s
  | .lih d imm => Sys2Proof.Machine.execLih d imm s
  | .lea d off => Sys2Proof.Machine.execLea d off s
  | .bc c a b off => Sys2Proof.Machine.execBc c a b off s
  | .br c a off => Sys2Proof.Machine.execBr c a off s
  | .j off => Sys2Proof.Machine.execJ off s
  | .jal d off => Sys2Proof.Machine.execJal d off s
  | .nop => Sys2Proof.Machine.execNop s
  | .brk code => Sys2Proof.Machine.execBrk code s
  | .illegalInstruction parcel index => Sys2Proof.Machine.execIllegalInstruction parcel index s
  | .ld z aq scope d a e => Sys2Proof.Machine.execLd z aq scope d a e s
  | .st z rl scope v a e => Sys2Proof.Machine.execSt z rl scope v a e s
  | .amo op w aq rl scope d b a => Sys2Proof.Machine.execAmo op w aq rl scope d b a s
  | .fence scope => Sys2Proof.Machine.execFence scope s
  | .flrd a => Sys2Proof.Machine.execFlrd a s
  | .cwb scope a b => Sys2Proof.Machine.execCwb scope a b s
  | .cinv scope a b => Sys2Proof.Machine.execCinv scope a b s
  | .spfence => Sys2Proof.Machine.execSpfence s
  | .ldfe scope d a => Sys2Proof.Machine.execLdfe scope d a s
  | .ldff scope d a => Sys2Proof.Machine.execLdff scope d a s
  | .stfe scope v a => Sys2Proof.Machine.execStfe scope v a s
  | .stff scope v a => Sys2Proof.Machine.execStff scope v a s
  | .fepurge scope a => Sys2Proof.Machine.execFepurge scope a s
  | .ldt z t a e => Sys2Proof.Machine.execLdt z t a e s
  | .take d t => Sys2Proof.Machine.execTake d t s
  | .taken d t => Sys2Proof.Machine.execTaken d t s
  | .takex d a => Sys2Proof.Machine.execTakex d a s
  | .lsre a => Sys2Proof.Machine.execLsre a s
  | .lsclr => Sys2Proof.Machine.execLsclr s
  | .lsinfo d => Sys2Proof.Machine.execLsinfo d s
  | .vadd stall ty d a b => Sys2Proof.Machine.execVadd stall ty d a b s
  | .vsub stall ty d a b => Sys2Proof.Machine.execVsub stall ty d a b s
  | .vmul stall ty d a b => Sys2Proof.Machine.execVmul stall ty d a b s
  | .vfma stall ty d a b => Sys2Proof.Machine.execVfma stall ty d a b s
  | .vfms stall ty d a b => Sys2Proof.Machine.execVfms stall ty d a b s
  | .vmin stall ty d a b => Sys2Proof.Machine.execVmin stall ty d a b s
  | .vmax stall ty d a b => Sys2Proof.Machine.execVmax stall ty d a b s
  | .vand stall d a b => Sys2Proof.Machine.execVand stall d a b s
  | .vor stall d a b => Sys2Proof.Machine.execVor stall d a b s
  | .vxor stall d a b => Sys2Proof.Machine.execVxor stall d a b s
  | .vsh stall ty d a b => Sys2Proof.Machine.execVsh stall ty d a b s
  | .vcmp stall c ty k a b => Sys2Proof.Machine.execVcmp stall c ty k a b s
  | .vsel stall ty d a k => Sys2Proof.Machine.execVsel stall ty d a k s
  | .vabs stall ty d a => Sys2Proof.Machine.execVabs stall ty d a s
  | .vneg stall ty d a => Sys2Proof.Machine.execVneg stall ty d a s
  | .vrcp stall ty d a => Sys2Proof.Machine.execVrcp stall ty d a s
  | .vrsq stall ty d a => Sys2Proof.Machine.execVrsq stall ty d a s
  | .vexp2 stall ty d a => Sys2Proof.Machine.execVexp2 stall ty d a s
  | .vlog2 stall ty d a => Sys2Proof.Machine.execVlog2 stall ty d a s
  | .vtanh stall ty d a => Sys2Proof.Machine.execVtanh stall ty d a s
  | .vcvt stall ty sty rm d a => Sys2Proof.Machine.execVcvt stall ty sty rm d a s
  | .vwid stall ty sty d a => Sys2Proof.Machine.execVwid stall ty sty d a s
  | .vpack stall ty sty rm d a => Sys2Proof.Machine.execVpack stall ty sty rm d a s
  | .vquant stall ty d a b => Sys2Proof.Machine.execVquant stall ty d a b s
  | .vhad stall ty d a b => Sys2Proof.Machine.execVhad stall ty d a b s
  | .vhrnd stall ty d a => Sys2Proof.Machine.execVhrnd stall ty d a s
  | .vdot ty d a b => Sys2Proof.Machine.execVdot ty d a b s
  | .vred op ty d a => Sys2Proof.Machine.execVred op ty d a s
  | .vld scope d b e => Sys2Proof.Machine.execVld scope d b e s
  | .vst scope v b e => Sys2Proof.Machine.execVst scope v b e s
  | .vldx scope ty d b a => Sys2Proof.Machine.execVldx scope ty d b a s
  | .vstx scope ty v b a => Sys2Proof.Machine.execVstx scope ty v b a s
  | .vldt t d b e => Sys2Proof.Machine.execVldt t d b e s
  | .vldtRow t d b e => Sys2Proof.Machine.execVldtRow t d b e s
  | .vperm stall ty d a => Sys2Proof.Machine.execVperm stall ty d a s
  | .vbcast stall ty d b => Sys2Proof.Machine.execVbcast stall ty d b s
  | .vidx stall ty d b => Sys2Proof.Machine.execVidx stall ty d b s
  | .vmovsToVector stall ty d a b => Sys2Proof.Machine.execVmovsToVector stall ty d a b s
  | .vmovsToScalar stall ty d a b => Sys2Proof.Machine.execVmovsToScalar stall ty d a b s
  | .vralloc d b => Sys2Proof.Machine.execVralloc d b s
  | .vrfree d b => Sys2Proof.Machine.execVrfree d b s
  | .spawn a b => Sys2Proof.Machine.execSpawn a b s
  | .spawnTwin a b => Sys2Proof.Machine.execSpawnTwin a b s
  | .spawnd a b => Sys2Proof.Machine.execSpawnd a b s
  | .fork a => Sys2Proof.Machine.execFork a s
  | .join a => Sys2Proof.Machine.execJoin a s
  | .quit => Sys2Proof.Machine.execQuit s
  | .park a => Sys2Proof.Machine.execPark a s
  | .mig d a => Sys2Proof.Machine.execMig d a s
  | .sendHi n t a l => Sys2Proof.Machine.execSendHi n t a l s
  | .sendLo n t a l => Sys2Proof.Machine.execSendLo n t a l s
  | .recv n d a => Sys2Proof.Machine.execRecv n d a s
  | .recvn n d a => Sys2Proof.Machine.execRecvn n d a s
  | .bar a b => Sys2Proof.Machine.execBar a b s
  | .barFab a b => Sys2Proof.Machine.execBarFab a b s
  | .cgjoin d a b => Sys2Proof.Machine.execCgjoin d a b s
  | .cgleave => Sys2Proof.Machine.execCgleave s
  | .cbfence => Sys2Proof.Machine.execCbfence s
  | .cbrAny pt d off => Sys2Proof.Machine.execCbrAny pt d off s
  | .cbrAll pt d off => Sys2Proof.Machine.execCbrAll pt d off s
  | .cbrMaj pt d off => Sys2Proof.Machine.execCbrMaj pt d off s
  | .mjob stall d a b => Sys2Proof.Machine.execMjob stall d a b s
  | .mmul d a b => Sys2Proof.Machine.execMmul d a b s
  | .mload stall d a b => Sys2Proof.Machine.execMload stall d a b s
  | .mloadSp stall d a b => Sys2Proof.Machine.execMloadSp stall d a b s
  | .mfree stall d a => Sys2Proof.Machine.execMfree stall d a s
  | .mrow d a b => Sys2Proof.Machine.execMrow d a b s
  | .cjob stall d a b => Sys2Proof.Machine.execCjob stall d a b s
  | .cstep stall d a b => Sys2Proof.Machine.execCstep stall d a b s
  | .prd stall d a b => Sys2Proof.Machine.execPrd stall d a b s
  | .prdsel stall d a => Sys2Proof.Machine.execPrdsel stall d a s
  | .rowadd stall d a b => Sys2Proof.Machine.execRowadd stall d a b s
  | .rowcommit stall d a b => Sys2Proof.Machine.execRowcommit stall d a b s
  | .rowpause stall d a b => Sys2Proof.Machine.execRowpause stall d a b s
  | .jwait d a => Sys2Proof.Machine.execJwait d a s
  | .jpoll stall d a => Sys2Proof.Machine.execJpoll stall d a s
  | .mfc d c => Sys2Proof.Machine.execMfc d c s
  | .mtc c v => Sys2Proof.Machine.execMtc c v s
  | .eret => Sys2Proof.Machine.execEret s
  | .halt => Sys2Proof.Machine.execHalt s
  | .snap => Sys2Proof.Machine.execSnap s
  | .tlbinv a b => Sys2Proof.Machine.execTlbinv a b s
  | .trap code => Sys2Proof.Machine.execTrap code s
  | .resultWriteback x => Sys2Proof.Machine.execResultWriteback x s
  | .stallHoldExpiry x => Sys2Proof.Machine.execStallHoldExpiry x s
  | .openEndedHoldEnd x => Sys2Proof.Machine.execOpenEndedHoldEnd x s
  | .rotModeSwitch core => Sys2Proof.Machine.execRotModeSwitch core s
  | .plainLoadReturn x => Sys2Proof.Machine.execPlainLoadReturn x s
  | .landingSettle x t => Sys2Proof.Machine.execLandingSettle x t s
  | .logByteReturn x => Sys2Proof.Machine.execLogByteReturn x s
  | .feRequestArrival x => Sys2Proof.Machine.execFeRequestArrival x s
  | .messageArrival k => Sys2Proof.Machine.execMessageArrival k s
  | .movedNoticeArrival k => Sys2Proof.Machine.execMovedNoticeArrival k s
  | .forwardingEntryRetire core old => Sys2Proof.Machine.execForwardingEntryRetire core old s
  | .packetPush k => Sys2Proof.Machine.execPacketPush k s
  | .deferredPacketPush core => Sys2Proof.Machine.execDeferredPacketPush core s
  | .spillReturn core => Sys2Proof.Machine.execSpillReturn core s
  | .dequeTake core => Sys2Proof.Machine.execDequeTake core s
  | .launchEnd x => Sys2Proof.Machine.execLaunchEnd x s
  | .stealProbe core => Sys2Proof.Machine.execStealProbe core s
  | .stealBackoffEnd core => Sys2Proof.Machine.execStealBackoffEnd core s
  | .hostSpawnWindowWrite tenant offset data => Sys2Proof.Machine.execHostSpawnWindowWrite tenant offset data s
  | .migrationMoveEnd x => Sys2Proof.Machine.execMigrationMoveEnd x s
  | .engineAccept e x => Sys2Proof.Machine.execEngineAccept e x s
  | .engineJobStart e => Sys2Proof.Machine.execEngineJobStart e s
  | .jobDataArrival e => Sys2Proof.Machine.execJobDataArrival e s
  | .mrowRoundRequest cluster => Sys2Proof.Machine.execMrowRoundRequest cluster s
  | .cloveJobComplete cluster => Sys2Proof.Machine.execCloveJobComplete cluster s
  | .copyJobComplete cluster => Sys2Proof.Machine.execCopyJobComplete cluster s
  | .sumacJobComplete cluster => Sys2Proof.Machine.execSumacJobComplete cluster s
  | .readyNoticeArrival partner tag count ty => Sys2Proof.Machine.execReadyNoticeArrival partner tag count ty s
  | .partnerDataArrival data => Sys2Proof.Machine.execPartnerDataArrival data s
  | .stepAckArrival => Sys2Proof.Machine.execStepAckArrival s
  | .aniseGroupResult ops counts values => Sys2Proof.Machine.execAniseGroupResult ops counts values s
  | .partnerWaitExpiry => Sys2Proof.Machine.execPartnerWaitExpiry s
  | .msuCommandArrival k => Sys2Proof.Machine.execMsuCommandArrival k s
  | .msuJobComplete k => Sys2Proof.Machine.execMsuJobComplete k s
  | .hotWindowEnd channel => Sys2Proof.Machine.execHotWindowEnd channel s
  | .replicaCopyComplete row => Sys2Proof.Machine.execReplicaCopyComplete row s
  | .reencryptComplete page => Sys2Proof.Machine.execReencryptComplete page s
  | .barrierArrival x => Sys2Proof.Machine.execBarrierArrival x s
  | .barrierRelease x => Sys2Proof.Machine.execBarrierRelease x s
  | .barrierDeadlineExpiry x => Sys2Proof.Machine.execBarrierDeadlineExpiry x s
  | .aniseVoteArrival k => Sys2Proof.Machine.execAniseVoteArrival k s
  | .cbrResolutionArrival x => Sys2Proof.Machine.execCbrResolutionArrival x s
  | .cbrVoteRefused x => Sys2Proof.Machine.execCbrVoteRefused x s
  | .cbrDeadlineExpiry x => Sys2Proof.Machine.execCbrDeadlineExpiry x s
  | .frameReceive port f tag => Sys2Proof.Machine.execFrameReceive port f tag s
  | .frameAck port seq => Sys2Proof.Machine.execFrameAck port seq s
  | .linkRetrain port => Sys2Proof.Machine.execLinkRetrain port s
  | .trainingRecord port own other => Sys2Proof.Machine.execTrainingRecord port own other s
  | .linkReturnToService port retire => Sys2Proof.Machine.execLinkReturnToService port retire s
  | .routeTableLoad entries present => Sys2Proof.Machine.execRouteTableLoad entries present s
  | .fabricMessageReceive m => Sys2Proof.Machine.execFabricMessageReceive m s
  | .postedStoreArrival k => Sys2Proof.Machine.execPostedStoreArrival k s
  | .collectorAppend k => Sys2Proof.Machine.execCollectorAppend k s
  | .heldRecordAppend tenant row => Sys2Proof.Machine.execHeldRecordAppend tenant row s
  | .haltCommand x => Sys2Proof.Machine.execHaltCommand x s
  | .resume x => Sys2Proof.Machine.execResume x s
  | .save x => Sys2Proof.Machine.execSave x s
  | .saveComplete core => Sys2Proof.Machine.execSaveComplete core s
  | .restore core => Sys2Proof.Machine.execRestore core s
  | .kill x => Sys2Proof.Machine.execKill x s
  | .migrate x target => Sys2Proof.Machine.execMigrate x target s
  | .cmdRefused core op => Sys2Proof.Machine.execCmdRefused core op s
  | .gangStop tenant fab => Sys2Proof.Machine.execGangStop tenant fab s
  | .coreStop core seq => Sys2Proof.Machine.execCoreStop core seq s
  | .gangResume tenant fab => Sys2Proof.Machine.execGangResume tenant fab s
  | .gangSnapshot tenant fab => Sys2Proof.Machine.execGangSnapshot tenant fab s
  | .snapshotTriggerArrival b seq => Sys2Proof.Machine.execSnapshotTriggerArrival b seq s
  | .watchdogExpiry x => Sys2Proof.Machine.execWatchdogExpiry x s
  | .saveStuckExpiry core => Sys2Proof.Machine.execSaveStuckExpiry core s
  | .uncorrectableError site => Sys2Proof.Machine.execUncorrectableError site s
  | .deadlockProbeStart x => Sys2Proof.Machine.execDeadlockProbeStart x s
  | .probeHop k => Sys2Proof.Machine.execProbeHop k s
  | .twinEventCompare k => Sys2Proof.Machine.execTwinEventCompare k s
  | .twinWindowExpiry k => Sys2Proof.Machine.execTwinWindowExpiry k s
  | .ringbaseWrite tenant v => Sys2Proof.Machine.execRingbaseWrite tenant v s
  | .tailWrite tenant v => Sys2Proof.Machine.execTailWrite tenant v s
  | .membersWrite tenant w v => Sys2Proof.Machine.execMembersWrite tenant w v s
  | .registerWrite offset width v => Sys2Proof.Machine.execRegisterWrite offset width v s
  | .acceptWrite w v => Sys2Proof.Machine.execAcceptWrite w v s
  | .go => Sys2Proof.Machine.execGo s
  | .retry => Sys2Proof.Machine.execRetry s
  | .moduleReset input => Sys2Proof.Machine.execModuleReset input s
  | .offerTimeout => Sys2Proof.Machine.execOfferTimeout s
  | .failureResetTimer => Sys2Proof.Machine.execFailureResetTimer s
  | .jobBegin tenant => Sys2Proof.Machine.execJobBegin tenant s
  | .jobEnd tenant => Sys2Proof.Machine.execJobEnd tenant s
  | .jobRecordSigned tenant => Sys2Proof.Machine.execJobRecordSigned tenant s
  | .jobAck tenant => Sys2Proof.Machine.execJobAck tenant s
  | .hostHdmAccess write addr data => Sys2Proof.Machine.execHostHdmAccess write addr data s
  | .packageNumberSet n => Sys2Proof.Machine.execPackageNumberSet n s

end Sys2Proof.Machine
end

