-- ==== Sys2Proof/Machine/Schedule.lean ====
section
/-! DEFINITION. Which step comes next (log entry 1): the events of a cycle in their phases, the issue of the cores in
the rotation (R39 to R42), the end of the cycle. Every event named here changes the state, so a cycle ends. -/

namespace Sys2Proof.Machine

/-! ## Search -/

/-- The first context that a test selects, as an event. -/
def ctxEvent (s : State) (f : CtxId → Instr) (p : State → CtxId → Bool) : Option Instr :=
  s.ctxs.findSome? fun (x, _) => if p s x then some (f x) else none

def coreEvent (s : State) (f : Nat → Instr) (p : State → Nat → Bool) : Option Instr :=
  s.cores.findSome? fun (n, _) => if p s n then some (f n) else none

def clusterEvent (s : State) (f : Nat → Instr) (p : State → Nat → Bool) : Option Instr :=
  s.clusters.findSome? fun (n, _) => if p s n then some (f n) else none

/-- The position of the first element that a test selects, as an event. -/
def indexEvent {α : Type} (l : List α) (f : Nat → Instr) (p : α → Bool) : Option Instr :=
  match l.findIdx? p with
  | some k => some (f k)
  | none => none

/-- The event of a condition. -/
def eventIf (b : Bool) (i : Instr) : Option Instr := if b then some i else none

/-! ## Events before the issue of a cycle -/

/-- A parked take finds what it waits for: the step that wakes it. Before the settlings of the cycle are over, it sees
only the entries of earlier cycles. -/
def takeWake (s : State) (late : Bool) (x : CtxId) : Option Instr :=
  let c := s.ctx x
  if c.slot ≠ .parked then none
  else
    let limit := fun issued => if late then wakeLimit issued s else s.cycle
    let goes := fun (f : Found) => match f with
      | .entry .. | .trap _ => true
      | _ => false
    match c.wait with
    | some (.take _ _ n) =>
      if !goes (findTake (limit n) (s.at x)) then none
      else if lsModeOf c = 3 then some (.logByteReturn x)
      else ((if lsModeOf c = 1 then lowestNumber c.landing else firstLanded (limit n) c.landing)).map fun (t, _) =>
        .landingSettle x (Fin.ofNat 64 t)
    | some (.takex _ a n) =>
      if goes (findTakex (limit n) (BitVec.ofNat 64 a) (s.at x)) then some (.landingSettle x (Fin.ofNat 64 a)) else none
    | _ => none

/-- A full/empty request reaches its word. -/
def feArrives (s : State) (x : CtxId) : Bool :=
  (s.ctx x).slot = .parked && match (s.ctx x).wait with
    | some (.fe _ _ _ _ _ pa) => feReady s x pa
    | _ => false

/-- A command that waited to halt a context goes on. -/
def pendingCommand (s : State) (x : CtxId) : Option Instr :=
  if haltDue s x then some (if savePending (s.at x) then .save x else .haltCommand x) else none

/-- A command or a gang stop that waited to halt a context halts it, before its next instruction issues (R276, R278, R416). -/
def haltNext (s : State) : Option Instr :=
  s.ctxs.findSome? (fun (x, _) => pendingCommand s x)
  <|> s.ctxs.findSome? (fun (x, _) =>
      if stopDue s x then some (.coreStop (coreOf x) (s.core (coreOf x)).snap.seq) else none)

/-- The contexts and their events that come with time: the first, if any. -/
def earlyEvent (s : State) : Option Instr :=
  ctxEvent s .resultWriteback writesDue
  <|> ctxEvent s .launchEnd (fun s x => (s.ctx x).slot = .launching && (s.ctx x).launchEnd ≤ s.cycle && (s.ctx x).launch.isSome)
  <|> coreEvent s .rotModeSwitch (fun s n => s.turn = 0 && modeDue s n)
  <|> ctxEvent s .stallHoldExpiry holdOver
  <|> clusterEvent s .cloveJobComplete (fun s n => completeDue s (.clove n))
  <|> clusterEvent s .copyJobComplete (fun s n => completeDue s (.copy n))
  <|> clusterEvent s .sumacJobComplete (fun s n => completeDue s (.sumac n))
  <|> (match s.coll.run with
      | some k => eventIf (k.phase = .done && k.due ≤ s.cycle) .stepAckArrival
      | none => none)
  <|> indexEvent s.net.msgs .messageArrival (fun m => m.at_ ≤ s.cycle)
  <|> eventIf (!s.net.moved.isEmpty) (.movedNoticeArrival 0)
  <|> s.ctxs.findSome? (fun (x, _) => takeWake s false x)
  <|> ctxEvent s .feRequestArrival (fun s x => (s.ctx x).parkedAt < s.cycle && feArrives s x)
  <|> s.cores.findSome? (fun (n, k) => k.forwards.findSome? fun (old, f) =>
      if f.used + 52500 ≤ s.cycle then some (.forwardingEntryRetire n old) else none)
  <|> ctxEvent s .plainLoadReturn (fun s x => (s.ctx x).slot = .parked && match (s.ctx x).wait with
      | some (.quitGone t) => t ≤ s.cycle
      | _ => false)
  <|> coreEvent s .stealBackoffEnd (fun s n => match (s.core n).backoff with
      | some t => t ≤ s.cycle
      | none => false)
  <|> haltNext s

/-! ## Issue (R39 to R42) -/

/-- A context is ready and its stall hold has expired. -/
def canIssue (s : State) (x : CtxId) : Bool :=
  let c := s.ctx x
  c.slot = .ready && c.readyAt ≤ s.cycle && c.hold ≤ s.cycle && c.openHold.isNone

/-- A context is eligible for a lent position (R41). -/
def lendable (s : State) (x : CtxId) : Bool :=
  let c := s.ctx x
  canIssue s x && 8 ≤ (slotOf x + 16 - s.cycle % 16) % 16 && match c.lastIssue with
    | some t => t + 8 ≤ s.cycle
    | none => true

/-- Its last issue is older; a context that has not issued yet is oldest. -/
def issuedBefore (a b : Ctx) : Bool :=
  match a.lastIssue, b.lastIssue with
  | none, some _ => true
  | some t, some u => t < u
  | _, none => false

/-- The slot that issues in this cycle. -/
def issueSlot (s : State) (core : Nat) : Option Nat :=
  let p := s.cycle % 16
  if canIssue s (core * 16 + p) then some p
  else if (s.core core).lend then
    ((List.range 16).filter fun i => lendable s (core * 16 + i)).foldl (fun r i =>
      match r with
      | none => some i
      | some b => if issuedBefore (s.ctx (core * 16 + i)) (s.ctx (core * 16 + b)) then some i else some b) none
  else none

/-- The first core that has not had its turn in this cycle and issues, with its slot. -/
def nextIssue (s : State) : Option (Nat × Nat) :=
  s.ctxs.findSome? fun (x, _) =>
    if s.turn ≤ coreOf x then (issueSlot s (coreOf x)).map (coreOf x, ·) else none

/-- The state in which a slot issues: its core has had its turn, the next issue comes 8 cycles later or more (R42). -/
def atIssue (core slot : Nat) (s : State) : State :=
  ({ s with turn := core + 1 }.at (core * 16 + slot)).onMe fun c =>
    { c with lastIssue := some s.cycle, hold := s.cycle + 8 }

/-- A slot issues: its instruction is fetched and executed; a fetch that is held leaves the cycle a bubble. -/
def issue (core slot : Nat) (s : State) : Out :=
  let t := atIssue core slot s
  match fetch t with
  | .wait => .next { s with turn := core + 1 }
  | .trap i => .next (takeTrap i (noteTrap i t))
  | .parcels ps => exec (instrOf ps).1 (issued ps (instrOf ps).2 t)

/-! ## Deliveries after the issue of a cycle -/

/-- A return of a tagged load reaches its core. -/
def arrivalNext (s : State) (x : CtxId) : Option Instr :=
  (s.ctx x).landing.findSome? fun (t, e) => if entryArrives s x e then some (.landingSettle x (Fin.ofNat 64 t)) else none

/-- The memory accesses of a context that are taken now, contexts in ascending order (R126): its parked access, its
full/empty request, its tagged loads. -/
def accessNext (s : State) : Option Instr :=
  s.ctxs.findSome? fun (x, _) =>
    if returnReady s x then some (.plainLoadReturn x)
    else if feArrives s x then some (.feRequestArrival x)
    else arrivalNext s x

/-- One return came before another: by the cycle in which it reached the core, then by issue number (R143). -/
def cameBefore (a b : LEntry) : Bool :=
  let t := fun (e : LEntry) => e.got.getD 0
  t a < t b || (t a = t b && a.num < b.num)

/-- The return of a context that has waited longest for the landing port. -/
def waitsLongest (l : FMap LEntry) : Option (Nat × LEntry) :=
  l.foldl (fun r q => match r with
    | none => some q
    | some b => if cameBefore q.2 b.2 then some q else r) none

/-- The next entry that the landing port of a core settles: one per context per pass, in ascending slots from the slot
granted last, within a context in order of arrival (R143). -/
def landingNext (s : State) (core : Nat) : Option Instr :=
  let k := s.core core
  ((List.range 16).map fun i => core * 16 + (k.landed + 1 + i) % 16).findSome? fun x =>
    match waitsLongest ((s.ctx x).landing.filter fun (_, e) => entryWaits s x e) with
    | some (t, _) => some (.landingSettle x (Fin.ofNat 64 t))
    | none => none

/-- The cores of the contexts, without repeats. -/
def ctxCores (s : State) : List Nat := s.ctxs.foldl (fun l (x, _) => nadd l (coreOf x)) []

/-- A hold can end and its instruction gets on. -/
def holdGoes (s : State) (x : CtxId) : Bool :=
  holdEnds s x && ((holdEnd (s.at x)).ctx x).openHold ≠ (s.ctx x).openHold

/-- The log byte of a `taken` has returned. -/
def logReady (s : State) (x : CtxId) : Bool :=
  match (s.ctx x).openHold with
  | some (.logByte ..) => match findTake s.cycle (s.at x) with
    | .log => false
    | _ => true
  | _ => false

/-- A barrier arrival is made. -/
def barArrives (s : State) (x : CtxId) : Bool :=
  match (s.ctx x).wait with
  | some (.bar fab _ _ none) => !retakesBar s x && releaseReady s x (fab && (s.ctx x).cg.fab)
  | _ => false

/-- The context arrives at a barrier of its group. -/
def groupArrives (s : State) (x : CtxId) : Bool :=
  barArrives s x && match (s.ctx x).wait with
    | some (.bar true ..) => true
    | _ => false

/-- The next barrier arrival: those at cluster counters in ascending context number, those of a group in ascending INDEX
(R317). -/
def arrivalAtBar (s : State) : Option Instr :=
  ctxEvent s .barrierArrival (fun s x => barArrives s x && !groupArrives s x)
  <|> ((s.ctxs.filter fun (x, _) => groupArrives s x).foldl (fun (r : Option (CtxId × Ctx)) q => match r with
      | none => some q
      | some b => if q.2.cg.index < b.2.cg.index then some q else r) none).map fun q => .barrierArrival q.1

/-- A move by `mig` or by a touch is made or refused. -/
def moves (s : State) (x : CtxId) : Bool :=
  (s.ctx x).slot = .parked && moveDue (s.ctx x) && match (s.ctx x).wait with
    | some (.mig ..) => true
    | _ => false

/-- An engine accepts a command. -/
def acceptEvent (s : State) (e : EngineId) : Option Instr :=
  match acceptNext s e with
  | some c => if (acceptReads s c).isSome then some (.engineAccept e (c.tag / 256)) else none
  | none => none

/-- Jobs of an engine that start or whose data arrives. -/
def engineEvent (s : State) (e : EngineId) : Option Instr :=
  match e with
  | .coll =>
    eventIf (s.coll.run.isNone && (nextChain s).isSome) (.engineJobStart .coll)
    <|> eventIf (chainReady s || (earlyGiver s).isSome) (.jobDataArrival .coll)
  | e => eventIf (startable s e) (.engineJobStart e) <|> eventIf (dataReady s e) (.jobDataArrival e)

/-- A round of a running `mrow` is requested. -/
def roundDue (s : State) (n : Nat) : Bool :=
  match (s.cluster n).clove.run with
  | some r => r.rounds.any (· ≤ s.cycle)
  | none => false

/-- What arrived from outside and waited for memory that was held. -/
def heldArrival (s : State) : Option Instr :=
  (s.fabric.waiting.find? fun m => !remoteHeld s m).map .fabricMessageReceive
  <|> (frameDue s).map (fun (p, f, tag) => .frameReceive p f tag)
  <|> (s.hostReads.find? fun (a, n) => !hostReadHeld s a n).map (fun (a, n) => .hostHdmAccess false a (List.replicate n 0))

/-- The first delivery that can be made, if any. The landing port comes before the packets, so what a settled entry lets a
spawning form send is pushed before the take of its cycle (R55, R337). The takes come last, so a take finds every entry that
settles in its cycle (R142). Once deadlines of the cycle act, what they free is taken from the next cycle on. -/
def delivery (s : State) : Option Instr :=
  (if s.closing then none else accessNext s)
  <|> ctxEvent s .logByteReturn logReady
  <|> ctxEvent s .migrationMoveEnd moves
  <|> ctxEvent s .openEndedHoldEnd holdGoes
  <|> indexEvent s.net.votes .aniseVoteArrival (voteReady s)
  <|> ctxEvent s .cbrResolutionArrival outcomeReaches
  <|> ctxEvent s .cbrVoteRefused refusalReaches
  <|> eventIf (!s.net.records.isEmpty) (.collectorAppend 0)
  <|> s.tenants.findSome? (fun (t, k) => k.held.findSome? fun (row, _) =>
      if ringOpen s t then some (.heldRecordAppend t row) else none)
  <|> indexEvent s.net.probes .probeHop (fun p => !probeHeld s p)
  <|> (engines s).findSome? (acceptEvent s)
  <|> coreEvent s .saveComplete chainsLeft
  <|> (engines s).findSome? (engineEvent s)
  <|> clusterEvent s .mrowRoundRequest roundDue
  <|> (s.coll.notices.find? (noticeFits s)).map (fun n => .readyNoticeArrival ⟨n.tenant, n.peer⟩ n.tag n.count n.ty)
  <|> groupResult s
  <|> heldArrival s
  <|> (List.range s.msu.jobs.length).findSome? (fun k => if rowArrives s k then some (.msuCommandArrival k) else none)
  <|> indexEvent s.msu.jobs .msuJobComplete (fun j => j.due.isSome)
  <|> (s.msu.hot.find? (·.copying)).map (fun h => .replicaCopyComplete h.pa)
  <|> s.reenc.head?.map .reencryptComplete
  <|> coreEvent s .saveComplete (fun s n => saveReady s n || restoreReady s n)
  <|> s.twins.findSome? (fun (k, _) => if twinReady s k then some (.twinEventCompare k) else none)
  <|> (nextPosted s).map .postedStoreArrival
  <|> s.tenants.findSome? (fun (t, k) => if k.audit.beginning && !codeHeld s k.audit then some (.jobBegin t) else none)
  <|> s.tenants.findSome? (fun (t, k) => if k.audit.stat = 2 then some (.jobRecordSigned t) else none)
  <|> (if s.closing then none else (ctxCores s).findSome? (landingNext s))
  <|> arrivalAtBar s
  <|> ctxEvent s .barrierRelease (fun s x => retakesBar s x || barReleased s x)
  <|> indexEvent s.net.packets .packetPush (fun q => packetDue s q.1 q.2)
  <|> coreEvent s .deferredPacketPush (fun s n => !(s.core n).ni.isEmpty && !(s.core n).full)
  <|> coreEvent s .spillReturn (fun s n => spillDue s (s.core n))
  <|> coreEvent s .dequeTake takeDue
  <|> s.tenants.findSome? (fun (t, k) =>
      if k.steal.toNat % 8 = 0 then none
      else (s.meshCores t).findSome? fun n => if probeDue s n then some (.stealProbe n) else none)
  <|> s.ctxs.findSome? (fun (x, _) => takeWake s true x)

/-! ## Deadlines, after every wake of the cycle (R46) -/

/-- A barrier deadline has passed with the generation open. -/
def barLate (s : State) (x : CtxId) : Bool :=
  (s.ctx x).slot = .parked && match (s.ctx x).barTimer, (s.ctx x).wait with
    | some t, some (.bar _ _ _ (some _)) => t ≤ s.cycle && barWaits s (s.tagOf x)
    | _, _ => false

/-- The first deadline that has passed, if any. -/
def lateEvent (s : State) : Option Instr :=
  ctxEvent s .barrierDeadlineExpiry barLate
  <|> ctxEvent s .cbrDeadlineExpiry cbrExpired
  <|> eventIf (partnerLate s) .partnerWaitExpiry
  <|> ctxEvent s .deadlockProbeStart probeStarts
  <|> ctxEvent s .watchdogExpiry watchdogDue
  <|> coreEvent s .saveStuckExpiry saveStuck
  <|> s.twins.findSome? (fun (k, _) => if twinLate s k then some (.twinWindowExpiry k) else none)
  <|> eventIf (offerLate s) .offerTimeout
  <|> eventIf (failureOver s) .failureResetTimer

/-! ## The end of a cycle -/

/-- The channels with counted rows whose look-up window ends (R135). -/
def windowEnds (s : State) : List Instr :=
  if (s.cycle + 1) % 65536 = 0 then
    (s.msu.hot.foldl (fun l h => nadd l (rowChannel s h.pa)) []).map .hotWindowEnd
  else []

/-- The cycle ends: fault-free job records of this cycle are removed, commands that wait hold their contexts, jobs whose data has
not arrived wait a cycle more, held trap records are sent, inbox messages and stores that nothing holds any more go on, the next cycle begins with the first core. -/
def tick (s : State) : State :=
  let s := noteWaits { s with sram := [], ctxs := s.ctxs.map fun (x, c) => (x, c.dropRecords s.cycle) }
  let s := (engines s).foldl (fun s e => countDelay e s) s
  let s := (s.cores.filter fun (_, k) => !k.recs.isEmpty).foldl (fun s (n, _) => sendHeld n s) s
  let s := (s.ctxs.filter fun (_, c) => !c.inbox.isEmpty).foldl (fun s (x, _) => refill x s) s
  let s := flushAll s
  { s with cycle := s.cycle + 1, turn := 0, closing := false, agenda := s.agenda ++ windowEnds s }

end Sys2Proof.Machine
end

