-- ==== Sys2Proof/Machine/Step.lean ====
section
/-! DEFINITION. One step of the machine, and the placement of an instruction where the next step fetches it. -/

namespace Sys2Proof.Machine

/-- One step: what is on the agenda, else an event of the cycle, else the issue of a core, else the end of the cycle. -/
def step (s : State) : Host.Outcome State Fault Refusal :=
  match s.agenda with
  | i :: rest => exec i { s with agenda := rest }
  | [] =>
    match earlyEvent s with
    | some i => exec i s
    | none =>
      match nextIssue s with
      | some (core, slot) => issue core slot s
      | none =>
        match delivery s with
        | some i => exec i s
        | none =>
          match lateEvent s with
          | some i => exec i { s with closing := true }
          | none => .next (tick s)

/-- The state with an instruction placed where the next step fetches it (log entry 9): the words of the table's numbering
at the pc of a ready context of a running module. -/
def State.withFetchWord (s : State) (nbits w : Nat) : State := placeWord nbits w s

end Sys2Proof.Machine
end

