-- ==== Sys2Proof/Safety.lean ====
section
/-! DEFINITION. What counts as a safe state and a safe run, and the terms in which claims about one step are stated. -/

namespace Sys2Proof.Machine

/-- The canonical form of every memory of the state: the package's own bytes and the bytes at the peers' homes. -/
def MemOk (s : State) : Prop := s.mem.wf = true ∧ s.peerHome.wf = true

/-- The machine goes on: a step neither faults nor refuses. -/
def Runs (s : State) : Prop := ∃ t, step s = .next t

/-- A state that is reached from another by a number of steps. -/
def Reaches (s : State) : Nat → State → Prop
  | 0, t => t = s
  | n + 1, t => ∃ u, step s = .next u ∧ Reaches u n t

/-- A run of any length from a state keeps a property and never stops. -/
def SafeFrom (P : State → Prop) (s : State) : Prop := ∀ n t, Reaches s n t → P t ∧ Runs t

/-! ## Frames -/

/-- Nothing outside the context of the step differs: memory, every other context, cores, clusters, tenants, units. -/
def OnlyMe (s t : State) : Prop := t = { s with ctxs := t.ctxs } ∧ ∀ y, y ≠ s.cur → t.ctx y = s.ctx y

/-- The step answers a next state in which only its own context differs, and that context is `c`. -/
def Becomes (i : Instr) (s : State) (c : Ctx) : Prop := ∃ t, exec i s = .next t ∧ OnlyMe s t ∧ t.me = c

/-- As `OnlyMe`, but for what a translation and an access use: the TLBs, the free-value counter, the turns at SRAM words
in the cycle (R121, R126, log entry 3). -/
def OnlyMeTlb (s t : State) : Prop :=
  t = { s with ctxs := t.ctxs, tlb := t.tlb, free := t.free, sram := t.sram } ∧ ∀ y, y ≠ s.cur → t.ctx y = s.ctx y

/-- As `Becomes`, for an instruction that translates an address. -/
def BecomesTlb (i : Instr) (s : State) (c : Ctx) : Prop := ∃ t, exec i s = .next t ∧ OnlyMeTlb s t ∧ t.me = c

/-- The instruction issues and an event completes it: the state after both. -/
def Twice (i e : Instr) (s u : State) : Prop := ∃ t, exec i s = .next t ∧ exec e t = .next u

/-- Every context but that of the step is as before, unless it was parked on a `join`, which a store may wake (R51). -/
def OthersButJoins (s t : State) : Prop :=
  ∀ y, y ≠ s.cur → t.ctx y = s.ctx y ∨ ∃ va pa seen, (s.ctx y).wait = some (.join va pa seen)

/-! ## When an instruction executes (R85) -/

/-- R44: CHECK of c.stl is 0, or no register that the instruction names has an outstanding write. -/
def Quiet (s : State) (uses : List RegRef) : Prop :=
  s.me.cr.stl.getLsbD 0 = true → ∀ r ∈ uses, s.me.outstanding r = false

/-- R74, R146: the vector registers are claimed and no landing-set entry reserves them. -/
def Claimed (s : State) (vs : List Nat) : Prop := ∀ v ∈ vs, (fget s.me.v v).isSome = true ∧ s.me.reserved v = false

/-- The pc is at the next instruction and the stall hold is over after `8 * max 1 stall` cycles (R42). -/
def Ctx.gone (c : Ctx) (cycle stall : Nat) : Ctx := { c with pc := c.next, hold := cycle + Nat.max 8 (8 * stall) }

/-- The pc is at an address and the next issue comes 8 cycles later or more (R42). -/
def Ctx.goneTo (c : Ctx) (pc : Word) (cycle : Nat) : Ctx := { c with pc := pc, hold := cycle + 8 }

/-- A result write is outstanding until the cycle `due` (R43). -/
def Ctx.owes (c : Ctx) (w : RegWrite) (due : Nat) : Ctx := { c with pend := c.pend ++ [{ due := due, write := w }] }

/-- The context parked on what `w` says (R45). -/
def Ctx.parkedOn (c : Ctx) (w : Wait) (cycle : Nat) : Ctx :=
  { c with slot := .parked, wait := some w, parkedAt := cycle, probed := none }

/-- The parked context has been woken: it is ready from the next cycle, at the next instruction (R45, R46). -/
def Ctx.woken (c : Ctx) (parked cycle : Nat) : Ctx :=
  { c with slot := .ready, wait := none, pc := c.next, readyAt := cycle + 1, parkedAt := parked, probed := none }

/-! ## Accesses to the package's own memory -/

/-- An access that passes the checks of R93, to LPDDR6, CXL memory, a scratchpad or a window. -/
def Local (s : State) (va : Word) (acc : Acc) (cause : Nat) (p : Phys) : Prop :=
  check s va acc cause = .ok p ∧ (p.cls = .lpddr ∨ p.cls = .cxl ∨ p.cls = .spad ∨ p.cls = .window)

/-- Such an access of a form that may move its context first (R62), which it does not. -/
def Access (s : State) (va : Word) (acc : Acc) (cause : Nat) (p : Phys) : Prop :=
  Local s va acc cause p ∧ touchTarget s p = none

/-- No store of the context waits to be performed (R166, R290). -/
def NoStores (s : State) : Prop := s.storesDone s.cur = true ∧ heldStores s s.cur = []

/-- Memory holds the bytes of `n` at `pa` that a tenant gets: every block is under its key and verifies, no granule is
poisoned (R136 to R138). -/
def Plain (s : State) (tenant pa n : Nat) : Prop :=
  (∀ b ∈ blocks pa n, tagFails s tenant b = false) ∧ firstPoison s false pa n = none

/-- Nothing outside the context keeps a read of `n` bytes waiting, and memory holds the bytes that it gets: no job,
re-encryption, maintenance, pause or other sender of the cycle holds the range, no table counts its look-ups. -/
def Calm (s : State) (pa n : Nat) : Prop :=
  Plain s s.myTenant pa n ∧ s.readHeld pa n = false ∧ s.outOfTurn s.cur pa n = false
    ∧ (∀ m ∈ s.maint, sameSector m.lo m.hi pa (pa + n - 1) = false)
    ∧ s.pausedAt pa n = false ∧ s.msu.tables = [] ∧ s.msu.hot = []

/-- Nothing keeps a read of `n` bytes by the context waiting: nothing outside it, and none of its stores and no tagged load
of the bytes stands before it. -/
def Unhindered (s : State) (pa n : Nat) : Prop :=
  NoStores s ∧ s.taggedAhead s.cur pa n = false ∧ Calm s pa n

/-- Nothing keeps a write of the range waiting either: nothing owns it and no tagged load of the context, which leads no pair
of twins, is in flight. -/
def Writable (s : State) (pa n : Nat) : Prop :=
  Unhindered s pa n ∧ s.deviceHeld pa n = false ∧ (∀ q ∈ s.me.landing, q.2.st ≠ .inFlight) ∧ secondaryOf s s.cur = none

/-- An access at an address does not move the context first (R62). -/
def Stays (s : State) (va : Word) : Prop :=
  ∀ pa leaf, myTranslate s va = some (pa, leaf) → touchTarget s ⟨pa, leaf, classOf s pa⟩ = none

/-- Nothing that a system-scope release of the context covers is left to perform beside its store path: no posted store behind
a link that trains, no cache maintenance, no dirty peer byte that such a link keeps here (R129, R167, R327). -/
def Released (s : State) (sy : Bool) : Prop := sy = true → s.releaseWaits s.cur = false

/-- Every byte outside `n` bytes at `pa` reads as before. -/
def SameOutside (m m' : Memory) (pa n : Nat) : Prop := ∀ a, a < pa ∨ pa + n ≤ a → memRead m' a = memRead m a

/-! ## Tagged loads (R144, R145) -/

/-- The parts that a tagged load translates: one of its size, or eight of 64 bytes. -/
def tagParts (kind : LKind) (va : Word) : List (Word × Nat) :=
  match kind with
  | .scalar z => [(va, szBytes z)]
  | _ => (List.range 8).map fun i => (va + BitVec.ofNat 64 (64 * i), 64)

/-- An entry in flight as a tagged load, or `lsre`, leaves it: with the place of the instruction in program order, its
return still to come, and the translation of each part, or the cause with which it will settle. -/
def Sent (s : State) (e : LEntry) (cause : Nat) : Prop :=
  e.st = .inFlight ∧ e.seq = s.me.seq ∧ e.place = none ∧ e.got = none ∧ s.cycle ≤ e.due ∧ e.cause = cause
    ∧ (cause = 0 → e.ps.map (fun p => (p.va, p.n)) = tagParts e.kind e.addr
        ∧ ∀ p ∈ e.ps, ∃ leaf, myTranslate s p.va = some (p.pa, leaf) ∧ p.nc = pteNC leaf)

/-- R145 from the translation on: the first part that fails translation or protection is recorded; else a class that no
tagged load may read, or another tenant's memory, traps; else the load is sent. -/
def TagLoad (s : State) (kind : LKind) (va : Word) (sent traps : Nat → Prop) : Prop :=
  let parts := tagParts kind va
  let reads := fun (q : Word × Nat) =>
    ∃ pa leaf, myTranslate s q.1 = some (pa, leaf) ∧ permits leaf s.me.priv .rd = true
  let some' := fun (p : Nat → Word → Prop) => ∃ q ∈ parts, ∃ pa leaf, myTranslate s q.1 = some (pa, leaf) ∧ p pa leaf
  let class' := some' fun pa leaf => classOf s pa = .none ∨ classOf s pa = .device ∨ pteFE leaf = true
    ∨ (kind = .row ∧ classOf s pa ≠ .lpddr)
  let other := some' fun pa _ => tenantOk s s.myTenant pa = false
  (∀ l q r, parts = l ++ q :: r → (∀ b ∈ l, reads b) →
      (myTranslate s q.1 = none → sent 0x08)
      ∧ ∀ pa leaf, myTranslate s q.1 = some (pa, leaf) → permits leaf s.me.priv .rd = false → sent 0x0A)
    ∧ ((∀ q ∈ parts, reads q) →
        (class' → traps 0x04) ∧ (¬ class' → other → traps 0x1D) ∧ (¬ class' → ¬ other → sent 0))

/-- No store waits to be performed, of a context, of the host, of one that has left or of a job, no window packet and no cache
maintenance. -/
def NothingHeld (s : State) : Prop :=
  s.hostStores = [] ∧ s.hostPackets = [] ∧ s.orphans = [] ∧ s.maint = [] ∧ s.late = [] ∧ ∀ q ∈ s.ctxs, q.2.stores = []

/-- The trap record of a core goes out on the trap channel, or the core holds it, where neither had another (R272, R274). -/
def Sends (s t : State) (core : Nat) (r : TrapRec) : Prop :=
  s.net.records = [] → (s.core core).recs = [] →
    (t.net.records = [(s.tenantOf core, r)] ∧ (t.core core).recs = []) ∨ (t.net.records = [] ∧ (t.core core).recs = [r])

/-- No context is parked on a `join`, which a write could wake (R51). -/
def NoJoins (s : State) : Prop := ∀ q ∈ s.ctxs, ∀ va pa seen, q.2.wait ≠ some (.join va pa seen)

/-- A TLB, with the one behind it, holds no translation of a tenant that its page table has replaced (R121). -/
def Fresh (s : State) (u tenant : Nat) : Prop := ∀ va, staleTlb s u tenant va (walk s tenant va) = []

/-- A read of a job passes its checks, within a page, and memory holds the bytes that it gets (R215, R137, R138). -/
def JobReads (s : State) (c : Cmd) (va pa n : Nat) : Prop :=
  (∃ nc, jobPiece s c (BitVec.ofNat 64 va) n .rd = .ok { va := BitVec.ofNat 64 va, pa := pa, nc := nc, n := n })
    ∧ 1 ≤ n ∧ va < 2 ^ 56 ∧ va % 65536 + n ≤ 65536 ∧ rangeOf pa ≠ .peer
    ∧ Plain s (s.tenantOf (coreOf (c.tag / 256))) pa n

/-- No job accepted before the one of an order, no pending sector and no re-encryption holds a read of its range (R177). -/
def JobFree (s : State) (order pa n : Nat) : Prop :=
  ownedBy (s.allJobs.filter (·.order < order)) false pa (pa + n - 1) = false ∧ s.pending pa n = false ∧ s.inReenc pa n = false

/-- No block of a range is under the key of another tenant than that of the command (R137). -/
def OwnKey (s : State) (c : Cmd) (pa n : Nat) : Prop :=
  ∀ b ∈ blocks pa n, otherKey s (s.tenantOf (coreOf (c.tag / 256))) (b * 64) = false

/-- A write of a job passes its checks, within a page, and goes to the package's own memory. -/
def JobWrites (s : State) (c : Cmd) (va pa n : Nat) (nc : Bool) : Prop :=
  jobPiece s c (BitVec.ofNat 64 va) n .wr = .ok { va := BitVec.ofNat 64 va, pa := pa, nc := nc, n := n }
    ∧ 1 ≤ n ∧ va < 2 ^ 56 ∧ va % 65536 + n ≤ 65536 ∧ (rangeOf pa = .lpddr ∨ rangeOf pa = .spad)

/-- Memory and every context are as before. -/
def SameCtxs (s t : State) : Prop := t.mem = s.mem ∧ ∀ y, t.ctx y = s.ctx y

/-! ## Vector results (R388, R97) -/

/-- The form completes with a whole vector register outstanding for `lat` cycles, whose lanes of `w` bits are `f`; nothing
else differs (R43, R388). -/
def Lanes (i : Instr) (s : State) (d lat : Nat) (stall : Fin 16) (w : Nat) (f : Nat → Nat) : Prop :=
  ∃ r : VecReg, Becomes i s ((s.me.owes (.v d allBits r) (s.cycle + lat)).gone s.cycle stall.val)
    ∧ ∀ k, k < 4096 / w → elemNat w r k = f k

/-- A number of `w` bits as a two's-complement integer. -/
def asSigned (w n : Nat) : Int := if n < 2 ^ (w - 1) then (n : Int) else n - 2 ^ w

end Sys2Proof.Machine
end

