-- ==== Sys2Proof/Certificates/Slice0/Obligations.lean ====
section
/-! DEFINITION. The statements for the provers. Each docstring names the rules of the spec that a statement follows and
says where a clause is the model's own choice. -/

open Sys2Proof Sys2Proof.Machine

/-! ## Page 0 -/

/-- R37: `x0` reads zero and a write to it has no effect; every other register reads what was written and keeps its value
when another is written. -/
def Obligations.ScalarRegisterFile : Prop :=
  ∀ (c : Ctx) (d r : XReg) (v : Word),
    c.xr 0 = 0 ∧ c.setX 0 v = c ∧ (d ≠ 0 → (c.setX d v).xr d = v) ∧ (r ≠ d → (c.setX d v).xr r = c.xr r)

/-- R310, R354, R362, R371, R374, R375, R382, R414: the register forms of MAJ 0x0 and 0x2 complete with their result in xd, at
the next instruction; nothing else differs, in the context or outside it. That the result of a form of at most 8 cycles is in
xd at issue is the model's choice (log entry 73). -/
def Obligations.RegisterForms : Prop :=
  ∀ (s : State) (d a b : XReg), Quiet s [xref a, xref b, xref d] →
    let u := s.x a
    let v := s.x b
    let gives := fun (i : Instr) (w : Word) => Becomes i s ((s.me.setX d w).gone s.cycle 0)
    gives (.add d a b) (u + v) ∧ gives (.sub d a b) (u - v) ∧ gives (.and d a b) (u &&& v) ∧ gives (.or d a b) (u ||| v)
      ∧ gives (.xor d a b) (u ^^^ v) ∧ gives (.sll d a b) (u <<< (v.toNat % 64)) ∧ gives (.srl d a b) (u >>> (v.toNat % 64))
      ∧ gives (.sra d a b) (u.sshiftRight (v.toNat % 64))
      ∧ gives (.min d a b) (if u.toInt ≤ v.toInt then u else v) ∧ gives (.max d a b) (if v.toInt ≤ u.toInt then u else v)
      ∧ gives (.minu d a b) (if u.toNat ≤ v.toNat then u else v) ∧ gives (.maxu d a b) (if v.toNat ≤ u.toNat then u else v)
      ∧ gives (.slt d a b) (if u.toInt < v.toInt then 1 else 0) ∧ gives (.sltu d a b) (if u.toNat < v.toNat then 1 else 0)
      ∧ gives (.sel d a b) (if s.x d ≠ 0 then u else v)

/-- R382: `sub`, as the rule states it: the encoding with and without its prefix, the difference modulo 2^64 in place for
the next instruction, no exception of its own, also while running ahead; `addi` with a negated immediate subtracts. -/
def Obligations.Subtract : Prop :=
  ∀ (s : State) (d a b : XReg) (imm : Int),
    let base := 0x0200 + d.val % 8 * 64 + a.val % 8 * 8 + b.val % 8
    let xr := 0xF400 + d.val / 8 * 256 + a.val / 8 * 64 + b.val / 8 * 16
    let gives := fun (i : Instr) (w : Word) => Becomes i s ((s.me.setX d w).gone s.cycle 0)
    (d.val < 8 → a.val < 8 → b.val < 8 → decode [base] = .ok (.sub d a b) 1)
      ∧ (8 ≤ d.val ∨ 8 ≤ a.val ∨ 8 ≤ b.val → decode [xr, base] = .ok (.sub d a b) 2)
      ∧ decode [0x036B] = .ok (.sub 5 5 3) 1
      ∧ (Quiet s [xref a, xref b, xref d] →
          gives (.sub d a b) (BitVec.ofNat 64 (((s.x a).toNat + 2 ^ 64 - (s.x b).toNat) % 2 ^ 64)))
      ∧ (Quiet s [xref a, xref d] → gives (.addi d a (-imm)) (s.x a - BitVec.ofInt 64 imm))

/-- R311, R316, R349 to R351, R361, R362, R374, R375, R414: the immediate forms and `nop`. `lea` counts parcels from the
instruction's own address; `lih` replaces the upper half of xd. That results are in xd at issue is the model's choice (log
entry 73). -/
def Obligations.ImmediateForms : Prop :=
  ∀ (s : State) (d a : XReg) (imm : Int) (n : Fin 64), Quiet s [xref a, xref d] →
    let u := s.x a
    let k : Word := BitVec.ofInt 64 imm
    let gives := fun (i : Instr) (w : Word) => Becomes i s ((s.me.setX d w).gone s.cycle 0)
    gives (.addi d a imm) (u + k) ∧ gives (.andi d a imm) (u &&& k) ∧ gives (.ori d a imm) (u ||| k)
      ∧ gives (.xori d a imm) (u ^^^ k) ∧ gives (.slti d a imm) (if u.toInt < k.toInt then 1 else 0)
      ∧ gives (.slli d a n) (u <<< n.val) ∧ gives (.srli d a n) (u >>> n.val) ∧ gives (.srai d a n) (u.sshiftRight n.val)
      ∧ gives (.li d imm) k ∧ gives (.lih d imm) ((k.setWidth 32) ++ (s.x d).setWidth 32)
      ∧ gives (.lea d imm) (s.me.pc + BitVec.ofInt 64 (2 * imm)) ∧ Becomes .nop s (s.me.gone s.cycle 0)

/-- R330, R359, R383, R415: the counts, moves and extensions; a mask operand gives its low 64 bits to a scalar result, a scalar
is zero-extended into a mask register. Counts are stated by their defining bits. That results are in place at issue is the
model's choice (log entry 73). -/
def Obligations.CountsMovesExtensions : Prop :=
  ∀ (s : State) (d a : XReg) (k q : KReg) (z : ExtSz) (f : XK),
    Quiet s [xref a, xref d, kref k, kref q, xkRef f] →
    let u := s.me.xk f
    let w := match z with | .b => 8 | .h => 16 | .w => 32
    let gives := fun (i : Instr) (w : Word) => Becomes i s ((s.me.setX d w).gone s.cycle 0)
    (∃ n, gives (.clz d f) (BitVec.ofNat 64 n) ∧ n ≤ 64 ∧ u.toNat < 2 ^ (64 - n) ∧ (n < 64 → 2 ^ (63 - n) ≤ u.toNat))
      ∧ (∃ n, gives (.ctz d f) (BitVec.ofNat 64 n) ∧ n ≤ 64 ∧ u.toNat % 2 ^ n = 0 ∧ (n < 64 → u.toNat / 2 ^ n % 2 = 1))
      ∧ gives (.popc d f) (BitVec.ofNat 64 ((List.range 64).countP u.getLsbD))
      ∧ gives (.mov (.x d) (.x a)) (s.x a) ∧ gives (.mov (.x d) (.k k)) ((s.me.kr k).setWidth 64)
      ∧ Becomes (.mov (.k q) (.x a)) s ({ s.me with k := s.me.k.set q ((s.x a).setWidth 1024) }.gone s.cycle 0)
      ∧ Becomes (.mov (.k q) (.k k)) s ({ s.me with k := s.me.k.set q (s.me.kr k) }.gone s.cycle 0)
      ∧ gives (.sxt z d a) (((s.x a).setWidth w).signExtend 64) ∧ gives (.zxt z d a) (((s.x a).setWidth w).setWidth 64)

/-- R332, R360, R368, R43, R42: the forms of 12 and 40 cycles read their sources at issue and leave their result
outstanding until its cycle; a write to x0 leaves none. A division by zero gives all ones, its remainder the dividend,
and −2^63 divided by −1 wraps. R122, R123, R338: with c.dist describing one core in rows of `2^lp` words, `gaddr` of
element (j, i) inside it gives the scratchpad offset of that word on the core named by ORIGIN, 16 cycles later; beyond
the row it traps with c.dist. -/
def Obligations.LongForms : Prop :=
  (∀ (s : State) (n : Fin 16) (d a b : XReg), Quiet s [xref a, xref b, xref d] →
     let u := s.x a
     let v := s.x b
     let gives := fun (i : Instr) (lat : Nat) (w : Word) =>
       Becomes i s (Ctx.gone (if d = 0 then s.me else s.me.owes (.x d.val w) (s.cycle + lat)) s.cycle n.val)
     gives (.mul n d a b) 12 (u * v) ∧ gives (.mulh n d a b) 12 (BitVec.ofInt 64 (u.toInt * v.toInt / 2 ^ 64))
       ∧ gives (.mulhu n d a b) 12 (BitVec.ofNat 64 (u.toNat * v.toNat / 2 ^ 64))
       ∧ gives (.div n d a b) 40 (if v = 0 then -1 else BitVec.ofInt 64 (u.toInt.tdiv v.toInt))
       ∧ gives (.divu n d a b) 40 (if v = 0 then -1 else u / v)
       ∧ gives (.rem n d a b) 40 (if v = 0 then u else BitVec.ofInt 64 (u.toInt.tmod v.toInt))
       ∧ gives (.remu n d a b) 40 (if v = 0 then u else u % v))
  ∧ (∀ (s : State) (n : Fin 16) (d a b : XReg) (core lp : Nat), Quiet s [xref a, xref b, xref d] → s.me.cp = none →
        core < 2816 → lp ≤ 15 → d ≠ 0 → s.me.cr.dist = BitVec.ofNat 64 (core * 2 ^ 52 + 3 * 2 ^ 30 + lp * 2 ^ 25) →
        let j := (s.x a).toNat % 2 ^ 32
        let i := (s.x b).toNat % 2 ^ 32
        let off := (i * 2 ^ lp + j) * 8
        (j < 2 ^ lp → off + 8 ≤ 393216 → Becomes (.gaddr n d a b) s
            ((s.me.owes (.x d.val (BitVec.ofNat 64 (core * 2 ^ 32 + off))) (s.cycle + 16)).gone s.cycle n.val))
          ∧ (2 ^ lp ≤ j → exec (.gaddr n d a b) s = .next (enterTrap { cause := 0x04, tval := s.me.cr.dist } false s)))

/-- R319, R320, R340: a branch or jump goes to its target, in parcels from its own address, or to the next instruction;
`jal` and `jalr` leave the next address in xd; the target of a register jump is read before xd is written. -/
def Obligations.BranchesAndJumps : Prop :=
  ∀ (s : State) (d a b : XReg) (off : Int), Quiet s [xref a, xref b, xref d] →
    let u := s.x a
    let v := s.x b
    let there := s.me.pc + BitVec.ofInt 64 (2 * off)
    let goes := fun (i : Instr) (c : Ctx) (pc : Word) => Becomes i s (c.goneTo pc s.cycle)
    let if' := fun (i : Instr) (p : Prop) => (p → goes i s.me there) ∧ (¬ p → goes i s.me s.me.next)
    if' (.bc .eq a b off) (u = v) ∧ if' (.bc .ne a b off) (u ≠ v) ∧ if' (.bc .lt a b off) (u.toInt < v.toInt)
      ∧ if' (.bc .ge a b off) (v.toInt ≤ u.toInt) ∧ if' (.bc .ltu a b off) (u.toNat < v.toNat)
      ∧ if' (.bc .geu a b off) (v.toNat ≤ u.toNat)
      ∧ if' (.br .eq a off) (u = 0) ∧ if' (.br .ne a off) (u ≠ 0) ∧ if' (.br .lt a off) (u.toInt < 0)
      ∧ if' (.br .ge a off) (0 ≤ u.toInt) ∧ if' (.br .le a off) (u.toInt ≤ 0) ∧ if' (.br .gt a off) (0 < u.toInt)
      ∧ goes (.j off) s.me there ∧ goes (.jal d off) (s.me.setX d s.me.next) there
      ∧ (u.toNat % 2 = 0 → goes (.jr a) s.me u ∧ goes (.jalr d a) (s.me.setX d s.me.next) u)

/-! ## Traps and returns -/

/-- R94, R271: entering a handler saves the address (the next one for `brk` and `trap`), cause, INFO, DEFER and value,
keeps the level in PPRIV, enters supervisor level at c.tvec, and holds the handler until outstanding writes have landed;
no general register, mask, vector or landing-set entry changes. -/
def Obligations.TrapEntry : Prop :=
  ∀ (s : State) (t : TrapInfo) (defer : Bool), t.cause < 256 → t.info < 256 →
    let c := s.me
    let h := (enterTrap t defer s).me
    h.cr = { c.cr with
        epc := if t.cause = 0x30 ∨ t.cause = 0x31 then c.next else c.pc
        cause := BitVec.ofNat 64 (t.cause + t.info * 256 + if defer then 65536 else 0)
        tval := t.tval }
      ∧ h.pc = c.cr.tvec ∧ h.priv = true ∧ h.ppriv = c.priv ∧ h.slot = .ready ∧ h.wait = none
      ∧ (∀ p ∈ c.pend, p.due ≤ h.hold) ∧ c.hold ≤ h.hold
      ∧ h.x = c.x ∧ h.k = c.k ∧ h.v = c.v ∧ h.cg = c.cg ∧ h.landing = c.landing ∧ h.pend = c.pend ∧ h.mailbox = c.mailbox
      ∧ (enterTrap t defer s).mem = s.mem ∧ ∀ y, y ≠ s.cur → (enterTrap t defer s).ctx y = s.ctx y

/-- R84, R321, R387, R340: `brk` and `trap` enter the handler with their code, an encoding that is no instruction with the
parcel at which decoding failed and its index, a register jump to an odd address with that address. R94, R333: at
supervisor level `eret` goes to c.epc at the level PPRIV, and PPRIV becomes 0; at user level it traps with cause 0x02
and c.tval 0. R263: in a context that runs ahead a trap condition is deferred: it parks at the instruction on wake source 8,
with the trap still to be taken, `brk` and `trap` included. -/
def Obligations.TrapsAndReturn : Prop :=
  (∀ (s : State) (code : Fin 1024) (num : Fin 256) (w : BitVec 16) (k : Fin 5) (a d : XReg), s.me.cp = none →
     Quiet s [xref a, xref d] →
     let traps := fun (i : Instr) (cause : Nat) (v : Word) =>
       exec i s = .next (enterTrap { cause := cause, tval := v } false s)
     traps (.brk code) 0x30 (BitVec.ofNat 64 code.val) ∧ traps (.trap num) 0x31 (BitVec.ofNat 64 num.val)
       ∧ traps (.illegalInstruction w k) 0x01 (BitVec.ofNat 64 (k.val * 65536 + w.toNat))
       ∧ ((s.x a).toNat % 2 = 1 → traps (.jr a) 0x04 (s.x a) ∧ traps (.jalr d a) 0x04 (s.x a)))
  ∧ (∀ s : State, s.me.cp = none →
        (s.me.priv = true →
          Becomes .eret s ({ s.me with priv := s.me.ppriv, ppriv := false }.goneTo s.me.cr.epc s.cycle))
        ∧ (s.me.priv = false → exec .eret s = .next (enterTrap { cause := 0x02 } false s)))
  ∧ (∀ (s : State) (code : Fin 1024) (num : Fin 256) (w : BitVec 16) (k : Fin 5) (a d : XReg) (c : CReg), s.me.cp ≠ none →
        Quiet s [xref a, xref d] →
        let waits := fun (i : Instr) (cause : Nat) (v : Word) => ∃ wt : Wait, wt = .deferred { cause := cause, tval := v }
          ∧ wt.source = 8 ∧ Becomes i s (s.me.parkedOn wt s.cycle)
        waits (.brk code) 0x30 (BitVec.ofNat 64 code.val) ∧ waits (.trap num) 0x31 (BitVec.ofNat 64 num.val)
          ∧ waits (.illegalInstruction w k) 0x01 (BitVec.ofNat 64 (k.val * 65536 + w.toNat))
          ∧ ((s.x a).toNat % 2 = 1 → waits (.jr a) 0x04 (s.x a) ∧ waits (.jalr d a) 0x04 (s.x a)
              ∧ waits (.ld .d false .pk d a 0) 0x04 (s.x a) ∧ waits (.st .d false .pk d a 0) 0x04 (s.x a))
          ∧ (CReg.supervisor c = true → s.me.priv = false → waits (.mfc d c) 0x02 (BitVec.ofNat 64 c.code)))

/-- R44: with CHECK of c.stl set, an instruction that names a register with an outstanding write, as a source or as its
destination, takes the stall-underrun trap with the register's file and number in c.tval, and has no other effect. Forms
of every page and of the three register files. -/
def Obligations.StallUnderrun : Prop :=
  ∀ (s : State) (d a b : XReg) (k : KReg) (e f g : VReg) (h : XK) (n : Fin 16) (t : Fin 64) (w : Scope), s.me.cp = none →
    s.me.cr.stl.getLsbD 0 = true →
    let v := fun (r : VReg) => vref r.val
    let code := fun (r : RegRef) => match r with | .x i => i | .v i => 256 + i | .k i => 512 + i
    let forms : List (Instr × List RegRef) := [(.add d a b, [xref d, xref a, xref b]), (.sel d a b, [xref d, xref a, xref b]),
      (.addi d a 1, [xref d, xref a]), (.lih d 1, [xref d]), (.popc d h, [xref d, xkRef h]),
      (.mov (.k k) (.x a), [kref k, xref a]), (.mul n d a b, [xref d, xref a, xref b]), (.rem n d a b, [xref d, xref a, xref b]),
      (.bc .eq a b 0, [xref a, xref b]), (.br .ne a 0, [xref a]), (.jal d 0, [xref d]), (.jr a, [xref a]),
      (.jalr d a, [xref d, xref a]), (.ld .d false w d a 0, [xref d, xref a]), (.st .d false w b a 0, [xref b, xref a]),
      (.amo .add false false false w d b a, [xref d, xref b, xref a]), (.ldfe w d a, [xref d, xref a]),
      (.ldt .d t a 0, [xref a]), (.take d a, [xref d, xref a]), (.vadd n .f32 e f g, [v e, v f, v g]),
      (.vand n e f g, [v e, v f, v g]), (.vcmp n .lt .f32 k e f, [kref k, v e, v f]), (.vsel n .f32 e f k, [v e, v f, kref k]),
      (.vred .add .f32 d e, [xref d, v e]), (.vbcast n .f32 (.direct e) b, [v e, xref b]), (.vld w (.direct e) b 0, [v e, xref b]),
      (.vst w (.direct e) b 0, [v e, xref b]), (.vldt t (.direct e) b 0, [v e, xref b]), (.spawn a b, [xref a, xref b]),
      (.sendLo 0 d a b, [xref d, xref a, xref b]), (.recv 0 d a, [xref d, xref a]), (.bar a b, [xref a, xref b]),
      (.cbrAny false d 0, [xref d]), (.cjob n d a b, [xref d, xref a, xref b]), (.jwait d a, [xref d, xref a]),
      (.rowadd n d a b, [xref d, xref a, xref b]), (.mfc d .cycle, [xref d]), (.mtc .fmt a, [xref a]), (.mig d a, [xref d, xref a])]
    ∀ q ∈ forms, ∀ r ∈ q.2, s.me.outstanding r = true → (∀ r' ∈ q.2, s.me.outstanding r' = true → r' = r) →
      exec q.1 s = .next (enterTrap { cause := 0x03, tval := BitVec.ofNat 64 (code r) } false s)

/-! ## Page 1: memory -/

/-- R93, R112: a load, a store and an atomic trap with the effective address, in this order: misaligned, no translation,
protection, no class, another tenant's memory. -/
def Obligations.AccessTraps : Prop :=
  ∀ (s : State) (z : Sz) (zs : StSz) (op : AmoOp) (w aq rl : Bool) (scope : Scope) (d a b : XReg) (e : Int),
    s.me.cp = none → Quiet s [xref a, xref b, xref d] →
    let stops := fun (i : Instr) (va : Word) (n : Nat) (acc : Acc) (cause : Nat) =>
      let traps := fun (c : Nat) => exec i s = .next (enterTrap { cause := c, tval := va } false s)
      (va.toNat % n ≠ 0 → traps 0x04)
        ∧ (va.toNat % n = 0 → myTranslate s va = none → traps cause)
        ∧ (∀ pa leaf, va.toNat % n = 0 → myTranslate s va = some (pa, leaf) →
            (permits leaf s.me.priv acc = false → traps 0x0A)
            ∧ (permits leaf s.me.priv acc = true → classOf s pa = .none → traps 0x04)
            ∧ (permits leaf s.me.priv acc = true → classOf s pa ≠ .none → classOf s pa ≠ .device →
                tenantOk s s.myTenant pa = false → traps 0x1D))
    let k : Word := BitVec.ofInt 64 e
    stops (.ld z aq scope d a e) (s.x a + k) (match z with | .b | .bu => 1 | .h | .hu => 2 | .w | .wu => 4 | .d => 8) .rd 0x08
      ∧ stops (.st zs rl scope b a e) (s.x a + k) (match zs with | .b => 1 | .h => 2 | .w => 4 | .d => 8) .wr 0x09
      ∧ stops (.amo op w aq rl scope d b a) (s.x a) (if w then 4 else 8) .rw 0x09

/-- R344, R45: a load parks on wake source 1 and, when its data returns, writes the little-endian value at the address,
sign- or zero-extended, to xd and goes on at the next instruction; memory and the other contexts are unchanged. -/
def Obligations.LoadCompletes : Prop :=
  ∀ (s : State) (z : Sz) (aq : Bool) (scope : Scope) (d a : XReg) (e : Int) (p : Phys),
    let va := s.x a + BitVec.ofInt 64 e
    let n := match z with | .b | .bu => 1 | .h | .hu => 2 | .w | .wu => 4 | .d => 8
    Quiet s [xref a, xref d] → s.cur < 45056 → va.toNat % n = 0 → Access s va .rd 0x08 p → Unhindered s p.pa n →
    let raw := leNat (memReadList s.mem p.pa n)
    let value : Word := match z with
      | .b => (BitVec.ofNat 8 raw).signExtend 64
      | .h => (BitVec.ofNat 16 raw).signExtend 64
      | .w => (BitVec.ofNat 32 raw).signExtend 64
      | _ => BitVec.ofNat 64 raw
    ∃ t u, exec (.ld z aq scope d a e) s = .next t ∧ exec (.plainLoadReturn s.cur) t = .next u
      ∧ t.me.slot = .parked ∧ t.me.wait.map Wait.source = some 1 ∧ OnlyMeTlb s t
      ∧ u.me = (s.me.setX d value).woken s.cycle s.cycle ∧ u.mem = s.mem ∧ (∀ y, y ≠ s.cur → u.ctx y = s.ctx y)
      ∧ (aq = false ∨ scope ≠ .sy → OnlyMeTlb s u)

/-- R379, R380: a store writes the low bytes of its register, little-endian, at its address and goes on at the next
instruction: every other byte of memory, every register and every other context is as before. R379 has it performed after
its issue; that nothing delays it, so that the bytes are in memory at once, is the model's choice (log entry 10). R263: a
store of a context that runs ahead is held, and memory does not change; one that needs a 65th sector of 128 bytes parks at
its address until resolution, and so does a device-class load or store. -/
def Obligations.StoreWritesItsBytes : Prop :=
  (∀ (s : State) (z : StSz) (rl : Bool) (scope : Scope) (v a : XReg) (e : Int) (p : Phys),
    let va := s.x a + BitVec.ofInt 64 e
    let n := match z with | .b => 1 | .h => 2 | .w => 4 | .d => 8
    Quiet s [xref v, xref a] → s.me.cp = none → s.me.twin = false → s.me.wait = none → va.toNat % n = 0 →
    Access s va .wr 0x09 p → Writable s p.pa n → (rl = true → Released s (scope == .sy)) →
    ∃ t, exec (.st z rl scope v a e) s = .next t
      ∧ (s.mem.wf = true → memReadList t.mem p.pa n = natLe n (s.x v).toNat) ∧ SameOutside s.mem t.mem p.pa n
      ∧ t.me = Ctx.gone { s.me with seq := s.me.seq + 1 } s.cycle 0 ∧ OthersButJoins s t)
  ∧ (∀ (s : State) (z : StSz) (rl aq : Bool) (scope : Scope) (v a : XReg) (e : Int) (p : Phys),
        let va := s.x a + BitVec.ofInt 64 e
        let n := match z with | .b => 1 | .h => 2 | .w => 4 | .d => 8
        Quiet s [xref v, xref a] → s.me.cp ≠ none →
        (va.toNat % n = 0 → Access s va .wr 0x09 p →
          let held : Store := { pa := p.pa, data := natLe n (s.x v).toNat, nc := pteNC p.pte
                                rlSy := rl && scope == .sy, seq := s.me.seq }
          let sectors := sectorsOf (s.me.spec ++ [held])
          (sectors.length ≤ 64 → BecomesTlb (.st z rl scope v a e) s
              (Ctx.gone { s.me with spec := s.me.spec ++ [held], seq := s.me.seq + 1 } s.cycle 0))
          ∧ (64 < sectors.length → BecomesTlb (.st z rl scope v a e) s (s.me.parkedOn .runAhead s.cycle)))
        ∧ (va.toNat % 8 = 0 → check s va .wr 0x09 (fun pa => coreMayStore (pa - 0xA0100000000)) = .ok p → p.cls = .device →
            Becomes (.st .d rl scope v a e) s (s.me.parkedOn .runAhead s.cycle))
        ∧ (va.toNat % 8 = 0 → check s va .rd 0x08 (fun pa => coreMayLoad (pa - 0xA0100000000)) = .ok p → p.cls = .device →
            Becomes (.ld .d aq scope v a e) s (s.me.parkedOn .runAhead s.cycle)))

/-- R312 to R314: an atomic parks and, performed, leaves the old value sign-extended in xd and the new value in memory;
`cas` stores only where the old value equals xd. Every other byte is as before. -/
def Obligations.AtomicCompletes : Prop :=
  ∀ (s : State) (op : AmoOp) (w aq rl : Bool) (scope : Scope) (d b a : XReg) (p : Phys),
    let va := s.x a
    let n := if w then 4 else 8
    Quiet s [xref a, xref b, xref d] → s.me.cp = none → s.me.twin = false → s.cur < 45056 → va.toNat % n = 0 →
    Access s va .rw 0x09 p → ¬ (p.cls = .cxl ∧ pteNC p.pte = true) → Writable s p.pa n → s.mem.wf = true →
    (rl = true → Released s (scope == .sy)) →
    let m := 2 ^ (8 * n)
    let old := leNat (memReadList s.mem p.pa n)
    let v := (s.x b).toNat % m
    let less := fun (i j : Nat) => (if i < m / 2 then (i : Int) else i - m) ≤ (if j < m / 2 then (j : Int) else j - m)
    let new := match op with
      | .add => (old + v) % m | .and => old &&& v | .or => old ||| v | .xor => old ^^^ v
      | .min => if less old v then old else v | .max => if less v old then old else v
      | .minu => if old ≤ v then old else v | .maxu => if v ≤ old then old else v
      | .swap => v | .cas => if old = (s.x d).toNat % m then v else old
    ∃ u, Twice (.amo op w aq rl scope d b a) (.plainLoadReturn s.cur) s u
      ∧ leNat (memReadList u.mem p.pa n) = new ∧ SameOutside s.mem u.mem p.pa n
      ∧ u.me = (s.me.setX d (BitVec.ofInt 64 (if old < m / 2 then (old : Int) else old - m))).woken s.cycle s.cycle
      ∧ OthersButJoins s u

/-- R334, R167, R129, R212, R378, R326, R336: `fence` completes at issue. With every earlier access performed it is over
at once, and `fence.sy` has performed the context's posted stores and left no peer sector of its tenant in the package;
else it stands in the store path behind the stores, and a parked access waits for it (log entry 41). `spfence` advances the operand
generation of the issuing core's cluster and nothing else; `cwb` and `cinv` of length 0 do nothing, beyond 2^24 they
trap; `flrd` parks and completes. -/
def Obligations.FencesAndMaintenance : Prop :=
  ∀ (s : State) (scope : Scope) (a b : XReg), s.me.cp = none → Quiet s [xref a, xref b] →
    let x := s.cur
    let behind := { s.me with seq := s.me.seq + 1 }
    (s.storesDone x = true → scope ≠ .sy → Becomes (.fence scope) s (behind.gone s.cycle 0))
      ∧ (s.storesDone x = true → s.releaseWaits x = false → ∃ t, exec (.fence .sy) s = .next t ∧ t.mem = s.mem
          ∧ t.me = behind.gone s.cycle 0 ∧ (∀ y, y ≠ x → t.ctx y = s.ctx y)
          ∧ (∀ p ∈ t.posted, p.tag ≠ s.tagOf (pathOf s x)) ∧ ∀ q ∈ t.peerCopy, q.2.tenant ≠ s.myTenant)
      ∧ (s.storesDone x = false ∨ (scope = .sy ∧ s.releaseWaits x = true) →
          Becomes (.fence scope) s (Ctx.gone { behind with
            stores := s.me.stores ++ [{ pa := 0, data := [], seq := s.me.seq, fence := some (scope == .sy) }] } s.cycle 0))
      ∧ (∀ st ∈ s.me.stores, st.fence.isSome = true → st.seq < s.me.seq → x < 45056 →
          ∀ w, s.me.wait = some w → (∃ z sy d p, w = .load z sy d p) ∨ (∃ d ps, w = .vload d ps) ∨ (∃ va pa, w = .flrd va pa) →
            exec (.plainLoadReturn x) s = .next s)
      ∧ (∃ t, exec .spfence s = .next t ∧ t = { s with ctxs := t.ctxs, clusters := t.clusters }
          ∧ t.me = s.me.gone s.cycle 0
          ∧ (∀ y, y ≠ x → t.ctx y = s.ctx y) ∧ (∀ n, n ≠ clusterOf (x / 16) → t.cluster n = s.cluster n)
          ∧ t.cluster (clusterOf (x / 16)) = { s.cluster (clusterOf (x / 16)) with
              gen := (s.cluster (clusterOf (x / 16))).gen + 1 })
      ∧ (s.x b = 0 → Becomes (.cwb scope a b) s (s.me.gone s.cycle 0) ∧ Becomes (.cinv scope a b) s (s.me.gone s.cycle 0))
      ∧ (2 ^ 24 < (s.x b).toNat → let stop := Host.Outcome.next (enterTrap { cause := 0x04, tval := s.x b } false s)
          exec (.cwb scope a b) s = stop ∧ exec (.cinv scope a b) s = stop)
      ∧ (1 ≤ (s.x b).toNat → (s.x b).toNat ≤ 2 ^ 24 →
          let pass := fun (acc : Acc) (cause : Nat) => ∀ q ∈ pageStarts (s.x a) (s.x b).toNat, ∃ p, Local s q acc cause p
          (pass .rd 0x08 → BecomesTlb (.cwb scope a b) s (behind.gone s.cycle 0))
          ∧ (pass .wr 0x09 → BecomesTlb (.cinv scope a b) s (behind.gone s.cycle 0)))
      ∧ (∀ p, Local s (s.x a) .rd 0x08 p → s.storesDone x = true → x < 45056 →
          ∃ u, Twice (.flrd a) (.plainLoadReturn x) s u ∧ OnlyMeTlb s u ∧ u.me = s.me.woken s.cycle s.cycle)

/-- R125, R126: a full/empty form parks; its request, at the owning SRAM, is performed at once where its condition holds
(`ldfe`, `ldff`, `stff` on a full word, `stfe` on an empty one, `fepurge` on any) and joins the wait list where not. `ldfe`
and `fepurge` leave the word empty, `stfe` full, `ldff` and `stff` full as it was. -/
def Obligations.FullEmpty : Prop :=
  ∀ (s : State) (scope : Scope) (r a : XReg) (p : Phys) (full : Bool),
    let va := s.x a
    let word := p.pa / 8
    Quiet s [xref r, xref a, xref 0] → s.me.cp = none → s.me.twin = false → s.cur < 45056 → va.toNat % 8 = 0 →
    Access s va .rd 0x08 p → Access s va .wr 0x09 p → p.cls = .spad ∨ p.cls = .window → pteFE p.pte = true →
    Writable s p.pa 8 → Released s (scope == .sy) → s.feWait = [] → s.mem.wf = true → s.feFull.contains word = full →
    let old := leNat (memReadList s.mem p.pa 8)
    let done := fun (i : Instr) (c : Ctx) (fullAfter : Bool) (now : Nat) =>
      ∃ u, Twice i (.feRequestArrival s.cur) s u ∧ u.me = c.woken s.cycle s.cycle ∧ u.feFull.contains word = fullAfter
        ∧ (∀ q, q ≠ word → u.feFull.contains q = s.feFull.contains q) ∧ u.feWait = []
        ∧ leNat (memReadList u.mem p.pa 8) = now ∧ SameOutside s.mem u.mem p.pa 8 ∧ OthersButJoins s u
    let waits := fun (i : Instr) =>
      ∃ u, Twice i (.feRequestArrival s.cur) s u ∧ u.me.slot = .parked ∧ u.me.x = s.me.x ∧ u.me.pc = s.me.pc
        ∧ u.feFull = s.feFull ∧ u.mem = s.mem ∧ (fget u.feWait word).map (·.map (·.tag)) = some [s.tagOf s.cur]
    (if full then done (.ldfe scope r a) (s.me.setX r (BitVec.ofNat 64 old)) false old else waits (.ldfe scope r a))
      ∧ (if full then done (.ldff scope r a) (s.me.setX r (BitVec.ofNat 64 old)) true old else waits (.ldff scope r a))
      ∧ (if full then waits (.stfe scope r a) else done (.stfe scope r a) s.me true (s.x r).toNat)
      ∧ (if full then done (.stff scope r a) s.me true (s.x r).toNat else waits (.stff scope r a))
      ∧ done (.fepurge scope a) s.me false old

/-! ## Landing sets -/

/-- R145, R144, R141, R146: a tagged load whose checks pass puts an entry in flight under its tag, with the next issue
number, and goes on; a part that fails translation (0x08) or protection (0x0A) is recorded in the entry and traps no one.
A misaligned address, a row that crosses 4 KiB, an occupied tag, a register not claimed or reserved, a class that it may
not read and another tenant's memory trap. On a page that asks for it a light context with an empty landing set moves first
(R62, R160). R152, R153, R353: `lsclr` empties the landing set and restarts the issue
numbers; bit g of `lsinfo`'s result is set exactly where entry g is not empty; `lsre` sends a faulted or poisoned entry
out again from its translation on, with its number, and traps on an entry that is in flight, landed or empty, and on a
number above 63. The new place in program order that `lsre` gives the entry is the model's reading (log entry 42), and so
is the time of a return (log entry 65). -/
def Obligations.TaggedLoadsAndManagement : Prop :=
  (∀ (s : State) (z : Sz) (t : Fin 64) (a : XReg) (d : VArg) (e : Int), s.me.cp = none →
     let va := s.x a + BitVec.ofInt 64 e
     let v := s.me.vnum d
     Quiet s (vargRefs d ++ [xref a, vref v]) →
     let traps := fun (i : Instr) (cause info : Nat) (w : Word) =>
       exec i s = .next (enterTrap { cause := cause, info := info, tval := w } false s)
     let starts := fun (i : Instr) (kind : LKind) (vreg cause : Nat) => ∃ u e', exec i s = .next u ∧ OnlyMeTlb s u
       ∧ Sent s e' cause ∧ e'.kind = kind ∧ e'.addr = va ∧ e'.vreg = vreg ∧ e'.num = s.me.issueCtr
       ∧ u.me = Ctx.gone { s.me with
           landing := fput s.me.landing t.val e', issueCtr := s.me.issueCtr + 1, seq := s.me.seq + 1 } s.cycle 0
     let form := fun (i : Instr) (kind : LKind) (vreg align : Nat) =>
       let crosses := kind = .row ∧ va.toNat / 4096 ≠ (va.toNat + 511) / 4096
       (va.toNat % align ≠ 0 ∨ crosses → traps i 0x04 0 va)
         ∧ (va.toNat % align = 0 → ¬ crosses →
             (fget s.me.landing t.val ≠ none → traps i 0x04 0x40 (BitVec.ofNat 64 t.val))
             ∧ (fget s.me.landing t.val = none → (kind = .vector ∨ kind = .row) → s.me.reserved v = true →
                 traps i 0x12 1 (BitVec.ofNat 64 v))
             ∧ (fget s.me.landing t.val = none → (kind = .vector ∨ kind = .row → s.me.reserved v = false) →
                 (Stays s va → TagLoad s kind va (starts i kind vreg) fun cause => traps i cause 0 va)
                 ∧ (∀ z pa leaf core, kind = .scalar z → myTranslate s va = some (pa, leaf) →
                     permits leaf s.me.priv .rd = true → pteFE leaf = false → tenantOk s s.myTenant pa = true →
                     touchTarget s ⟨pa, leaf, classOf s pa⟩ = some core →
                     Becomes i s (s.me.parkedOn (.mig none core) s.cycle))))
     form (.ldt z t a e) (.scalar z) 0 (match z with | .b | .bu => 1 | .h | .hu => 2 | .w | .wu => 4 | .d => 8)
       ∧ (fget s.me.v v ≠ none → form (.vldt t d a e) .vector v 64 ∧ form (.vldtRow t d a e) .row v 64)
       ∧ (fget s.me.v v = none → traps (.vldt t d a e) 0x12 0 (BitVec.ofNat 64 v)
           ∧ traps (.vldtRow t d a e) 0x12 0 (BitVec.ofNat 64 v)))
  ∧ (∀ (s : State) (d a : XReg), s.me.cp = none → Quiet s [xref a, xref d] →
        let entry := fget s.me.landing (s.x a).toNat
        Becomes .lsclr s (Ctx.gone { s.me with landing := [], issueCtr := 0 } s.cycle 0)
          ∧ (∃ w, Becomes (.lsinfo d) s ((s.me.setX d w).gone s.cycle 0)
              ∧ ∀ g, g < 64 → w.getLsbD g = (fget s.me.landing g).isSome)
          ∧ (64 ≤ (s.x a).toNat ∨ entry = none ∨ (∃ e, entry = some e ∧ (e.st = .inFlight ∨ e.st = .landed)) →
              exec (.lsre a) s = .next (enterTrap { cause := 0x04, info := 0x41, tval := s.x a } false s))
          ∧ (∀ e, (s.x a).toNat < 64 → entry = some e → e.st = .faulted ∨ e.st = .poisoned →
              TagLoad s e.kind e.addr
                (fun cause => ∃ u e', exec (.lsre a) s = .next u ∧ OnlyMeTlb s u ∧ Sent s e' cause ∧ e'.kind = e.kind
                  ∧ e'.addr = e.addr ∧ e'.vreg = e.vreg ∧ e'.num = e.num
                  ∧ u.me = Ctx.gone { s.me with
                      landing := fput s.me.landing (s.x a).toNat e', seq := s.me.seq + 1 } s.cycle 0)
                (fun cause => exec (.lsre a) s = .next (enterTrap { cause := cause, tval := e.addr } false s))))

/-- R147 to R151, R159: in land-order mode `take` and `taken` give the value and the tag of the entry that settled first,
those of an image before all others, and empty it; with nothing outstanding xd is 0 and xt −1; with nothing settled `taken` gives 0 and −2 and `take` parks.
`takex` takes the entry it names, parks while that is in flight and traps where it is empty. -/
def Obligations.Takes : Prop :=
  ∀ (s : State) (d t : XReg), s.me.cp = none → Quiet s [xref d, xref t] → s.me.cr.lsmode = 0 →
    let pair := fun (i : Instr) (v w : Word) (l : FMap LEntry) =>
      Becomes i s (Ctx.gone { (s.me.setX d v).setX t w with landing := l } s.cycle 0)
    (s.me.landing = [] → pair (.take d t) 0 (-1) [] ∧ pair (.taken d t) 0 (-1) [])
      ∧ (s.me.landing ≠ [] → (∀ q ∈ s.me.landing, q.2.st = .inFlight) →
          pair (.taken d t) 0 (-2) s.me.landing
          ∧ Becomes (.take d t) s (s.me.parkedOn (.take d.val t.val s.cycle) s.cycle))
      ∧ (∀ g e, (g, e) ∈ s.me.landing → e.st = .landed → e.place ≠ none ∨ e.at_ < s.cycle →
          (∀ q ∈ s.me.landing, q.2.st = .inFlight ∨ q = (g, e) ∨ match e.place, q.2.place with
            | some i, some j => i < j
            | some _, none => True
            | none, some _ => False
            | none, none => e.at_ < q.2.at_ ∨ (e.at_ = q.2.at_ ∧ g < q.1)) →
          let v := match e.kind with | .scalar _ => e.value | _ => e.addr
          pair (.take d t) v (BitVec.ofNat 64 g) (fdel s.me.landing g)
          ∧ pair (.taken d t) v (BitVec.ofNat 64 g) (fdel s.me.landing g))
      ∧ (∀ g e, (s.x t).toNat = g → g < 64 → fget s.me.landing g = some e →
          (e.st = .landed → e.place ≠ none ∨ e.at_ < s.cycle → Becomes (.takex d t) s (Ctx.gone { (s.me.setX d
              (match e.kind with | .scalar _ => e.value | _ => e.addr)) with landing := fdel s.me.landing g } s.cycle 0))
          ∧ (e.st = .inFlight → Becomes (.takex d t) s (s.me.parkedOn (.takex d.val g s.cycle) s.cycle)))
      ∧ (fget s.me.landing (s.x t).toNat = none →
          exec (.takex d t) s = .next (enterTrap { cause := 0x04, info := 0x41, tval := s.x t } false s))

/-- R142, R143, R145: the return of an entry reaches the core with the bytes of its translated parts, or with the first
poisoned granule; granted by the landing port it settles: faulted where a cause was recorded, poisoned where its return
was, else landed with its value (a vector entry writes its register). A context's own earlier stores are performed here;
the cycles of return and grant are the model's own (log entry 65). R142, R149, R150: a `takex` that parked in an earlier
cycle is woken with its entry in the cycle of the settling; the log byte that a replaying `taken` waits for names the
entry that it takes, and its return ends the hold. That such a `taken` sees every entry that settled before the byte's
return is the model's choice (log entry 71). -/
def Obligations.LandingSettles : Prop :=
  (∀ (s : State) (g : Fin 64) (e : LEntry), s.cur < 45056 → fget s.me.landing g.val = some e → e.st = .inFlight →
     let set := fun (e' : LEntry) => { s.me with landing := fput s.me.landing g.val e' }
     let local' := fun (p : Piece) => (rangeOf p.pa = .lpddr ∨ rangeOf p.pa = .spad) ∧ p.pa % 64 + p.n ≤ 64
     (e.got = none → e.due ≤ s.cycle →
         (e.cause ≠ 0 → Becomes (.landingSettle s.cur g) s (set { e with got := some s.cycle }))
         ∧ (e.cause = 0 → NoStores s → (∀ p ∈ e.ps, local' p ∧ Calm s p.pa p.n) →
             BecomesTlb (.landingSettle s.cur g) s (set { e with
               got := some s.cycle, data := e.ps.flatMap (fun p => memReadList s.mem p.pa p.n), bad := none }))
         ∧ (∀ p, e.cause = 0 → NoStores s → e.ps = [p] → local' p → p.pa % 32 + p.n ≤ 32 → 1 ≤ p.n →
             (∀ b ∈ blocks p.pa p.n, tagFails s s.myTenant b = false) → firstPoison s false p.pa p.n ≠ none →
             s.readHeld p.pa p.n = false → s.outOfTurn s.cur p.pa p.n = false →
             (∀ m ∈ s.maint, sameSector m.lo m.hi p.pa (p.pa + p.n - 1) = false) → s.pausedAt p.pa p.n = false → s.msu.tables = [] →
             BecomesTlb (.landingSettle s.cur g) s (set { e with
               got := some s.cycle, data := memReadList s.mem p.pa p.n
               bad := some (p.va - BitVec.ofNat 64 (p.pa % 32)).toNat })))
       ∧ (∀ c, e.got = some c → portFree s (s.cur / 16) = true → (s.ctx (pathOf s s.cur)).stores = [] →
           let settled := { e with at_ := s.cycle, got := none, data := [], bad := none, ps := [] }
           let after := fun (c : Ctx) => ∃ t, exec (.landingSettle s.cur g) s = .next t ∧ t.me = c ∧ t.mem = s.mem
             ∧ ∀ y, y ≠ s.cur → t.ctx y = s.ctx y
           (e.cause ≠ 0 → after (set { settled with st := .faulted }))
             ∧ (∀ n, e.cause = 0 → e.bad = some n → after (set { settled with st := .poisoned, granule := n }))
             ∧ (∀ z, e.cause = 0 → e.bad = none → e.kind = .scalar z →
                 after (set { settled with st := .landed, value := loadValue z (leNat e.data) }))
             ∧ (e.cause = 0 → e.bad = none → e.kind = .vector ∨ e.kind = .row → (fget s.me.v e.vreg).isSome = true →
                 after { set { settled with st := .landed } with
                   v := fput s.me.v e.vreg (BitVec.ofNat 4096 (leNat e.data)) })))
  ∧ (∀ (s : State) (g : Fin 64) (e : LEntry) (d t : XReg) (issued : Nat) (p : Phys), s.cur < 45056 →
        fget s.me.landing g.val = some e → e.st = .landed →
        let v := match e.kind with | .scalar _ => e.value | _ => e.addr
        let l := fdel s.me.landing g.val
        (s.me.slot = .parked → issued < s.cycle → e.at_ ≤ s.cycle → s.me.wait = some (.takex d.val g.val issued) →
            Becomes (.landingSettle s.cur g) s { (s.me.setX d v) with
              landing := l, slot := .ready, wait := none, pc := s.me.next, readyAt := s.cycle + 1 })
          ∧ (s.me.openHold = some (.logByte d.val t.val) → bits s.me.cr.lsmode 0 2 = 3 → bits s.me.cr.lsmode 32 32 ≠ 0 →
              e.at_ < s.cycle → check s s.me.cr.lslog .rd 0x08 = .ok p → p.cls = .lpddr →
              Unhindered s p.pa 1 → memRead s.mem p.pa = BitVec.ofNat 8 g.val →
              BecomesTlb (.logByteReturn s.cur) s { ((s.me.setX d v).setX t (BitVec.ofNat 64 g.val)) with
                landing := l
                cr := { s.me.cr with
                  lslog := BitVec.ofNat 64 ((s.me.cr.lslog.toNat + 1) % 2 ^ 56), lsmode := s.me.cr.lsmode - 2 ^ 32 }
                openHold := none
                pc := s.me.next
                hold := Nat.max s.cycle ((s.me.lastIssue.map (· + 8)).getD 0) }))

/-! ## Pages 2 and 3: vectors -/

/-- R392, R413, R391: the element-wise forms on integers, for every integer type: results modulo 2^w, `vmin` and `vmax` by
the type's order, shifts by a signed count (a count of w or more leaves 0, or the sign under a right shift of a signed
type), the absolute value and the negation. 16 cycles, 20 for `vfma` and `vfms`. -/
def Obligations.VectorIntegers : Prop :=
  ∀ (s : State) (n : Fin 16) (ty : Ty) (d a b : VReg), ty.isInt = true → s.me.cp = none →
    Quiet s [vref d.val, vref a.val, vref b.val] → Claimed s [d.val, a.val, b.val] →
    let w := ty.width
    let int := fun (v : VReg) (k : Nat) =>
      let e := elemNat w (s.me.vr v.val) k
      if ty.isSigned then asSigned w e else (e : Int)
    let gives := fun (i : Instr) (lat : Nat) (f : Nat → Int) => Lanes i s d.val lat n w fun k => (f k % 2 ^ w).toNat
    gives (.vadd n ty d a b) 16 (fun k => int a k + int b k)
      ∧ gives (.vsub n ty d a b) 16 (fun k => int a k - int b k)
      ∧ gives (.vmul n ty d a b) 16 (fun k => int a k * int b k)
      ∧ gives (.vfma n ty d a b) 20 (fun k => int d k + int a k * int b k)
      ∧ gives (.vfms n ty d a b) 20 (fun k => int d k - int a k * int b k)
      ∧ gives (.vmin n ty d a b) 16 (fun k => min (int a k) (int b k))
      ∧ gives (.vmax n ty d a b) 16 (fun k => max (int a k) (int b k))
      ∧ gives (.vsh n ty d a b) 16 (fun k =>
          let c := asSigned w (elemNat w (s.me.vr b.val) k)
          if 0 ≤ c then int a k * 2 ^ c.toNat else int a k / 2 ^ (-c).toNat)
      ∧ gives (.vabs n ty d a) 16 (fun k => if int a k < 0 then -int a k else int a k)
      ∧ gives (.vneg n ty d a) 16 (fun k => -int a k)

/-- R392, R391, R99, R101: the element-wise forms on TY 8, 9 and 10: the exact sum, product or fused result rounded once
under c.fmt RM; the order of `vmin` and `vmax`; `vabs` clears and `vneg` inverts the sign bit of every float type. A NaN
operand gives the canonical NaN in each arithmetic form. -/
def Obligations.VectorFloats : Prop :=
  ∀ (s : State) (n : Fin 16) (ty : Ty) (d a b : VReg), ty.isFloat = true → s.me.cp = none →
    Quiet s [vref d.val, vref a.val, vref b.val] → Claimed s [d.val, a.val, b.val] →
    let w := ty.width
    let e := fun (v : VReg) (k : Nat) => elemNat w (s.me.vr v.val) k
    let x := fun (v : VReg) (k : Nat) => toX ty (e v k)
    let round := fun (v : XVal) => roundX ty (cfRm s.me) (cfSat s.me) v
    let add := addX (cfRm s.me)
    let nan := fun (k : Nat) (r : Nat) => if x a k = .nan ∨ x b k = .nan then canonNaN ty else r
    let gives := fun (i : Instr) (lat : Nat) (f : Nat → Nat) => Lanes i s d.val lat n w f
    (ty.isArith = true →
      gives (.vadd n ty d a b) 16 (fun k => nan k (round (add (x a k) (x b k))))
      ∧ gives (.vsub n ty d a b) 16 (fun k => nan k (round (add (x a k) (negX (x b k)))))
      ∧ gives (.vmul n ty d a b) 16 (fun k => nan k (round (mulX (x a k) (x b k))))
      ∧ gives (.vfma n ty d a b) 20 (fun k => nan k (round (add (x d k) (mulX (x a k) (x b k)))))
      ∧ gives (.vfms n ty d a b) 20 (fun k => nan k (round (add (x d k) (negX (mulX (x a k) (x b k))))))
      ∧ gives (.vmin n ty d a b) 16 (fun k => nan k (if beforeX (x b k) (x a k) then e b k else e a k))
      ∧ gives (.vmax n ty d a b) 16 (fun k => nan k (if beforeX (x a k) (x b k) then e b k else e a k)))
    ∧ gives (.vabs n ty d a) 16 (fun k => e a k % 2 ^ (w - 1))
    ∧ gives (.vneg n ty d a) 16 (fun k => if e a k < 2 ^ (w - 1) then e a k + 2 ^ (w - 1) else e a k - 2 ^ (w - 1))

/-- R96, R99: rounding is exact on representable values. In every float type and rounding mode, whatever SAT holds, a
number equal to the value of a finite pattern rounds to that pattern, however it is scaled. R99: a number strictly between
the values of two neighbouring finite patterns of one sign rounds to the one that the mode picks: toward zero to the lower
magnitude, down and up by the sign, nearest to the nearer one, a tie to the even pattern. R99, R100: what rounding
does beyond the largest finite value, by mode and sign: in FP32, BF16, FP16, and in E5M2 without SAT, nearest goes to the
infinity from half a step above the largest on, toward zero to the largest finite value, the directed modes to the one on
their side; E4M3, and E5M2 with SAT, saturate in every mode, and an infinity becomes NaN in E4M3, the largest value in E5M2
with SAT. That nearest gives the largest finite value below that half step, and the infinity only from it on, is the model's
reading (DEDUCED, log entry 15): R99's table by its words gives the infinity to every value beyond the largest finite one. -/
def Obligations.Rounding : Prop :=
  (∀ (ty : Ty) (rm : Rm) (sat neg : Bool) (r num k : Nat) (e : Int), ty.isFloat = true → r < 2 ^ ty.width →
     toX ty r = .fin neg num e → roundX ty rm sat (.fin neg (num * 2 ^ k) (e - k)) = r)
  ∧ (∀ (ty : Ty) (sat neg : Bool) (r num num' n : Nat) (e e' low : Int), ty.isFloat = true → r + 1 < 2 ^ ty.width →
        toX ty r = .fin neg num e → toX ty (r + 1) = .fin neg num' e' → low ≤ e → low ≤ e' →
        let a := num * 2 ^ (e - low).toNat
        let b := num' * 2 ^ (e' - low).toNat
        a < n → n < b →
        let round := fun (rm : Rm) => roundX ty rm sat (.fin neg n low)
        round .rtz = r ∧ round .rdn = (if neg then r + 1 else r) ∧ round .rup = (if neg then r else r + 1)
          ∧ round .rne = if 2 * n < a + b ∨ (2 * n = a + b ∧ r % 2 = 0) then r else r + 1)
  ∧ (∀ (ty : Ty) (rm : Rm) (sat neg : Bool) (num n : Nat) (e low : Int), ty.isFloat = true →
        let sign := if neg then 2 ^ (ty.width - 1) else 0
        let max := sign + if ty = .e4m3 then 0x7E else (2 ^ expBits ty - 1) * 2 ^ fracBits ty - 1
        let saturates := ty = .e4m3 ∨ (ty = .e5m2 ∧ sat = true)
        (toX ty max = .fin neg num e → low ≤ e →
          num * 2 ^ (e - low).toNat < n → roundX ty rm sat (.fin neg n low) = if saturates then max else match rm with
              | .rne => if 2 * n < (2 * num + 1) * 2 ^ (e - low).toNat then max else max + 1
              | .rtz => max
              | .rdn => if neg then max + 1 else max
              | .rup => if neg then max else max + 1)
        ∧ roundX ty rm sat (.inf neg) = if ty = .e4m3 then 0x7F else if saturates then max else max + 1)

/-- R393: `vand`, `vor` and `vxor`, as the rule states them: their encodings with the default stall count 2, the illegal TY
codes, all 4,096 bits of the result, 16 cycles after issue. -/
def Obligations.VectorLogic : Prop :=
  ∀ (s : State) (n : Fin 16) (d a b : VReg),
    let u := s.me.vr a.val
    let v := s.me.vr b.val
    let xr := if d.val < 16 ∧ a.val < 16 ∧ b.val / 16 % 4 = 0 then []
      else [0xF400 + d.val / 16 * 64 + a.val / 16 * 4 + b.val / 16 % 4]
    let chain := fun (ty : Nat) =>
      [0xF100 + b.val / 64 * 32 + ty] ++ xr ++ [0xF880, 0x4000 + d.val % 16 * 256 + a.val % 16 * 16 + b.val % 16]
    let whole := fun (i : Instr) (r : VecReg) => Becomes i s ((s.me.owes (.v d.val allBits r) (s.cycle + 16)).gone s.cycle n.val)
    decode (chain 0) = .ok (.vand 2 d a b) (xr.length + 3) ∧ decode (chain 1) = .ok (.vor 2 d a b) (xr.length + 3)
      ∧ decode (chain 2) = .ok (.vxor 2 d a b) (xr.length + 3)
      ∧ (∀ ty, 3 ≤ ty → ty < 16 → ∃ w k, decode (chain ty) = .bad w k)
      ∧ (s.me.cp = none → Quiet s [vref d.val, vref a.val, vref b.val] → Claimed s [d.val, a.val, b.val] →
          whole (.vand n d a b) (u &&& v) ∧ whole (.vor n d a b) (u ||| v) ∧ whole (.vxor n d a b) (u ^^^ v))

/-- R395, R412: bit k of `vcmp`'s mask is the comparison of the elements k (signed or unsigned by the type; a NaN is
unordered), every bit above the last element 0; `vsel` writes exactly the elements whose mask bit is 1. R398, R103: the
function forms, 32 cycles: each element is the function of the source element, with the special values that R103 lists and,
for each form, one more value that it rounds; a NaN gives the canonical NaN. The values of the functions are the model's
choice: they are its functions of 384 fractional bits, rounded once (DESIGN CHOICE, log entry 18), and `vlog2` of 1 is +0 (log
entry 82). -/
def Obligations.VectorMasksAndFunctions : Prop :=
  (∀ (s : State) (n : Fin 16) (ty : Ty) (c : VCond) (d a b : VReg) (k : KReg), s.me.cp = none →
     Quiet s [kref k, vref d.val, vref a.val, vref b.val] → Claimed s [d.val, a.val, b.val] →
     let u := s.me.vr a.val
     let v := s.me.vr b.val
     let w := ty.width
     let cmp := fun (i : Nat) =>
       let x := elemNat w u i
       let y := elemNat w v i
       if ty.isFloat then
         let f := toX ty x
         let g := toX ty y
         match c with | .eq => eqX f g | .ne => !eqX f g | .lt => ltX f g | .le => ltX f g || eqX f g
       else
         let p := if ty.isSigned then asSigned w x else (x : Int)
         let q := if ty.isSigned then asSigned w y else (y : Int)
         match c with | .eq => decide (p = q) | .ne => decide (p ≠ q) | .lt => decide (p < q) | .le => decide (p ≤ q)
     (ty.isArith = true → ∃ r : MaskReg,
         Becomes (.vcmp n c ty k a b) s ((s.me.owes (.k k.val r) (s.cycle + 16)).gone s.cycle n.val)
         ∧ (∀ i, i < 4096 / w → r.getLsbD i = cmp i) ∧ ∀ i, 4096 / w ≤ i → r.getLsbD i = false)
       ∧ (∃ m : VecReg, Becomes (.vsel n ty d a k) s ((s.me.owes (.v d.val m u) (s.cycle + 16)).gone s.cycle n.val)
           ∧ ∀ i, i < 4096 → m.getLsbD i = (s.me.kr k).getLsbD (i / w)))
  ∧ (∀ (s : State) (n : Fin 16) (ty : Ty) (d a : VReg), ty.isWide = true → s.me.cp = none →
        Quiet s [vref d.val, vref a.val] → Claimed s [d.val, a.val] →
        let one := (2 ^ (expBits ty - 1) - 1) * 2 ^ fracBits ty
        let inf := (2 ^ expBits ty - 1) * 2 ^ fracBits ty
        let neg := 2 ^ (ty.width - 1)
        let nan := canonNaN ty
        let forms : List (Instr × (Ty → XVal → Nat) × List (Nat × Nat) × Nat × Nat) :=
          [(.vrcp n ty d a, fRcp, [(one, one), (0, inf), (neg, neg + inf), (inf, 0), (neg + inf, neg)], 0x40400000, 0x3EAAAAAB),
           (.vrsq n ty d a, fRsq, [(one, one), (0, inf), (neg, neg + inf), (inf, 0), (neg + one, nan)], 0x40000000, 0x3F3504F3),
           (.vexp2 n ty d a, fExp2, [(0, one), (inf, inf), (neg + inf, 0)], 0x3F000000, 0x3FB504F3),
           (.vlog2 n ty d a, fLog2, [(one, 0), (0, neg + inf), (neg, neg + inf), (inf, inf), (neg + one, nan)],
             0x40400000, 0x3FCAE00D),
           (.vtanh n ty d a, fTanh, [(0, 0), (neg, neg), (inf, one), (neg + inf, neg + one)], 0x3F800000, 0x3F42F7D6)]
        ∀ q ∈ forms, ∃ f : Nat → Nat, Lanes q.1 s d.val 32 n ty.width f
          ∧ ∀ k, k < 4096 / ty.width →
            let e := elemNat ty.width (s.me.vr a.val) k
            f k = q.2.1 ty (toX ty e) ∧ (∀ p ∈ q.2.2.1, e = p.1 → f k = p.2)
              ∧ (ty = .f32 → e = q.2.2.2.1 → f k = q.2.2.2.2) ∧ (toX ty e = .nan → f k = nan))

/-- R396, R102, R407: `vcvt` converts each element; between integers it clamps to the range of the target. `vwid` spreads
the elements over a pair or quad, element i into register i mod k, place i / k, an integer extended by the signedness of
its source; `vpack` gathers them back. R409, R216:
`vquant` writes the quarter of vd that xb selects with 128 elements divided by the scale, and traps on a reserved bit
of xb; a type that c.fmt may not hold traps before any register is looked at (R104, R85); `vhad` and `vhrnd` give the
transform of R109 and the hashed values of R110, 36 and 24 cycles. The last clause holds the functions used against the
examples of R102 and R409 and the worked block of R109, and a hash of R110 written out. -/
def Obligations.VectorConversions : Prop :=
  (∀ (s : State) (n : Fin 16) (ty sty : Ty) (rm : Rm) (d a : VReg), s.me.cp = none →
     (ty ≠ sty → ty.width = sty.width → Quiet s [vref d.val, vref a.val] → Claimed s [d.val, a.val] →
       ∃ f : Nat → Nat, Lanes (.vcvt n ty sty rm d a) s d.val 16 n ty.width f
         ∧ ∀ k, k < 4096 / ty.width →
           let e := elemNat ty.width (s.me.vr a.val) k
           f k = convert ty sty rm (cfSat s.me) e
             ∧ (ty.isFloat = true → sty.isFloat = true → f k = roundX ty rm (cfSat s.me) (toX sty e))
             ∧ (ty.isFloat = true → sty.isInt = true →
                 let i := if sty.isSigned then asSigned ty.width e else (e : Int)
                 f k = roundX ty rm (cfSat s.me) (.fin (decide (i < 0)) i.natAbs 0))
             ∧ (ty.isInt = true → toX sty e = .nan → sty.isFloat = true → f k = 0)
             ∧ (ty.isInt = true → sty.isInt = true →
                 f k = (max (if ty.isSigned then -2 ^ (ty.width - 1) else 0)
                   (min (if ty.isSigned then 2 ^ (ty.width - 1) - 1 else 2 ^ ty.width - 1)
                     (if sty.isSigned then asSigned ty.width e else (e : Int))) % 2 ^ ty.width).toNat))
       ∧ (∀ k, k = 2 ∨ k = 4 → ty.width = k * sty.width → d.val % k = 0 →
           let vs := (List.range k).map (d.val + ·) ++ [a.val]
           Quiet s (vs.map vref) → Claimed s vs →
           ∃ r : Nat → VecReg, Becomes (.vwid n ty sty d a) s
               (((List.range k).foldl (fun c j => c.owes (.v (d.val + j) allBits (r j)) (s.cycle + 16)) s.me).gone s.cycle n.val)
             ∧ ∀ j p, j < k → p < 4096 / ty.width →
                 let e := elemNat sty.width (s.me.vr a.val) (p * k + j)
                 elemNat ty.width (r j) p = convert ty sty .rne (cfSat s.me) e
                   ∧ (ty.isInt = true → sty.isInt = true → elemNat ty.width (r j) p
                       = ((if sty.isSigned then asSigned sty.width e else (e : Int)) % 2 ^ ty.width).toNat))
       ∧ (∀ k, k = 2 ∨ k = 4 → sty.width = k * ty.width → a.val % k = 0 →
           let vs := d.val :: (List.range k).map (a.val + ·)
           Quiet s (vs.map vref) → Claimed s vs →
           Lanes (.vpack n ty sty rm d a) s d.val 16 n ty.width fun i =>
             convert ty sty rm (cfSat s.me) (elemNat sty.width (s.me.vr (a.val + i % k)) (i / k))))
  ∧ (∀ (s : State) (n : Fin 16) (ty : Ty) (d a : VReg) (b : XReg), s.me.cp = none →
        Quiet s [xref b, vref d.val, vref a.val] → Claimed s [d.val, a.val] →
        let xb := s.x b
        let q := bits xb 32 2
        let src := fun (k : Nat) => elemNat ty.width (s.me.vr a.val) k
        (∀ o : Ty, o = .i8 ∨ o = .u8 ∨ o = .e4m3 ∨ o = .e5m2 → ty.isWide = true → bits s.me.cr.fmt 0 4 = ty.code →
            bits s.me.cr.fmt 8 4 = o.code →
            ((xb.toNat < 2 ^ 35 ∧ ¬ (ty = .f32 ∧ xb.getLsbD 34 = true)) →
              ∃ m r : VecReg, Becomes (.vquant n ty d a b) s ((s.me.owes (.v d.val m r) (s.cycle + 24)).gone s.cycle n.val)
                ∧ (∀ i, i < 4096 → m.getLsbD i = decide (i / 1024 = q))
                ∧ ∀ k, k < 128 → elemNat 8 r (128 * q + k) = quotTo o (cfRm s.me) (cfSat s.me)
                    (toX ty (src (128 * bits xb 34 1 + k))) (toX .f32 (bits xb 0 32)))
            ∧ ((2 ^ 35 ≤ xb.toNat ∨ (ty = .f32 ∧ xb.getLsbD 34 = true)) →
              exec (.vquant n ty d a b) s = .next (enterTrap { cause := 0x04, tval := xb } false s)))
          ∧ (ty = .f32 ∨ ty = .bf16 → Lanes (.vhad n ty d a b) s d.val 36 n ty.width fun k =>
              (hadBlock ty s.me.cr.seed (bits xb 0 1) (xb.toNat / 128 * 128 + k / 128 * 128)
                ((List.range 128).map fun j => convert .f32 ty .rne false (src (k / 128 * 128 + j)))).getD (k % 128) 0)
          ∧ (ty.isArith = true → Lanes (.vhrnd n ty d b) s d.val 24 n ty.width (hrndElem ty s.me.cr.seed xb)))
  ∧ (∀ (s : State) (n : Fin 16) (ty : Ty) (d a : VReg) (b : XReg), s.me.cp = none → ty.isWide = true →
        bits s.me.cr.fmt 0 4 ≠ ty.code ∨ bits s.me.cr.fmt 8 4 ∉ [0, 1, 11, 12] →
        exec (.vquant n ty d a b) s = .next (enterTrap
          { cause := 0x01, tval := BitVec.ofNat 64 (s.me.index * 65536 + s.me.base) } false s))
  ∧ (let from32 := fun (ty : Ty) (rm : Rm) (e : Nat) => convert ty .f32 rm false e
     let quot := fun (o : Ty) (e : Nat) => quotTo o .rne false (toX .f32 e) (toX .f32 0x3F000000)
     let block := fun (u v : Nat) => [u, v] ++ List.replicate 126 0
     let turns := fun (u v : Nat) => (List.range 128).map fun j => if j % 2 = 0 then u else v
     from32 .i8 .rne 0xBE99999A = 0 ∧ from32 .i8 .rdn 0xBE99999A = 0xFF ∧ from32 .e4m3 .rne 0xBE99999A = 0xAA
       ∧ from32 .e4m3 .rne 0xBA6BEDFA = 0x80 ∧ from32 .e4m3 .rdn 0xBA6BEDFA = 0x81 ∧ from32 .u8 .rdn 0xBE99999A = 0
       ∧ convert .f32 .i8 .rne false 0xFF = 0xBF800000 ∧ convert .f32 .u8 .rne false 0xFF = 0x437F0000
       ∧ [0x40400000, 0xC2C80000, 0x3CA3D70A, 0x43FA0000, 0x80000000].map (quot .e4m3) = [0x4C, 0xF4, 0x12, 0x7E, 0x80]
       ∧ [0x40400000, 0xC2C80000, 0x3CA3D70A, 0x43FA0000, 0x80000000].map (quot .i8) = [6, 0x80, 0, 127, 0]
       ∧ hadBlock .f32 4 0 0 (block 0x3F800000 0x40400000) = turns 0x3F000000 0xBE800000
       ∧ hadBlock .f32 4 1 0 (block 0x40000000 0x3F800000) = turns 0x3E400000 0x3D800000
       ∧ hadBlock .f32 2 0 0 (block 0x3F800000 0x40400000) = turns 0x3E800000 0xBF000000
       ∧ hrndElem .u8 0 0 0 = 0xAF ∧ hrndElem .i4 0 0 0 = 0xF ∧ hrndElem .i4 0 0 1 = 0xA
       ∧ hrndElem .f32 0 0 0 = 0x3F6220A8 ∧ hrndElem .bf16 0 0 0 = 0x3F62 ∧ hrndElem .f16 0 0 0 = 0x3B11)

/-- R397, R92, R106, R43, R103: `vdot` and `vred` reduce to a scalar, whose write is outstanding while they hold the next
issue: an integer sum modulo 2^64, or the least or greatest element, for 24 cycles; a float sum in FP32, each step rounded,
for 8 + N. The least or greatest float is widened to FP32; −0 orders below +0, and a NaN gives the canonical NaN. -/
def Obligations.VectorReductions : Prop :=
  ∀ (s : State) (ty : Ty) (d : XReg) (a b : VReg), s.me.cp = none →
    Quiet s [xref d, vref a.val, vref b.val] → Claimed s [a.val, b.val] →
    let w := ty.width
    let lanes := List.range (4096 / w)
    let e := fun (v : VReg) (k : Nat) => elemNat w (s.me.vr v.val) k
    let int := fun (v : VReg) (k : Nat) => if ty.isSigned then asSigned w (e v k) else (e v k : Int)
    let gives := fun (i : Instr) (v : Word) (cycles : Nat) =>
      Becomes i s { (if d = 0 then s.me else s.me.owes (.x d.val v) (s.cycle + cycles)) with
        pc := s.me.next, hold := s.cycle + cycles }
    let x := fun (k : Nat) => toX ty (e a k)
    let sum := fun (f : Nat → XVal) => BitVec.ofNat 64 (lanes.foldl (fun acc k =>
      roundX .f32 (cfRm s.me) false (addX (cfRm s.me) (toX .f32 acc) (f k))) 0)
    (ty.isInt = true →
      gives (.vdot ty d a b) (BitVec.ofInt 64 ((lanes.map fun k => int a k * int b k).sum)) 24
      ∧ gives (.vred .add ty d a) (BitVec.ofInt 64 ((lanes.map (int a)).sum)) 24
      ∧ (∃ m ∈ lanes, gives (.vred .min ty d a) (BitVec.ofInt 64 (int a m)) 24 ∧ ∀ k ∈ lanes, int a m ≤ int a k)
      ∧ (∃ m ∈ lanes, gives (.vred .max ty d a) (BitVec.ofInt 64 (int a m)) 24 ∧ ∀ k ∈ lanes, int a k ≤ int a m))
    ∧ (ty.isFloat = true →
      gives (.vdot ty d a b) (sum fun k => mulX (toX ty (e a k)) (toX ty (e b k))) (8 + 4096 / w)
      ∧ gives (.vred .add ty d a) (sum x) (8 + 4096 / w)
      ∧ (ty.isArith = true →
        let best := fun (op : RedOp) (before : XVal → XVal → Bool) => ∃ r, gives (.vred op ty d a) (BitVec.ofNat 64 r) 24
          ∧ ((∃ k ∈ lanes, x k = .nan) → r = canonNaN .f32)
          ∧ ((∀ k ∈ lanes, x k ≠ .nan) →
              ∃ m ∈ lanes, r = roundX .f32 .rne false (x m) ∧ ∀ k ∈ lanes, before (x k) (x m) = false)
        best .min beforeX ∧ best .max fun u v => beforeX v u))

/-- R408, R394, R406: `vperm` looks each element up in va by its index modulo N, `vbcast` and `vidx` fill vd from xb,
`vmovs` writes one element and leaves the others, or reads one, sign- or zero-extended; an index beyond N traps. R410:
`vralloc` claims the range, zeroed, where it lies below v256, none of it is claimed and the core's pool has that many
free registers; `vrfree` gives a claimed range back; every other register stays as it is. -/
def Obligations.VectorMovesAndAllocation : Prop :=
  (∀ (s : State) (n : Fin 16) (ty : Ty) (d a : VArg) (x b : XReg), s.me.cp = none →
     let dn := s.me.vnum d
     let an := s.me.vnum a
     Quiet s (vargRefs d ++ vargRefs a ++ [xref x, xref b, vref dn, vref an]) → Claimed s [dn, an] →
     let w := ty.width
     let e := fun (v k : Nat) => elemNat w (s.me.vr v) k
     let i := (s.x b).toNat
     (ty.isInt = true → Lanes (.vperm n ty d a) s dn 16 n w fun k => e an (e dn k % (4096 / w)))
       ∧ Lanes (.vbcast n ty d b) s dn 16 n w (fun _ => i % 2 ^ w)
       ∧ (ty.isInt = true → Lanes (.vidx n ty d b) s dn 16 n w fun k => (i + k) % 2 ^ w)
       ∧ (i < 4096 / w →
           (∃ m r : VecReg, Becomes (.vmovsToVector n ty d x b) s ((s.me.owes (.v dn m r) (s.cycle + 16)).gone s.cycle n.val)
             ∧ (∀ j, j < 4096 → m.getLsbD j = decide (j / w = i)) ∧ elemNat w r i = (s.x x).toNat % 2 ^ w)
           ∧ Becomes (.vmovsToScalar n ty x a b) s (Ctx.gone (if x = 0 then s.me else s.me.owes (.x x.val (BitVec.ofInt 64
               (if ty.isSigned then asSigned w (e an i) else (e an i : Int)))) (s.cycle + 16)) s.cycle n.val))
       ∧ (4096 / w ≤ i → let stop := Host.Outcome.next (enterTrap { cause := 0x04, tval := s.x b } false s)
           exec (.vmovsToVector n ty d x b) s = stop ∧ exec (.vmovsToScalar n ty x a b) s = stop))
  ∧ (∀ (s : State) (d : VArg) (b : XReg) (n : Nat), s.me.cp = none → (s.x b).toNat = n → 0 < n →
        let v := s.me.vnum d
        let names := (List.range n).map (v + ·)
        v + n ≤ 256 → Quiet s (vargRefs d ++ [xref b] ++ names.map vref) →
        let moves := fun (i : Instr) (inside : Option VecReg) => ∃ m, Becomes i s (Ctx.gone { s.me with v := m } s.cycle 0)
          ∧ ∀ r, fget m r = if v ≤ r ∧ r < v + n then inside else fget s.me.v r
        let traps := fun (i : Instr) (info val : Nat) =>
          exec i s = .next (enterTrap { cause := 0x12, info := info, tval := BitVec.ofNat 64 val } false s)
        ((∀ r ∈ names, fget s.me.v r = none) → n ≤ poolFree s (s.cur / 16) → moves (.vralloc d b) (some 0))
          ∧ ((∀ r ∈ names, fget s.me.v r = none) → poolFree s (s.cur / 16) < n → traps (.vralloc d b) 2 n)
          ∧ (Claimed s names → (∀ r ∈ names, s.me.outstanding (.v r) = false) → moves (.vrfree d b) none)
          ∧ (fget s.me.v v = none → traps (.vrfree d b) 5 v)
          ∧ ((fget s.me.v v).isSome = true → traps (.vralloc d b) 3 v))

/-- R401, R404: `vld` and `vldx` park and fill vd, `vld` with the 512 bytes at the address, `vldx` with the element at `xb
+ index × size` in each lane; memory is as before. R401, R404, R402: `vst` writes the 512 bytes of its register,
`vstx` each element in ascending order, so that the last of two writes to one address stands. No other byte changes. With ENCMETA this holds while no minor
counter of a block written overflows. A page whose class or tenant fails a check traps with the first address of the access
in it (R401). That a store is in memory in the step that issues it is the model's choice (log entry 10). -/
def Obligations.VectorMemory : Prop :=
  (∀ (s : State) (scope : Scope) (ty : Ty) (d a : VArg) (b : XReg) (e : Int) (pa : Nat → Nat), s.me.cp = none → s.cur < 45056 →
     let dn := s.me.vnum d
     let an := s.me.vnum a
     Quiet s (vargRefs d ++ vargRefs a ++ [xref b, vref dn, vref an]) → Claimed s [dn, an] →
     let okAt := fun (va : Word) (p n : Nat) => ∃ leaf, check s va .rd 0x08 = .ok ⟨p, leaf, .lpddr⟩ ∧ Unhindered s p n
     let fills := fun (i : Instr) (bytes : List Byte) => ∃ u, Twice i (.plainLoadReturn s.cur) s u ∧ OnlyMeTlb s u
       ∧ u.me = Ctx.woken { s.me with v := fput s.me.v dn (BitVec.ofNat 4096 (leNat bytes)) } s.cycle s.cycle
     let va := s.x b + BitVec.ofInt 64 e
     let w := ty.width / 8
     let at' := fun (k : Nat) => s.x b + BitVec.ofNat 64 (elemNat ty.width (s.me.vr an) k * w)
     (va.toNat % 64 = 0 → (∀ k, k < 8 → okAt (va + BitVec.ofNat 64 (64 * k)) (pa k) 64) →
         fills (.vld scope d b e) ((List.range 8).flatMap fun k => memReadList s.mem (pa k) 64))
       ∧ (ty.width ≠ 4 → (s.x b).toNat % w = 0 → (∀ k, k < 4096 / ty.width → okAt (at' k) (pa k) w) →
         fills (.vldx scope ty d b a) ((List.range (4096 / ty.width)).flatMap fun k => memReadList s.mem (pa k) w))
       ∧ (va.toNat % 64 ≠ 0 → exec (.vld scope d b e) s = .next (enterTrap { cause := 0x04, tval := va } false s))
       ∧ (va.toNat % 64 = 0 → va.toNat % 65536 + 512 ≤ 65536 →
           (∀ k, k < 8 → ∃ leaf, myTranslate s (va + BitVec.ofNat 64 (64 * k)) = some (pa k, leaf)
             ∧ permits leaf s.me.priv .rd = true) →
           let traps := fun (cause : Nat) => exec (.vld scope d b e) s = .next (enterTrap { cause := cause, tval := va } false s)
           let classless := ∃ k, k < 8 ∧ (classOf s (pa k) = .none ∨ classOf s (pa k) = .device)
           (classless → traps 0x04)
             ∧ (¬ classless → (∃ k, k < 8 ∧ tenantOk s s.myTenant (pa k) = false) → traps 0x1D)))
  ∧ (∀ (s : State) (scope : Scope) (ty : Ty) (v a : VArg) (b : XReg) (e : Int) (pa : Nat → Nat), s.me.cp = none →
        s.me.twin = false → s.me.wait = none →
        let vn := s.me.vnum v
        let an := s.me.vnum a
        Quiet s (vargRefs v ++ vargRefs a ++ [xref b, vref vn, vref an]) → Claimed s [vn, an] →
        let okAt := fun (va : Word) (p n : Nat) => ∃ leaf, check s va .wr 0x09 = .ok ⟨p, leaf, .lpddr⟩ ∧ Writable s p n
        let writes := fun (i : Instr) (count n : Nat) (seqs : Nat) =>
          (s.feature 3 = true → ∀ b, (fget s.encMinor b).getD 0 + (List.range count).countP (fun k => pa k / 64 = b) ≤ 127) →
          ∃ t, exec i s = .next t ∧ OthersButJoins s t
          ∧ t.me = Ctx.gone { s.me with seq := s.me.seq + seqs } s.cycle 0
          ∧ t.mem = (List.range count).foldl
              (fun m k => memWriteList m (pa k) (((vecBytes (s.me.vr vn)).drop (n * k)).take n)) s.mem
        let va := s.x b + BitVec.ofInt 64 e
        let w := ty.width / 8
        let at' := fun (k : Nat) => s.x b + BitVec.ofNat 64 (elemNat ty.width (s.me.vr an) k * w)
        (va.toNat % 64 = 0 → (∀ k, k < 8 → okAt (va + BitVec.ofNat 64 (64 * k)) (pa k) 64) → writes (.vst scope v b e) 8 64 1)
          ∧ (ty.width ≠ 4 → (s.x b).toNat % w = 0 → (∀ k, k < 4096 / ty.width → okAt (at' k) (pa k) w) →
              writes (.vstx scope ty v b a) (4096 / ty.width) w (4096 / ty.width)))

/-! ## Page 4: tasks, messages, barriers, groups -/

/-- R50, R53, R377: `spawn`, `spawnd` and the twin form read the 64 bytes of a packet, send it to the named core (the owner
of an address for `spawnd`; both cores of the pair for the twin form) and go on; `fork` pushes it onto the bottom of its
band of the own deque. A target outside the tenant's sub-mesh traps. -/
def Obligations.SpawningForms : Prop :=
  ∀ (s : State) (a b : XReg) (p : Phys), Quiet s [xref a, xref b] → s.me.cp = none → s.me.twin = false → s.cur < 45056 →
    Local s (s.x b) .rd 0x08 p → (s.x b).toNat % 64 = 0 → Unhindered s p.pa 64 →
    let bytes := memReadList s.mem p.pa 64
    let flags := leNat ((bytes.drop 60).take 4)
    let core := s.cur / 16
    flags < 2 →
    let sends := fun (i : Instr) (l : List (Nat × Packet)) => ∃ u, Twice i (.plainLoadReturn s.cur) s u
      ∧ u.me = s.me.woken s.cycle s.cycle ∧ u.mem = s.mem ∧ (∀ y, y ≠ s.cur → u.ctx y = s.ctx y)
      ∧ (∀ q, q ∈ u.net.packets ↔ q ∈ l ∨ q ∈ s.net.packets) ∧ u.net.packets.length = s.net.packets.length + l.length
    let traps := fun (i : Instr) (t : Nat) =>
      exec i s = .next (enterTrap { cause := 0x1D, tval := BitVec.ofNat 64 t } false s)
    let ok := fun (t : Nat) => t < 2816 ∧ s.inMesh s.myTenant t = true
    let t := (s.x a).toNat % 4096
    (ok t → sends (.spawn a b) [(t, { bytes := bytes, rank := 2 + core })])
      ∧ (¬ ok t → traps (.spawn a b) t)
      ∧ ((s.tenant s.myTenant).twin.getLsbD 0 = true → ok t → ok (t ^^^ 4) →
          sends (.spawnTwin a b) [(t, { bytes := bytes, rank := 2 + core, pair := some (s.twinCtr, true) }),
            (t ^^^ 4, { bytes := bytes, rank := 2 + core, pair := some (s.twinCtr, false) })])
      ∧ (∀ pa e o, myTranslate s (s.x a) = some (pa, e) → ownerOf s pa = some o →
          (ok o → sends (.spawnd a b) [(o, { bytes := bytes, rank := 2 + core })]) ∧ (¬ ok o → traps (.spawnd a b) o))
      ∧ ((s.core core).urgent.length + (s.core core).normal.length < 64 →
          ∃ u, Twice (.fork b) (.plainLoadReturn s.cur) s u ∧ u.me = s.me.woken s.cycle s.cycle ∧ u.mem = s.mem
            ∧ u.core core = (if flags = 1 then
                { s.core core with urgent := (s.core core).urgent ++ [{ bytes := bytes }] }
              else { s.core core with normal := (s.core core).normal ++ [{ bytes := bytes }] }))

/-- R51, R342: `join` completes where its counter word is zero and parks where it is not. R52, R365: `quit` with its jobs
and stores done decrements the JOIN word, where there is one, and leaves; the slot is empty from the next cycle on and
keeps its incarnation. -/
def Obligations.JoinAndQuit : Prop :=
  (∀ (s : State) (a : XReg) (p : Phys), Quiet s [xref a] → s.me.cp = none → s.me.twin = false →
     (s.x a).toNat % 8 = 0 → checkPage s s.myTlb s.myTenant s.me.priv (s.x a) .rd 0x08 = .ok p →
     (p.cls = .lpddr ∨ p.cls = .spad ∨ p.cls = .window) → tenantOk s s.myTenant p.pa = true → Unhindered s p.pa 8 →
     let n := leNat (memReadList s.mem p.pa 8)
     (n = 0 → BecomesTlb (.join a) s { (s.me.woken s.cycle s.cycle) with readyAt := 0, hold := s.cycle + 8 })
       ∧ (n ≠ 0 → BecomesTlb (.join a) s (s.me.parkedOn (.join (s.x a) p.pa true) s.cycle)))
  ∧ (∀ (s : State) (p : Phys), s.me.cp = none → s.me.twin = false → s.storesDone s.cur = true → jobsDone s s.cur = true →
        s.me.cg.pend = false → s.cur < 45056 →
        let leaving := { s.me.parkedOn .quitEnd s.cycle with wait := some (.quitGone (s.cycle + 1)) }
        (s.me.join = 0 → Becomes .quit s leaving)
          ∧ (s.me.join ≠ 0 → s.me.join.toNat % 8 = 0 → checkPage s s.myTlb s.myTenant s.me.priv s.me.join .wr 0x09 = .ok p →
              (p.cls = .lpddr ∨ p.cls = .spad ∨ p.cls = .window) → tenantOk s s.myTenant p.pa = true →
              Writable s p.pa 8 → s.mem.wf = true →
              ∃ t, exec .quit s = .next t ∧ t.me = leaving ∧ SameOutside s.mem t.mem p.pa 8 ∧ OthersButJoins s t
                ∧ leNat (memReadList t.mem p.pa 8) = (leNat (memReadList s.mem p.pa 8) + 2 ^ 64 - 1) % 2 ^ 64)
          ∧ (∀ at_, s.me.slot = .parked → s.me.wait = some (.quitGone at_) → at_ ≤ s.cycle → s.me.blocked = [] →
              ∃ t, exec (.plainLoadReturn s.cur) s = .next t ∧ t.ctx s.cur = { inc := s.me.inc } ∧ t.mem = s.mem))

/-- R47, R363: `park` goes on where no channel of xs[3:0] is watched or a watched one holds a message, and parks otherwise;
a message placed on a watched channel wakes it and stays in its mailbox, one on another channel leaves it parked. -/
def Obligations.Park : Prop :=
  ∀ (s : State) (a : XReg), Quiet s [xref a] → s.me.cp = none →
    let holds := fun (n : Nat) => s.me.box (2 * n) ≠ [] ∨ s.me.box (2 * n + 1) ≠ []
    let watched := fun (n : Nat) => n < 4 ∧ (s.x a).getLsbD n = true
    ((∃ n, watched n ∧ holds n) ∨ (∀ n, ¬ watched n) → Becomes (.park a) s (s.me.gone s.cycle 0))
      ∧ ((∃ n, watched n) → (∀ n, watched n → ¬ holds n) →
          Becomes (.park a) s (s.me.parkedOn (.watch ((s.x a).toNat % 16)) s.cycle))
      ∧ (∀ (k : Nat) (m : Msg) (mask : Nat) (y : CtxId), s.me.slot = .parked → s.me.wait = some (.watch mask) →
          (∀ n, n < 4 → mask.testBit n = true → ¬ holds n) → s.net.msgs[k]? = some m → m.at_ ≤ s.cycle →
          (∀ q ∈ s.net.msgs, q.granted = false) → m.done = false → m.via = [] → m.reserve = false → m.ch < 4 →
          s.resident m.dest = some s.cur → s.resident m.sender = some y → y ≠ s.cur → s.me.inbox = [] →
          let key := 2 * m.ch + m.hi.toNat
          s.me.box key = [] →
          ∃ t, exec (.messageArrival k) s = .next t ∧ t.me.box key = [m] ∧ t.me.x = s.me.x
            ∧ (mask.testBit m.ch = true → t.me.slot = .ready ∧ t.me.pc = s.me.next ∧ t.me.readyAt = s.cycle + 1)
            ∧ (mask.testBit m.ch = false → t.me.slot = .parked ∧ t.me.pc = s.me.pc))

/-- R61, R62, R358: `mig` to the own core gives 1; to another core it parks, and the move gives 1 in a slot there, leaving
the old slot empty with a forwarding entry to the new tag, or 0 where there is no slot; a heavy context traps. -/
def Obligations.Migration : Prop :=
  ∀ (s : State) (d a : XReg) (core : Nat), Quiet s [xref a, xref d] → s.me.cp = none → s.me.twin = false → s.cur < 45056 →
    let here := s.cur / 16
    (s.me.v ≠ [] → exec (.mig d a) s = .next (enterTrap { cause := 0x12 } false s))
      ∧ (∀ pa e, s.me.v = [] → myTranslate s (s.x a) = some (pa, e) → ownerOf s pa = some core →
          s.inMesh s.myTenant core = true →
          (core = here → BecomesTlb (.mig d a) s ((s.me.setX d 1).gone s.cycle 0))
          ∧ (core ≠ here → BecomesTlb (.mig d a) s (s.me.parkedOn (.mig (some d.val) core) s.cycle)))
      ∧ (s.me.wait = some (.mig (some d.val) core) → s.me.slot = .parked → s.me.stores = [] → s.me.pend = [] →
          s.me.replies = [] →
          (emptySlot s core = none → Becomes (.migrationMoveEnd s.cur) s
            { (s.me.setX d 0) with slot := .ready, wait := none, pc := s.me.next, readyAt := s.cycle + 1 })
          ∧ (∀ i, s.me.movable = true → commandWaits s s.cur = false → emptySlot s core = some i → core ≠ here → s.me.blocked = [] →
              let y := core * 16 + i
              let inc := ((s.ctx y).inc + 1) % 256
              ∃ t, exec (.migrationMoveEnd s.cur) s = .next t ∧ t.ctx s.cur = { inc := s.me.inc }
                ∧ (t.ctx y).x = (s.me.setX d 1).x ∧ (t.ctx y).pc = s.me.next ∧ (t.ctx y).k = s.me.k
                ∧ (t.ctx y).slot = .ready ∧ (t.ctx y).inc = inc
                ∧ fget (t.core here).forwards (s.tagOf s.cur) = some { new := some (y * 256 + inc), used := s.cycle }))

/-- R63, R372: a `send` reads its message, and with no tag cached presents it to the tag in xt on its channel and
priority; the sender is parked until it is accepted. A length of 0 or beyond 64, or a core outside the sub-mesh,
traps. R64, R366: a message that reaches its resident context takes the last place of its mailbox, which counts as
sent and received, and its sender goes on; with four messages there the sender is recorded as blocked and stays
parked. The rules do not say how long a message is under way, nor when it counts as sent: that it can be placed from the
next cycle on, and that it is counted when it is accepted, are the model's choices (log entries 13 and 49). -/
def Obligations.SendAndArrival : Prop :=
  (∀ (s : State) (n : Fin 4) (t a l : XReg) (hi : Bool) (pa : Nat) (e : Word), Quiet s [xref t, xref a, xref l] →
     s.me.cp = none → s.me.twin = false → s.me.held = none → s.cur < 45056 →
     let i : Instr := if hi then .sendHi n t a l else .sendLo n t a l
     let va := s.x a
     let len := (s.x l).toNat
     let dest := (s.x t).toNat % 2 ^ 24
     va.toNat % 8 = 0 →
     (len = 0 ∨ 64 < len → exec i s = .next (enterTrap { cause := 0x04, tval := s.x l } false s))
       ∧ (1 ≤ len → len ≤ 64 → va.toNat % 65536 + len ≤ 65536 → checkRange s va len .rd 0x08 = none →
           myTranslate s va = some (pa, e) → rangeOf pa ≠ .peer → Unhindered s pa len →
           ((2816 ≤ dest / 4096 ∨ s.inMesh s.myTenant (dest / 4096) = false) →
             exec i s = .next (enterTrap { cause := 0x1D, tval := BitVec.ofNat 64 (dest / 4096) } false s))
           ∧ (dest / 4096 < 2816 → s.inMesh s.myTenant (dest / 4096) = true → (s.core (s.cur / 16)).tagCache = [] →
             let m : Msg := { sender := s.tagOf s.cur, dest := dest, ch := n.val, hi := hi,
                              data := memReadList s.mem pa len, at_ := s.cycle + 1 }
             ∃ u, Twice i (.plainLoadReturn s.cur) s u ∧ u.mem = s.mem ∧ (∀ y, y ≠ s.cur → u.ctx y = s.ctx y)
               ∧ (∀ q, q ∈ u.net.msgs ↔ q = m ∨ q ∈ s.net.msgs) ∧ u.me.slot = .parked ∧ u.me.wait = some .space
               ∧ u.me.x = s.me.x ∧ u.me.pc = s.me.pc ∧ u.me.held = some { m with at_ := 0 })))
  ∧ (∀ (s : State) (k : Nat) (m : Msg) (x y : CtxId), s.net.msgs[k]? = some m → m.at_ ≤ s.cycle →
        (∀ q ∈ s.net.msgs, q.granted = false) → m.done = false → m.via = [] → m.reserve = false →
        s.resident m.dest = some x → (s.ctx x).slot = .ready → s.resident m.sender = some y → y ≠ x →
        (s.ctx y).slot = .parked → m.sender / 256 = y → m.dest / 256 = x →
        let key := 2 * m.ch + m.hi.toNat
        let box := (s.ctx x).box key
        (∀ q ∈ box, q.reserve = false) → (s.ctx x).inbox = [] →
        ∃ t, exec (.messageArrival k) s = .next t ∧ t.mem = s.mem ∧ t.net.msgs = s.net.msgs.eraseIdx k
          ∧ (box.length < 4 → (t.ctx x).box key = box ++ [m] ∧ (t.ctx y).slot = .ready ∧ (t.ctx y).pc = (s.ctx y).next
              ∧ (t.core (x / 16)).recv = (s.core (x / 16)).recv + 1 ∧ (t.core (y / 16)).sent = (s.core (y / 16)).sent + 1)
          ∧ (4 ≤ box.length → (t.ctx x).box key = box ∧ (t.ctx x).blocked = (s.ctx x).blocked ++ [(key, m.sender)]
              ∧ (t.ctx y).slot = .parked ∧ (t.ctx y).pc = (s.ctx y).pc))

/-- R65, R366: `recv` and `recvn` take the oldest message of the channel, the high mailbox before the low one unless the
last seven takes passed the low one over; its bytes go to memory at xa, sender, length and priority to xd. With no message
`recvn` gives −1 and `recv` parks. That its plain stores are in memory at once is the model's choice (log entry 10). -/
def Obligations.Receive : Prop :=
  ∀ (s : State) (n : Fin 4) (d a : XReg), Quiet s [xref a, xref d] → s.me.cp = none → (s.x a).toNat % 8 = 0 →
    let va := s.x a
    let high := s.me.box (2 * n.val + 1)
    let low := s.me.box (2 * n.val)
    let both := fun (p : Instr → Prop) => p (.recv n d a) ∧ p (.recvn n d a)
    (high = [] → low = [] → Becomes (.recvn n d a) s ((s.me.setX d (-1)).gone s.cycle 0)
        ∧ Becomes (.recv n d a) s (s.me.parkedOn (.recv n.val d.val va) s.cycle))
      ∧ (∀ (hi : Bool) (m : Msg) (rest : List Msg) (pa : Nat) (e : Word),
          (if hi then high else low) = m :: rest →
          (hi = true ↔ high ≠ [] ∧ (low = [] ∨ (fget s.me.highRun n.val).getD 0 < 7)) →
          m.reserve = false → s.me.blocked = [] → (s.tenant s.myTenant).inbox = 0 → s.me.twin = false → s.me.wait = none →
          1 ≤ m.data.length → m.data.length ≤ 64 → va.toNat % 65536 + m.data.length ≤ 65536 →
          checkRange s va m.data.length .wr 0x09 = none → myTranslate s va = some (pa, e) → rangeOf pa ≠ .peer →
          Writable s pa m.data.length → s.mem.wf = true →
          both fun i => ∃ t, exec i s = .next t ∧ memReadList t.mem pa m.data.length = m.data
            ∧ SameOutside s.mem t.mem pa m.data.length ∧ OthersButJoins s t
            ∧ t.me.x = (s.me.setX d (BitVec.ofNat 64
                (m.sender % 2 ^ 24 + m.data.length * 2 ^ 24 + if m.hi then 2 ^ 31 else 0))).x
            ∧ t.me.pc = s.me.next ∧ t.me.box (2 * n.val + hi.toNat) = rest
            ∧ t.me.box (2 * n.val + (!hi).toNat) = s.me.box (2 * n.val + (!hi).toNat))

/-- R254, R255, R318: `bar` parks; its arrival opens or joins the generation of the cluster counter, and the last arrival
starts the next generation with no one waiting; a context whose generation is over is released. A count outside 1 to
128, a barrier number beyond 15, or a count that differs from the open generation's, traps. R255, R257: the barrier of
a group: `bar.fab` parks with the member count and traps without a group or with another count; the arrival of a
member is recorded with its index, the last one starts the next generation. A deadline cancels the generation: its waiter traps with cause
0x1A, INFO 1. -/
def Obligations.Barriers : Prop :=
  (∀ (s : State) (a b : XReg) (id n : Nat), Quiet s [xref a, xref b] → s.me.cp = none → s.me.twin = false → s.cur < 45056 →
     let cl := clusterOf (s.cur / 16)
     let c := (fget (s.cluster cl).bars id).getD {}
     let bars := fun (t : State) => (fget (t.cluster cl).bars id).getD {}
     (s.x a = BitVec.ofNat 64 id → id < 16 → (s.x b).toNat = n → 1 ≤ n → n ≤ 128 →
         Becomes (.bar a b) s (s.me.parkedOn (.bar false id n none) s.cycle))
       ∧ (16 ≤ (s.x a).toNat → exec (.bar a b) s = .next (enterTrap { cause := 0x04, tval := s.x a } false s))
       ∧ ((s.x a).toNat < 16 → (s.x b).toNat = 0 ∨ 128 < (s.x b).toNat →
           exec (.bar a b) s = .next (enterTrap { cause := 0x04, tval := s.x b } false s))
       ∧ (s.me.wait = some (.bar false id n none) → s.me.slot = .parked → s.storesDone s.cur = true → s.me.cr.bardl = 0 →
           let arrives := fun (w : Barrier) => ∃ t, exec (.barrierArrival s.cur) s = .next t ∧ bars t = w ∧ t.mem = s.mem
             ∧ t.me = { s.me with wait := some (.bar false id n (some c.gen)), barTimer := none, barLeft := none }
           (c.count + 1 = n → c.count = 0 ∨ c.n = n → arrives { n := n, gen := (c.gen + 1) % 65536 })
           ∧ (c.count + 1 < n → c.count = 0 ∨ c.n = n → arrives { c with
               count := c.count + 1, n := n, cores := c.cores ||| 2 ^ clusterCore (s.cur / 16)
               waiters := c.waiters ++ [s.tagOf s.cur] })
           ∧ (c.count ≠ 0 → c.n ≠ n → ∃ t, exec (.barrierArrival s.cur) s = .next t ∧ bars t = c
               ∧ t.me.cr.cause = 0x21A ∧ t.me.pc = s.me.cr.tvec))
       ∧ (∀ g, s.me.wait = some (.bar false id n (some g)) → s.me.slot = .parked → barWaits s (s.tagOf s.cur) = false →
           Becomes (.barrierRelease s.cur) s { s.me with
             slot := .ready, wait := none, pc := s.me.next, readyAt := s.cycle + 1, barTimer := none, barLeft := none }))
  ∧ (∀ (s : State) (a b : XReg) (id : Nat), Quiet s [xref a, xref b] → s.me.cp = none → s.me.twin = false → s.cur < 45056 →
        let g := s.me.cg
        let traps := fun (info : Nat) =>
          exec (.barFab a b) s = .next (enterTrap { cause := 0x19, info := info, tval := s.x b } false s)
        ((s.x a).toNat = id → id < 16 →
            (g.valid = false → traps 1) ∧ (g.valid = true → (s.x b).toNat ≠ g.count → traps 4)
            ∧ (g.valid = true → (s.x b).toNat = g.count →
                Becomes (.barFab a b) s (s.me.parkedOn (.bar true id g.count none) s.cycle)))
          ∧ (∀ n, s.me.wait = some (.bar true id n none) → s.me.slot = .parked → s.storesDone s.cur = true →
              (g.fab = true → s.releaseWaits s.cur = false) →
              let e := groupBar s s.myTenant g.group id
              (e.arrived = [] ∨ e.n = n → ∃ t, exec (.barrierArrival s.cur) s = .next t ∧ t.mem = s.mem
                ∧ groupBar t s.myTenant g.group id = (if e.arrived.length + 1 = n then
                    { e with n := n, gen := (e.gen + 1) % 65536, arrived := [], waiters := [] }
                  else { e with n := n, arrived := e.arrived ++ [g.index], waiters := e.waiters ++ [s.tagOf s.cur] }))
              ∧ (e.arrived ≠ [] → e.n ≠ n → ∃ t, exec (.barrierArrival s.cur) s = .next t ∧ t.mem = s.mem
                  ∧ t.me.cr.cause = 0x21A ∧ t.me.pc = s.me.cr.tvec ∧ groupBar t s.myTenant g.group id = e))
          ∧ (∀ n gen dl c, s.me.wait = some (.bar false id n (some gen)) → s.me.slot = .parked → s.me.barTimer = some dl →
              dl ≤ s.cycle → barCluster s (s.tagOf s.cur) = some c →
              let e := (fget (s.cluster c).bars id).getD {}
              e.waiters = [s.tagOf s.cur] → s.resident (s.tagOf s.cur) = some s.cur →
              ∃ t, exec (.barrierDeadlineExpiry s.cur) s = .next t ∧ t.me.cr.cause = 0x11A ∧ t.me.pc = s.me.cr.tvec
                ∧ t.me.cr.epc = s.me.pc ∧ t.me.barTimer = none ∧ t.mem = s.mem
                ∧ (fget (t.cluster c).bars id).getD {} = { n := e.n, gen := (e.gen + 1) % 65536 }))

/-- R258 to R260, R322, R325: `cgjoin` reads its descriptor under a hold and, where every field is in range, makes the
context the member that xb names; `cgleave` leaves the group; `cbfence` goes on where no round is unresolved and parks
otherwise. In a group across packages it leaves no peer sector of the tenant in the package (R168). -/
def Obligations.Groups : Prop :=
  ∀ (s : State) (d a b : XReg) (p : Phys), Quiet s [xref a, xref b, xref d] → s.me.cp = none → s.me.twin = false →
    s.cur < 45056 →
    let g := s.me.cg
    (g.pend = false → Becomes .cgleave s (Ctx.gone { s.me with cg := {} } s.cycle 0))
      ∧ (g.pend = true → exec .cgleave s = .next (enterTrap { cause := 0x19, info := 6 } false s))
      ∧ (g.valid = false ∨ g.pend = false ∨ g.res = true →
          (g.fab = false → Becomes .cbfence s (s.me.gone s.cycle 0))
          ∧ (g.fab = true → ∃ t, exec .cbfence s = .next t ∧ t.me = s.me.gone s.cycle 0 ∧ t.mem = s.mem
              ∧ (∀ y, y ≠ s.cur → t.ctx y = s.ctx y) ∧ ∀ q ∈ t.peerCopy, q.2.tenant ≠ s.myTenant))
      ∧ (g.valid = true → g.pend = true → g.res = false → Becomes .cbfence s (s.me.parkedOn .cbfence s.cycle))
      ∧ (g.valid = true → exec (.cgjoin d a b) s = .next (enterTrap { cause := 0x19, info := 5, tval := s.x a } false s))
      ∧ (g.valid = false → (s.x a).toNat % 64 = 0 → Local s (s.x a) .rd 0x08 p → Unhindered s p.pa 64 →
          let bytes := memReadList s.mem p.pa 64
          let word := fun (o n : Nat) => leNat ((bytes.drop o).take n)
          let count := word 4 4
          let i := (s.x b).toNat
          word 0 2 < 4096 → word 2 1 < 2 → (word 2 1 = 1 → s.feature 0 = true) → word 3 1 = 0 → 1 ≤ count → count ≤ 1048576 →
          word 8 8 % 8 = 0 → (∀ y ∈ bytes.drop 16, y = 0) →
          ∃ t, exec (.cgjoin d a b) s = .next t ∧ t.me.pc = s.me.pc ∧ t.me.openHold ≠ none ∧
            (i < count → ∃ u, exec (.openEndedHoldEnd s.cur) t = .next u ∧ u.me.pc = s.me.next ∧ u.me.openHold = none
              ∧ u.me.cg = { valid := true, fab := decide (word 2 1 = 1), group := word 0 2, count := count, index := i
                            map := BitVec.ofNat 64 (word 8 8) }
              ∧ u.me.x = (s.me.setX d (BitVec.ofNat 64
                  (2 ^ 63 + word 2 1 * 2 ^ 62 + word 0 2 * 2 ^ 44 + count * 2 ^ 23 + i))).x ∧ u.mem = s.mem)
            ∧ (count ≤ i → ∃ u, exec (.openEndedHoldEnd s.cur) t = .next u ∧ u.me.cr.cause = 0x219 ∧ u.me.cr.tval = s.x b))

/-- R261, R262, R323, R324: a collective branch without an outcome votes, checkpoints the scalar and mask registers, starts
its deadline and runs ahead as predicted; one that issues again before its outcome casts no second vote; with its outcome
there it goes to the label where the outcome is taken; outside a group it traps. The three forms differ in the round they
vote in. R264, R265: a vote joins the open round of its group, once the stores that it releases are performed; the vote
that completes the round resolves it: any, all or a majority of the members; one of another count or kind, or a second
vote of a member, is refused. An outcome as predicted ends the run-ahead and performs its stores; another one restores the
checkpoint's registers and goes the other way; a refusal restores them and traps with cause 0x19, INFO 3; a deadline
restores them, writes the bitmap of the missing members at MAP where it can, and traps with cause 0x18 and their number. An
outcome for a member with SPEC = 0 is kept in RES and OUT, and one that waits in `cbfence` goes on; a deferred trap is taken
at its instruction with DEFER = 1, or discarded with the run-ahead. R263: while it runs ahead every vector form, engine
command, page-4 form, atomic, full/empty, landing-set and maintenance form, and every page-6 form but `mfc` and `trap`, parks
on wake source 8 and has no other effect. That a running deadline goes on where a `cbr` issues again, and that a member in a
handler keeps its registers with EPC at its `cbr` when its vote is refused or its deadline passes, is the model's reading
(log entry 45). -/
def Obligations.CollectiveBranches : Prop :=
  (∀ (s : State) (pt : Bool) (d : XReg) (off : Int), Quiet s [xref d] → s.me.cp = none → s.me.twin = false →
     let g := s.me.cg
     let label := s.me.pc + BitVec.ofInt 64 (2 * off)
     let dl := bits s.me.cr.cgdl 0 32
     let ahead := fun (c : Ctx) => { c with
       cp := some ⟨s.me.x, s.me.k, s.cycle + 8, s.me.pend, s.me.pc, s.me.next, label, pt⟩
       cbrAt := some s.me.pc
       cgTimer := if s.me.cgTimer ≠ none then s.me.cgTimer else if dl = 0 then none else some (s.cycle + dl * 1024)
       pc := if pt then label else s.me.next
       hold := s.cycle + 8 }
     ∀ q ∈ [(Instr.cbrAny pt d off, VoteKind.any), (.cbrAll pt d off, .all), (.cbrMaj pt d off, .maj)],
       (g.valid = false → exec q.1 s = .next (enterTrap { cause := 0x19, info := 1 } false s))
       ∧ (g.valid = true → g.pend = true → g.res = true → Becomes q.1 s
           (Ctx.goneTo { s.me with cg := { g with pend := false, res := false }, cgTimer := none, cgLeft := none }
             (if g.out then label else s.me.next) s.cycle))
       ∧ (g.valid = true → g.pend = true → g.res = false → Becomes q.1 s (ahead s.me))
       ∧ (g.valid = true → g.pend = false → ∃ t, exec q.1 s = .next t ∧ (∀ y, y ≠ s.cur → t.ctx y = s.ctx y)
           ∧ t = { s with ctxs := t.ctxs, net := { s.net with votes := s.net.votes
               ++ [⟨some (s.tagOf s.cur), s.myTenant, g.group, g.index, g.count, q.2, s.x d != 0, g.fab⟩] } }
           ∧ t.me = ahead { s.me with cg := { g with pend := true } }))
  ∧ (∀ (s : State) (cp : Checkpoint) (taken : Bool), s.cur < 45056 → s.me.slot = .ready → s.me.cp = some cp →
        cp.pend = [] → s.me.wait = none → s.me.cg.pend = true → s.me.cg.res = false →
        let g := s.me.cg
        let tag := s.tagOf s.cur
        let back := fun (t : State) => t.me.x = cp.x ∧ t.me.k = cp.k ∧ t.me.cp = none ∧ t.me.spec = []
        (s.net.verdicts = [{ member := tag, taken := taken }] →
            ∃ t, exec (.cbrResolutionArrival s.cur) s = .next t ∧ t.me.cg.pend = false ∧ t.me.cp = none
              ∧ (taken = cp.predicted → t.me.x = s.me.x ∧ t.me.k = s.me.k ∧ t.me.pc = s.me.pc ∧ t.me.spec = []
                  ∧ (s.me.spec = [] → t.mem = s.mem)
                  ∧ ∀ st, s.me.spec = [st] → s.me.stores = [] → rangeOf st.pa = .lpddr → st.rlSy = false →
                      storeHeld s s.cur st = false →
                      (∀ b ∈ blocks st.pa st.data.length, otherKey s s.myTenant (b * 64) = false) →
                      t.mem = memWriteList s.mem st.pa st.data)
              ∧ (taken ≠ cp.predicted → back t ∧ t.mem = s.mem ∧ t.me.pc = if taken then cp.label else cp.next))
          ∧ (s.net.verdicts = [{ member := tag, taken := false, refused := true }] →
            ∃ t, exec (.cbrVoteRefused s.cur) s = .next t ∧ back t ∧ t.mem = s.mem ∧ t.me.cg.pend = false
              ∧ t.me.cr.cause = 0x319 ∧ t.me.cr.epc = cp.cbr ∧ t.me.pc = s.me.cr.tvec)
          ∧ (∀ dl r, s.net.verdicts = [] → s.rounds = [r] → r.tenant = s.myTenant → r.group = g.group → 1 ≤ g.count →
              s.me.cgTimer = some dl → dl ≤ s.cycle →
              let voted := fun (i : Nat) => r.votes.any (·.index = i)
              let n := (g.count + 7) / 8
              let missing := (List.range g.count).countP fun i => !voted i
              let traps := fun (t : State) (tval : Word) => exec (.cbrDeadlineExpiry s.cur) s = .next t ∧ back t
                ∧ t.me.cg.pend = true ∧ t.me.cr.cause = BitVec.ofNat 64 (0x18 + 256 * min missing 255)
                ∧ t.me.cr.tval = tval ∧ t.me.cr.epc = cp.cbr ∧ t.me.pc = s.me.cr.tvec
              (myTranslate s g.map = none → ∃ t, traps t 0 ∧ t.mem = s.mem)
              ∧ (∀ pa e, checkRange s g.map n .wr 0x09 = none → g.map.toNat % 65536 + n ≤ 65536 →
                  myTranslate s g.map = some (pa, e) → rangeOf pa ≠ .peer → Writable s pa n → s.mem.wf = true →
                  ∃ t, traps t g.map ∧ SameOutside s.mem t.mem pa n
                    ∧ ∀ i, i < 8 * n → (memRead t.mem (pa + i / 8)).getLsbD (i % 8) = decide (i < g.count ∧ voted i = false))))
  ∧ (∀ (s : State) (cbr : Word), s.cur < 45056 → s.me.slot = .ready → s.me.cp = none → s.me.openHold = none →
        s.me.wait = none → s.me.cg.pend = true → s.me.cg.res = false → s.me.cbrAt = some cbr →
        let traps := fun (i : Instr) (cause : Nat) => ∃ t, exec i s = .next t ∧ t.me.x = s.me.x ∧ t.me.k = s.me.k
          ∧ t.me.cr.cause.toNat % 256 = cause ∧ t.me.cr.epc = cbr ∧ t.me.pc = s.me.cr.tvec ∧ t.mem = s.mem
        (s.net.verdicts = [{ member := s.tagOf s.cur, taken := false, refused := true }] → traps (.cbrVoteRefused s.cur) 0x19)
          ∧ (∀ dl, s.net.verdicts = [] → s.me.cgTimer = some dl → dl ≤ s.cycle → myTranslate s s.me.cg.map = none →
              1 ≤ s.me.cg.count → traps (.cbrDeadlineExpiry s.cur) 0x18))
  ∧ (∀ (s : State) (cp : Checkpoint), s.cur < 45056 → s.me.slot = .parked → s.me.wait = some .runAhead → s.me.cp = some cp →
        s.me.spec = [] → s.net.verdicts = [{ member := s.tagOf s.cur, taken := cp.predicted }] →
        ∃ t, exec (.cbrResolutionArrival s.cur) s = .next t ∧ t.me.slot = .ready ∧ t.me.wait = none ∧ t.me.pc = s.me.pc
          ∧ t.me.readyAt = s.cycle + 1 ∧ t.me.x = s.me.x ∧ t.me.cp = none ∧ t.mem = s.mem
          ∧ (s.me.cg.fab = true → ∀ q ∈ t.peerCopy, q.2.tenant ≠ s.myTenant))
  ∧ (∀ (s : State) (taken : Bool), s.cur < 45056 → s.me.cp = none → s.me.cg.pend = true →
        s.net.verdicts = [{ member := s.tagOf s.cur, taken := taken }] →
        let resolved := { s.me with cg := { s.me.cg with res := true, out := taken }, cgTimer := none, cgLeft := none }
        (s.me.slot = .ready ∨ s.me.slot = .halted ∨ (s.me.slot = .parked ∧ s.me.wait ≠ some .cbfence) →
          ∃ t, exec (.cbrResolutionArrival s.cur) s = .next t ∧ t.me = resolved ∧ (∀ y, y ≠ s.cur → t.ctx y = s.ctx y)
            ∧ t = { s with ctxs := t.ctxs, net := { s.net with verdicts := [] } })
        ∧ (s.me.slot = .parked → s.me.wait = some .cbfence → ∃ t, exec (.cbrResolutionArrival s.cur) s = .next t
            ∧ t.me = { resolved with slot := .ready, wait := none, pc := s.me.next, readyAt := s.cycle + 1 } ∧ t.mem = s.mem
            ∧ (s.me.cg.fab = true → ∀ q ∈ t.peerCopy, q.2.tenant ≠ s.myTenant)))
  ∧ (∀ (s : State) (cp : Checkpoint) (taken : Bool) (t : TrapInfo), s.cur < 45056 → s.me.slot = .parked →
        s.me.wait = some (.deferred t) → s.me.cp = some cp → cp.pend = [] → s.me.spec = [] → t.cause < 256 → t.info < 256 →
        s.net.verdicts = [{ member := s.tagOf s.cur, taken := taken }] →
        ∃ u, exec (.cbrResolutionArrival s.cur) s = .next u ∧ u.me.cp = none ∧ u.me.slot = .ready ∧ u.me.wait = none
          ∧ u.me.readyAt = s.cycle + 1 ∧ u.mem = s.mem
          ∧ (taken = cp.predicted → u.me.x = s.me.x ∧ u.me.pc = s.me.cr.tvec ∧ u.me.cr.tval = t.tval
              ∧ u.me.cr.cause = BitVec.ofNat 64 (t.cause + t.info * 256 + 65536)
              ∧ u.me.cr.epc = if t.cause = 0x30 ∨ t.cause = 0x31 then s.me.next else s.me.pc)
          ∧ (taken ≠ cp.predicted → u.me.x = cp.x ∧ u.me.k = cp.k ∧ u.me.cr = s.me.cr
              ∧ u.me.pc = if taken then cp.label else cp.next))
  ∧ (∀ (s : State) (k : Nat) (v : Vote), s.net.votes[k]? = some v →
        (∀ tag, v.voter = some tag →
          (∀ x, s.resident tag = some x → s.storesDone x = true ∧ (v.fab = true → s.releaseWaits x = false))
          ∧ (s.resident tag = none →
              fget s.orphans tag = none ∧ (v.fab = true → s.releaseOf v.tenant tag = false))) →
        let same := fun (r : Round) => r.tenant == v.tenant && r.group == v.group
        let r := (s.rounds.find? same).getD ⟨v.tenant, v.group, v.count, v.kind, []⟩
        let others := s.rounds.filter fun q => !same q
        let votes := r.votes ++ [v]
        let ones := votes.countP (·.vote)
        let joins := r.count = v.count ∧ r.kind = v.kind ∧ ∀ w ∈ r.votes, w.index ≠ v.index
        ∃ t, exec (.aniseVoteArrival k) s = .next t ∧ SameCtxs s t ∧ t.net.votes = s.net.votes.eraseIdx k
          ∧ (joins → votes.length ≠ r.count →
              t.rounds = others ++ [{ r with votes := votes }] ∧ t.net.verdicts = s.net.verdicts)
          ∧ (joins → votes.length = r.count → t.rounds = others
              ∧ t.net.verdicts = s.net.verdicts ++ votes.filterMap fun q => q.voter.map fun m =>
                  { member := m, taken := match r.kind with
                    | .any => decide (0 < ones) | .all => decide (ones = r.count) | .maj => decide (r.count < 2 * ones) })
          ∧ (¬ joins → t.rounds = s.rounds ∧ t.net.verdicts = s.net.verdicts
              ++ v.voter.toList.map fun m => { member := m, taken := false, refused := true }))
  ∧ (∀ (s : State) (n : Fin 16) (ty from' : Ty) (z : Sz) (t : Fin 64) (m : Fin 4) (w : Scope) (d a b : XReg) (e f g : VReg)
        (h q : VArg) (k : KReg) (off : Int) (op : AmoOp) (w4 aq rl pt : Bool) (cond : VCond) (rm : Rm) (red : RedOp) (c : CReg),
        s.me.cp ≠ none →
        let waits := fun (i : Instr) => Becomes i s (s.me.parkedOn .runAhead s.cycle)
        Wait.source .runAhead = 8
        ∧ (∀ i ∈ [Instr.amo op w4 aq rl w d b a, .fence w, .flrd a, .cwb w a b, .cinv w a b, .spfence, .ldfe w d a,
            .ldff w d a, .stfe w d a, .stff w d a, .fepurge w a, .ldt z t a off, .take d a, .taken d a, .takex d a, .lsre a,
            .lsclr], waits i)
        ∧ (∀ i ∈ [Instr.vand n e f g, .vor n e f g, .vxor n e f g, .vsel n ty e f k, .vabs n ty e f, .vneg n ty e f,
            .vdot ty d e f, .vred .add ty d e, .vld w h b off, .vst w h b off, .vldt t h b off, .vldtRow t h b off,
            .vbcast n ty h b, .vmovsToVector n ty h a b, .vmovsToScalar n ty d h b, .vralloc h b, .vrfree h b], waits i)
        ∧ (ty.isArith = true → ∀ i ∈ [Instr.vadd n ty e f g, .vsub n ty e f g, .vmul n ty e f g, .vfma n ty e f g,
            .vfms n ty e f g, .vmin n ty e f g, .vmax n ty e f g, .vcmp n cond ty k e f, .vhrnd n ty e a, .vred red ty d e],
            waits i)
        ∧ (ty.isInt = true → ∀ i ∈ [Instr.vsh n ty e f g, .vperm n ty h q, .vidx n ty h b], waits i)
        ∧ (ty.isWide = true → ∀ i ∈ [Instr.vrcp n ty e f, .vrsq n ty e f, .vexp2 n ty e f, .vlog2 n ty e f, .vtanh n ty e f],
            waits i)
        ∧ (ty.isWide = true → quantTypes ty s.me = true → waits (.vquant n ty e f b))
        ∧ (ty = .f32 ∨ ty = .bf16 → waits (.vhad n ty e f b))
        ∧ (convertible ty from' = true → waits (.vcvt n ty from' rm e f))
        ∧ (ty.ratio from' ≠ 0 → e.val % ty.ratio from' = 0 → waits (.vwid n ty from' e f))
        ∧ (from'.ratio ty ≠ 0 → f.val % from'.ratio ty = 0 → waits (.vpack n ty from' rm e f))
        ∧ (ty.width ≠ 4 → waits (.vldx w ty h b q) ∧ waits (.vstx w ty h b q))
        ∧ (∀ i ∈ [Instr.spawn a b, .spawnTwin a b, .spawnd a b, .fork a, .join a, .quit, .park a, .mig d a,
            .sendHi m d a b, .sendLo m d a b, .recv m d a, .recvn m d a, .bar a b, .barFab a b, .cgjoin d a b, .cgleave,
            .cbfence, .cbrAny pt d off, .cbrAll pt d off, .cbrMaj pt d off], waits i)
        ∧ (∀ i ∈ [Instr.mjob n d a b, .mmul d a b, .mload n d a b, .mloadSp n d a b, .mfree n d a, .cjob n d a b,
            .cstep n d a b, .rowadd n d a b, .rowcommit n d a b, .rowpause n d a b, .jwait d a, .jpoll n d a], waits i)
        ∧ (s.feature 6 = true → ∀ i ∈ [Instr.prd n d a b, .prdsel n d a, .mrow d a b], waits i)
        ∧ (∀ i ∈ [Instr.eret, .halt, .snap, .tlbinv a b], waits i)
        ∧ (CReg.readOnly c = false → (c = .status → s.me.priv = true) → waits (.mtc c a)))

/-! ## Page 5: engines and memory-side units -/

/-- R199, R200, R201, R416: an engine command whose operands pass its checks joins the end of its engine's queue with what
is captured at issue, and its context goes on after its stall count with its reply outstanding for 24 cycles (R24); `mmul`
and `mrow` park. One of those two that issues again after an interruption waits on the job that it has recorded and submits
nothing (R275; what it has recorded stands until it issues at its address: log entry 93). A misaligned address or a reserved bit traps with the operand, a type that c.fmt may not hold with the
parcel. R200 lists the type first, and it comes before an outstanding register (R85; the order among them is log entry 87,
the model's reading). For `prd` and `mrow` R235 lists the type behind the conditions of R200, while R85 ranks it before them:
which of the two traps then is a free value (log entry 91). -/
def Obligations.EngineCommands : Prop :=
  ∀ (s : State) (n : Fin 16) (d a b : XReg), s.me.cp = none →
    let cl := clusterOf (s.cur / 16)
    let u := s.x a
    let v := s.x b
    let type := fun (at_ : Nat) => bits s.me.cr.fmt at_ 4
    let outs := 8 ≤ type 8 ∧ type 8 ≤ 12
    let sent := fun (c : Ctx) (i : Instr) (e : EngineId) (op : JobOp) (stall : Nat) (w : Word) =>
      ∃ t, exec i s = .next t ∧ t.me = c ∧ t.mem = s.mem ∧ (∀ y, y ≠ s.cur → t.ctx y = s.ctx y)
        ∧ t.queueOf e = { s.queueOf e with waiting := (s.queueOf e).waiting ++ [{
            op := op, tag := s.tagOf s.cur, tenant := s.myTenant, priv := s.me.priv, stall := stall, d := d.val, xa := u,
            xb := w, cr := s.me.cr, cg := s.me.cg, issued := s.cycle, members := (s.tenant s.myTenant).members }] }
    let owed : List PendWrite := if d = 0 then [] else [{ due := s.cycle + 24, write := .x d.val 0 }]
    let goes := sent (Ctx.gone { s.me with replies := s.me.replies ++ owed } s.cycle n.val)
    let parks := fun (i : Instr) (e : EngineId) (op : JobOp) (stall : Nat) (w : Word) => s.me.recorded 9 = none →
      sent (s.me.parkedOn (.submit d.val) s.cycle) i e op stall w
    let stops := fun (i : Instr) (cause : Nat) (w : Word) =>
      exec i s = .next (enterTrap { cause := cause, tval := w } false s)
    let parcel : Word := BitVec.ofNat 64 (s.me.index * 65536 + s.me.base)
    let misaligned := fun (i : Instr) (typed : Prop) (w : Word) =>
      (typed → stops i 0x04 w) ∧ (¬ typed → if Config.typeFirst then stops i 0x01 parcel else stops i 0x04 w)
    let new := fun (p : Prop) => s.me.recorded 9 = none → p
    (∀ id, s.me.recorded 9 = some id →
        let waits := fun (i : Instr) => Becomes i s ({ s.me with again := none }.parkedOn (.job id d.val) s.cycle)
        waits (.mmul d a b) ∧ (s.feature 6 = true → waits (.mrow d a b)))
      ∧ (s.me.twin = false →
        (type 0 ≠ 11 ∨ ¬ outs → stops (.mjob n d a b) 0x01 parcel ∧ new (stops (.mmul d a b) 0x01 parcel))
        ∧ (type 4 ≠ 11 → stops (.mload n d a b) 0x01 parcel ∧ stops (.mloadSp n d a b) 0x01 parcel))
      ∧ (s.feature 6 = false → stops (.prd n d a b) 0x01 parcel ∧ stops (.prdsel n d a) 0x01 parcel
          ∧ stops (.mrow d a b) 0x01 parcel)
      ∧ (Quiet s [xref a, xref b, xref d] → s.me.twin = false → s.me.jobs = [] →
          (type 0 = 11 → outs → u.toNat % 64 = 0 → v.toNat < 32 →
              goes (.mjob n d a b) (.clove cl) .mjob n.val v ∧ parks (.mmul d a b) (.clove cl) .mmul 0 v)
          ∧ (type 4 = 11 → u.toNat % 64 = 0 → v.toNat < 32 →
              goes (.mload n d a b) (.clove cl) .mload n.val v ∧ goes (.mloadSp n d a b) (.clove cl) .mloadSp n.val v)
          ∧ (u.toNat < 32 → goes (.mfree n d a) (.clove cl) .mfree n.val 0)
          ∧ (u.toNat % 64 = 0 → v.toNat < 4 → goes (.cjob n d a b) (.copy cl) .cjob n.val v)
          ∧ (u.toNat % 64 = 0 → v.toNat < 65536 → goes (.cstep n d a b) .coll .cstep n.val v)
          ∧ (s.feature 6 = true → u.toNat % 64 = 0 →
              goes (.prdsel n d a) (.sumac cl) .prdsel n.val 0
              ∧ (v.toNat % 64 = 0 → type 0 = 11 → goes (.prd n d a b) (.sumac cl) .prd n.val v
                  ∧ (outs → parks (.mrow d a b) (.clove cl) .mrow 0 v))
              ∧ (v.toNat % 64 = 0 → type 0 ≠ 11 → stops (.prd n d a b) 0x01 parcel)
              ∧ (v.toNat % 64 = 0 → type 0 ≠ 11 ∨ ¬ outs → new (stops (.mrow d a b) 0x01 parcel))
              ∧ (v.toNat % 64 ≠ 0 → misaligned (.prd n d a b) (type 0 = 11) v
                  ∧ new (misaligned (.mrow d a b) (type 0 = 11 ∧ outs) v)))
          ∧ (s.feature 6 = true → u.toNat % 64 ≠ 0 →
              stops (.prdsel n d a) 0x04 u ∧ misaligned (.prd n d a b) (type 0 = 11) u
              ∧ new (misaligned (.mrow d a b) (type 0 = 11 ∧ outs) u))
          ∧ (u.toNat % 64 ≠ 0 → stops (.cjob n d a b) 0x04 u ∧ stops (.cstep n d a b) 0x04 u
              ∧ (type 0 = 11 → outs → stops (.mjob n d a b) 0x04 u ∧ new (stops (.mmul d a b) 0x04 u))
              ∧ (type 4 = 11 → stops (.mload n d a b) 0x04 u ∧ stops (.mloadSp n d a b) 0x04 u))
          ∧ (u.toNat % 64 = 0 → 4 ≤ v.toNat → stops (.cjob n d a b) 0x04 v)
          ∧ (u.toNat % 64 = 0 → 65536 ≤ v.toNat → stops (.cstep n d a b) 0x04 v)
          ∧ (u.toNat % 64 = 0 → 32 ≤ v.toNat →
              (type 0 = 11 → outs → stops (.mjob n d a b) 0x04 v ∧ new (stops (.mmul d a b) 0x04 v))
              ∧ (type 4 = 11 → stops (.mload n d a b) 0x04 v ∧ stops (.mloadSp n d a b) 0x04 v))
          ∧ (32 ≤ u.toNat → stops (.mfree n d a) 0x04 u))

/-- R201, R203, R202, R210, R128: an engine accepts the command that waits alone, which gets the next job id, a record, the
sectors that its reads resolved and the reply 24 cycles after its issue; a context that waited for it is held until the
reply, another one is not. The first job of a queue starts; a job that frees a handle works for 40 cycles from its
start; a job whose time has passed leaves its engine and its record is complete. R138, R216, R418: a copy
job, with its data there, leaves as its result the bytes of the source for the range of the destination, to be written
when the job completes, 40 cycles and one for every 64 bytes after its start, and what its passes waited (R210). The rules do
not say when within that time a job reads its source and writes its destination, nor how an engine's turn goes round: that
it reads when the data arrives and writes when it completes (log entry 28), that the turn of the collective engines goes by
core (log entry 29), and that a job whose writes wait completes all the same (log entry 89), are the model's reading. -/
def Obligations.EngineJobs : Prop :=
  ((∀ (s s' : State) (e : EngineId) (c : Cmd) (owns : List Own) (bad : Option (Nat × JFault)), s.cur < 45056 → c.tag / 256 = s.cur →
     let q := s.queueOf e
     let cl := clusterOf (s.cur / 16)
     let id := (s.cluster cl).jobId
     q.waiting = [c] → q.queue.length < 16 → q.acceptedAt = none → s.storesDone s.cur = true → s.me.jobs.length < 32 →
     heldIds s cl = [] → s.me.wait = none → s.me.cp = none → behindOther s c = false → acceptReads s c = some (owns, bad, s') →
     s' = { s with tlb := s'.tlb, free := s'.free, poison := s'.poison, peerCopy := s'.peerCopy, peerHome := s'.peerHome,
                   fabric := s'.fabric } →
     c.d ≠ 0 → s.cycle < c.issued + 24 →
     ∃ t, exec (.engineAccept e s.cur) s = .next t ∧ t.mem = s.mem ∧ (∀ y, y ≠ s.cur → t.ctx y = s.ctx y)
       ∧ t.queueOf e = { waiting := [], queue := q.queue ++ [⟨id, s.jobOrder, c, owns, bad, []⟩]
                         last := some (robin e (s.cur / 16)), acceptedAt := some s.cycle }
       ∧ t.me.jobs = s.me.jobs ++ [{ id := id, order := s.jobOrder }] ∧ t.me.pc = s.me.pc ∧ t.me.x = s.me.x
       ∧ t.me.pend = s.me.pend ++ [{ due := c.issued + 24, write := .x c.d (BitVec.ofNat 64 id) }]
       ∧ t.me.replies = s.me.replies.erase { due := c.issued + 24, write := .x c.d 0 }
       ∧ (s.me.openHold = none → t.me.openHold = none ∧ t.me.hold = s.me.hold)
       ∧ (s.me.openHold = some .reply → waitsOpen t c.tag = false →
           t.me.openHold = none ∧ t.me.hold = max s.me.hold (c.issued + 24)))
   ∧ (∀ (s : State) (e : EngineId) (j : Job) (rest : List Job), e ≠ .coll → engineExists e = true →
     (s.engine e).run = none → (s.engine e).queue = j :: rest → (s.core (j.cmd.tag / 4096)).stopped = false →
     ∃ t, exec (.engineJobStart e) s = .next t ∧ SameCtxs s t
       ∧ t.engine e = { s.engine e with queue := rest, run := some { job := j, start := s.cycle } })
   ∧ (∀ (s : State) (n id : Nat) (r : Running) (h : Handle), n < 352 → (s.cluster n).clove.run = some r →
     (r.waiting = true → r.job.cmd.op = .mfree → r.job.cmd.xa = BitVec.ofNat 64 id → id < 32 →
       clusterOf (r.job.cmd.tag / 4096) = n → fget (s.cluster n).handles id = some h →
       ∃ t, exec (.jobDataArrival (.clove n)) s = .next t ∧ SameCtxs s t ∧ (t.cluster n).clove.run = some { r with
         waiting := false, due := r.start + 40 + r.delay, res := { handle := some (id, none) }, rounds := [] })
     ∧ (∃ t, exec (.mrowRoundRequest n) s = .next t ∧ SameCtxs s t
         ∧ (t.cluster n).clove.run = some { r with rounds := r.rounds.filter (s.cycle < ·) }))
   ∧ (∀ (s : State) (n x : Nat) (e : EngineId) (i : Instr) (r : Running) (f : Option JFault), n < 352 →
     (e, i) ∈ [(.clove n, .cloveJobComplete n), (.copy n, .copyJobComplete n), (.sumac n, .sumacJobComplete n)] →
     (s.engine e).run = some r → r.waiting = false → r.due ≤ s.cycle → r.res = { fault := f } → NothingHeld s →
     s.resident r.job.cmd.tag = some x → (s.ctx x).slot = .ready →
     (s.ctx x).jobs = [{ id := r.job.id, order := r.job.order }] →
     ∃ t, exec i s = .next t ∧ t.mem = s.mem ∧ (t.engine e).run = none ∧ (∀ y, y ≠ x → t.ctx y = s.ctx y)
       ∧ t.ctx x = { s.ctx x with
           jobs := [{ id := r.job.id, order := r.job.order, doneAt := some s.cycle, fault := f }] }))
  ∧ (∀ (s : State) (n src dst len : Nat) (r : Running) (da sa ta : Nat) (nc : Bool), n < 352 →
        (s.cluster n).copy.run = some r → r.waiting = true → r.job.bad = none →
        let c := r.job.cmd
        c.op = .cjob → c.xb = 0 → c.xa.toNat % 64 = 0 → Fresh s (jobTlb s c) c.tenant →
        JobReads s c c.xa.toNat da 64 → JobFree s r.job.order da 64 → JobReads s c src sa len → JobFree s r.job.order sa len →
        JobWrites s c dst ta len nc →
        memReadList s.mem da 64 = natLe 8 src ++ natLe 8 dst ++ natLe 8 len ++ List.replicate 40 0 →
        ∃ t, exec (.jobDataArrival (.copy n)) s = .next t ∧ SameCtxs s t
          ∧ ∃ r', (t.cluster n).copy.run = some r' ∧ r'.job = r.job ∧ r'.waiting = false
            ∧ r'.due = r.start + 40 + (len + 63) / 64 + r.delay
            ∧ r'.res.writes = [{ pa := ta, data := memReadList s.mem sa len, nc := nc }] ∧ r'.res.fault = none)

/-- R213, R214, R343: `jwait` gives 0 when every selected job is complete without a fault, traps with the fault of the
first faulted record, and parks while one is pending; `jpoll` gives 0, −1 or the status 24 cycles later and, where bit 17
says so, removes the faulted record. -/
def Obligations.AwaitedJobs : Prop :=
  ∀ (s : State) (n : Fin 16) (d a : XReg), Quiet s [xref a, xref d] → s.me.cp = none → s.me.twin = false →
    let sel := s.x a
    let mine := fun (r : JobRec) => sel.getLsbD 16 = true ∨ r.id = sel.toNat % 65536
    let polled := fun (w : Word) (l : List JobRec) => Becomes (.jpoll n d a) s
      (let c := { s.me with jobs := l }
       (if d = 0 then c else c.owes (.x d.val w) (s.cycle + 24)).gone s.cycle n.val)
    (sel.toNat < 2 ^ 17 →
      ((∀ r ∈ s.me.jobs, mine r → r.doneAt ≠ none ∧ r.fault = none) →
        Becomes (.jwait d a) s ((s.me.setX d 0).gone s.cycle 0))
      ∧ ((∃ r ∈ s.me.jobs, mine r ∧ r.doneAt = none) → Becomes (.jwait d a) s (s.me.parkedOn (.jwait sel d.val) s.cycle))
      ∧ (∀ r f at_, s.me.jobs = [r] → mine r → r.doneAt = some at_ → r.fault = some f → f.kind < 256 →
          f.kind ≠ 0x0B → f.kind ≠ 0x12 → exec (.jwait d a) s = .next (enterTrap
            { cause := 0x15, info := f.kind, tval := BitVec.ofNat 64 (f.addr % 2 ^ 56) } false s)))
      ∧ (2 ^ 17 ≤ sel.toNat → exec (.jwait d a) s = .next (enterTrap { cause := 0x04, tval := sel } false s))
      ∧ (sel.toNat < 2 ^ 18 →
        ((∀ r ∈ s.me.jobs, mine r → (∃ at_, r.doneAt = some at_ ∧ at_ < s.cycle) ∧ r.fault = none) → polled 0 s.me.jobs)
        ∧ ((∀ r ∈ s.me.jobs, r.fault = none) → (∃ r ∈ s.me.jobs, mine r ∧ r.doneAt = none) → polled (-1) s.me.jobs)
        ∧ (∀ r f at_, s.me.jobs = [r] → mine r → r.doneAt = some at_ → at_ < s.cycle → r.fault = some f →
            polled (BitVec.ofNat 64 (f.kind * 2 ^ 56 + f.addr % 2 ^ 56)) (if sel.getLsbD 17 then [] else [r])))
      ∧ (∀ sel' d', s.cur < 45056 → s.me.slot = .parked → s.me.wait = some (.jwait sel' d') → d' < 32 →
          (∀ r ∈ s.me.jobs, r.doneAt ≠ none ∧ r.fault = none) →
          Becomes (.plainLoadReturn s.cur) s { (s.me.setX (Fin.ofNat 32 d') 0) with
            slot := .ready, wait := none, pc := s.me.next, readyAt := s.cycle + 1 })

/-- R131, R369, R132, R134, R135, R137: a command to the memory-side units whose descriptor address passes the checks holds
its context's next issue; a misaligned address, no translation, a class other than LPDDR6 or another tenant's memory
traps. The units add an update to its row, pause and release a table, complete commands, copy hot rows and count their
look-ups afresh at the end of a window, and end a re-encryption with the next major counter and minor counters of zero. That
a command's job ends in the cycle in which it runs at its unit is the model's choice (log entry 25). -/
def Obligations.MemorySideUnits : Prop :=
  (∀ (s : State) (n : Fin 16) (d a b : XReg), Quiet s [xref a, xref b, xref d] → s.me.cp = none → s.me.twin = false →
    s.me.jobs = [] →
    let u := s.x a
    let command := fun (op : JobOp) => { s.me with openHold := some (.row {
      op := op, tag := s.tagOf s.cur, tenant := s.myTenant, priv := s.me.priv, stall := n.val, d := d.val, xa := u,
      xb := s.x b, cr := s.me.cr, cg := s.me.cg, issued := s.cycle, members := (s.tenant s.myTenant).members }) }
    let stop := fun (cause : Nat) =>
      let t := Host.Outcome.next (enterTrap { cause := cause, tval := u } false s)
      exec (.rowadd n d a b) s = t ∧ exec (.rowcommit n d a b) s = t ∧ exec (.rowpause n d a b) s = t
    (u.toNat % 64 ≠ 0 → stop 0x04)
      ∧ (u.toNat % 64 = 0 → myTranslate s u = none → stop 0x08)
      ∧ (∀ pa leaf, u.toNat % 64 = 0 → myTranslate s u = some (pa, leaf) →
          let home := classOf s pa = .lpddr ∨ classOf s pa = .peer
          (¬ home → stop 0x04)
          ∧ (home → tenantOk s s.myTenant pa = false → stop 0x1D)
          ∧ (home → tenantOk s s.myTenant pa = true →
              BecomesTlb (.rowadd n d a b) s (command .rowadd) ∧ BecomesTlb (.rowcommit n d a b) s (command .rowcommit)
              ∧ BecomesTlb (.rowpause n d a b) s (command .rowpause))))
  ∧ (∀ (s : State) (k : Nat) (j : MsuJob) (pd : Nat), s.msu.jobs[k]? = some j → j.due = none → rowHeld s k j = false →
    j.job.bad = none → j.remote = none →
    let c := { j.job.cmd with unit := j.channel }
    let va := c.xa.toNat
    Fresh s (jobTlb s c) c.tenant → va % 64 = 0 → JobReads s c va pd 64 → rangeOf pd = .lpddr →
    let desc := memReadList s.mem pd 64
    let word := fun (o n : Nat) => leNat ((desc.drop o).take n)
    let ends := fun (t : State) (f : Option JFault) =>
      exec (.msuCommandArrival k) s = .next t ∧ t.msu.jobs = s.msu.jobs.set k { j with
        job := { j.job with cmd := c }, due := some s.cycle, fault := f }
    ((tableOf va desc).ok = false → ∃ t, ends t (some { kind := 0x03, addr := va }) ∧ SameCtxs s t)
      ∧ (c.op = .rowpause → (tableOf va desc).ok = true → ∃ t, ends t none ∧ SameCtxs s t
          ∧ (c.xb = 1 → (∀ q ∈ s.msu.paused, q.desc ≠ j.table.desc) → t.msu.paused = s.msu.paused ++ [{
              tenant := c.tenant, desc := j.table.desc, base := word 0 8, bytes := word 8 4 * word 12 2 }])
          ∧ (c.xb = 0 → ∀ q, q ∈ t.msu.paused ↔ q ∈ s.msu.paused ∧ q.desc ≠ j.table.desc))
      ∧ (∀ base pr pw nc, c.op = .rowadd →
          desc = natLe 8 base ++ natLe 4 (j.row + 1) ++ natLe 2 64 ++ natLe 1 4 ++ List.replicate 49 0 → j.row < 65536 →
          let row := base + j.row * 64
          base % 64 = 0 → row < 2 ^ 56 → c.xb.toNat % 64 = 0 → JobReads s c (c.xb.toNat + 64) pr 64 → JobReads s c row pw 64 →
          JobWrites s c row pw 64 nc → jobPiece s c (BitVec.ofNat 64 row) 64 .rw
            = .ok { va := BitVec.ofNat 64 row, pa := pw, nc := nc, n := 64 } →
          rangeOf pw = .lpddr → s.mem.wf = true → NoJoins s →
          ∃ t, ends t none ∧ (∀ y, t.ctx y = s.ctx y) ∧ SameOutside s.mem t.mem pw 64
            ∧ ∀ i, i < 16 → let at_ := fun (m : Memory) (a : Nat) => leNat (memReadList m (a + 4 * i) 4)
              at_ t.mem pw = (at_ s.mem pw + at_ s.mem pr) % 2 ^ 32))
  ∧ (∀ (s : State) (k x : Nat) (j : MsuJob) (at_ : Nat), s.msu.jobs[k]? = some j → j.due = some at_ → j.remote = none →
    NothingHeld s → s.resident j.job.cmd.tag = some x → (s.ctx x).slot = .ready →
    (s.ctx x).jobs = [{ id := j.job.id, order := j.job.order }] →
    ∃ t, exec (.msuJobComplete k) s = .next t ∧ t.mem = s.mem ∧ t.msu.jobs = s.msu.jobs.eraseIdx k
      ∧ (∀ y, y ≠ x → t.ctx y = s.ctx y) ∧ (t.ctx x).jobs
        = [{ id := j.job.id, order := j.job.order, doneAt := some s.cycle, fault := j.fault }])
  ∧ (∀ (s : State) (channel : Nat) (h : HotRow), channel < 144 → s.cycle % 65536 = 0 → s.msu.hot = [h] →
    rowChannel s h.pa = channel → h.copying = false →
    let ends := fun (l : List HotRow) =>
      exec (.hotWindowEnd channel) s = .next { s with msu := { s.msu with hot := l } }
    (h.replica = false → h.hotn < h.count → ends [{ h with count := 0, copying := true, since := s.cycle }])
      ∧ (h.replica = false → h.count ≤ h.hotn → ends [])
      ∧ (h.replica = true → h.hotn / 2 ≤ h.count → ends [{ h with count := 0 }])
      ∧ (h.replica = true → h.count < h.hotn / 2 → ends []))
  ∧ (∀ (s : State) (row page : Nat), NothingHeld s →
    (exec (.replicaCopyComplete row) s = .next { s with msu := { s.msu with hot := s.msu.hot.map fun h =>
        if h.pa = row ∧ h.copying = true then { h with copying := false, replica := true } else h } })
    ∧ (page ∈ s.reenc → (fget s.encMajor page).getD 0 + 1 < 2 ^ 64 →
      ∃ t, exec (.reencryptComplete page) s = .next t ∧ SameCtxs s t ∧ page ∉ t.reenc
        ∧ fget t.encMajor page = some ((fget s.encMajor page).getD 0 + 1)
        ∧ (∀ q, q ≠ page → fget t.encMajor q = fget s.encMajor q)
        ∧ ∀ q, fget t.encMinor q = if q / 64 = page then none else fget s.encMinor q))

/-! ## Page 6 and the control of contexts -/

/-- R86 to R90, R355: `mfc` reads every control register into xd, the supervisor ones at supervisor level only; a user
level access to those traps with cause 0x02 and the register's code. R86 to R90, R115, R356: `mtc` writes the writable
bits of a register of the context, of its core, cluster or tenant, and leaves every other register as it reads, and every
other context, core, cluster and tenant and memory as they are; the exceptions are that a new steal domain starts the probe
circles of the tenant's cores anew (R59), and that a new split clears scratchpad words and wakes the contexts parked on
full/empty words that it discards (R115): the clause of c.split about the other holders is for a state with no such request.
`mtc` to c.split and c.vpool holds the next issue until the write is in effect. A register that no level writes is an
illegal instruction, a supervisor register traps at user level. -/
def Obligations.ControlRegisters : Prop :=
  (∀ (s : State) (d : XReg), Quiet s [xref d] →
     let me := s.me
     let core := s.core (s.cur / 16)
     let tenant := s.tenant s.myTenant
     let flag := fun (b : Bool) (n : Nat) => if b then 2 ^ n else 0
     let reads := fun (c : CReg) (w : Word) => Becomes (.mfc d c) s ((me.setX d w).gone s.cycle 0)
     let user : List (CReg × Word) :=
       [(.status, BitVec.ofNat 64 (flag me.priv 0 + flag me.ppriv 1 + flag (!me.v.isEmpty) 5 + flag me.cp.isSome 6 + flag me.twin 7)),
        (.core, BitVec.ofNat 64 (s.cur / 16)), (.slot, BitVec.ofNat 64 (me.inc % 256 * 256 + s.cur % 16)),
        (.cycle, BitVec.ofNat 64 s.cycle), (.tenant, BitVec.ofNat 64 s.myTenant), (.fmt, me.cr.fmt), (.scl, me.cr.scl),
        (.seed, me.cr.seed), (.stl, me.cr.stl), (.dist, me.cr.dist), (.lsmode, me.cr.lsmode), (.lslog, me.cr.lslog),
        (.cgdl, me.cr.cgdl), (.bardl, me.cr.bardl), (.ffneps, me.cr.ffneps), (.ffnviol, me.cr.ffnviol)]
     let supervisor : List (CReg × Nat × Word) :=
       [(.rot, 0x10, if core.rot then 1 else 0), (.split, 0x12, BitVec.ofNat 64 core.spad),
        (.vpool, 0x13, BitVec.ofNat 64 (s.cluster (clusterOf (s.cur / 16))).vpool), (.steal, 0x15, tenant.steal),
        (.tvec, 0x28, me.cr.tvec), (.epc, 0x29, me.cr.epc), (.cause, 0x2A, me.cr.cause), (.tval, 0x2B, me.cr.tval),
        (.twin, 0x30, tenant.twin)]
     (∀ q ∈ user, reads q.1 q.2)
       ∧ (me.cg.group < 4096 → me.cg.count < 2 ^ 21 → me.cg.index < 2 ^ 20 → reads .cg (BitVec.ofNat 64 (flag me.cg.valid 63
           + flag me.cg.fab 62 + flag me.cg.pend 61 + flag me.cg.res 60 + flag me.cg.out 59 + me.cg.group * 2 ^ 44
           + me.cg.count * 2 ^ 23 + me.cg.index)))
       ∧ (me.priv = true → ∀ q ∈ supervisor, reads q.1 q.2.2)
       ∧ (me.priv = false → me.cp = none → ∀ q ∈ supervisor, exec (.mfc d q.1) s =
           .next (enterTrap { cause := 0x02, tval := BitVec.ofNat 64 q.2.1 } false s)))
  ∧ (∀ (s : State) (a : XReg), Quiet s [xref a] → s.me.cp = none → s.cur < 45056 →
        let w := s.x a
        let home := s.cur / 16
        let user : List (CReg × Word) :=
          [(.fmt, 0xFFFFBFFF), (.scl, 0x00FFFFFFFFFFFFFC), (.seed, -1), (.stl, 1), (.dist, 0xFFFFFFFFFFFFF000),
           (.lsmode, 0xFFFFFFFF00000003), (.lslog, 0x00FFFFFFFFFFFFFF), (.cgdl, 0xFFFFFFFF), (.bardl, 0xFFFFFFFF),
           (.ffneps, 0xFFFFFFFF), (.ffnviol, 0xFFFFFFFF00000001)]
        let supervisor : List (CReg × Word) :=
          [(.tvec, 0x00FFFFFFFFFFFFFE), (.epc, 0xFFFFFFFFFFFFFFFE), (.cause, 0x1FFFF), (.tval, -1)]
        let writes := fun (c : CReg) (mask : Word) => ∃ t, exec (.mtc c a) s = .next t ∧ OnlyMe s t
          ∧ t.me = Ctx.gone { s.me with cr := t.me.cr } s.cycle 0
          ∧ readCr t c = (readCr s c &&& ~~~mask) ||| (w &&& mask) ∧ ∀ c', c' ≠ c → readCr t c' = readCr s c'
        let stops := fun (c : CReg) (cause : Nat) (v : Word) =>
          exec (.mtc c a) s = .next (enterTrap { cause := cause, tval := v } false s)
        let parcel : Word := BitVec.ofNat 64 (s.me.index * 65536 + s.me.base)
        let others := fun (c : CReg) (t : State) => (∀ c', c' ≠ c → readCr t c' = readCr s c') ∧ ∀ y, y ≠ s.cur → t.ctx y = s.ctx y
        let cores := fun (t : State) => ∀ n, n ≠ home → t.core n = s.core n
        let clusters := fun (t : State) => ∀ n, n ≠ clusterOf home → t.cluster n = s.cluster n
        let tenants := fun (t : State) => ∀ n, n ≠ s.myTenant → t.tenant n = s.tenant n
        let ownCore := fun (t : State) => t.core home = s.core home
        let ownCluster := fun (t : State) => t.cluster (clusterOf home) = s.cluster (clusterOf home)
        let ownTenant := fun (t : State) => t.tenant s.myTenant = s.tenant s.myTenant
        (∀ q ∈ user, writes q.1 q.2)
          ∧ (∀ c ∈ [CReg.core, .slot, .cycle, .tenant, .cg], stops c 0x01 parcel)
          ∧ (s.me.priv = false → stops .status 0x01 parcel
              ∧ ∀ q ∈ [(CReg.rot, 0x10), (.split, 0x12), (.vpool, 0x13), (.steal, 0x15), (.tvec, 0x28), (.epc, 0x29),
                  (.cause, 0x2A), (.tval, 0x2B), (.twin, 0x30)], stops q.1 0x02 (BitVec.ofNat 64 q.2))
          ∧ (s.me.priv = true →
              (∀ q ∈ supervisor, writes q.1 q.2)
              ∧ Becomes (.mtc .status a) s (Ctx.gone { s.me with ppriv := w.getLsbD 1 } s.cycle 0)
              ∧ (∃ t, exec (.mtc .rot a) s = .next t ∧ t.mem = s.mem ∧ t.me = s.me.gone s.cycle 0
                  ∧ t.core home = { s.core home with rot := w.getLsbD 0 }
                  ∧ others .rot t ∧ cores t ∧ clusters t ∧ tenants t ∧ ownCluster t ∧ ownTenant t)
              ∧ (∃ t, exec (.mtc .steal a) s = .next t ∧ t.me = s.me.gone s.cycle 0 ∧ t.mem = s.mem
                  ∧ t.tenant s.myTenant = { s.tenant s.myTenant with
                      steal := (w &&& 0x00FFFFFFFFFFF000) ||| BitVec.ofNat 64 (min 4 (w.toNat % 8)) }
                  ∧ (∀ n, t.core n = if n < 2816 ∧ s.inMesh s.myTenant n = true then { s.core n with stealAt := none } else s.core n)
                  ∧ others .steal t ∧ clusters t ∧ tenants t ∧ ownCluster t)
              ∧ (∃ t, exec (.mtc .twin a) s = .next t ∧ t.me = s.me.gone s.cycle 0 ∧ t.mem = s.mem
                  ∧ t.tenant s.myTenant = { s.tenant s.myTenant with
                      twin := (w &&& 0xFFFFFFFF00000000) ||| (if s.feature 5 then w &&& 1 else 0) }
                  ∧ others .twin t ∧ cores t ∧ clusters t ∧ tenants t ∧ ownCore t ∧ ownCluster t)
              ∧ (∃ t u, exec (.mtc .vpool a) s = .next t ∧ exec (.openEndedHoldEnd s.cur) t = .next u ∧ t.me.pc = s.me.pc
                  ∧ u.me.pc = s.me.next ∧ u.me.openHold = none ∧ u.mem = s.mem
                  ∧ u.cluster (clusterOf home) = { s.cluster (clusterOf home) with vpool := w.toNat % 256 }
                  ∧ others .vpool u ∧ cores u ∧ clusters u ∧ tenants u ∧ ownCore u ∧ ownTenant u)
              ∧ (∃ t u, exec (.mtc .split a) s = .next t ∧ exec (.openEndedHoldEnd s.cur) t = .next u
                  ∧ (s.me.slot = .ready → t.me.pc = s.me.pc ∧ u.me.pc = s.me.next ∧ u.me.openHold = none)
                  ∧ (u.core home).spad = min 12 (w.toNat % 16)
                  ∧ ((∀ q ∈ s.ctxs, ∀ ff fw fs fd fv fp, q.2.wait ≠ some (.fe ff fw fs fd fv fp)) →
                      u.core home = { s.core home with spad := min 12 (w.toNat % 16) }
                      ∧ others .split u ∧ cores u ∧ clusters u ∧ tenants u ∧ ownCluster u ∧ ownTenant u)
                  ∧ ∀ q, memRead u.mem q =
                      if 0xA0000000000 + home * 0x80000 + 32768 * min (s.core home).spad (min 12 (w.toNat % 16)) ≤ q
                        ∧ q < 0xA0000000000 + home * 0x80000 + 32768 * max (s.core home).spad (min 12 (w.toNat % 16))
                      then 0 else memRead s.mem q)))

/-- R279, R376, R386, R121, R263: at supervisor level `snap` sends a trigger under the next sequence number to every core
and cluster of the tenant; `tlbinv` holds the next issue until the stores of the context are performed and the
tenant's translations of the pages that the range touches are gone, and no other. At user level both trap. R278, R279,
R306: a gang stop goes to every core and cluster of the tenant under the next sequence number; a core that it reaches
halts its contexts, latches its snapshot registers and takes no more packets; a gang resume undoes that. A snapshot
trigger latches the registers of a core or cluster; that the memory-side units of a cluster are those of the channels that
have their home in it, and that their depth counts the jobs that have not run yet, is the model's reading (log entry 56). -/
def Obligations.SnapshotsAndGangStops : Prop :=
  (∀ (s : State) (a b : XReg), Quiet s [xref a, xref b] → s.me.cp = none → s.cur < 45056 → s.storesDone s.cur = true →
     let u := (s.x a).toNat
     let n := (s.x b).toNat
     let hit := fun (e : TlbEntry) =>
       let size := 2 ^ pageBits e.level
       let first := e.vpage * 65536 / size * size
       e.tenant = s.myTenant ∧ n ≠ 0 ∧ (2 ^ 56 ≤ n ∨ (first < u + n ∧ u < first + size))
     (s.me.priv = false → let stop := Host.Outcome.next (enterTrap { cause := 0x02 } false s)
         exec .snap s = stop ∧ exec (.tlbinv a b) s = stop)
       ∧ (s.me.priv = true → s.snapSeq + 1 < 2 ^ 64 → ∃ t, exec .snap s = .next t ∧ t.me = s.me.gone s.cycle 0
           ∧ t.mem = s.mem ∧ t.snapSeq = s.snapSeq + 1
           ∧ (∀ i, i ∈ t.agenda ↔ i ∈ s.agenda
               ∨ (∃ core, core < 2816 ∧ s.inMesh s.myTenant core = true
                   ∧ i = .snapshotTriggerArrival (.core core) (s.snapSeq + 1))
               ∨ ∃ c ∈ tenantClusters s s.myTenant, i = .snapshotTriggerArrival (.cluster c) (s.snapSeq + 1)))
       ∧ (s.me.priv = true → ∃ t v, exec (.tlbinv a b) s = .next t ∧ exec (.openEndedHoldEnd s.cur) t = .next v
           ∧ t.me.pc = s.me.pc ∧ OnlyMe s t ∧ v.me.pc = s.me.next ∧ v.me.openHold = none ∧ v.me.x = s.me.x ∧ v.mem = s.mem
           ∧ ∀ e, e ∈ v.tlb ↔ e ∈ s.tlb ∧ ¬ hit e))
  ∧ (∀ (s : State) (tenant n core : Nat), n < 16 → core < 2816 →
        let x := core * 16 + n
        let c := s.ctx x
        let triggers := fun (i : Instr) (ofCore : Nat → Nat → Instr) => s.snapSeq + 1 < 2 ^ 64 → s.coll.run = none →
          ∃ t, exec i s = .next t ∧ SameCtxs s t ∧ t.snapSeq = s.snapSeq + 1 ∧ ∀ i, i ∈ t.agenda ↔ i ∈ s.agenda
            ∨ (∃ c, c < 2816 ∧ s.inMesh tenant c = true ∧ i = ofCore c (s.snapSeq + 1))
            ∨ ∃ c ∈ tenantClusters s tenant, i = .snapshotTriggerArrival (.cluster c) (s.snapSeq + 1)
        triggers (.gangStop tenant false) .coreStop
          ∧ triggers (.gangSnapshot tenant false) (fun c => .snapshotTriggerArrival (.core c))
          ∧ (∀ seq, s.ctxs = [(x, c)] → c.slot = .ready → c.cp = none → c.openHold = none → c.wait = none →
              (s.core core).stopped = false →
              ∃ t, exec (.coreStop core seq) s = .next t ∧ t.mem = s.mem ∧ (t.ctx x).slot = .halted ∧ (t.ctx x).gangHalted = true
                ∧ (t.ctx x).pc = c.pc ∧ (t.ctx x).x = c.x ∧ (t.core core).stopped = true ∧ (t.core core).stopCyc = s.cycle
                ∧ (t.core core).snap = { seq := seq, cycle := s.cycle, sent := (s.core core).sent, recv := (s.core core).recv,
                                         slots := 4 * 8 ^ n })
          ∧ (s.ctxs = [(x, c)] → c.slot = .halted → c.gangHalted = true → c.wait = none → c.restart = 0 →
              s.inMesh tenant core = true →
              ∃ t, exec (.gangResume tenant false) s = .next t ∧ t.mem = s.mem ∧ (t.ctx x).slot = .ready
                ∧ (t.ctx x).gangHalted = false ∧ (t.ctx x).pc = c.pc ∧ (t.ctx x).x = c.x ∧ (t.core core).stopped = false)
          ∧ (∀ seq, ∃ t, exec (.snapshotTriggerArrival (.core core) seq) s = .next t ∧ SameCtxs s t
              ∧ (t.core core).snap.seq = seq ∧ (t.core core).snap.cycle = s.cycle
              ∧ (t.core core).snap.sent = (s.core core).sent ∧ (t.core core).snap.recv = (s.core core).recv)
          ∧ (∀ seq cl, cl < 352 → ∃ t, exec (.snapshotTriggerArrival (.cluster cl) seq) s = .next t ∧ SameCtxs s t
              ∧ ∃ a b c us, (t.cluster cl).snap = ([seq, a, b, c] ++ us ++ List.replicate 4 0).take 8
                ∧ (∀ w e, ((w, e) = (a, (s.cluster cl).clove) ∨ (w, e) = (b, (s.cluster cl).copy) ∨ (w, e) = (c, (s.cluster cl).sumac)) →
                    w % 65536 = e.queue.length % 65536 ∧ w / 65536 = (e.run.map (·.job.id)).getD 0 % 65536)
                ∧ us.length = (unitsIn cl).length
                ∧ ∀ k u, (unitsIn cl)[k]? = some u → us.getD k 0 % 65536
                    = (s.msu.jobs.countP fun j => (jobUnits s j).contains u && j.due.isNone) % 65536))

/-- R339, R275 to R277: `halt` halts the context at its next instruction and sends a record with cause 0; HALT halts a
running context at its instruction and RESUME lets it go on there; KILL empties the slot of a halted or lost context. A
command to an empty slot is refused with reason 1, an OP that is no command with reason 7. -/
def Obligations.HaltResumeKill : Prop :=
  ∀ s : State, s.cur < 45056 → s.me.cp = none →
    let core := s.cur / 16
    let done := fun (t : State) => (t.core core).stat = 2 ∧ (t.core core).reason = 0
    let refused := fun (i : Instr) (reason : Nat) => ∃ t, exec i s = .next t ∧ SameCtxs s t
      ∧ (t.core core).stat = 3 ∧ (t.core core).reason = reason
    let same := fun (c : Ctx) => c.x = s.me.x ∧ c.k = s.me.k ∧ c.v = s.me.v ∧ c.cr = s.me.cr ∧ c.landing = s.me.landing
      ∧ c.mailbox = s.me.mailbox
    (s.me.priv = false → exec .halt s = .next (enterTrap { cause := 0x02 } false s))
      ∧ (s.me.priv = true → ∃ t, exec .halt s = .next t ∧ same t.me ∧ t.me.slot = .halted ∧ t.me.pc = s.me.next
          ∧ t.mem = s.mem ∧ (∀ y, y ≠ s.cur → t.ctx y = s.ctx y)
          ∧ Sends s t core ⟨0, 0, core / 64, 1, 2 ^ (core % 64), 0, s.me.next, s.tagOf s.cur, 2, s.cycle, 0, core⟩)
      ∧ (s.me.slot = .ready → s.me.openHold = none → s.me.wait = none → s.me.haltPending = false →
          ∃ t, exec (.haltCommand s.cur) s = .next t ∧ same t.me ∧ t.me.slot = .halted ∧ t.me.pc = s.me.pc ∧ done t
            ∧ t.mem = s.mem ∧ ∀ y, y ≠ s.cur → t.ctx y = s.ctx y)
      ∧ (s.me.slot = .halted → s.me.wait = none → s.me.restart = 0 →
          ∃ t, exec (.resume s.cur) s = .next t ∧ same t.me ∧ t.me.slot = .ready ∧ t.me.pc = s.me.pc ∧ done t
            ∧ t.me.readyAt = s.cycle + 1 ∧ t.mem = s.mem ∧ ∀ y, y ≠ s.cur → t.ctx y = s.ctx y)
      ∧ (s.me.slot = .halted ∨ s.me.slot = .scrubbed → NothingHeld s → s.me.blocked = [] → s.coll.run = none →
          ∃ t, exec (.kill s.cur) s = .next t ∧ t.me = { inc := s.me.inc } ∧ done t ∧ t.mem = s.mem)
      ∧ (s.me.slot = .empty → s.me.haltPending = false →
          refused (.haltCommand s.cur) 1 ∧ refused (.resume s.cur) 1 ∧ refused (.kill s.cur) 1 ∧ refused (.save s.cur) 1
          ∧ ∀ target, refused (.migrate s.cur target) 1)
      ∧ (∀ op, refused (.cmdRefused core op) 7)

/-- R269, R286, R287: a context parked for the period of its tenant's watchdog is halted with cause 0x22 and the time it was
parked; an uncorrectable error in its state scrubs a context, which is lost with cause 0x21 and INFO 1, and ends a save of
it; a save that makes no progress loses its context with INFO 2 and STAT reads done with reason 3. R136, R138: such an error
in the package's own memory poisons its granule; the tag of a block, and every block under a node of the counter tree, fails
its check from then on: R137 gives no tags and no tree without ENCMETA, where nothing looks at that check. That the error
scrubs a context at once in every state, also where R275 and R416 let an interruption wait, is the model's reading (log
entry 63). -/
def Obligations.LostContexts : Prop :=
  (∀ (s : State) (ch d : Nat) (va : Word), s.cur < 45056 →
    let core := s.cur / 16
    let period := (s.tenant s.myTenant).wdog.toNat * 65536
    let record := fun (t : State) (cause info : Nat) (tval : Word) (flags : Nat) => Sends s t core
      ⟨cause, info, core / 64, 1, 2 ^ (core % 64), tval, t.me.pc, s.tagOf s.cur, flags, s.cycle, s.me.join, core⟩
    let lost := fun (t : State) => t.me.slot = .scrubbed ∧ t.me.x = Vector.replicate 32 0 ∧ t.me.k = Vector.replicate 8 0
      ∧ t.me.landing = [] ∧ t.me.cp = none ∧ (∀ r, t.me.vr r = 0) ∧ t.mem = s.mem
    (s.me.slot = .parked → s.me.wait = some (.recv ch d va) → s.me.cp = none → s.me.openHold = none → period ≠ 0 →
        s.me.parkedAt + period ≤ s.cycle →
        ∃ t, exec (.watchdogExpiry s.cur) s = .next t ∧ t.me.slot = .halted ∧ t.me.restart = 1 ∧ t.me.pc = s.me.pc
          ∧ t.me.x = s.me.x ∧ t.mem = s.mem
          ∧ record t 0x22 0 (BitVec.ofNat 64 ((s.cycle - s.me.parkedAt) / 65536)) 2)
      ∧ (s.me.slot = .ready ∨ s.me.slot = .parked ∨ s.me.slot = .halted →
          ∃ t, exec (.uncorrectableError (.context s.cur)) s = .next t ∧ lost t ∧ record t 0x21 1 0 6
            ∧ ∀ v, (s.core core).saving = some v →
                if v.slot = s.cur % 16 then (t.core core).stat = 3 ∧ (t.core core).reason = 1 ∧ (t.core core).saving = none
                else (t.core core).stat = (s.core core).stat ∧ (t.core core).saving = some v)
      ∧ (∀ v, (s.core core).saving = some v → v.slot = s.cur % 16 → v.restore = none → s.me.slot = .halted → period ≠ 0 →
          max (v.started + period) v.progress + period ≤ s.cycle →
          ∃ t, exec (.saveStuckExpiry core) s = .next t ∧ lost t ∧ record t 0x21 2 0 6
            ∧ (t.core core).stat = 2 ∧ (t.core core).reason = 3 ∧ (t.core core).saving = none))
  ∧ (∀ (s : State) (tenant b lo hi pa : Nat),
    (∃ t, exec (.uncorrectableError (.granule pa)) s = .next t ∧ SameCtxs s t
        ∧ (classOf s pa = .lpddr ∨ classOf s pa = .cxl ∨ classOf s pa = .spad ∨ classOf s pa = .window →
            ∀ g, g ∈ t.poison ↔ g = pa / 32 ∨ g ∈ s.poison))
      ∧ (∃ t, exec (.uncorrectableError (.tag b)) s = .next t ∧ SameCtxs s t ∧ tagFails t tenant b = true
          ∧ ∀ q, q ≠ b → tagFails t tenant q = tagFails s tenant q)
      ∧ (∃ t, exec (.uncorrectableError (.node lo hi)) s = .next t ∧ SameCtxs s t
          ∧ ∀ q, tagFails t tenant q = (tagFails s tenant q || decide (lo < q * 64 + 64 ∧ q * 64 ≤ hi))))

/-- R276, R280 to R283, R302: SAVE and MIGRATE of a halted context with a good IMAGE read busy and hold the save; when nothing
is awaited any more the image is written, the slot empties and leaves a forwarding entry. A migration that its target has no
room for at the save is refused, and nothing is saved; a saved one has a slot of the target kept free and is restored there in
a later cycle. RESTORE of an image of a plain halted context puts its registers into the lowest empty slot, which goes on at
its pc; where the memory of the image is held, it waits. Each refusal gives its reason. The model's readings are: the later
cycle and the slot kept free (log entry 79), reason 2 for a core without power (log entry 12) and the order of the refusals
(log entry 46). -/
def Obligations.SaveAndRestore : Prop :=
  ∀ (s : State) (image : Nat), s.cur < 45056 →
    let core := s.cur / 16
    let c := s.core core
    c.image = BitVec.ofNat 64 image → image < 2 ^ 64 →
    let refuses := fun (i : Instr) (reason : Nat) => ∃ t, exec i s = .next t ∧ SameCtxs s t
      ∧ (t.core core).stat = 3 ∧ (t.core core).reason = reason
    let unpowered := fun (core : Nat) => s.boot.minimal = true ∧ (22 ≤ core / 64 ∨ 32 ≤ core % 64)
    let free := s.deviceHeld image 6016 = false
    let idle := s.onCore core fun k => { k with saving := none }
    let restores := fun (i : Instr) (target : Nat) => ∀ k, emptySlot idle target = some k → ¬ unpowered target →
      imageOk s image 6016 = true → rangeOf image = .lpddr → free → NoJoins s →
      (∀ q ∈ blocks image 6016, otherKey s (s.tenantOf target) (q * 64) = false) →
      (∀ o, (264 ≤ o ∧ o < 272) ∨ (288 ≤ o ∧ o < 320) ∨ (448 ≤ o ∧ o < 480) ∨ (1504 ≤ o ∧ o < 5416) →
        memRead s.mem (image + o) = 0) →
      memRead s.mem (image + 256) = 0 →
      let word := fun (o : Nat) => BitVec.ofNat 64 (leNat (memReadList s.mem (image + o) 8))
      let y := target * 16 + k
      ∃ t, exec i s = .next t ∧ (t.core core).stat = 2 ∧ (t.core core).saving = none ∧ (t.ctx y).slot = .ready
        ∧ (t.ctx y).inc = ((s.ctx y).inc + 1) % 256 ∧ (t.ctx y).pc = word 0
        ∧ (∀ r : XReg, r ≠ 0 → (t.ctx y).xr r = word (8 * r.val)) ∧ (t.ctx y).v = []
        ∧ (t.ctx y).cr.fmt = word 320 ∧ (t.ctx y).cr.tvec = word 400 ∧ (t.ctx y).priv = false
        ∧ SameOutside s.mem t.mem (image + 288) 32 ∧ ∀ z, z ≠ y → t.ctx z = s.ctx z
    (s.me.slot = .halted → s.me.haltPending = false → s.coll.run = none → s.coll.queue = [] →
        (image % 64 ≠ 0 → refuses (.save s.cur) 5 ∧ ∀ target, refuses (.migrate s.cur target) 5)
        ∧ (imageOk s image (6016 + 512 * s.me.v.length) = true →
          let begun := fun (i : Instr) (target : Option Nat) => ∃ t, exec i s = .next t ∧ t.mem = s.mem ∧ t.me = s.me
            ∧ (t.core core).stat = 1 ∧ (t.core core).saving = some { slot := s.cur % 16, image := image, target := target,
                                                                      started := s.cycle, progress := s.cycle }
          begun (.save s.cur) none
          ∧ (∀ target, 2816 ≤ target ∨ s.inMesh s.myTenant target = false → refuses (.migrate s.cur target) 6)
          ∧ (∀ target, target < 2816 → s.inMesh s.myTenant target = true →
              (emptySlot s target = none ∨ unpowered target → refuses (.migrate s.cur target) 2)
              ∧ (emptySlot s target ≠ none → ¬ unpowered target → poolFree s target < s.me.v.length →
                  refuses (.migrate s.cur target) 4)
              ∧ (emptySlot s target ≠ none → ¬ unpowered target → s.me.v.length ≤ poolFree s target →
                  begun (.migrate s.cur target) (some target)))))
      ∧ (∀ v, c.saving = some v → v.slot = s.cur % 16 → v.image = image → v.restore = none → NothingHeld s →
          s.me.slot = .halted → s.me.haltPending = false → s.me.wait = none → s.me.jobs = [] → s.me.pend = [] → s.me.replies = [] →
          s.me.mailbox = [] → s.me.blocked = [] → s.me.v = [] → commandWaits s s.cur = false → free →
          inboxHeld s s.cur = false → imageOk s image 6016 = true → rangeOf image = .lpddr → NoJoins s → s.mem.wf = true →
          let writes := fun (k : Core → Prop) => ∃ t, exec (.saveComplete core) s = .next t ∧ t.me = { inc := s.me.inc }
            ∧ k (t.core core) ∧ memReadList t.mem image 6016 = imageOf s s.cur ∧ SameOutside s.mem t.mem image 6016
            ∧ leNat (memReadList t.mem image 8) = s.me.pc.toNat
            ∧ fget (t.core core).forwards (s.tagOf s.cur) = some { new := none, used := s.cycle }
          (v.target = none → writes fun k => k.stat = 2 ∧ k.reason = 0 ∧ k.saving = none)
          ∧ (∀ target, v.target = some target →
              (emptySlot s target ≠ none → ¬ unpowered target → writes fun k => k.stat = 1 ∧ ∃ due, s.cycle < due
                ∧ k.saving = some { slot := 16, image := image, target := some target, restore := some due
                                    into := emptySlot s target })
              ∧ (emptySlot s target = none ∨ unpowered target → refuses (.saveComplete core) 2)))
      ∧ (∀ v target due, c.saving = some v → v.image = image → v.target = some target → v.restore = some due → due ≤ s.cycle →
          restores (.saveComplete core) target)
      ∧ restores (.restore core) core
      ∧ (image % 64 ≠ 0 → refuses (.restore core) 5)
      ∧ (imageOk s image 6016 = true → s.deviceHeld image (6016 + 512 * claimedAt s core image) = false →
          imageOk s image (6016 + 512 * claimedAt s core image) = true →
          (∀ x, inboxHeld s x = false) →
          (emptySlot idle core = none ∨ unpowered core → refuses (.restore core) 2)
          ∧ (emptySlot idle core ≠ none → ¬ unpowered core → poolFree idle core < claimedAt s core image →
              refuses (.restore core) 4))
      ∧ (imageOk s image 6016 = true → s.deviceHeld image (6016 + 512 * claimedAt s core image) = true →
          ∃ t, exec (.restore core) s = .next t ∧ SameCtxs s t ∧ (t.core core).stat = 1
            ∧ (t.core core).saving = some { slot := 16, image := image, target := some core, restore := some s.cycle })

/-! ## Tasks, timers, records, probes, twins -/

/-- R38, R48, R49, R54 to R59, R377: an arriving packet goes to the bottom of its band; the top of the normal band of a full
deque is spilled to the lowest free place of the core's ring, where its bytes lie in memory, and returns with the bytes that
lie there when fewer than 32 are held; a core takes from the bottom, urgent packets first but for each eighth take, into its
lowest empty slot, where the context starts 8 cycles later from the words of the packet with the messages that have reached
it. A thief probes the cores of its circle one by one and takes a top packet, or waits 256 cycles; a host write sends a
packet behind the host's earlier writes. The model's choices are: the core keeps a packet for which its ring has no memory
(log entry 47), c.tvec is DVEC as of the end of the launch (log entry 54), and a core probes once a cycle (log entry 55). -/
def Obligations.TaskEvents : Prop :=
  ∀ (s : State) (core : Nat), core < 2816 →
    let k := s.core core
    let held := k.urgent.length + k.normal.length
    let tenant := s.tenantOf core
    let word := fun (p : Packet) (o n : Nat) => leNat ((p.bytes.drop o).take n)
    let pushed := fun (k : Core) (p : Packet) =>
      if word p 60 4 % 2 = 1 then { k with urgent := k.urgent ++ [p] } else { k with normal := k.normal ++ [p] }
    let becomes := fun (i : Instr) (k' : Core) => ∃ t, exec i s = .next t ∧ SameCtxs s t ∧ t.core core = k'
      ∧ ∀ n, n ≠ core → t.core n = s.core n
    (∀ n p, s.net.packets[n]? = some (core, p) →
        (held < 64 → ∃ t, exec (.packetPush n) s = .next t ∧ SameCtxs s t ∧ t.core core = pushed k p
          ∧ t.net.packets = s.net.packets.eraseIdx n)
        ∧ (∀ q rest place, held = 64 → k.normal = q :: rest → k.spilled.length < 4096 → place < 4096 →
          (∀ e ∈ k.spilled, e.place ≠ place) → (∀ j, j < place → ∃ e ∈ k.spilled, e.place = j) →
          let va := ((s.tenant tenant).steal &&& 0x00FFFFFFFFFFF000) + BitVec.ofNat 64 (core * 0x40000)
            + BitVec.ofNat 64 (64 * place)
          let spills := fun (pa : Option Nat) (q' : Packet) => ∃ t, exec (.packetPush n) s = .next t ∧ (∀ y, t.ctx y = s.ctx y)
            ∧ t.core core = pushed { k with normal := rest, spilled := { place := place, pa := pa, urgent := false, pkt := q' }
                                                              :: k.spilled } p
            ∧ match pa with
              | some a => memReadList t.mem a 64 = q.bytes ∧ SameOutside s.mem t.mem a 64
              | none => t.mem = s.mem
          (translateVa s core tenant va = none → spills none q)
          ∧ (∀ pa e, translateVa s core tenant va = some (pa, e) → classOf s pa = .lpddr → pa % 64 = 0 →
              s.deviceHeld pa 64 = false → NoJoins s → s.mem.wf = true → q.bytes.length = 64 →
              spills (some pa) { q with bytes := [] })))
      ∧ (∀ p rest, k.ni = p :: rest → held < 64 → becomes (.deferredPacketPush core) (pushed { k with ni := rest } p))
      ∧ (∀ e rest, k.spilled = e :: rest → held < 32 → k.spillAt ≠ some s.cycle →
          (∀ a, e.pa = some a → s.readHeld a 64 = false) →
          let back := { k with spilled := rest, spillAt := some s.cycle }
          let p := match e.pa with
            | some a => { e.pkt with bytes := (List.range 64).map fun i => s.byteFor tenant (a + i) }
            | none => e.pkt
          becomes (.spillReturn core)
            (if e.urgent then { back with urgent := p :: back.urgent } else { back with normal := p :: back.normal }))
      ∧ (∀ i l p, k.spilled = [] → k.stopped = false → k.tookAt ≠ some s.cycle → emptySlot s core = some i → p.pair = none →
          let y := core * 16 + i
          let takes := fun (k' : Core) => ∃ t, exec (.dequeTake core) s = .next t ∧ t.core core = k' ∧ t.mem = s.mem
            ∧ t.ctx y = { slot := .launching, inc := ((s.ctx y).inc + 1) % 256, launch := some p, launchEnd := s.cycle + 8 }
            ∧ ∀ z, z ≠ y → t.ctx z = s.ctx z
          (k.normal = l ++ [p] → k.urgent = [] ∨ 7 ≤ k.urgentRun →
              takes { k with normal := l, urgentRun := 0, tookAt := some s.cycle })
          ∧ (k.urgent = l ++ [p] → k.normal = [] ∨ k.urgentRun < 7 →
              takes { k with urgent := l, urgentRun := k.urgentRun + 1, tookAt := some s.cycle }))
      ∧ (∀ n p, n < 16 → k.stopped = false → p.pair = none →
          let c := s.ctx (core * 16 + n)
          c.slot = .launching → c.launch = some p → c.launchEnd ≤ s.cycle → s.cur = core * 16 + n →
          ∃ c', Becomes (.launchEnd (core * 16 + n)) s c' ∧ c'.slot = .ready ∧ c'.inc = c.inc ∧ c'.priv = false
            ∧ c'.mailbox = c.mailbox ∧ c'.blocked = c.blocked
            ∧ c'.pc = BitVec.ofNat 64 (word p 0 8) ∧ c'.join = BitVec.ofNat 64 (word p 48 8)
            ∧ (∀ r : XReg, c'.xr r = if 1 ≤ r.val ∧ r.val ≤ 4 then BitVec.ofNat 64 (word p (8 * r.val) 8) else 0)
            ∧ c'.cr.scl = BitVec.ofNat 64 (word p 40 8) &&& 0x00FFFFFFFFFFFFFC
            ∧ c'.cr.fmt = BitVec.ofNat 64 (word p 56 4) &&& 0xFFFFBFFF ∧ c'.cr.tvec = (s.tenant s.myTenant).dvec)
      ∧ (∀ l v rest, k.urgent = [] → k.normal = [] → k.spilled = [] → k.ni = [] → k.stopped = false → k.stealFrom ≤ s.cycle →
          k.backoff = none → s.boot.minimal = false → emptySlot s core ≠ none → (∀ q ∈ s.net.packets, q.1 ≠ core) →
          stealOrder s core = l ++ v :: rest → v ∉ l → v ≠ core → (s.core v).spilled = [] →
          ((l = [] ∧ (k.stealAt = none ∨ k.stealFrom < s.cycle)) ∨ (k.stealAt = some v ∧ k.stealFrom = s.cycle)) →
          let gets := fun (p : Packet) (k' : Core) => ∃ t, exec (.stealProbe core) s = .next t ∧ SameCtxs s t
            ∧ t.core v = k' ∧ t.core core = { k with stealAt := none, stealFrom := s.cycle + 1 }
            ∧ ∀ q, q ∈ t.net.packets ↔ q = (core, { p with rank := 1 }) ∨ q ∈ s.net.packets
          (∀ p m, (s.core v).normal = p :: m → gets p { s.core v with normal := m })
          ∧ (∀ p m, (s.core v).normal = [] → (s.core v).urgent = p :: m → gets p { s.core v with urgent := m })
          ∧ ((s.core v).normal = [] → (s.core v).urgent = [] →
            (rest = [] → becomes (.stealProbe core) { k with stealAt := none, backoff := some (s.cycle + 256) })
            ∧ ∀ w m, rest = w :: m → becomes (.stealProbe core) { k with stealAt := some w, stealFrom := s.cycle + 1 }))
      ∧ (∀ at_, k.backoff = some at_ → at_ ≤ s.cycle → becomes (.stealBackoffEnd core) { k with backoff := none })
      ∧ (∀ tenant data, tenant < 4096 → data.length = 64 → word { bytes := data } 60 4 < 2 →
          let p : Packet := { bytes := data, rank := 1000000 }
          (s.inMesh tenant core = true → s.hostStores = [] → ∃ t, exec (.hostSpawnWindowWrite tenant (64 * core) data) s = .next t
            ∧ SameCtxs s t ∧ ∀ q, q ∈ t.net.packets ↔ q = (core, p) ∨ q ∈ s.net.packets)
          ∧ (s.inMesh tenant core = true → s.hostStores ≠ [] → exec (.hostSpawnWindowWrite tenant (64 * core) data) s =
              .next { s with hostPackets := s.hostPackets ++ [(s.hostStores.length, core, p)] })
          ∧ (fget s.tenants tenant = none → exec (.hostSpawnWindowWrite tenant (64 * core) data) s =
              .next { s with boot := { s.boot with noTenant := s.boot.noTenant + 1 } }))

/-- R39, R42, R43, R283: an outstanding write lands in its cycle, in order of issue; a stall hold runs out; the issue mode
follows c.rot from a position-0 cycle on; a moved notice enters the tag cache first of at most 64; a forwarding entry
retires after 52,500 cycles without use. -/
def Obligations.TimersAndNotices : Prop :=
  ∀ (s : State) (core : Nat), s.cur < 45056 → core < 2816 →
    (∀ (a b : XReg) (u v : Word) (i j : Nat), a ≠ 0 → b ≠ 0 → i ≤ s.cycle →
        s.me.pend = [⟨i, .x a.val u⟩, ⟨j, .x b.val v⟩] → Becomes (.resultWriteback s.cur) s
          (if j ≤ s.cycle then { ((s.me.setX a u).setX b v) with pend := [] }
           else { (s.me.setX a u) with pend := [⟨j, .x b.val v⟩] }))
      ∧ (s.me.hold ≠ 0 → s.me.hold ≤ s.cycle → Becomes (.stallHoldExpiry s.cur) s { s.me with hold := 0 })
      ∧ (∃ t, exec (.rotModeSwitch core) s = .next t ∧ SameCtxs s t
          ∧ t.core core = { s.core core with
              lend := if s.cycle % 16 = 0 then (s.core core).rot else (s.core core).lend })
      ∧ (∀ k n, s.net.moved[k]? = some n → ∃ t, exec (.movedNoticeArrival k) s = .next t ∧ SameCtxs s t
          ∧ t.net.moved = s.net.moved.eraseIdx k ∧ (t.core n.core).tagCache.head? = some (n.old, n.new)
          ∧ (t.core n.core).tagCache.length ≤ 64)
      ∧ (∀ old f, fget (s.core core).forwards old = some f → f.used + 52500 ≤ s.cycle →
          ∃ t, exec (.forwardingEntryRetire core old) s = .next t ∧ SameCtxs s t ∧ fget (t.core core).forwards old = none
            ∧ ∀ q, q ≠ old → fget (t.core core).forwards q = fget (s.core core).forwards q)

/-- R270, R272 to R274: a record goes to the tenant's ring at HEAD, which advances, where the ring has room and its memory is
free; else its collector holds it, or counts it as lost when it holds 64. A held record follows once the ring is open. R285:
a context blocked on a full mailbox for more than 21,000 cycles sends a probe to its receiver; the probe passes on along sends
and receives. Back at its origin, a cycle of sends alone is given the reserve entry of the receiver's core; a cycle
through a receive traps every context of the path with cause 0x1C and the length of the path, and its record lists them. -/
def Obligations.TrapRingsAndProbes : Prop :=
  (∀ (s : State) (tenant : Nat) (r : TrapRec), NoJoins s → s.mem.wf = true →
     let t0 := s.tenant tenant
     let addr := t0.ringbase.toNat + 64 * (t0.head % 2 ^ (t0.ringlog.toNat % 32))
     let opens := ringRoom s tenant = true ∧ s.deviceHeld addr 64 = false
     let bytes := natLe 1 r.cause ++ natLe 1 r.info ++ natLe 2 r.row ++ natLe 4 r.count ++ natLe 8 r.cores
       ++ natLe 8 r.tval.toNat ++ natLe 8 r.epc.toNat ++ natLe 4 r.tag ++ natLe 4 r.flags ++ natLe 8 r.cycle
       ++ natLe 8 r.join.toNat ++ List.replicate 8 0
     let appended := fun (t : State) => memReadList t.mem addr 64 = bytes ∧ SameOutside s.mem t.mem addr 64
       ∧ (t.tenant tenant).head = t0.head + 1 ∧ ∀ y, t.ctx y = s.ctx y
     (∀ k, s.net.records[k]? = some (tenant, r) →
         let held := (fget t0.held r.row).getD []
         (held = [] → opens → t0.monitor = 0 → t0.head + 1 < 2 ^ 64 →
           ∃ t, exec (.collectorAppend k) s = .next t ∧ appended t ∧ t.net.records = s.net.records.eraseIdx k)
         ∧ (held ≠ [] ∨ ¬ opens → held.length < 64 → ∃ t, exec (.collectorAppend k) s = .next t ∧ SameCtxs s t
           ∧ fget (t.tenant tenant).held r.row = some (held ++ [r]) ∧ (t.tenant tenant).head = t0.head
           ∧ t.net.records = s.net.records.eraseIdx k)
         ∧ (64 ≤ held.length → ∃ t, exec (.collectorAppend k) s = .next t ∧ SameCtxs s t
           ∧ (t.tenant tenant).held = t0.held ∧ (t.tenant tenant).lostRecs = t0.lostRecs + 1
           ∧ (t.tenant tenant).counts.lost = t0.counts.lost + 1))
       ∧ (∀ rest, fget t0.held r.row = some (r :: rest) →
           (opens → t0.monitor = 0 → t0.head + 1 < 2 ^ 64 →
             ∃ t, exec (.heldRecordAppend tenant r.row) s = .next t ∧ appended t
               ∧ (fget (t.tenant tenant).held r.row).getD [] = rest)
           ∧ (¬ opens → exec (.heldRecordAppend tenant r.row) s = .next s)))
  ∧ (∀ (s : State) (y key : Nat), s.cur < 45056 → blockedAt s (s.tagOf s.cur) = some (y, key) →
        let me := s.tagOf s.cur
        s.me.slot = .parked → s.resident me = some s.cur →
        (s.me.wait = some .space → s.me.probed = none → s.me.parkedAt + 21000 < s.cycle → s.net.probes = [] →
            ∃ t, exec (.deadlockProbeStart s.cur) s = .next t ∧ t.mem = s.mem ∧ t.me = { s.me with probed := some s.cycle }
              ∧ t.net.probes = [{ origin := me, tenant := s.myTenant, path := [me], recv := false, at_ := s.tagOf y }])
          ∧ (∀ p, s.net.probes = [p] → p.at_ = me → p.origin ≠ me → p.path.length < 16 →
              let passes := fun (dest : Nat) (recv : Bool) => ∃ t, exec (.probeHop 0) s = .next t ∧ SameCtxs s t
                ∧ t.net.probes = [{ p with path := p.path ++ [me], recv := recv, at_ := dest }]
              (s.me.wait = some .space → passes (s.tagOf y) p.recv)
              ∧ (∀ ch d va from_ rest, s.me.wait = some (.recv ch d va) → s.me.blocked = from_ :: rest → passes from_.2 true))
          ∧ (∀ p m, s.net.probes = [p] → p.at_ = me → p.origin = me → s.me.wait = some .space → s.me.held = some m → y ≠ s.cur →
              p.recv = false → (s.core (y / 16)).reserve = none →
                ∃ t, exec (.probeHop 0) s = .next t ∧ (t.core (y / 16)).reserve = some (y % 16, key) ∧ t.me.slot = .ready
                  ∧ t.me.pc = s.me.next ∧ t.mem = s.mem
                  ∧ ∀ q, q ∈ t.net.msgs ↔ q ∈ s.net.msgs ∨ q = { m with
                      sender := me, dest := s.tagOf y, at_ := s.cycle + 1, granted := true, done := true, reserve := true }))
  ∧ (∀ (s : State) (p : Probe) (xs : List Nat), s.net.probes = [p] → p.at_ = p.origin → p.recv = true →
        p.path = xs.map s.tagOf → 2 ≤ xs.length → xs.length ≤ 16 → xs.Nodup →
        (∀ x ∈ xs, s.resident (s.tagOf x) = some x ∧ (s.ctx x).slot = .parked) →
        let a := deadlockAddr s p.tenant
        let traps := fun (t : State) => ∀ x ∈ xs, (t.ctx x).slot = .ready ∧ (t.ctx x).wait = none
          ∧ (t.ctx x).cr.cause = BitVec.ofNat 64 (0x1C + 256 * xs.length) ∧ (t.ctx x).cr.tval = BitVec.ofNat 64 a
          ∧ (t.ctx x).cr.epc = (s.ctx x).pc ∧ (t.ctx x).pc = (s.ctx x).cr.tvec ∧ (t.ctx x).priv = true
        (a = 0 → ∃ t, exec (.probeHop 0) s = .next t ∧ traps t ∧ t.net.probes = [] ∧ t.mem = s.mem)
          ∧ (a ≠ 0 → NoJoins s → s.mem.wf = true → s.deviceHeld a 64 = false →
              ∃ t, exec (.probeHop 0) s = .next t ∧ traps t ∧ t.net.probes = []
                ∧ memReadList t.mem a 64 = (p.path.flatMap (natLe 4) ++ List.replicate 64 0).take 64
                ∧ SameOutside s.mem t.mem a 64 ∧ (t.tenant p.tenant).dlCount = (s.tenant p.tenant).dlCount + 1)
          ∧ (a ≠ 0 → s.deviceHeld a 64 = true → ∃ t, exec (.probeHop 0) s = .next t ∧ SameCtxs s t ∧ t.net.probes = [p]))

/-- R269, R289, R290: equal events of a pair are performed once, as the primary's; a pair whose events differ, or whose
partner is missing 4,200 cycles after an event, is lost: both are scrubbed with cause 0x20, INFO 1 or 2, and the number of
pairs compared. R289: every full/empty form, every form of pages 4 and 5 that the rule names, and `mig` trap in a twin
context with cause 0x04, INFO 0x50. An engine command whose type in `c.fmt` is wrong as well meets cause 0x01 too, which R85
ranks first and R357 lists second: which of the two traps is then a free value (log entry 91). -/
def Obligations.TwinPairs : Prop :=
  (∀ (s : State) (k a b : Nat) (p : TwinPair) (e : TwinEvent) (rest : List TwinEvent), fget s.twins k = some p →
    p.ea = e :: rest → p.a = some (s.tagOf a) → p.b = some (s.tagOf b) → a ≠ b → a < 45056 → b < 45056 →
    s.resident (s.tagOf a) = some a → s.resident (s.tagOf b) = some b →
    let lost := fun (i : Instr) (info : Nat) => (s.ctx a).slot = .ready → (s.ctx b).slot = .ready →
      (s.core (a / 16)).recs = [] → (s.core (b / 16)).recs = [] →
      ∃ t, exec i s = .next t ∧ fget t.twins k = none ∧ t.mem = s.mem
        ∧ (∀ z, z = a ∨ z = b → (t.ctx z).slot = .scrubbed ∧ (t.ctx z).x = Vector.replicate 32 0
          ∧ ∃ r : TrapRec, r.tag = s.tagOf z ∧ r.cause = 0x20 ∧ r.info = info ∧ r.tval = BitVec.ofNat 64 p.seq
            ∧ ((s.tenantOf (z / 16), r) ∈ t.net.records ∨ r ∈ (t.core (z / 16)).recs))
        ∧ ∀ z, z ≠ a → z ≠ b → (t.ctx z).slot = (s.ctx z).slot ∧ (t.ctx z).x = (s.ctx z).x
    (∀ f restb, p.eb = f :: restb →
        (e.hash ≠ f.hash → lost (.twinEventCompare k) 1)
        ∧ (∀ st, e.hash = f.hash → e.act = .store [st] → NoJoins s → (s.ctx a).stores = [] → rangeOf st.pa = .lpddr →
            st.rlSy = false → storeHeld s a st = false →
            (∀ q ∈ blocks st.pa st.data.length, otherKey s (s.tenantOf (a / 16)) (q * 64) = false) →
            ∃ t, exec (.twinEventCompare k) s = .next t ∧ t.mem = memWriteList s.mem st.pa st.data
              ∧ (∀ y, t.ctx y = s.ctx y)
              ∧ fget t.twins k = some { p with ea := rest, eb := restb, seq := p.seq + 1 }))
      ∧ (p.eb = [] → e.at_ + 4200 ≤ s.cycle → lost (.twinWindowExpiry k) 2))
  ∧ (∀ (s : State) (n : Fin 16) (w : Scope) (d a b : XReg) (pt : Bool) (off : Int), s.me.twin = true → s.me.cp = none →
        Quiet s [xref a, xref b, xref d] →
        let traps := fun (i : Instr) => exec i s = .next (enterTrap { cause := 0x04, info := 0x50 } false s)
        let type := fun (at_ : Nat) => bits s.me.cr.fmt at_ 4
        let outs := 8 ≤ type 8 ∧ type 8 ≤ 12
        let either := fun (typed : Prop) (l : List Instr) => ∀ i ∈ l, (typed → traps i)
          ∧ (¬ typed → if Config.typeFirst then
              exec i s = .next (enterTrap { cause := 0x01, tval := BitVec.ofNat 64 (s.me.index * 65536 + s.me.base) } false s)
            else traps i)
        (∀ i ∈ [Instr.ldfe w d a, .ldff w d a, .stfe w d a, .stff w d a, .fepurge w a, .mig d a], traps i)
        ∧ (∀ i ∈ [Instr.spawn a b, .spawnTwin a b, .spawnd a b, .fork a, .join a, .bar a b, .barFab a b, .cgjoin d a b,
            .cgleave, .cbfence, .cbrAny pt d off, .cbrAll pt d off, .cbrMaj pt d off], traps i)
        ∧ (∀ i ∈ [Instr.mfree n d a, .cjob n d a b, .cstep n d a b, .rowadd n d a b, .rowcommit n d a b, .rowpause n d a b,
            .jwait d a, .jpoll n d a], traps i)
        ∧ either (type 0 = 11 ∧ outs) [.mjob n d a b]
        ∧ (s.me.recorded 9 = none → either (type 0 = 11 ∧ outs) [.mmul d a b])
        ∧ either (type 4 = 11) [.mload n d a b, .mloadSp n d a b]
        ∧ (s.feature 6 = true → traps (.prdsel n d a) ∧ either (type 0 = 11) [.prd n d a b]
            ∧ (s.me.recorded 9 = none → either (type 0 = 11 ∧ outs) [.mrow d a b])))

/-! ## Collective engines and the fabric -/

/-- R249 to R253, R278: the first chain whose core is not stopped starts; a notice for a later step is kept; the notice of the
open step sends SRC to the partner, one with another count or type, or a second one, ends the chain with KIND 0x13; partner
data is combined with LOC into DST, and what the members of a group gave by index; a step whose DST is written ends with its
acknowledgement; a partner wait that passes its deadline ends the chain with KIND 0x14 and the address of its descriptor.
The clauses about data say this of a step of one element of 32-bit integers (COUNT 1, types 4). That the partner wait counts
anew from the notice and covers the wait for the data (log entry 32), and that a command's engine, of the two I/O dies, is a
free choice (log entry 88), are the model's readings. -/
def Obligations.CollectiveChains : Prop :=
  (∀ (s : State) (j : Job) (l rest : List Job), s.coll.run = none → s.coll.queue = l ++ j :: rest →
    (∀ q ∈ l, (s.core (q.cmd.tag / 4096)).stopped = true) → (s.core (j.cmd.tag / 4096)).stopped = false →
    ∃ t, exec (.engineJobStart .coll) s = .next t ∧ SameCtxs s t ∧ t.coll.queue = l ++ rest
      ∧ t.coll.run = some { job := j, step := 0, desc := j.cmd.xa.toNat, phase := .start, since := s.cycle })
  ∧ (∀ (s : State) (tenant peer tag count ty : Nat), s.coll.run = none →
    exec (.readyNoticeArrival ⟨tenant, peer⟩ tag count ty) s = .next { s with coll := { s.coll with
      notices := s.coll.notices ++ [{ tenant := tenant, peer := peer, tag := tag, count := count, ty := ty }] } })
  ∧ (∀ (s : State) (k : Chain) (x pd ps pl pt next src loc dst peer op v : Nat) (nc : Bool), s.coll.run = some k →
    NothingHeld s → NoJoins s → s.mem.wf = true → s.resident k.job.cmd.tag = some x → (s.ctx x).slot = .ready →
    (s.ctx x).jobs = [{ id := k.job.id, order := k.job.order }] →
    let c := k.job.cmd
    let complete := fun (t : State) (f : Option JFault) => t.coll.run = none
      ∧ (t.ctx x).jobs = [{ id := k.job.id, order := k.job.order, doneAt := some s.cycle, fault := f }]
    let mismatch := some { kind := 0x13, addr := k.desc }
    (k.phase = .done → k.due ≤ s.cycle → ∃ t, exec .stepAckArrival s = .next t ∧ complete t k.fault ∧ t.mem = s.mem)
    ∧ (k.phase = .notice → s.coll.frozen = false → c.cr.cgdl.toNat % 2 ^ 32 ≠ 0 →
        k.since + c.cr.cgdl.toNat % 2 ^ 32 * 1024 ≤ s.cycle →
        ∃ t, exec .partnerWaitExpiry s = .next t ∧ t.mem = s.mem
          ∧ complete t (some { kind := 0x14, addr := k.desc % 2 ^ 56 }))
    ∧ (c.op = .cstep → k.job.bad = none → k.job.lost = [] → Fresh s (jobTlb s c) c.tenant →
        k.desc % 64 = 0 → JobReads s c k.desc pd 64 → src % 4 = 0 → JobReads s c src ps 4 → loc % 4 = 0 → JobReads s c loc pl 4 →
        dst % 4 = 0 → JobWrites s c dst pt 4 nc → OwnKey s c pt 4 → v < 2 ^ 32 → op < 7 → peer ≠ s.fabric.package →
        memReadList s.mem pd 64 = natLe 8 next ++ natLe 8 src ++ natLe 8 loc ++ natLe 8 dst ++ natLe 4 1 ++ natLe 2 peer
          ++ natLe 1 op ++ natLe 1 0x44 ++ List.replicate 24 0 → next < 2 ^ 56 → peer < 1024 →
        let given := leNat (memReadList s.mem ps 4)
        let own := leNat (memReadList s.mem pl 4)
        let wrote := fun (t : State) (n : Nat) => leNat (memReadList t.mem pt 4) = n ∧ SameOutside s.mem t.mem pt 4
        (k.phase = .notice → (∀ q ∈ s.coll.notices, ¬ (q.tenant = c.tenant ∧ q.peer = peer ∧ q.tag = k.tag)) →
          (∃ t, exec (.readyNoticeArrival ⟨c.tenant, peer⟩ k.tag 1 4) s = .next t ∧ SameCtxs s t
              ∧ t.coll.run = some { k with phase := .data, since := if s.coll.frozen then 0 else s.cycle }
              ∧ (routeTo s peer ≠ none → t.fabric.sent = { source := s.fabric.package, dest := peer, vc := 0, tenant := c.tenant
                                                           payload := .elements k.tag [given] } :: s.fabric.sent))
          ∧ (∀ count ty, count ≠ 1 ∨ ty ≠ 4 → ∃ t, exec (.readyNoticeArrival ⟨c.tenant, peer⟩ k.tag count ty) s = .next t
              ∧ complete t mismatch ∧ t.mem = s.mem)
          ∧ ∀ tenant count ty, tenant ≠ c.tenant → exec (.readyNoticeArrival ⟨tenant, peer⟩ k.tag count ty) s
              = .next { s with coll := { s.coll with
                  notices := s.coll.notices ++ [{ tenant := tenant, peer := peer, tag := k.tag, count := count, ty := ty }] } })
        ∧ (k.phase = .data → ∀ count ty, ∃ t, exec (.readyNoticeArrival ⟨c.tenant, peer⟩ k.tag count ty) s = .next t
              ∧ complete t mismatch ∧ t.mem = s.mem)
        ∧ (k.phase = .data → k.wrote = false → k.acked = false → op = 0 →
          ∃ t, exec (.partnerDataArrival [v]) s = .next t ∧ t.coll.run = some { k with wrote := true }
            ∧ wrote t ((own + v) % 2 ^ 32) ∧ ∀ y, t.ctx y = s.ctx y)
        ∧ (k.phase = .data → k.wrote = true → next ≠ 0 →
          ∃ t, exec .stepAckArrival s = .next t ∧ t.mem = s.mem ∧ (∀ y, t.ctx y = s.ctx y)
            ∧ t.coll.run = some { k with step := k.step + 1, desc := next, phase := .start, since := s.cycle,
                                         wrote := false, acked := false })
        ∧ (∀ w, k.phase = .anise → op = 4 → c.cg.count = 2 → next = 0 → w < 2 ^ 32 →
          (∃ t, exec (.aniseGroupResult [4, 4] [1, 1] [[w], [v]]) s = .next t ∧ complete t none ∧ wrote t ((w + v) % 2 ^ 32))
          ∧ ∀ n m, n ≠ 4 ∨ m ≠ 1 → ∃ t, exec (.aniseGroupResult [4, n] [1, m] [[w], [v]]) s = .next t ∧ complete t mismatch
              ∧ t.mem = s.mem)))

/-- R239 to R243: a frame in sequence that verifies is written to its sectors and leaves nothing pending; one that does not
leaves them poisoned and pending and the link trains again, a third failure leaves them poisoned; one out of sequence
changes nothing. An acknowledgement empties the retry buffer up to its number; a link whose ends agree returns to service
under new keys and sends again every frame that is not acknowledged, else it is held degraded until the fabric manager
returns or retires it; a link trains before a number reaches 2^48. R175, R244 to R246: a message for another package goes
out in a frame on the port of its route with the next channel, or is dropped where there is none, a read then being answered
with poison, which traps the context that waits for it; a write for this package from a member of the tenant's domain is
performed in its memory, one from another package is dropped with a record of cause 0x1D; a posted store is performed at its
home, unless it is turned away on its way (a free value, log entry 90). The model's choices are: the layout of a message in its frames (log entry 58), that a frame out of sequence, or at a
link out of service, changes nothing (log entry 59), and that a write of bytes that this package's memory does not have is
dropped and a read of them answered with poison (log entry 16). -/
def Obligations.Fabric : Prop :=
  (∀ (s : State) (port : Nat) (f : Frame) (tag : BitVec 128), port < 32 →
     let k := s.port port
     let becomes := fun (i : Instr) (k' : Port) => ∃ t, exec i s = .next t ∧ SameCtxs s t ∧ t.port port = k'
       ∧ ∀ q, q ≠ port → t.port q = s.port q
     let verifies := 1 ≤ f.nflit ∧ f.nflit ≤ 16 ∧ f.vc ≤ 3 ∧ f.reserved = 0 ∧ f.payload.length + f.data.length ≤ 64 * f.nflit
       ∧ tag = frameSeal f port false k.keys
     let sealed := fun (keys : Nat) (l : List Frame) => l.map fun g => (g, frameSeal g port true keys)
     (s.fabric.frames = [] → frameHeld s f = false → f.seq ≠ k.seqIn ∨ k.inService = false → exec (.frameReceive port f tag) s = .next s)
       ∧ (s.fabric.frames = [] → frameHeld s f = true →
           exec (.frameReceive port f tag) s = .next { s with fabric := { s.fabric with frames := [(port, f, tag)] } })
       ∧ (s.fabric.frames = [] → frameHeld s f = false → k.inService = true → f.seq = k.seqIn → k.seqIn < 2 ^ 48 →
           k.seqOut < 2 ^ 48 → NothingHeld s → NoJoins s → (∀ q ∈ f.payload, rangeOf q.1 ≠ .peer) →
           (verifies → ∃ t, exec (.frameReceive port f tag) s = .next t ∧ t.mem = memWriteCells s.mem f.payload
             ∧ (∀ y, t.ctx y = s.ctx y) ∧ t.port port = { k with seqIn := k.seqIn + 1, fails := 0 }
             ∧ (t.agenda = if k.seqIn + 1 = 2 ^ 48 then .linkRetrain port :: s.agenda else s.agenda)
             ∧ ∀ q, q ∈ t.pendSectors ↔ q ∈ s.pendSectors ∧ ¬ (q.port = port ∧ q.seq = f.seq))
           ∧ (¬ verifies → k.fails < 3 → ∃ t, exec (.frameReceive port f tag) s = .next t ∧ t.mem = memWriteCells s.mem f.payload
             ∧ t.port port = { k with failed := k.failed + 1, fails := (k.fails + 1) % 3 } ∧ t.agenda = .linkRetrain port :: s.agenda
             ∧ (∀ q ∈ f.payload, nmem t.poison (q.1 / 32) = true)
             ∧ (k.fails < 2 → ∀ q ∈ f.payload, ∃ e ∈ t.pendSectors, e.port = port ∧ e.sector = q.1 / 128)
             ∧ (k.fails = 2 → ∀ e ∈ t.pendSectors, ¬ (e.port = port ∧ e.seq = f.seq))))
       ∧ (∀ n, k.seqIn < 2 ^ 48 → k.seqOut + 1 < 2 ^ 48 →
           let left := k.retry.filter (n < ·.seq)
           let out := k.onLink.filter (n < ·.1.seq)
           (k.pend = [] → becomes (.frameAck port n) { k with retry := left, onLink := out })
           ∧ (∀ g, k.pend = [g] → left.length < 128 → k.inService = true →
               let g' : List Frame := [{ g with seq := k.seqOut }]
               becomes (.frameAck port n)
                 { k with retry := left ++ g', onLink := out ++ sealed k.keys g', pend := [], seqOut := k.seqOut + 1 }))
       ∧ (k.seqIn < 2 ^ 48 → k.seqOut < 2 ^ 48 →
           becomes (.linkRetrain port) { k with inService := false, ownRec := none, otherRec := none, onLink := [] })
       ∧ (∀ own other, s.feature 0 = true → k.inService = false → k.retired = false → k.degraded = false → k.pend = [] →
           NothingHeld s →
           let agrees := own.width = other.width ∧ own.laneMap = other.laneMap ∧ own.speed = other.speed
           let k' := { k with ownRec := some own, otherRec := some other }
           (agrees → becomes (.trainingRecord port own other)
             { k' with inService := true, keys := k.keys + 1, onLink := sealed (k.keys + 1) k.retry })
           ∧ (¬ agrees → becomes (.trainingRecord port own other)
             { k' with degraded := true, retry := [], onLink := [], fails := 0 }))
       ∧ (k.degraded = true → k.retry = [] → k.pend = [] → NothingHeld s →
           becomes (.linkReturnToService port true) { k with degraded := false, retired := true }
           ∧ becomes (.linkReturnToService port false)
             { k with degraded := false, inService := true, keys := k.keys + 1, seqOut := 0, seqIn := 0, onLink := [] }))
  ∧ (∀ (s : State) (m : FabMessage) (a : Nat) (data : List Byte) (posted : Bool), s.fabric.waiting = [] →
        m.payload = .write a data posted →
        m.vc < 4 →
        (∀ e p, exec (.routeTableLoad e p) s = .next { s with fabric := { s.fabric with routes := e, present := p } })
          ∧ (m.dest = s.fabric.package → data ≠ [] → s.net.records = [] →
              let home := a % 2 ^ 41
              let member := (s.tenant m.tenant).members.getLsbD m.source = true ∧ fget s.tenants m.tenant ≠ none
              let has := allLpddr s home data.length = true
              (member → has → NoJoins s → s.deviceHeld home data.length = false →
                (∀ b ∈ blocks home data.length, otherKey s m.tenant (b * 64) = false) →
                ∃ t, exec (.fabricMessageReceive m) s = .next t ∧ t.mem = memWriteList s.mem home data
                  ∧ ∀ y, t.ctx y = s.ctx y)
              ∧ (member → has → s.deviceHeld home data.length = true → exec (.fabricMessageReceive m) s =
                  .next { s with fabric := { s.fabric with waiting := [{ m with vc := 4 }] } })
              ∧ (member → ¬ has → exec (.fabricMessageReceive m) s = .next s)
              ∧ (¬ member → ∃ t, exec (.fabricMessageReceive m) s = .next t ∧ SameCtxs s t
                  ∧ (fget s.tenants m.tenant ≠ none → ∃ r, t.net.records = [(m.tenant, r)] ∧ r.cause = 0x1D ∧ r.info = 0
                      ∧ r.cores = 0 ∧ r.tval = BitVec.ofNat 64 m.source)))
          ∧ (m.dest ≠ s.fabric.package → m.vc < 3 → ∀ n, n < 32 →
              s.fabric.routes.find? (fun e => e.1 = m.dest * 4 + m.vc + 1) = some (m.dest * 4 + m.vc + 1, n) →
              let k := s.port n
              (k.degraded = false → k.retired = false →
                ∃ t, exec (.fabricMessageReceive m) s = .next t ∧ SameCtxs s t
                  ∧ t.fabric.sent = { m with vc := m.vc + 1 } :: s.fabric.sent ∧ t.fabric.drops = s.fabric.drops
                  ∧ (k.inService = true → k.pend = [] → k.retry.length < 128 → k.seqOut + 1 < 2 ^ 48 → k.seqIn < 2 ^ 48 →
                    1 ≤ data.length → data.length ≤ 1024 →
                      let g : Frame := { seq := k.seqOut, nflit := (data.length + 63) / 64, vc := m.vc + 1
                                         payload := data.zipIdx.map fun (b, i) => (a + i, b) }
                      t.port n = { k with retry := k.retry ++ [g], onLink := k.onLink ++ [(g, frameSeal g n true k.keys)], seqOut := k.seqOut + 1 }))
              ∧ (k.degraded = true ∨ k.retired = true → ∃ t, exec (.fabricMessageReceive m) s = .next t ∧ SameCtxs s t
                  ∧ t.fabric.sent = s.fabric.sent ∧ t.fabric.drops = s.fabric.drops + 1
                  ∧ (fget s.tenants m.tenant ≠ none →
                      (t.tenant m.tenant).counts.stores = (s.tenant m.tenant).counts.stores + posted.toNat)))
          ∧ (∀ p rest, s.posted = p :: rest → linkWaits s true p.addr 1 = false →
              (reachable s p.addr = true → ∃ t, exec (.postedStoreArrival 0) s = .next t ∧ SameCtxs s t ∧ t.posted = rest
                ∧ t.peerHome = if Config.turnedAway s.free then s.peerHome else memWriteList s.peerHome p.addr p.data)
              ∧ (reachable s p.addr = false → ∃ t, exec (.postedStoreArrival 0) s = .next t ∧ SameCtxs s t ∧ t.posted = rest
                ∧ t.peerHome = s.peerHome ∧ t.fabric.drops = s.fabric.drops + 1
                ∧ (t.tenant p.tenant).counts.stores = (s.tenant p.tenant).counts.stores + 1)))
  ∧ (∀ (s : State) (m : FabMessage) (a n p : Nat), s.fabric.waiting = [] → m.payload = .read a n → m.vc < 3 →
        routeTo s m.source = some p →
        let answers := fun (poison : Bool) (data : List Byte) (drops : Nat) => ∃ t, exec (.fabricMessageReceive m) s = .next t
          ∧ SameCtxs s t ∧ t.fabric.drops = s.fabric.drops + drops
          ∧ t.fabric.sent = { source := s.fabric.package, dest := m.source, vc := 0, tenant := m.tenant
                              payload := .answer a poison data } :: s.fabric.sent
        (m.dest ≠ s.fabric.package → (∀ e ∈ s.fabric.routes, e.1 ≠ m.dest * 4 + m.vc + 1) →
            answers true (List.replicate n 0) 1)
        ∧ (m.dest = s.fabric.package → (s.tenant m.tenant).members.getLsbD m.source = true →
            fget s.tenants m.tenant ≠ none → n ≠ 0 →
            let home := a % 2 ^ 41
            (allLpddr s home n = false → answers true (List.replicate n 0) 0)
            ∧ (allLpddr s home n = true → s.readHeld home n = false → s.pausedAt home n = false → Plain s m.tenant home n →
                answers false (memReadList s.mem home n) 0)))
  ∧ (∀ (s : State) (m : FabMessage) (x a d : Nat) (c : Ctx) (z : Sz) (aq : Bool) (p : Piece) (data : List Byte),
        s.fabric.waiting = [] → m.payload = .answer a true data → m.vc < 4 → s.coll.run = none → m.dest = s.fabric.package → (s.tenant m.tenant).members.getLsbD m.source = true →
        fget s.tenants m.tenant ≠ none → s.ctxs = [(x, c)] → s.tenantOf (x / 16) = m.tenant → c.slot = .parked →
        c.wait = some (.load z aq d p) → c.landing = [] → p.pa < a + max 1 data.length →
        a < p.pa + p.n →
        ∃ t, exec (.fabricMessageReceive m) s = .next t ∧ t.mem = s.mem ∧ (t.ctx x).slot = .ready ∧ (t.ctx x).cr.cause = 0x0C
          ∧ (t.ctx x).cr.tval = BitVec.ofNat 64 (p.va.toNat + max a p.pa / 32 * 32 - p.pa) ∧ (t.ctx x).cr.epc = c.pc
          ∧ (t.ctx x).pc = c.cr.tvec ∧ (t.ctx x).x = c.x)

/-! ## The host and the start -/

/-- R54, R245, R246, R270, R276, R295, R297, R307, R308: what the host writes: the tenant's rings, membership and job
commands, a device register, the HDM range, the package number; what it reads of a register and of the HDM range. That a
poisoned granule of a code image is hashed as its plain bytes is the model's choice (log entry 83). -/
def Obligations.HostWrites : Prop :=
  ∀ (s : State) (tenant : Nat) (t0 : Tenant) (v : Word), tenant < 4096 → fget s.tenants tenant = some t0 →
    let sets := fun (i : Instr) (t1 : Tenant) => ∃ t, exec i s = .next t ∧ SameCtxs s t ∧ fget t.tenants tenant = some t1
      ∧ ∀ q, q ≠ tenant → fget t.tenants q = fget s.tenants q
    let audit := fun (f : AuditJob) => { t0 with audit := f }
    sets (.ringbaseWrite tenant v) { t0 with ringbase := v, head := 0 } ∧ sets (.tailWrite tenant v) { t0 with tail := v }
      ∧ (∀ i, i < 16 → ∃ m, sets (.membersWrite tenant i v) { t0 with members := m }
          ∧ ∀ b, b < 1024 → m.getLsbD b = if b / 64 = i then v.getLsbD (b % 64) else t0.members.getLsbD b)
      ∧ sets (.registerWrite (0x40000000 + tenant * 0x100 + 0x38) 8 v) { t0 with wdog := v &&& 0xFFFF }
      ∧ (∀ w, w ≠ 4 → w ≠ 8 → exec (.registerWrite (0x40000000 + tenant * 0x100 + 0x38) w v) s = .next s)
      ∧ hostRegisterRead s (0x40000000 + tenant * 0x100 + 0x38) 8 = t0.wdog.toNat
      ∧ (∀ r w, (w ≠ 4 ∧ w ≠ 8) ∨ r % w ≠ 0 → hostRegisterRead s r w = 0)
      ∧ (t0.audit.stat = 0 →
          (t0.audit.codelen ≠ 0 → s.readHeld t0.audit.codebase.toNat t0.audit.codelen.toNat = false) →
          sets (.jobBegin tenant) (audit { t0.audit with
          stat := 1, refused := false, beginning := false, beginCycle := s.cycle
          hash := (List.range 48).map (Config.sha384 (bytesFor s tenant t0.audit.codebase.toNat t0.audit.codelen.toNat)) }))
      ∧ (t0.audit.stat = 1 → ∃ t, exec (.jobEnd tenant) s = .next t ∧ SameCtxs s t ∧ ∃ t1, fget t.tenants tenant = some t1
          ∧ t1.counts = {} ∧ t1.audit.stat = 2 ∧ t1.audit.pendingRec.length = 512
          ∧ (t1.audit.pendingRec.drop 40).take 28 = [t0.counts.poison, t0.counts.twin, t0.counts.calib, t0.counts.trap,
              t0.counts.msgs, t0.counts.stores, t0.counts.lost].flatMap (natLe 4))
      ∧ (t0.audit.stat = 2 → ∃ r, sets (.jobRecordSigned tenant) (audit { t0.audit with stat := 3, refused := false, record := r })
          ∧ r.take t0.audit.pendingRec.length = t0.audit.pendingRec)
      ∧ (t0.audit.stat = 3 → sets (.jobAck tenant) (audit { t0.audit with stat := 0, refused := false }))
      ∧ (t0.audit.stat ≠ 0 → sets (.jobBegin tenant) (audit { t0.audit with refused := true }))
      ∧ (∀ addr data, data ≠ [] →
          (addr + data.length ≤ hdmSize s → NoJoins s → s.hostStores = [] → s.hostPackets = [] →
            s.deviceHeld addr data.length = false → (∀ b ∈ blocks addr data.length, otherKey s (hdmTenant s) (b * 64) = false) →
            ∃ t, exec (.hostHdmAccess true addr data) s = .next t ∧ t.mem = memWriteList s.mem addr data
              ∧ (∀ y, t.ctx y = s.ctx y) ∧ t.hostStores = [])
          ∧ (addr + data.length ≤ hdmSize s → s.deviceHeld addr data.length = true → s.hostPackets = [] → s.hostStores = [] →
            exec (.hostHdmAccess true addr data) s = .next { s with hostStores := [{ pa := addr, data := data }] })
          ∧ (addr + data.length ≤ hdmSize s → s.hostReads = [] →
            (s.hostStores = [] → s.readHeld addr data.length = false → Plain s (hdmTenant s) addr data.length →
              ∃ t, exec (.hostHdmAccess false addr data) s = .next t ∧ SameCtxs s t
                ∧ t.hostData = memReadList s.mem addr data.length ∧ t.hostPoison = [] ∧ t.hostReads = [])
            ∧ (s.hostStores ≠ [] ∨ s.readHeld addr data.length = true →
              exec (.hostHdmAccess false addr data) s = .next { s with hostReads := [(addr, data.length)] }))
          ∧ (hdmSize s < addr + data.length → ∀ w, exec (.hostHdmAccess w addr data) s = .next s))
      ∧ (∀ n, n < 1024 → exec (.packageNumberSet n) s = .next { s with fabric := { s.fabric with package := n } })

/-- R297 to R305: a reset whose records verify and whose hardware trains offers its features, in minimal mode only those of
the package; a failed check goes to failure with its reason; ACCEPT takes offered bits; GO enables them, creates the
tenants of the record and runs; a minute without GO fails; a failed module resets itself after a second; RETRY leaves
minimal mode. The model's choices are: memory and tenants are empty after a reset (log entry 4), a second is 1,050,000,000
cycles and the tenants exist from GO on (log entry 61), and a record without the layout of R303 or R305 fails like its
signature, with REASON 1 or 2 (log entry 80). -/
def Obligations.StartSequence : Prop :=
  ∀ s : State,
    (∀ input, s.boot.fails < 3 →
        (startFailure input = none → ∃ t, exec (.moduleReset input) s = .next t ∧ t.boot.state = 2 ∧ t.boot.reason = 0
          ∧ t.boot.fails = s.boot.fails + 1 ∧ t.boot.minimal = false
          ∧ t.boot.record = some (configOf ((input.config.drop 64).take (leNat ((input.config.drop 4).take 4))))
          ∧ t.boot.measures = input.firmware.map sha384
          ∧ t.boot.accept = 0 ∧ t.ctxs = [] ∧ t.mem = [] ∧ t.tenants = []
          ∧ ∀ b, b < 256 → (t.boot.offer.getLsbD b = true ↔ (b = 0 ∨ b = 3 ∨ b = 4 ∨ b = 5 ∨ b = 6
              ∨ (b = 1 ∧ ∃ n, input.expanders[0]? = some (some n) ∧ n ≤ 4000000000000)
              ∨ (b = 2 ∧ ∃ n, input.expanders[1]? = some (some n) ∧ n ≤ 4000000000000))))
        ∧ (∀ r, startFailure input = some r → ∃ t, exec (.moduleReset input) s = .next t ∧ t.boot.state = 5
          ∧ t.boot.reason = r ∧ t.boot.flashReason = r ∧ t.boot.fails = s.boot.fails + 1 ∧ t.boot.record = none))
      ∧ (∀ input, s.boot.fails = 3 → startFailure input = none → ∃ t, exec (.moduleReset input) s = .next t
          ∧ t.boot.state = 2 ∧ t.boot.minimal = true ∧ t.boot.fails = 3 ∧ t.boot.reason = s.boot.flashReason
          ∧ ∀ b, b < 256 → t.boot.offer.getLsbD b = decide (b = 3 ∨ b = 5 ∨ b = 6))
      ∧ (∀ (input : ResetInput) (r : List Byte), r ∈ input.firmware →
          let len := leNat ((r.drop 4).take 4)
          let covered := r.take (64 + len)
          r.length ≠ 64 + len + 64 + 3309 ∨ leNat (r.take 4) ≠ 1 ∨ (r.drop 16).take 48 ≠ sha384 (vendorKeys.ed ++ vendorKeys.ml)
            ∨ Config.edVerifies vendorKeys.ed covered ((r.drop (64 + len)).take 64) = false
            ∨ Config.mlVerifies vendorKeys.ml covered (r.drop (128 + len)) = false → startFailure input = some 1)
      ∧ (∀ input fw, startFirmware input = some fw →
          (startRecords input = none → startFailure input = some 2)
          ∧ ∀ o c, startRecords input = some (o, c) →
              let r := configOf c.body
              let old := (∃ f ∈ fw, f.version < r.minFw) ∨ c.version < r.minCfg ∨ o.version < r.minOwn
              (old → startFailure input = some 3)
              ∧ (¬ old → c.body.length ≠ 64 + 192 * leNat ((c.body.drop 4).take 4) ∨ recordOk r = false → startFailure input = some 4))
      ∧ (∀ i (v : Word), i < 4 → s.boot.state = 2 → ∃ w, exec (.acceptWrite i v) s = .next { s with boot := { s.boot with accept := w } }
          ∧ ∀ b, b < 256 → w.getLsbD b = if b / 64 = i then v.getLsbD (b % 64) && s.boot.offer.getLsbD b else s.boot.accept.getLsbD b)
      ∧ (s.boot.state = 2 → ∃ t, exec .go s = .next t ∧ SameCtxs s t ∧ t.boot.enabled = s.boot.accept &&& s.boot.offer
          ∧ t.boot.state = (if s.boot.minimal then 4 else 3) ∧ t.boot.fails = (if s.boot.minimal then s.boot.fails else 0)
          ∧ (∀ r e, s.boot.record = some r → s.boot.minimal = false → r.tenants = [e] → t.tenants = [(e.tenant, {
              cx0 := e.cx0, cy0 := e.cy0, cw := e.cw, ch := e.ch, root := e.root, wdog := BitVec.ofNat 64 r.wdog
              steal := (e.steal &&& 0x00FFFFFFFFFFF000) ||| BitVec.ofNat 64 (min 4 (e.steal.toNat % 8))
              members := e.members })]))
      ∧ (s.boot.state = 2 → s.boot.since + 60 * 1050000000 ≤ s.cycle → exec .offerTimeout s = .next { s with
          boot := { s.boot with state := 5, reason := 8, flashReason := 8, since := s.cycle } })
      ∧ (s.boot.state = 5 → s.boot.since + 1050000000 ≤ s.cycle → ∃ t, exec .failureResetTimer s = .next t
          ∧ t.boot.state = 0 ∧ t.boot.fails = s.boot.fails ∧ t.ctxs = [] ∧ t.mem = [] ∧ t.tenants = [])
      ∧ (s.boot.minimal = true → ∃ t, exec .retry s = .next t ∧ t.boot.state = 0 ∧ t.boot.fails = 2
          ∧ t.boot.minimal = false ∧ t.ctxs = [] ∧ t.mem = [])

/-! ## Steps, decoding, invariants -/

/-- R300, R301, R89, R115, R36, R56: right after reset the security processor verifies, nothing is enabled, no tenant, task
or job exists, every slot is empty, the cycle counter is 0 and each scratchpad has 256 KiB. The clause on memory bytes is
the model's choice (log entry 4), as is that on the image register (log entry 5). -/
def Obligations.ResetState : Prop :=
  let s := State.reset
  s.boot.state = 0 ∧ s.boot.enabled = 0 ∧ s.boot.accept = 0 ∧ s.boot.offer = 0 ∧ s.cycle = 0 ∧ s.tenants = []
    ∧ s.agenda = [] ∧ s.coll.run = none
    ∧ (∀ x, (s.ctx x).slot = .empty ∧ (s.ctx x).cp = none ∧ (s.ctx x).landing = [] ∧ (s.ctx x).jobs = [])
    ∧ (∀ n, (s.core n).rot = false ∧ (s.core n).spad = 8 ∧ (s.core n).image = 0 ∧ (s.core n).urgent = []
        ∧ (s.core n).normal = [] ∧ (s.core n).stopped = false)
    ∧ (∀ n, (s.cluster n).vpool = 0 ∧ (s.cluster n).clove.queue = [] ∧ (s.cluster n).clove.run = none)
    ∧ (∀ p, ((fget s.fabric.ports p).getD {}).inService = false) ∧ (∀ a, memRead s.mem a = 0) ∧ MemOk s

/-- R40, R41: at position p the context of slot p issues if it is ready and its hold has expired; else, in strict mode,
none, and in lend mode the eligible one whose last issue is oldest, the lower slot where two tie. That a context which has
not issued counts as oldest is the model's reading (log entry 2). -/
def Obligations.Rotation : Prop :=
  ∀ (s : State) (core : Nat),
    let p := s.cycle % 16
    let c := fun (i : Nat) => s.ctx (core * 16 + i)
    let free := fun (i : Nat) =>
      (c i).slot = .ready ∧ (c i).readyAt ≤ s.cycle ∧ (c i).hold ≤ s.cycle ∧ (c i).openHold = none
    let eligible := fun (i : Nat) =>
      i < 16 ∧ free i ∧ (∀ t, (c i).lastIssue = some t → t + 8 ≤ s.cycle) ∧ 8 ≤ (i + 16 - p) % 16
    let last := fun (i : Nat) => match (c i).lastIssue with | some t => t + 1 | none => 0
    (free p → issueSlot s core = some p)
      ∧ (¬ free p → (s.core core).lend = false → issueSlot s core = none)
      ∧ (¬ free p → (s.core core).lend = true → ∀ i, issueSlot s core = some i ↔
          eligible i ∧ ∀ j, eligible j → last i < last j ∨ (last i = last j ∧ i ≤ j))
      ∧ (∀ n slot, nextIssue s = some (n, slot) → s.turn ≤ n ∧ issueSlot s n = some slot)
      ∧ (nextIssue s = none → ∀ x, (∃ y, (x, y) ∈ s.ctxs) → s.turn ≤ x / 16 → issueSlot s (x / 16) = none)

/-- R67, R68, R84, R334: a step that issues fetches the parcels of memory at the pc, up to the first that is no prefix, and is
`exec` of the instruction that they decode to, with the next address behind them; parcels that are no instruction give the
illegal-instruction step. A fence of the context that still stands in its store path delays no fetch. What the agenda holds
comes first. The order of steps is the model's own (log entries 1, 2), and so is that a fetch reads memory in the step that
issues, with none of the context's stores that no fence follows (log entry 11). -/
def Obligations.StepRunsDecoded : Prop :=
  (∀ (s : State) (i : Instr) (rest : List Instr), s.agenda = i :: rest → step s = exec i { s with agenda := rest })
  ∧ (∀ (s : State) (core slot : Nat), s.agenda = [] → earlyEvent s = none → nextIssue s = some (core, slot) →
    let t := atIssue core slot s
    let c := s.ctx (core * 16 + slot)
    t.cur = core * 16 + slot ∧ t.me = { c with lastIssue := some s.cycle, hold := s.cycle + 8 } ∧ t.mem = s.mem
    ∧ (∀ ps i n, fetch t = .parcels ps → decode ps = .ok i n → step s = exec i (issued ps n t)
        ∧ (issued ps n t).me = { t.me with
            next := c.pc + BitVec.ofNat 64 (2 * n), base := ps.getD (n - 1) 0, index := n - 1 })
    ∧ (∀ ps w k, fetch t = .parcels ps → decode ps = .bad w k → k < 5 → w < 65536 →
        step s = exec (.illegalInstruction (BitVec.ofNat 16 w) (Fin.ofNat 5 k)) (issued ps ps.length t))
    ∧ (∀ i, fetch t = .trap i → step s = .next (takeTrap i (noteTrap i t)))
    ∧ (fetch t = .wait → step s = .next { s with turn := core + 1 })
    ∧ (c.pc.toNat % 2 = 1 → fetch t = .trap { cause := 0x04, tval := c.pc }))
  ∧ (∀ (s : State) (ps : List Nat) (pa : Nat → Nat), s.me.pc.toNat % 2 = 0 → 1 ≤ ps.length → ps.length ≤ 5 →
    (∀ k, k + 1 < ps.length → ps.getD k 0 / 4096 = 15) → ps.getD (ps.length - 1) 0 / 4096 ≠ 15 →
    (∀ k, k < ps.length → let va := s.me.pc + BitVec.ofNat 64 (2 * k)
      ∃ e, myTranslate s va = some (pa k, e) ∧ permits e s.me.priv .ex = true
        ∧ classOf s (pa k) ≠ .none ∧ classOf s (pa k) ≠ .device ∧ rangeOf (pa k) ≠ .peer
        ∧ s.readHeld (pa k) 2 = false ∧ (∀ m ∈ s.maint, sameSector m.lo m.hi (pa k) (pa k + 1) = false)
        ∧ Plain s s.myTenant (pa k) 2
        ∧ leNat (memReadList s.mem (pa k) 2) = ps.getD k 0) →
    (∀ st ∈ s.me.stores, st.fence = none)
      ∨ (∀ st ∈ heldStores s s.cur, ∀ k, k < ps.length → st.pa + st.data.length ≤ pa k ∨ pa k + 2 ≤ st.pa) →
    fetch s = .parcels ps)

/-- R67, R71 to R84 and the worked encodings of the reference entries: words written out from the encoding tables decode to
their instructions, one or more of every page; a prefix chain with a fault names its parcel. -/
def Obligations.DecodeWords : Prop :=
  decode [0x0053] = .ok (.add 1 2 3) 1 ∧ decode [0x036B] = .ok (.sub 5 5 3) 1 ∧ decode [0x2D77] = .ok (.sel 5 6 7) 1
    ∧ decode [0x423F] = .ok (.addi 1 0 (-1)) 1 ∧ decode [0x5AD1] = .ok (.xori 5 5 1) 1 ∧ decode [0x7A08] = .ok (.li 5 8) 1
    ∧ decode [0x9C03] = .ok (.lea 6 3) 1 ∧ decode [0xB57D] = .ok (.br .lt 5 (-3)) 1 ∧ decode [0xE000] = .ok .nop 1
    ∧ decode [0xF550, 0x0053] = .ok (.add 9 10 11) 2 ∧ decode [0xFC0F, 0x52DF] = .ok (.andi 5 5 255) 2
    ∧ decode [0xF084, 0x3000] = .ok .spfence 2
    ∧ decode [0xF108, 0xF880, 0x8120] = .ok (.vabs 2 .f32 1 2) 3 ∧ decode [0xF101, 0xF880, 0x4123] = .ok (.vor 2 1 2 3) 3
    ∧ decode [0xF180, 0xFC40, 0x0204] = .ok (.vld .pk (.direct 2) 4 64) 3
    ∧ decode [0xF181, 0xF880, 0x3670] = .ok (.vperm 2 .u8 (.direct 6) (.direct 7)) 3
    ∧ decode [0xF200, 0x0056] = .ok (.spawn 5 6) 2 ∧ decode [0xF202, 0x4000] = .ok .cbfence 2
    ∧ decode [0xF204, 0x1713] = .ok (.sendHi 0 7 1 3) 2 ∧ decode [0xF280, 0xF8C0, 0x19CD] = .ok (.cjob 3 9 12 13) 3
    ∧ decode [0xF300, 0x0303] = .ok (.mfc 3 .cycle) 2 ∧ decode [0xF300, 0x3001] = .ok (.trap 1) 2
    ∧ decode [0xF300, 0x2000] = .ok .eret 2 ∧ decode [0xF302, 0x2000] = .ok .snap 2
    ∧ decode [0xF410, 0x4041] = .bad 0x4041 1 ∧ decode [0xF001, 0x0053] = .bad 0xF001 0 ∧ decode [0xF380, 0x0050] = .bad 0xF380 0

/-- R28, R67 to R84: decoding what the encoder gives for a well-formed instruction gives it back, with every operand at
every value that the encoding admits, in at most five parcels of 16 bits and whatever follows them. -/
def Obligations.DecodeEncode : Prop :=
  ∀ (i : Instr) (rest : List Nat), i.wf = true →
    decode (encode i ++ rest) = .ok i (encode i).length ∧ 1 ≤ (encode i).length ∧ (encode i).length ≤ 5
      ∧ ∀ w ∈ encode i, w < 65536

/-- The canonical form of memory, which is the model's own (log entry 4), is kept by every step. -/
def Obligations.EveryStepKeepsMemOk : Prop :=
  ∀ s t : State, MemOk s → step s = .next t → MemOk t
end

