-- ==== Sys2Proof/Laws/Maps.lean ====
section
/-! SUPPORT. The laws of finite maps and of memory: read after write, a write leaves every other place alone, and every
memory operation keeps the canonical form. -/

namespace Sys2Proof.Machine

/-! ## Finite maps -/

@[simp] theorem fget_nil {α : Type} (a : Nat) : fget ([] : FMap α) a = none := rfl

@[simp] theorem fget_fput_self {α : Type} (m : FMap α) (a : Nat) (v : α) : fget (fput m a v) a = some v := by
  induction m with
  | nil => simp [fput, fget]
  | cons e m ih =>
    obtain ⟨k, w⟩ := e
    unfold fput
    split
    · rename_i h; rw [fget, if_neg (by omega), ih]
    · split <;> simp [fget]

theorem fget_fput_ne {α : Type} (m : FMap α) {a b : Nat} (v : α) (h : b ≠ a) : fget (fput m a v) b = fget m b := by
  induction m with
  | nil => simp [fput, fget, Ne.symm h]
  | cons e m ih =>
    obtain ⟨k, w⟩ := e
    unfold fput
    split
    · rw [fget, fget, ih]
    · split
      · rename_i hk; subst hk; simp [fget, Ne.symm h]
      · rw [fget, if_neg (Ne.symm h)]

theorem fget_fput {α : Type} (m : FMap α) (a b : Nat) (v : α) :
    fget (fput m a v) b = if b = a then some v else fget m b := by
  split
  · rename_i h; subst h; exact fget_fput_self m b v
  · rename_i h; exact fget_fput_ne m v h

theorem fget_fdel {α : Type} (m : FMap α) (a b : Nat) : fget (fdel m a) b = if b = a then none else fget m b := by
  induction m with
  | nil => simp [fdel, fget]
  | cons e m ih =>
    obtain ⟨k, w⟩ := e
    unfold fdel
    split
    · rename_i h; subst h; rw [ih]; split
      · rfl
      · rename_i h; rw [fget, if_neg (Ne.symm h)]
    · rename_i h
      rw [fget, fget, ih]
      by_cases hk : k = b
      · subst hk; simp [h]
      · simp [hk]

/-! ## The canonical form of memory -/

theorem memWfFrom_mono {lo lo' : Nat} (h : lo ≤ lo') : ∀ {m : Memory}, memWfFrom lo' m = true → memWfFrom lo m = true
  | [], _ => rfl
  | (k, w) :: m, hw => by
    simp only [memWfFrom, Bool.and_eq_true, decide_eq_true_eq] at hw ⊢
    exact ⟨⟨Nat.le_trans h hw.1.1, hw.1.2⟩, hw.2⟩

theorem memWrite_wfFrom (a : Nat) (b : Byte) : ∀ (m : Memory) (lo : Nat),
    memWfFrom lo m = true → lo ≤ a → memWfFrom lo (memWrite m a b) = true
  | [], lo, _, hl => by
    unfold memWrite; split
    · rfl
    · rename_i h; simp [memWfFrom, hl, h]
  | (k, w) :: m, lo, hw, hl => by
    have hw' := hw
    simp only [memWfFrom, Bool.and_eq_true, decide_eq_true_eq, bne_iff_ne, ne_eq] at hw'
    obtain ⟨⟨hk, hv⟩, hm⟩ := hw'
    unfold memWrite; split
    · rename_i h
      simp [memWfFrom, hk, hv, memWrite_wfFrom a b m (k + 1) hm (by omega)]
    · split
      · rename_i h; subst h; split
        · exact memWfFrom_mono (by omega) hm
        · rename_i h; simp [memWfFrom, hl, h, hm]
      · split
        · exact hw
        · rename_i h1 h2 h; simp [memWfFrom, hl, h, hv, hm]; omega

/-- A write keeps the canonical form. -/
@[simp] theorem memWrite_wf {m : Memory} (h : m.wf = true) (a : Nat) (b : Byte) : Memory.wf (memWrite m a b) = true :=
  memWrite_wfFrom a b m 0 h (Nat.zero_le a)

@[simp] theorem memWriteList_wf : ∀ {m : Memory}, m.wf = true → ∀ (a : Nat) (bs : List Byte),
    Memory.wf (memWriteList m a bs) = true
  | _, h, _, [] => h
  | _, h, a, b :: bs => memWriteList_wf (memWrite_wf h a b) (a + 1) bs

@[simp] theorem memWriteCells_wf : ∀ {m : Memory}, m.wf = true → ∀ cs : List Host.Cell,
    Memory.wf (memWriteCells m cs) = true
  | _, h, [] => h
  | _, h, (a, b) :: cs => memWriteCells_wf (memWrite_wf h a b) cs

theorem filter_wfFrom (p : Host.Cell → Bool) : ∀ (m : Memory) (lo : Nat),
    memWfFrom lo m = true → memWfFrom lo (m.filter p) = true
  | [], _, _ => rfl
  | (k, w) :: m, lo, h => by
    simp only [memWfFrom, Bool.and_eq_true, decide_eq_true_eq] at h
    rw [List.filter_cons]; split
    · simp [memWfFrom, h.1.1, h.1.2, filter_wfFrom p m (k + 1) h.2, -bne_iff_ne]
    · exact filter_wfFrom p m lo (memWfFrom_mono (by omega) h.2)

/-- Dropping entries keeps the canonical form. -/
theorem filter_wf (p : Host.Cell → Bool) {m : Memory} (h : m.wf = true) : Memory.wf (m.filter p) = true :=
  filter_wfFrom p m 0 h

/-! ## Reading after a write -/

theorem fget_below : ∀ (m : Memory) (lo a : Nat), memWfFrom lo m = true → a < lo → fget m a = none
  | [], _, _, _, _ => rfl
  | (k, w) :: m, lo, a, h, ha => by
    simp only [memWfFrom, Bool.and_eq_true, decide_eq_true_eq] at h
    rw [fget, if_neg (by omega)]
    exact fget_below m (k + 1) a h.2 (by omega)

theorem fget_memWrite_self (a : Nat) (b : Byte) : ∀ (m : Memory) (lo : Nat), memWfFrom lo m = true →
    (fget (memWrite m a b) a).getD (unlisted a) = b
  | [], _, _ => by
    unfold memWrite; split <;> simp_all [fget]
  | (k, w) :: m, lo, h => by
    simp only [memWfFrom, Bool.and_eq_true, decide_eq_true_eq] at h
    unfold memWrite; split
    · rename_i hk; rw [fget, if_neg (by omega)]; exact fget_memWrite_self a b m (k + 1) h.2
    · split
      · rename_i hk; subst hk; split
        · rename_i hb; rw [fget_below m (k + 1) k h.2 (by omega)]; simp [hb]
        · simp [fget]
      · split
        · rename_i h1 h2 hb
          rw [fget, if_neg (by omega), fget_below m (k + 1) a h.2 (by omega)]; simp [hb]
        · simp [fget]

/-- A read after a write to the same address gives the byte written. -/
@[simp] theorem memRead_memWrite_self {m : Memory} (h : m.wf = true) (a : Nat) (b : Byte) :
    memRead (memWrite m a b) a = b := fget_memWrite_self a b m 0 h

/-- A write leaves every other address alone. -/
theorem memRead_memWrite_ne {a c : Nat} (b : Byte) (h : c ≠ a) : ∀ m : Memory, memRead (memWrite m a b) c = memRead m c := by
  suffices hf : ∀ m : Memory, fget (memWrite m a b) c = fget m c from fun m => by rw [memRead, memRead, hf]
  intro m
  induction m with
  | nil => unfold memWrite; split <;> simp [fget, Ne.symm h]
  | cons e m ih =>
    obtain ⟨k, w⟩ := e
    unfold memWrite; split
    · rw [fget, fget, ih]
    · split
      · rename_i hk; subst hk; split <;> simp [fget, Ne.symm h]
      · split
        · rfl
        · rw [fget, if_neg (Ne.symm h)]

/-- A write of bytes leaves every address outside them alone. -/
theorem memRead_memWriteList_outside {c : Nat} : ∀ (bs : List Byte) (m : Memory) (a : Nat),
    c < a ∨ a + bs.length ≤ c → memRead (memWriteList m a bs) c = memRead m c
  | [], _, _, _ => rfl
  | b :: bs, m, a, h => by
    simp only [List.length_cons] at h
    rw [memWriteList, memRead_memWriteList_outside bs (memWrite m a b) (a + 1) (by omega)]
    exact memRead_memWrite_ne b (by omega) m

/-- Reading the bytes just written gives them. -/
theorem memReadList_memWriteList : ∀ (bs : List Byte) {m : Memory} (a : Nat), m.wf = true →
    memReadList (memWriteList m a bs) a bs.length = bs
  | [], _, _, _ => rfl
  | b :: bs, m, a, h => by
    rw [List.length_cons, memWriteList, memReadList, memReadList_memWriteList bs (a + 1) (memWrite_wf h a b),
      memRead_memWriteList_outside bs _ (a + 1) (by omega), memRead_memWrite_self h]

/-- Two memories in canonical form that read alike are equal data. -/
theorem memWf_ext : ∀ {m m' : Memory} {lo : Nat}, memWfFrom lo m = true → memWfFrom lo m' = true →
    (∀ a, memRead m a = memRead m' a) → m = m'
  | [], [], _, _, _, _ => rfl
  | [], (k, w) :: m', lo, _, h', hr => by
    simp only [memWfFrom, Bool.and_eq_true, decide_eq_true_eq, bne_iff_ne] at h'
    have := hr k; simp [memRead, fget] at this; exact absurd this.symm h'.1.2
  | (k, w) :: m, [], lo, h, _, hr => by
    simp only [memWfFrom, Bool.and_eq_true, decide_eq_true_eq, bne_iff_ne] at h
    have := hr k; simp [memRead, fget] at this; exact absurd this h.1.2
  | (k, w) :: m, (k', w') :: m', lo, h, h', hr => by
    simp only [memWfFrom, Bool.and_eq_true, decide_eq_true_eq, bne_iff_ne] at h h'
    have hk : k = k' := by
      rcases Nat.lt_trichotomy k k' with hlt | heq | hgt
      · have := hr k
        simp [memRead, fget, Nat.ne_of_gt hlt, fget_below m' (k' + 1) k h'.2 (by omega)] at this
        exact absurd this h.1.2
      · exact heq
      · have := hr k'
        simp [memRead, fget, Nat.ne_of_gt hgt, fget_below m (k + 1) k' h.2 (by omega)] at this
        exact absurd this.symm h'.1.2
    subst hk
    have hw : w = w' := by have := hr k; simpa [memRead, fget] using this
    subst hw
    have hm : m = m' := memWf_ext h.2 h'.2 fun a => by
      by_cases ha : k = a
      · subst ha
        rw [memRead, memRead, fget_below m (k + 1) k h.2 (by omega), fget_below m' (k + 1) k h'.2 (by omega)]
      · have := hr a; simpa [memRead, fget, ha] using this
    rw [hm]

/-! ## Numbers in bytes -/

@[simp] theorem length_natLe (n v : Nat) : (natLe n v).length = n := by
  induction n generalizing v with
  | zero => rfl
  | succ n ih => simp [natLe, ih]

@[simp] theorem leNat_natLe (n v : Nat) : leNat (natLe n v) = v % 256 ^ n := by
  induction n generalizing v with
  | zero => simp [natLe, leNat, Nat.mod_one]
  | succ n ih => simp [natLe, leNat, ih, Nat.pow_succ', Nat.mod_mul]

end Sys2Proof.Machine
end

