-- ==== Sys2Proof/Laws/State.lean ====
section
/-! SUPPORT. One lemma per field per update of the state, and what the accessors read after an update. -/

namespace Sys2Proof.Machine

/-! ## What the accessors read after an update -/

@[simp] theorem State.setMe_eq (s : State) (c : Ctx) : s.setMe c = s.setCtx s.cur c := rfl
@[simp] theorem State.ctx_setCtx_self (s : State) (x : CtxId) (c : Ctx) : (s.setCtx x c).ctx x = c := by
  simp [State.ctx, State.setCtx]
theorem State.ctx_setCtx_ne (s : State) {x y : CtxId} (c : Ctx) (h : y ≠ x) : (s.setCtx x c).ctx y = s.ctx y := by
  simp [State.ctx, State.setCtx, fget_fput_ne _ _ h]
@[simp] theorem State.me_onMe (s : State) (f : Ctx → Ctx) : (s.onMe f).me = f s.me := by
  simp [State.onMe, State.setMe, State.me, State.ctx, State.setCtx]
theorem State.ctx_onMe_ne (s : State) (f : Ctx → Ctx) {y : CtxId} (h : y ≠ s.cur) : (s.onMe f).ctx y = s.ctx y :=
  State.ctx_setCtx_ne s _ h
@[simp] theorem State.core_setCore_self (s : State) (n : Nat) (c : Core) : (s.setCore n c).core n = c := by
  simp [State.core, State.setCore]
theorem State.core_setCore_ne (s : State) {n m : Nat} (c : Core) (h : m ≠ n) : (s.setCore n c).core m = s.core m := by
  simp [State.core, State.setCore, fget_fput_ne _ _ h]
@[simp] theorem State.core_onCore_self (s : State) (n : Nat) (f : Core → Core) :
    (s.onCore n f).core n = f (s.core n) := State.core_setCore_self ..
@[simp] theorem State.cluster_setCluster_self (s : State) (n : Nat) (c : Cluster) :
    (s.setCluster n c).cluster n = c := by
  simp [State.cluster, State.setCluster]
@[simp] theorem State.cluster_onCluster_self (s : State) (n : Nat) (f : Cluster → Cluster) :
    (s.onCluster n f).cluster n = f (s.cluster n) := State.cluster_setCluster_self ..
@[simp] theorem State.tenant_setTenant_self (s : State) (t : Nat) (c : Tenant) : (s.setTenant t c).tenant t = c := by
  simp [State.tenant, State.setTenant]
@[simp] theorem State.tenant_onTenant_self (s : State) (t : Nat) (f : Tenant → Tenant) :
    (s.onTenant t f).tenant t = f (s.tenant t) := State.tenant_setTenant_self ..
@[simp] theorem State.me_setCore (s : State) (n : Nat) (c : Core) : (s.setCore n c).me = s.me := rfl
@[simp] theorem State.me_setCluster (s : State) (n : Nat) (c : Cluster) : (s.setCluster n c).me = s.me := rfl
@[simp] theorem State.me_setTenant (s : State) (t : Nat) (c : Tenant) : (s.setTenant t c).me = s.me := rfl
@[simp] theorem State.me_onCore (s : State) (n : Nat) (f : Core → Core) : (s.onCore n f).me = s.me := rfl
@[simp] theorem State.me_onCluster (s : State) (n : Nat) (f : Cluster → Cluster) : (s.onCluster n f).me = s.me := rfl
@[simp] theorem State.me_onTenant (s : State) (t : Nat) (f : Tenant → Tenant) : (s.onTenant t f).me = s.me := rfl
@[simp] theorem State.me_count (s : State) (t : Nat) (f : Counts → Counts) : (s.count t f).me = s.me := rfl
@[simp] theorem State.ctx_at (s : State) (x y : CtxId) : (s.at x).ctx y = s.ctx y := rfl
@[simp] theorem State.me_at (s : State) (x : CtxId) : (s.at x).me = s.ctx x := rfl
@[simp] theorem State.core_at (s : State) (x : CtxId) (n : Nat) : (s.at x).core n = s.core n := rfl
@[simp] theorem State.core_onMe (s : State) (f : Ctx → Ctx) (n : Nat) : (s.onMe f).core n = s.core n := rfl
@[simp] theorem State.core_setCtx (s : State) (x : CtxId) (c : Ctx) (n : Nat) : (s.setCtx x c).core n = s.core n := rfl
@[simp] theorem State.cluster_onMe (s : State) (f : Ctx → Ctx) (n : Nat) : (s.onMe f).cluster n = s.cluster n := rfl
@[simp] theorem State.tenant_onMe (s : State) (f : Ctx → Ctx) (n : Nat) : (s.onMe f).tenant n = s.tenant n := rfl

/-! ## `setCtx` -/

@[simp] theorem State.setCtx_cycle (s : State) (x : CtxId) (c : Ctx) : (s.setCtx x c).cycle = s.cycle := rfl
@[simp] theorem State.setCtx_turn (s : State) (x : CtxId) (c : Ctx) : (s.setCtx x c).turn = s.turn := rfl
@[simp] theorem State.setCtx_cur (s : State) (x : CtxId) (c : Ctx) : (s.setCtx x c).cur = s.cur := rfl
@[simp] theorem State.setCtx_agenda (s : State) (x : CtxId) (c : Ctx) : (s.setCtx x c).agenda = s.agenda := rfl
@[simp] theorem State.setCtx_free (s : State) (x : CtxId) (c : Ctx) : (s.setCtx x c).free = s.free := rfl
@[simp] theorem State.setCtx_mem (s : State) (x : CtxId) (c : Ctx) : (s.setCtx x c).mem = s.mem := rfl
@[simp] theorem State.setCtx_poison (s : State) (x : CtxId) (c : Ctx) : (s.setCtx x c).poison = s.poison := rfl
@[simp] theorem State.setCtx_feFull (s : State) (x : CtxId) (c : Ctx) : (s.setCtx x c).feFull = s.feFull := rfl
@[simp] theorem State.setCtx_feWait (s : State) (x : CtxId) (c : Ctx) : (s.setCtx x c).feWait = s.feWait := rfl
@[simp] theorem State.setCtx_pendSectors (s : State) (x : CtxId) (c : Ctx) : (s.setCtx x c).pendSectors = s.pendSectors := rfl
@[simp] theorem State.setCtx_encOwner (s : State) (x : CtxId) (c : Ctx) : (s.setCtx x c).encOwner = s.encOwner := rfl
@[simp] theorem State.setCtx_encMinor (s : State) (x : CtxId) (c : Ctx) : (s.setCtx x c).encMinor = s.encMinor := rfl
@[simp] theorem State.setCtx_encMajor (s : State) (x : CtxId) (c : Ctx) : (s.setCtx x c).encMajor = s.encMajor := rfl
@[simp] theorem State.setCtx_encTag (s : State) (x : CtxId) (c : Ctx) : (s.setCtx x c).encTag = s.encTag := rfl
@[simp] theorem State.setCtx_encTree (s : State) (x : CtxId) (c : Ctx) : (s.setCtx x c).encTree = s.encTree := rfl
@[simp] theorem State.setCtx_reenc (s : State) (x : CtxId) (c : Ctx) : (s.setCtx x c).reenc = s.reenc := rfl
@[simp] theorem State.setCtx_peerHome (s : State) (x : CtxId) (c : Ctx) : (s.setCtx x c).peerHome = s.peerHome := rfl
@[simp] theorem State.setCtx_peerCopy (s : State) (x : CtxId) (c : Ctx) : (s.setCtx x c).peerCopy = s.peerCopy := rfl
@[simp] theorem State.setCtx_posted (s : State) (x : CtxId) (c : Ctx) : (s.setCtx x c).posted = s.posted := rfl
@[simp] theorem State.setCtx_orphans (s : State) (x : CtxId) (c : Ctx) : (s.setCtx x c).orphans = s.orphans := rfl
@[simp] theorem State.setCtx_savedLoads (s : State) (x : CtxId) (c : Ctx) : (s.setCtx x c).savedLoads = s.savedLoads := rfl
@[simp] theorem State.setCtx_late (s : State) (x : CtxId) (c : Ctx) : (s.setCtx x c).late = s.late := rfl
@[simp] theorem State.setCtx_hostPoison (s : State) (x : CtxId) (c : Ctx) : (s.setCtx x c).hostPoison = s.hostPoison := rfl
@[simp] theorem State.setCtx_closing (s : State) (x : CtxId) (c : Ctx) : (s.setCtx x c).closing = s.closing := rfl
@[simp] theorem State.setCtx_maint (s : State) (x : CtxId) (c : Ctx) : (s.setCtx x c).maint = s.maint := rfl
@[simp] theorem State.setCtx_hostStores (s : State) (x : CtxId) (c : Ctx) : (s.setCtx x c).hostStores = s.hostStores := rfl
@[simp] theorem State.setCtx_hostPackets (s : State) (x : CtxId) (c : Ctx) : (s.setCtx x c).hostPackets = s.hostPackets := rfl
@[simp] theorem State.setCtx_hostReads (s : State) (x : CtxId) (c : Ctx) : (s.setCtx x c).hostReads = s.hostReads := rfl
@[simp] theorem State.setCtx_hostData (s : State) (x : CtxId) (c : Ctx) : (s.setCtx x c).hostData = s.hostData := rfl
@[simp] theorem State.setCtx_sram (s : State) (x : CtxId) (c : Ctx) : (s.setCtx x c).sram = s.sram := rfl
@[simp] theorem State.setCtx_tlb (s : State) (x : CtxId) (c : Ctx) : (s.setCtx x c).tlb = s.tlb := rfl
@[simp] theorem State.setCtx_cores (s : State) (x : CtxId) (c : Ctx) : (s.setCtx x c).cores = s.cores := rfl
@[simp] theorem State.setCtx_clusters (s : State) (x : CtxId) (c : Ctx) : (s.setCtx x c).clusters = s.clusters := rfl
@[simp] theorem State.setCtx_tenants (s : State) (x : CtxId) (c : Ctx) : (s.setCtx x c).tenants = s.tenants := rfl
@[simp] theorem State.setCtx_net (s : State) (x : CtxId) (c : Ctx) : (s.setCtx x c).net = s.net := rfl
@[simp] theorem State.setCtx_twins (s : State) (x : CtxId) (c : Ctx) : (s.setCtx x c).twins = s.twins := rfl
@[simp] theorem State.setCtx_twinCtr (s : State) (x : CtxId) (c : Ctx) : (s.setCtx x c).twinCtr = s.twinCtr := rfl
@[simp] theorem State.setCtx_rounds (s : State) (x : CtxId) (c : Ctx) : (s.setCtx x c).rounds = s.rounds := rfl
@[simp] theorem State.setCtx_groupBars (s : State) (x : CtxId) (c : Ctx) : (s.setCtx x c).groupBars = s.groupBars := rfl
@[simp] theorem State.setCtx_coll (s : State) (x : CtxId) (c : Ctx) : (s.setCtx x c).coll = s.coll := rfl
@[simp] theorem State.setCtx_msu (s : State) (x : CtxId) (c : Ctx) : (s.setCtx x c).msu = s.msu := rfl
@[simp] theorem State.setCtx_jobOrder (s : State) (x : CtxId) (c : Ctx) : (s.setCtx x c).jobOrder = s.jobOrder := rfl
@[simp] theorem State.setCtx_snapSeq (s : State) (x : CtxId) (c : Ctx) : (s.setCtx x c).snapSeq = s.snapSeq := rfl
@[simp] theorem State.setCtx_boot (s : State) (x : CtxId) (c : Ctx) : (s.setCtx x c).boot = s.boot := rfl
@[simp] theorem State.setCtx_fabric (s : State) (x : CtxId) (c : Ctx) : (s.setCtx x c).fabric = s.fabric := rfl

/-! ## `setCore` -/

@[simp] theorem State.setCore_cycle (s : State) (n : Nat) (c : Core) : (s.setCore n c).cycle = s.cycle := rfl
@[simp] theorem State.setCore_turn (s : State) (n : Nat) (c : Core) : (s.setCore n c).turn = s.turn := rfl
@[simp] theorem State.setCore_cur (s : State) (n : Nat) (c : Core) : (s.setCore n c).cur = s.cur := rfl
@[simp] theorem State.setCore_agenda (s : State) (n : Nat) (c : Core) : (s.setCore n c).agenda = s.agenda := rfl
@[simp] theorem State.setCore_free (s : State) (n : Nat) (c : Core) : (s.setCore n c).free = s.free := rfl
@[simp] theorem State.setCore_mem (s : State) (n : Nat) (c : Core) : (s.setCore n c).mem = s.mem := rfl
@[simp] theorem State.setCore_poison (s : State) (n : Nat) (c : Core) : (s.setCore n c).poison = s.poison := rfl
@[simp] theorem State.setCore_feFull (s : State) (n : Nat) (c : Core) : (s.setCore n c).feFull = s.feFull := rfl
@[simp] theorem State.setCore_feWait (s : State) (n : Nat) (c : Core) : (s.setCore n c).feWait = s.feWait := rfl
@[simp] theorem State.setCore_pendSectors (s : State) (n : Nat) (c : Core) : (s.setCore n c).pendSectors = s.pendSectors := rfl
@[simp] theorem State.setCore_encOwner (s : State) (n : Nat) (c : Core) : (s.setCore n c).encOwner = s.encOwner := rfl
@[simp] theorem State.setCore_encMinor (s : State) (n : Nat) (c : Core) : (s.setCore n c).encMinor = s.encMinor := rfl
@[simp] theorem State.setCore_encMajor (s : State) (n : Nat) (c : Core) : (s.setCore n c).encMajor = s.encMajor := rfl
@[simp] theorem State.setCore_encTag (s : State) (n : Nat) (c : Core) : (s.setCore n c).encTag = s.encTag := rfl
@[simp] theorem State.setCore_encTree (s : State) (n : Nat) (c : Core) : (s.setCore n c).encTree = s.encTree := rfl
@[simp] theorem State.setCore_reenc (s : State) (n : Nat) (c : Core) : (s.setCore n c).reenc = s.reenc := rfl
@[simp] theorem State.setCore_peerHome (s : State) (n : Nat) (c : Core) : (s.setCore n c).peerHome = s.peerHome := rfl
@[simp] theorem State.setCore_peerCopy (s : State) (n : Nat) (c : Core) : (s.setCore n c).peerCopy = s.peerCopy := rfl
@[simp] theorem State.setCore_posted (s : State) (n : Nat) (c : Core) : (s.setCore n c).posted = s.posted := rfl
@[simp] theorem State.setCore_orphans (s : State) (n : Nat) (c : Core) : (s.setCore n c).orphans = s.orphans := rfl
@[simp] theorem State.setCore_savedLoads (s : State) (n : Nat) (c : Core) : (s.setCore n c).savedLoads = s.savedLoads := rfl
@[simp] theorem State.setCore_late (s : State) (n : Nat) (c : Core) : (s.setCore n c).late = s.late := rfl
@[simp] theorem State.setCore_hostPoison (s : State) (n : Nat) (c : Core) : (s.setCore n c).hostPoison = s.hostPoison := rfl
@[simp] theorem State.setCore_closing (s : State) (n : Nat) (c : Core) : (s.setCore n c).closing = s.closing := rfl
@[simp] theorem State.setCore_maint (s : State) (n : Nat) (c : Core) : (s.setCore n c).maint = s.maint := rfl
@[simp] theorem State.setCore_hostStores (s : State) (n : Nat) (c : Core) : (s.setCore n c).hostStores = s.hostStores := rfl
@[simp] theorem State.setCore_hostPackets (s : State) (n : Nat) (c : Core) : (s.setCore n c).hostPackets = s.hostPackets := rfl
@[simp] theorem State.setCore_hostReads (s : State) (n : Nat) (c : Core) : (s.setCore n c).hostReads = s.hostReads := rfl
@[simp] theorem State.setCore_hostData (s : State) (n : Nat) (c : Core) : (s.setCore n c).hostData = s.hostData := rfl
@[simp] theorem State.setCore_sram (s : State) (n : Nat) (c : Core) : (s.setCore n c).sram = s.sram := rfl
@[simp] theorem State.setCore_tlb (s : State) (n : Nat) (c : Core) : (s.setCore n c).tlb = s.tlb := rfl
@[simp] theorem State.setCore_ctxs (s : State) (n : Nat) (c : Core) : (s.setCore n c).ctxs = s.ctxs := rfl
@[simp] theorem State.setCore_clusters (s : State) (n : Nat) (c : Core) : (s.setCore n c).clusters = s.clusters := rfl
@[simp] theorem State.setCore_tenants (s : State) (n : Nat) (c : Core) : (s.setCore n c).tenants = s.tenants := rfl
@[simp] theorem State.setCore_net (s : State) (n : Nat) (c : Core) : (s.setCore n c).net = s.net := rfl
@[simp] theorem State.setCore_twins (s : State) (n : Nat) (c : Core) : (s.setCore n c).twins = s.twins := rfl
@[simp] theorem State.setCore_twinCtr (s : State) (n : Nat) (c : Core) : (s.setCore n c).twinCtr = s.twinCtr := rfl
@[simp] theorem State.setCore_rounds (s : State) (n : Nat) (c : Core) : (s.setCore n c).rounds = s.rounds := rfl
@[simp] theorem State.setCore_groupBars (s : State) (n : Nat) (c : Core) : (s.setCore n c).groupBars = s.groupBars := rfl
@[simp] theorem State.setCore_coll (s : State) (n : Nat) (c : Core) : (s.setCore n c).coll = s.coll := rfl
@[simp] theorem State.setCore_msu (s : State) (n : Nat) (c : Core) : (s.setCore n c).msu = s.msu := rfl
@[simp] theorem State.setCore_jobOrder (s : State) (n : Nat) (c : Core) : (s.setCore n c).jobOrder = s.jobOrder := rfl
@[simp] theorem State.setCore_snapSeq (s : State) (n : Nat) (c : Core) : (s.setCore n c).snapSeq = s.snapSeq := rfl
@[simp] theorem State.setCore_boot (s : State) (n : Nat) (c : Core) : (s.setCore n c).boot = s.boot := rfl
@[simp] theorem State.setCore_fabric (s : State) (n : Nat) (c : Core) : (s.setCore n c).fabric = s.fabric := rfl

/-! ## `setCluster` -/

@[simp] theorem State.setCluster_cycle (s : State) (n : Nat) (c : Cluster) : (s.setCluster n c).cycle = s.cycle := rfl
@[simp] theorem State.setCluster_turn (s : State) (n : Nat) (c : Cluster) : (s.setCluster n c).turn = s.turn := rfl
@[simp] theorem State.setCluster_cur (s : State) (n : Nat) (c : Cluster) : (s.setCluster n c).cur = s.cur := rfl
@[simp] theorem State.setCluster_agenda (s : State) (n : Nat) (c : Cluster) : (s.setCluster n c).agenda = s.agenda := rfl
@[simp] theorem State.setCluster_free (s : State) (n : Nat) (c : Cluster) : (s.setCluster n c).free = s.free := rfl
@[simp] theorem State.setCluster_mem (s : State) (n : Nat) (c : Cluster) : (s.setCluster n c).mem = s.mem := rfl
@[simp] theorem State.setCluster_poison (s : State) (n : Nat) (c : Cluster) : (s.setCluster n c).poison = s.poison := rfl
@[simp] theorem State.setCluster_feFull (s : State) (n : Nat) (c : Cluster) : (s.setCluster n c).feFull = s.feFull := rfl
@[simp] theorem State.setCluster_feWait (s : State) (n : Nat) (c : Cluster) : (s.setCluster n c).feWait = s.feWait := rfl
@[simp] theorem State.setCluster_pendSectors (s : State) (n : Nat) (c : Cluster) : (s.setCluster n c).pendSectors = s.pendSectors := rfl
@[simp] theorem State.setCluster_encOwner (s : State) (n : Nat) (c : Cluster) : (s.setCluster n c).encOwner = s.encOwner := rfl
@[simp] theorem State.setCluster_encMinor (s : State) (n : Nat) (c : Cluster) : (s.setCluster n c).encMinor = s.encMinor := rfl
@[simp] theorem State.setCluster_encMajor (s : State) (n : Nat) (c : Cluster) : (s.setCluster n c).encMajor = s.encMajor := rfl
@[simp] theorem State.setCluster_encTag (s : State) (n : Nat) (c : Cluster) : (s.setCluster n c).encTag = s.encTag := rfl
@[simp] theorem State.setCluster_encTree (s : State) (n : Nat) (c : Cluster) : (s.setCluster n c).encTree = s.encTree := rfl
@[simp] theorem State.setCluster_reenc (s : State) (n : Nat) (c : Cluster) : (s.setCluster n c).reenc = s.reenc := rfl
@[simp] theorem State.setCluster_peerHome (s : State) (n : Nat) (c : Cluster) : (s.setCluster n c).peerHome = s.peerHome := rfl
@[simp] theorem State.setCluster_peerCopy (s : State) (n : Nat) (c : Cluster) : (s.setCluster n c).peerCopy = s.peerCopy := rfl
@[simp] theorem State.setCluster_posted (s : State) (n : Nat) (c : Cluster) : (s.setCluster n c).posted = s.posted := rfl
@[simp] theorem State.setCluster_orphans (s : State) (n : Nat) (c : Cluster) : (s.setCluster n c).orphans = s.orphans := rfl
@[simp] theorem State.setCluster_savedLoads (s : State) (n : Nat) (c : Cluster) : (s.setCluster n c).savedLoads = s.savedLoads := rfl
@[simp] theorem State.setCluster_late (s : State) (n : Nat) (c : Cluster) : (s.setCluster n c).late = s.late := rfl
@[simp] theorem State.setCluster_hostPoison (s : State) (n : Nat) (c : Cluster) : (s.setCluster n c).hostPoison = s.hostPoison := rfl
@[simp] theorem State.setCluster_closing (s : State) (n : Nat) (c : Cluster) : (s.setCluster n c).closing = s.closing := rfl
@[simp] theorem State.setCluster_maint (s : State) (n : Nat) (c : Cluster) : (s.setCluster n c).maint = s.maint := rfl
@[simp] theorem State.setCluster_hostStores (s : State) (n : Nat) (c : Cluster) : (s.setCluster n c).hostStores = s.hostStores := rfl
@[simp] theorem State.setCluster_hostPackets (s : State) (n : Nat) (c : Cluster) : (s.setCluster n c).hostPackets = s.hostPackets := rfl
@[simp] theorem State.setCluster_hostReads (s : State) (n : Nat) (c : Cluster) : (s.setCluster n c).hostReads = s.hostReads := rfl
@[simp] theorem State.setCluster_hostData (s : State) (n : Nat) (c : Cluster) : (s.setCluster n c).hostData = s.hostData := rfl
@[simp] theorem State.setCluster_sram (s : State) (n : Nat) (c : Cluster) : (s.setCluster n c).sram = s.sram := rfl
@[simp] theorem State.setCluster_tlb (s : State) (n : Nat) (c : Cluster) : (s.setCluster n c).tlb = s.tlb := rfl
@[simp] theorem State.setCluster_ctxs (s : State) (n : Nat) (c : Cluster) : (s.setCluster n c).ctxs = s.ctxs := rfl
@[simp] theorem State.setCluster_cores (s : State) (n : Nat) (c : Cluster) : (s.setCluster n c).cores = s.cores := rfl
@[simp] theorem State.setCluster_tenants (s : State) (n : Nat) (c : Cluster) : (s.setCluster n c).tenants = s.tenants := rfl
@[simp] theorem State.setCluster_net (s : State) (n : Nat) (c : Cluster) : (s.setCluster n c).net = s.net := rfl
@[simp] theorem State.setCluster_twins (s : State) (n : Nat) (c : Cluster) : (s.setCluster n c).twins = s.twins := rfl
@[simp] theorem State.setCluster_twinCtr (s : State) (n : Nat) (c : Cluster) : (s.setCluster n c).twinCtr = s.twinCtr := rfl
@[simp] theorem State.setCluster_rounds (s : State) (n : Nat) (c : Cluster) : (s.setCluster n c).rounds = s.rounds := rfl
@[simp] theorem State.setCluster_groupBars (s : State) (n : Nat) (c : Cluster) : (s.setCluster n c).groupBars = s.groupBars := rfl
@[simp] theorem State.setCluster_coll (s : State) (n : Nat) (c : Cluster) : (s.setCluster n c).coll = s.coll := rfl
@[simp] theorem State.setCluster_msu (s : State) (n : Nat) (c : Cluster) : (s.setCluster n c).msu = s.msu := rfl
@[simp] theorem State.setCluster_jobOrder (s : State) (n : Nat) (c : Cluster) : (s.setCluster n c).jobOrder = s.jobOrder := rfl
@[simp] theorem State.setCluster_snapSeq (s : State) (n : Nat) (c : Cluster) : (s.setCluster n c).snapSeq = s.snapSeq := rfl
@[simp] theorem State.setCluster_boot (s : State) (n : Nat) (c : Cluster) : (s.setCluster n c).boot = s.boot := rfl
@[simp] theorem State.setCluster_fabric (s : State) (n : Nat) (c : Cluster) : (s.setCluster n c).fabric = s.fabric := rfl

/-! ## `setTenant` -/

@[simp] theorem State.setTenant_cycle (s : State) (t : Nat) (c : Tenant) : (s.setTenant t c).cycle = s.cycle := rfl
@[simp] theorem State.setTenant_turn (s : State) (t : Nat) (c : Tenant) : (s.setTenant t c).turn = s.turn := rfl
@[simp] theorem State.setTenant_cur (s : State) (t : Nat) (c : Tenant) : (s.setTenant t c).cur = s.cur := rfl
@[simp] theorem State.setTenant_agenda (s : State) (t : Nat) (c : Tenant) : (s.setTenant t c).agenda = s.agenda := rfl
@[simp] theorem State.setTenant_free (s : State) (t : Nat) (c : Tenant) : (s.setTenant t c).free = s.free := rfl
@[simp] theorem State.setTenant_mem (s : State) (t : Nat) (c : Tenant) : (s.setTenant t c).mem = s.mem := rfl
@[simp] theorem State.setTenant_poison (s : State) (t : Nat) (c : Tenant) : (s.setTenant t c).poison = s.poison := rfl
@[simp] theorem State.setTenant_feFull (s : State) (t : Nat) (c : Tenant) : (s.setTenant t c).feFull = s.feFull := rfl
@[simp] theorem State.setTenant_feWait (s : State) (t : Nat) (c : Tenant) : (s.setTenant t c).feWait = s.feWait := rfl
@[simp] theorem State.setTenant_pendSectors (s : State) (t : Nat) (c : Tenant) : (s.setTenant t c).pendSectors = s.pendSectors := rfl
@[simp] theorem State.setTenant_encOwner (s : State) (t : Nat) (c : Tenant) : (s.setTenant t c).encOwner = s.encOwner := rfl
@[simp] theorem State.setTenant_encMinor (s : State) (t : Nat) (c : Tenant) : (s.setTenant t c).encMinor = s.encMinor := rfl
@[simp] theorem State.setTenant_encMajor (s : State) (t : Nat) (c : Tenant) : (s.setTenant t c).encMajor = s.encMajor := rfl
@[simp] theorem State.setTenant_encTag (s : State) (t : Nat) (c : Tenant) : (s.setTenant t c).encTag = s.encTag := rfl
@[simp] theorem State.setTenant_encTree (s : State) (t : Nat) (c : Tenant) : (s.setTenant t c).encTree = s.encTree := rfl
@[simp] theorem State.setTenant_reenc (s : State) (t : Nat) (c : Tenant) : (s.setTenant t c).reenc = s.reenc := rfl
@[simp] theorem State.setTenant_peerHome (s : State) (t : Nat) (c : Tenant) : (s.setTenant t c).peerHome = s.peerHome := rfl
@[simp] theorem State.setTenant_peerCopy (s : State) (t : Nat) (c : Tenant) : (s.setTenant t c).peerCopy = s.peerCopy := rfl
@[simp] theorem State.setTenant_posted (s : State) (t : Nat) (c : Tenant) : (s.setTenant t c).posted = s.posted := rfl
@[simp] theorem State.setTenant_orphans (s : State) (t : Nat) (c : Tenant) : (s.setTenant t c).orphans = s.orphans := rfl
@[simp] theorem State.setTenant_savedLoads (s : State) (t : Nat) (c : Tenant) : (s.setTenant t c).savedLoads = s.savedLoads := rfl
@[simp] theorem State.setTenant_late (s : State) (t : Nat) (c : Tenant) : (s.setTenant t c).late = s.late := rfl
@[simp] theorem State.setTenant_hostPoison (s : State) (t : Nat) (c : Tenant) : (s.setTenant t c).hostPoison = s.hostPoison := rfl
@[simp] theorem State.setTenant_closing (s : State) (t : Nat) (c : Tenant) : (s.setTenant t c).closing = s.closing := rfl
@[simp] theorem State.setTenant_maint (s : State) (t : Nat) (c : Tenant) : (s.setTenant t c).maint = s.maint := rfl
@[simp] theorem State.setTenant_hostStores (s : State) (t : Nat) (c : Tenant) : (s.setTenant t c).hostStores = s.hostStores := rfl
@[simp] theorem State.setTenant_hostPackets (s : State) (t : Nat) (c : Tenant) : (s.setTenant t c).hostPackets = s.hostPackets := rfl
@[simp] theorem State.setTenant_hostReads (s : State) (t : Nat) (c : Tenant) : (s.setTenant t c).hostReads = s.hostReads := rfl
@[simp] theorem State.setTenant_hostData (s : State) (t : Nat) (c : Tenant) : (s.setTenant t c).hostData = s.hostData := rfl
@[simp] theorem State.setTenant_sram (s : State) (t : Nat) (c : Tenant) : (s.setTenant t c).sram = s.sram := rfl
@[simp] theorem State.setTenant_tlb (s : State) (t : Nat) (c : Tenant) : (s.setTenant t c).tlb = s.tlb := rfl
@[simp] theorem State.setTenant_ctxs (s : State) (t : Nat) (c : Tenant) : (s.setTenant t c).ctxs = s.ctxs := rfl
@[simp] theorem State.setTenant_cores (s : State) (t : Nat) (c : Tenant) : (s.setTenant t c).cores = s.cores := rfl
@[simp] theorem State.setTenant_clusters (s : State) (t : Nat) (c : Tenant) : (s.setTenant t c).clusters = s.clusters := rfl
@[simp] theorem State.setTenant_net (s : State) (t : Nat) (c : Tenant) : (s.setTenant t c).net = s.net := rfl
@[simp] theorem State.setTenant_twins (s : State) (t : Nat) (c : Tenant) : (s.setTenant t c).twins = s.twins := rfl
@[simp] theorem State.setTenant_twinCtr (s : State) (t : Nat) (c : Tenant) : (s.setTenant t c).twinCtr = s.twinCtr := rfl
@[simp] theorem State.setTenant_rounds (s : State) (t : Nat) (c : Tenant) : (s.setTenant t c).rounds = s.rounds := rfl
@[simp] theorem State.setTenant_groupBars (s : State) (t : Nat) (c : Tenant) : (s.setTenant t c).groupBars = s.groupBars := rfl
@[simp] theorem State.setTenant_coll (s : State) (t : Nat) (c : Tenant) : (s.setTenant t c).coll = s.coll := rfl
@[simp] theorem State.setTenant_msu (s : State) (t : Nat) (c : Tenant) : (s.setTenant t c).msu = s.msu := rfl
@[simp] theorem State.setTenant_jobOrder (s : State) (t : Nat) (c : Tenant) : (s.setTenant t c).jobOrder = s.jobOrder := rfl
@[simp] theorem State.setTenant_snapSeq (s : State) (t : Nat) (c : Tenant) : (s.setTenant t c).snapSeq = s.snapSeq := rfl
@[simp] theorem State.setTenant_boot (s : State) (t : Nat) (c : Tenant) : (s.setTenant t c).boot = s.boot := rfl
@[simp] theorem State.setTenant_fabric (s : State) (t : Nat) (c : Tenant) : (s.setTenant t c).fabric = s.fabric := rfl

/-! ## `at` -/

@[simp] theorem State.at_cycle (s : State) (x : CtxId) : (s.at x).cycle = s.cycle := rfl
@[simp] theorem State.at_turn (s : State) (x : CtxId) : (s.at x).turn = s.turn := rfl
@[simp] theorem State.at_cur (s : State) (x : CtxId) : (s.at x).cur = x := rfl
@[simp] theorem State.at_agenda (s : State) (x : CtxId) : (s.at x).agenda = s.agenda := rfl
@[simp] theorem State.at_free (s : State) (x : CtxId) : (s.at x).free = s.free := rfl
@[simp] theorem State.at_mem (s : State) (x : CtxId) : (s.at x).mem = s.mem := rfl
@[simp] theorem State.at_poison (s : State) (x : CtxId) : (s.at x).poison = s.poison := rfl
@[simp] theorem State.at_feFull (s : State) (x : CtxId) : (s.at x).feFull = s.feFull := rfl
@[simp] theorem State.at_feWait (s : State) (x : CtxId) : (s.at x).feWait = s.feWait := rfl
@[simp] theorem State.at_pendSectors (s : State) (x : CtxId) : (s.at x).pendSectors = s.pendSectors := rfl
@[simp] theorem State.at_encOwner (s : State) (x : CtxId) : (s.at x).encOwner = s.encOwner := rfl
@[simp] theorem State.at_encMinor (s : State) (x : CtxId) : (s.at x).encMinor = s.encMinor := rfl
@[simp] theorem State.at_encMajor (s : State) (x : CtxId) : (s.at x).encMajor = s.encMajor := rfl
@[simp] theorem State.at_encTag (s : State) (x : CtxId) : (s.at x).encTag = s.encTag := rfl
@[simp] theorem State.at_encTree (s : State) (x : CtxId) : (s.at x).encTree = s.encTree := rfl
@[simp] theorem State.at_reenc (s : State) (x : CtxId) : (s.at x).reenc = s.reenc := rfl
@[simp] theorem State.at_peerHome (s : State) (x : CtxId) : (s.at x).peerHome = s.peerHome := rfl
@[simp] theorem State.at_peerCopy (s : State) (x : CtxId) : (s.at x).peerCopy = s.peerCopy := rfl
@[simp] theorem State.at_posted (s : State) (x : CtxId) : (s.at x).posted = s.posted := rfl
@[simp] theorem State.at_orphans (s : State) (x : CtxId) : (s.at x).orphans = s.orphans := rfl
@[simp] theorem State.at_savedLoads (s : State) (x : CtxId) : (s.at x).savedLoads = s.savedLoads := rfl
@[simp] theorem State.at_late (s : State) (x : CtxId) : (s.at x).late = s.late := rfl
@[simp] theorem State.at_hostPoison (s : State) (x : CtxId) : (s.at x).hostPoison = s.hostPoison := rfl
@[simp] theorem State.at_closing (s : State) (x : CtxId) : (s.at x).closing = s.closing := rfl
@[simp] theorem State.at_maint (s : State) (x : CtxId) : (s.at x).maint = s.maint := rfl
@[simp] theorem State.at_hostStores (s : State) (x : CtxId) : (s.at x).hostStores = s.hostStores := rfl
@[simp] theorem State.at_hostPackets (s : State) (x : CtxId) : (s.at x).hostPackets = s.hostPackets := rfl
@[simp] theorem State.at_hostReads (s : State) (x : CtxId) : (s.at x).hostReads = s.hostReads := rfl
@[simp] theorem State.at_hostData (s : State) (x : CtxId) : (s.at x).hostData = s.hostData := rfl
@[simp] theorem State.at_sram (s : State) (x : CtxId) : (s.at x).sram = s.sram := rfl
@[simp] theorem State.at_tlb (s : State) (x : CtxId) : (s.at x).tlb = s.tlb := rfl
@[simp] theorem State.at_ctxs (s : State) (x : CtxId) : (s.at x).ctxs = s.ctxs := rfl
@[simp] theorem State.at_cores (s : State) (x : CtxId) : (s.at x).cores = s.cores := rfl
@[simp] theorem State.at_clusters (s : State) (x : CtxId) : (s.at x).clusters = s.clusters := rfl
@[simp] theorem State.at_tenants (s : State) (x : CtxId) : (s.at x).tenants = s.tenants := rfl
@[simp] theorem State.at_net (s : State) (x : CtxId) : (s.at x).net = s.net := rfl
@[simp] theorem State.at_twins (s : State) (x : CtxId) : (s.at x).twins = s.twins := rfl
@[simp] theorem State.at_twinCtr (s : State) (x : CtxId) : (s.at x).twinCtr = s.twinCtr := rfl
@[simp] theorem State.at_rounds (s : State) (x : CtxId) : (s.at x).rounds = s.rounds := rfl
@[simp] theorem State.at_groupBars (s : State) (x : CtxId) : (s.at x).groupBars = s.groupBars := rfl
@[simp] theorem State.at_coll (s : State) (x : CtxId) : (s.at x).coll = s.coll := rfl
@[simp] theorem State.at_msu (s : State) (x : CtxId) : (s.at x).msu = s.msu := rfl
@[simp] theorem State.at_jobOrder (s : State) (x : CtxId) : (s.at x).jobOrder = s.jobOrder := rfl
@[simp] theorem State.at_snapSeq (s : State) (x : CtxId) : (s.at x).snapSeq = s.snapSeq := rfl
@[simp] theorem State.at_boot (s : State) (x : CtxId) : (s.at x).boot = s.boot := rfl
@[simp] theorem State.at_fabric (s : State) (x : CtxId) : (s.at x).fabric = s.fabric := rfl

/-! ## `onMe` -/

@[simp] theorem State.onMe_cycle (s : State) (f : Ctx → Ctx) : (s.onMe f).cycle = s.cycle := rfl
@[simp] theorem State.onMe_turn (s : State) (f : Ctx → Ctx) : (s.onMe f).turn = s.turn := rfl
@[simp] theorem State.onMe_cur (s : State) (f : Ctx → Ctx) : (s.onMe f).cur = s.cur := rfl
@[simp] theorem State.onMe_agenda (s : State) (f : Ctx → Ctx) : (s.onMe f).agenda = s.agenda := rfl
@[simp] theorem State.onMe_free (s : State) (f : Ctx → Ctx) : (s.onMe f).free = s.free := rfl
@[simp] theorem State.onMe_mem (s : State) (f : Ctx → Ctx) : (s.onMe f).mem = s.mem := rfl
@[simp] theorem State.onMe_poison (s : State) (f : Ctx → Ctx) : (s.onMe f).poison = s.poison := rfl
@[simp] theorem State.onMe_feFull (s : State) (f : Ctx → Ctx) : (s.onMe f).feFull = s.feFull := rfl
@[simp] theorem State.onMe_feWait (s : State) (f : Ctx → Ctx) : (s.onMe f).feWait = s.feWait := rfl
@[simp] theorem State.onMe_pendSectors (s : State) (f : Ctx → Ctx) : (s.onMe f).pendSectors = s.pendSectors := rfl
@[simp] theorem State.onMe_encOwner (s : State) (f : Ctx → Ctx) : (s.onMe f).encOwner = s.encOwner := rfl
@[simp] theorem State.onMe_encMinor (s : State) (f : Ctx → Ctx) : (s.onMe f).encMinor = s.encMinor := rfl
@[simp] theorem State.onMe_encMajor (s : State) (f : Ctx → Ctx) : (s.onMe f).encMajor = s.encMajor := rfl
@[simp] theorem State.onMe_encTag (s : State) (f : Ctx → Ctx) : (s.onMe f).encTag = s.encTag := rfl
@[simp] theorem State.onMe_encTree (s : State) (f : Ctx → Ctx) : (s.onMe f).encTree = s.encTree := rfl
@[simp] theorem State.onMe_reenc (s : State) (f : Ctx → Ctx) : (s.onMe f).reenc = s.reenc := rfl
@[simp] theorem State.onMe_peerHome (s : State) (f : Ctx → Ctx) : (s.onMe f).peerHome = s.peerHome := rfl
@[simp] theorem State.onMe_peerCopy (s : State) (f : Ctx → Ctx) : (s.onMe f).peerCopy = s.peerCopy := rfl
@[simp] theorem State.onMe_posted (s : State) (f : Ctx → Ctx) : (s.onMe f).posted = s.posted := rfl
@[simp] theorem State.onMe_orphans (s : State) (f : Ctx → Ctx) : (s.onMe f).orphans = s.orphans := rfl
@[simp] theorem State.onMe_savedLoads (s : State) (f : Ctx → Ctx) : (s.onMe f).savedLoads = s.savedLoads := rfl
@[simp] theorem State.onMe_late (s : State) (f : Ctx → Ctx) : (s.onMe f).late = s.late := rfl
@[simp] theorem State.onMe_hostPoison (s : State) (f : Ctx → Ctx) : (s.onMe f).hostPoison = s.hostPoison := rfl
@[simp] theorem State.onMe_closing (s : State) (f : Ctx → Ctx) : (s.onMe f).closing = s.closing := rfl
@[simp] theorem State.onMe_maint (s : State) (f : Ctx → Ctx) : (s.onMe f).maint = s.maint := rfl
@[simp] theorem State.onMe_hostStores (s : State) (f : Ctx → Ctx) : (s.onMe f).hostStores = s.hostStores := rfl
@[simp] theorem State.onMe_hostPackets (s : State) (f : Ctx → Ctx) : (s.onMe f).hostPackets = s.hostPackets := rfl
@[simp] theorem State.onMe_hostReads (s : State) (f : Ctx → Ctx) : (s.onMe f).hostReads = s.hostReads := rfl
@[simp] theorem State.onMe_hostData (s : State) (f : Ctx → Ctx) : (s.onMe f).hostData = s.hostData := rfl
@[simp] theorem State.onMe_sram (s : State) (f : Ctx → Ctx) : (s.onMe f).sram = s.sram := rfl
@[simp] theorem State.onMe_tlb (s : State) (f : Ctx → Ctx) : (s.onMe f).tlb = s.tlb := rfl
@[simp] theorem State.onMe_cores (s : State) (f : Ctx → Ctx) : (s.onMe f).cores = s.cores := rfl
@[simp] theorem State.onMe_clusters (s : State) (f : Ctx → Ctx) : (s.onMe f).clusters = s.clusters := rfl
@[simp] theorem State.onMe_tenants (s : State) (f : Ctx → Ctx) : (s.onMe f).tenants = s.tenants := rfl
@[simp] theorem State.onMe_net (s : State) (f : Ctx → Ctx) : (s.onMe f).net = s.net := rfl
@[simp] theorem State.onMe_twins (s : State) (f : Ctx → Ctx) : (s.onMe f).twins = s.twins := rfl
@[simp] theorem State.onMe_twinCtr (s : State) (f : Ctx → Ctx) : (s.onMe f).twinCtr = s.twinCtr := rfl
@[simp] theorem State.onMe_rounds (s : State) (f : Ctx → Ctx) : (s.onMe f).rounds = s.rounds := rfl
@[simp] theorem State.onMe_groupBars (s : State) (f : Ctx → Ctx) : (s.onMe f).groupBars = s.groupBars := rfl
@[simp] theorem State.onMe_coll (s : State) (f : Ctx → Ctx) : (s.onMe f).coll = s.coll := rfl
@[simp] theorem State.onMe_msu (s : State) (f : Ctx → Ctx) : (s.onMe f).msu = s.msu := rfl
@[simp] theorem State.onMe_jobOrder (s : State) (f : Ctx → Ctx) : (s.onMe f).jobOrder = s.jobOrder := rfl
@[simp] theorem State.onMe_snapSeq (s : State) (f : Ctx → Ctx) : (s.onMe f).snapSeq = s.snapSeq := rfl
@[simp] theorem State.onMe_boot (s : State) (f : Ctx → Ctx) : (s.onMe f).boot = s.boot := rfl
@[simp] theorem State.onMe_fabric (s : State) (f : Ctx → Ctx) : (s.onMe f).fabric = s.fabric := rfl

/-! ## `onCore` -/

@[simp] theorem State.onCore_cycle (s : State) (n : Nat) (f : Core → Core) : (s.onCore n f).cycle = s.cycle := rfl
@[simp] theorem State.onCore_turn (s : State) (n : Nat) (f : Core → Core) : (s.onCore n f).turn = s.turn := rfl
@[simp] theorem State.onCore_cur (s : State) (n : Nat) (f : Core → Core) : (s.onCore n f).cur = s.cur := rfl
@[simp] theorem State.onCore_agenda (s : State) (n : Nat) (f : Core → Core) : (s.onCore n f).agenda = s.agenda := rfl
@[simp] theorem State.onCore_free (s : State) (n : Nat) (f : Core → Core) : (s.onCore n f).free = s.free := rfl
@[simp] theorem State.onCore_mem (s : State) (n : Nat) (f : Core → Core) : (s.onCore n f).mem = s.mem := rfl
@[simp] theorem State.onCore_poison (s : State) (n : Nat) (f : Core → Core) : (s.onCore n f).poison = s.poison := rfl
@[simp] theorem State.onCore_feFull (s : State) (n : Nat) (f : Core → Core) : (s.onCore n f).feFull = s.feFull := rfl
@[simp] theorem State.onCore_feWait (s : State) (n : Nat) (f : Core → Core) : (s.onCore n f).feWait = s.feWait := rfl
@[simp] theorem State.onCore_pendSectors (s : State) (n : Nat) (f : Core → Core) : (s.onCore n f).pendSectors = s.pendSectors := rfl
@[simp] theorem State.onCore_encOwner (s : State) (n : Nat) (f : Core → Core) : (s.onCore n f).encOwner = s.encOwner := rfl
@[simp] theorem State.onCore_encMinor (s : State) (n : Nat) (f : Core → Core) : (s.onCore n f).encMinor = s.encMinor := rfl
@[simp] theorem State.onCore_encMajor (s : State) (n : Nat) (f : Core → Core) : (s.onCore n f).encMajor = s.encMajor := rfl
@[simp] theorem State.onCore_encTag (s : State) (n : Nat) (f : Core → Core) : (s.onCore n f).encTag = s.encTag := rfl
@[simp] theorem State.onCore_encTree (s : State) (n : Nat) (f : Core → Core) : (s.onCore n f).encTree = s.encTree := rfl
@[simp] theorem State.onCore_reenc (s : State) (n : Nat) (f : Core → Core) : (s.onCore n f).reenc = s.reenc := rfl
@[simp] theorem State.onCore_peerHome (s : State) (n : Nat) (f : Core → Core) : (s.onCore n f).peerHome = s.peerHome := rfl
@[simp] theorem State.onCore_peerCopy (s : State) (n : Nat) (f : Core → Core) : (s.onCore n f).peerCopy = s.peerCopy := rfl
@[simp] theorem State.onCore_posted (s : State) (n : Nat) (f : Core → Core) : (s.onCore n f).posted = s.posted := rfl
@[simp] theorem State.onCore_orphans (s : State) (n : Nat) (f : Core → Core) : (s.onCore n f).orphans = s.orphans := rfl
@[simp] theorem State.onCore_savedLoads (s : State) (n : Nat) (f : Core → Core) : (s.onCore n f).savedLoads = s.savedLoads := rfl
@[simp] theorem State.onCore_late (s : State) (n : Nat) (f : Core → Core) : (s.onCore n f).late = s.late := rfl
@[simp] theorem State.onCore_hostPoison (s : State) (n : Nat) (f : Core → Core) : (s.onCore n f).hostPoison = s.hostPoison := rfl
@[simp] theorem State.onCore_closing (s : State) (n : Nat) (f : Core → Core) : (s.onCore n f).closing = s.closing := rfl
@[simp] theorem State.onCore_maint (s : State) (n : Nat) (f : Core → Core) : (s.onCore n f).maint = s.maint := rfl
@[simp] theorem State.onCore_hostStores (s : State) (n : Nat) (f : Core → Core) : (s.onCore n f).hostStores = s.hostStores := rfl
@[simp] theorem State.onCore_hostPackets (s : State) (n : Nat) (f : Core → Core) : (s.onCore n f).hostPackets = s.hostPackets := rfl
@[simp] theorem State.onCore_hostReads (s : State) (n : Nat) (f : Core → Core) : (s.onCore n f).hostReads = s.hostReads := rfl
@[simp] theorem State.onCore_hostData (s : State) (n : Nat) (f : Core → Core) : (s.onCore n f).hostData = s.hostData := rfl
@[simp] theorem State.onCore_sram (s : State) (n : Nat) (f : Core → Core) : (s.onCore n f).sram = s.sram := rfl
@[simp] theorem State.onCore_tlb (s : State) (n : Nat) (f : Core → Core) : (s.onCore n f).tlb = s.tlb := rfl
@[simp] theorem State.onCore_ctxs (s : State) (n : Nat) (f : Core → Core) : (s.onCore n f).ctxs = s.ctxs := rfl
@[simp] theorem State.onCore_clusters (s : State) (n : Nat) (f : Core → Core) : (s.onCore n f).clusters = s.clusters := rfl
@[simp] theorem State.onCore_tenants (s : State) (n : Nat) (f : Core → Core) : (s.onCore n f).tenants = s.tenants := rfl
@[simp] theorem State.onCore_net (s : State) (n : Nat) (f : Core → Core) : (s.onCore n f).net = s.net := rfl
@[simp] theorem State.onCore_twins (s : State) (n : Nat) (f : Core → Core) : (s.onCore n f).twins = s.twins := rfl
@[simp] theorem State.onCore_twinCtr (s : State) (n : Nat) (f : Core → Core) : (s.onCore n f).twinCtr = s.twinCtr := rfl
@[simp] theorem State.onCore_rounds (s : State) (n : Nat) (f : Core → Core) : (s.onCore n f).rounds = s.rounds := rfl
@[simp] theorem State.onCore_groupBars (s : State) (n : Nat) (f : Core → Core) : (s.onCore n f).groupBars = s.groupBars := rfl
@[simp] theorem State.onCore_coll (s : State) (n : Nat) (f : Core → Core) : (s.onCore n f).coll = s.coll := rfl
@[simp] theorem State.onCore_msu (s : State) (n : Nat) (f : Core → Core) : (s.onCore n f).msu = s.msu := rfl
@[simp] theorem State.onCore_jobOrder (s : State) (n : Nat) (f : Core → Core) : (s.onCore n f).jobOrder = s.jobOrder := rfl
@[simp] theorem State.onCore_snapSeq (s : State) (n : Nat) (f : Core → Core) : (s.onCore n f).snapSeq = s.snapSeq := rfl
@[simp] theorem State.onCore_boot (s : State) (n : Nat) (f : Core → Core) : (s.onCore n f).boot = s.boot := rfl
@[simp] theorem State.onCore_fabric (s : State) (n : Nat) (f : Core → Core) : (s.onCore n f).fabric = s.fabric := rfl

/-! ## `onCluster` -/

@[simp] theorem State.onCluster_cycle (s : State) (n : Nat) (f : Cluster → Cluster) : (s.onCluster n f).cycle = s.cycle := rfl
@[simp] theorem State.onCluster_turn (s : State) (n : Nat) (f : Cluster → Cluster) : (s.onCluster n f).turn = s.turn := rfl
@[simp] theorem State.onCluster_cur (s : State) (n : Nat) (f : Cluster → Cluster) : (s.onCluster n f).cur = s.cur := rfl
@[simp] theorem State.onCluster_agenda (s : State) (n : Nat) (f : Cluster → Cluster) : (s.onCluster n f).agenda = s.agenda := rfl
@[simp] theorem State.onCluster_free (s : State) (n : Nat) (f : Cluster → Cluster) : (s.onCluster n f).free = s.free := rfl
@[simp] theorem State.onCluster_mem (s : State) (n : Nat) (f : Cluster → Cluster) : (s.onCluster n f).mem = s.mem := rfl
@[simp] theorem State.onCluster_poison (s : State) (n : Nat) (f : Cluster → Cluster) : (s.onCluster n f).poison = s.poison := rfl
@[simp] theorem State.onCluster_feFull (s : State) (n : Nat) (f : Cluster → Cluster) : (s.onCluster n f).feFull = s.feFull := rfl
@[simp] theorem State.onCluster_feWait (s : State) (n : Nat) (f : Cluster → Cluster) : (s.onCluster n f).feWait = s.feWait := rfl
@[simp] theorem State.onCluster_pendSectors (s : State) (n : Nat) (f : Cluster → Cluster) : (s.onCluster n f).pendSectors = s.pendSectors := rfl
@[simp] theorem State.onCluster_encOwner (s : State) (n : Nat) (f : Cluster → Cluster) : (s.onCluster n f).encOwner = s.encOwner := rfl
@[simp] theorem State.onCluster_encMinor (s : State) (n : Nat) (f : Cluster → Cluster) : (s.onCluster n f).encMinor = s.encMinor := rfl
@[simp] theorem State.onCluster_encMajor (s : State) (n : Nat) (f : Cluster → Cluster) : (s.onCluster n f).encMajor = s.encMajor := rfl
@[simp] theorem State.onCluster_encTag (s : State) (n : Nat) (f : Cluster → Cluster) : (s.onCluster n f).encTag = s.encTag := rfl
@[simp] theorem State.onCluster_encTree (s : State) (n : Nat) (f : Cluster → Cluster) : (s.onCluster n f).encTree = s.encTree := rfl
@[simp] theorem State.onCluster_reenc (s : State) (n : Nat) (f : Cluster → Cluster) : (s.onCluster n f).reenc = s.reenc := rfl
@[simp] theorem State.onCluster_peerHome (s : State) (n : Nat) (f : Cluster → Cluster) : (s.onCluster n f).peerHome = s.peerHome := rfl
@[simp] theorem State.onCluster_peerCopy (s : State) (n : Nat) (f : Cluster → Cluster) : (s.onCluster n f).peerCopy = s.peerCopy := rfl
@[simp] theorem State.onCluster_posted (s : State) (n : Nat) (f : Cluster → Cluster) : (s.onCluster n f).posted = s.posted := rfl
@[simp] theorem State.onCluster_orphans (s : State) (n : Nat) (f : Cluster → Cluster) : (s.onCluster n f).orphans = s.orphans := rfl
@[simp] theorem State.onCluster_savedLoads (s : State) (n : Nat) (f : Cluster → Cluster) : (s.onCluster n f).savedLoads = s.savedLoads := rfl
@[simp] theorem State.onCluster_late (s : State) (n : Nat) (f : Cluster → Cluster) : (s.onCluster n f).late = s.late := rfl
@[simp] theorem State.onCluster_hostPoison (s : State) (n : Nat) (f : Cluster → Cluster) : (s.onCluster n f).hostPoison = s.hostPoison := rfl
@[simp] theorem State.onCluster_closing (s : State) (n : Nat) (f : Cluster → Cluster) : (s.onCluster n f).closing = s.closing := rfl
@[simp] theorem State.onCluster_maint (s : State) (n : Nat) (f : Cluster → Cluster) : (s.onCluster n f).maint = s.maint := rfl
@[simp] theorem State.onCluster_hostStores (s : State) (n : Nat) (f : Cluster → Cluster) : (s.onCluster n f).hostStores = s.hostStores := rfl
@[simp] theorem State.onCluster_hostPackets (s : State) (n : Nat) (f : Cluster → Cluster) : (s.onCluster n f).hostPackets = s.hostPackets := rfl
@[simp] theorem State.onCluster_hostReads (s : State) (n : Nat) (f : Cluster → Cluster) : (s.onCluster n f).hostReads = s.hostReads := rfl
@[simp] theorem State.onCluster_hostData (s : State) (n : Nat) (f : Cluster → Cluster) : (s.onCluster n f).hostData = s.hostData := rfl
@[simp] theorem State.onCluster_sram (s : State) (n : Nat) (f : Cluster → Cluster) : (s.onCluster n f).sram = s.sram := rfl
@[simp] theorem State.onCluster_tlb (s : State) (n : Nat) (f : Cluster → Cluster) : (s.onCluster n f).tlb = s.tlb := rfl
@[simp] theorem State.onCluster_ctxs (s : State) (n : Nat) (f : Cluster → Cluster) : (s.onCluster n f).ctxs = s.ctxs := rfl
@[simp] theorem State.onCluster_cores (s : State) (n : Nat) (f : Cluster → Cluster) : (s.onCluster n f).cores = s.cores := rfl
@[simp] theorem State.onCluster_tenants (s : State) (n : Nat) (f : Cluster → Cluster) : (s.onCluster n f).tenants = s.tenants := rfl
@[simp] theorem State.onCluster_net (s : State) (n : Nat) (f : Cluster → Cluster) : (s.onCluster n f).net = s.net := rfl
@[simp] theorem State.onCluster_twins (s : State) (n : Nat) (f : Cluster → Cluster) : (s.onCluster n f).twins = s.twins := rfl
@[simp] theorem State.onCluster_twinCtr (s : State) (n : Nat) (f : Cluster → Cluster) : (s.onCluster n f).twinCtr = s.twinCtr := rfl
@[simp] theorem State.onCluster_rounds (s : State) (n : Nat) (f : Cluster → Cluster) : (s.onCluster n f).rounds = s.rounds := rfl
@[simp] theorem State.onCluster_groupBars (s : State) (n : Nat) (f : Cluster → Cluster) : (s.onCluster n f).groupBars = s.groupBars := rfl
@[simp] theorem State.onCluster_coll (s : State) (n : Nat) (f : Cluster → Cluster) : (s.onCluster n f).coll = s.coll := rfl
@[simp] theorem State.onCluster_msu (s : State) (n : Nat) (f : Cluster → Cluster) : (s.onCluster n f).msu = s.msu := rfl
@[simp] theorem State.onCluster_jobOrder (s : State) (n : Nat) (f : Cluster → Cluster) : (s.onCluster n f).jobOrder = s.jobOrder := rfl
@[simp] theorem State.onCluster_snapSeq (s : State) (n : Nat) (f : Cluster → Cluster) : (s.onCluster n f).snapSeq = s.snapSeq := rfl
@[simp] theorem State.onCluster_boot (s : State) (n : Nat) (f : Cluster → Cluster) : (s.onCluster n f).boot = s.boot := rfl
@[simp] theorem State.onCluster_fabric (s : State) (n : Nat) (f : Cluster → Cluster) : (s.onCluster n f).fabric = s.fabric := rfl

/-! ## `onTenant` -/

@[simp] theorem State.onTenant_cycle (s : State) (t : Nat) (f : Tenant → Tenant) : (s.onTenant t f).cycle = s.cycle := rfl
@[simp] theorem State.onTenant_turn (s : State) (t : Nat) (f : Tenant → Tenant) : (s.onTenant t f).turn = s.turn := rfl
@[simp] theorem State.onTenant_cur (s : State) (t : Nat) (f : Tenant → Tenant) : (s.onTenant t f).cur = s.cur := rfl
@[simp] theorem State.onTenant_agenda (s : State) (t : Nat) (f : Tenant → Tenant) : (s.onTenant t f).agenda = s.agenda := rfl
@[simp] theorem State.onTenant_free (s : State) (t : Nat) (f : Tenant → Tenant) : (s.onTenant t f).free = s.free := rfl
@[simp] theorem State.onTenant_mem (s : State) (t : Nat) (f : Tenant → Tenant) : (s.onTenant t f).mem = s.mem := rfl
@[simp] theorem State.onTenant_poison (s : State) (t : Nat) (f : Tenant → Tenant) : (s.onTenant t f).poison = s.poison := rfl
@[simp] theorem State.onTenant_feFull (s : State) (t : Nat) (f : Tenant → Tenant) : (s.onTenant t f).feFull = s.feFull := rfl
@[simp] theorem State.onTenant_feWait (s : State) (t : Nat) (f : Tenant → Tenant) : (s.onTenant t f).feWait = s.feWait := rfl
@[simp] theorem State.onTenant_pendSectors (s : State) (t : Nat) (f : Tenant → Tenant) : (s.onTenant t f).pendSectors = s.pendSectors := rfl
@[simp] theorem State.onTenant_encOwner (s : State) (t : Nat) (f : Tenant → Tenant) : (s.onTenant t f).encOwner = s.encOwner := rfl
@[simp] theorem State.onTenant_encMinor (s : State) (t : Nat) (f : Tenant → Tenant) : (s.onTenant t f).encMinor = s.encMinor := rfl
@[simp] theorem State.onTenant_encMajor (s : State) (t : Nat) (f : Tenant → Tenant) : (s.onTenant t f).encMajor = s.encMajor := rfl
@[simp] theorem State.onTenant_encTag (s : State) (t : Nat) (f : Tenant → Tenant) : (s.onTenant t f).encTag = s.encTag := rfl
@[simp] theorem State.onTenant_encTree (s : State) (t : Nat) (f : Tenant → Tenant) : (s.onTenant t f).encTree = s.encTree := rfl
@[simp] theorem State.onTenant_reenc (s : State) (t : Nat) (f : Tenant → Tenant) : (s.onTenant t f).reenc = s.reenc := rfl
@[simp] theorem State.onTenant_peerHome (s : State) (t : Nat) (f : Tenant → Tenant) : (s.onTenant t f).peerHome = s.peerHome := rfl
@[simp] theorem State.onTenant_peerCopy (s : State) (t : Nat) (f : Tenant → Tenant) : (s.onTenant t f).peerCopy = s.peerCopy := rfl
@[simp] theorem State.onTenant_posted (s : State) (t : Nat) (f : Tenant → Tenant) : (s.onTenant t f).posted = s.posted := rfl
@[simp] theorem State.onTenant_orphans (s : State) (t : Nat) (f : Tenant → Tenant) : (s.onTenant t f).orphans = s.orphans := rfl
@[simp] theorem State.onTenant_savedLoads (s : State) (t : Nat) (f : Tenant → Tenant) : (s.onTenant t f).savedLoads = s.savedLoads := rfl
@[simp] theorem State.onTenant_late (s : State) (t : Nat) (f : Tenant → Tenant) : (s.onTenant t f).late = s.late := rfl
@[simp] theorem State.onTenant_hostPoison (s : State) (t : Nat) (f : Tenant → Tenant) : (s.onTenant t f).hostPoison = s.hostPoison := rfl
@[simp] theorem State.onTenant_closing (s : State) (t : Nat) (f : Tenant → Tenant) : (s.onTenant t f).closing = s.closing := rfl
@[simp] theorem State.onTenant_maint (s : State) (t : Nat) (f : Tenant → Tenant) : (s.onTenant t f).maint = s.maint := rfl
@[simp] theorem State.onTenant_hostStores (s : State) (t : Nat) (f : Tenant → Tenant) : (s.onTenant t f).hostStores = s.hostStores := rfl
@[simp] theorem State.onTenant_hostPackets (s : State) (t : Nat) (f : Tenant → Tenant) : (s.onTenant t f).hostPackets = s.hostPackets := rfl
@[simp] theorem State.onTenant_hostReads (s : State) (t : Nat) (f : Tenant → Tenant) : (s.onTenant t f).hostReads = s.hostReads := rfl
@[simp] theorem State.onTenant_hostData (s : State) (t : Nat) (f : Tenant → Tenant) : (s.onTenant t f).hostData = s.hostData := rfl
@[simp] theorem State.onTenant_sram (s : State) (t : Nat) (f : Tenant → Tenant) : (s.onTenant t f).sram = s.sram := rfl
@[simp] theorem State.onTenant_tlb (s : State) (t : Nat) (f : Tenant → Tenant) : (s.onTenant t f).tlb = s.tlb := rfl
@[simp] theorem State.onTenant_ctxs (s : State) (t : Nat) (f : Tenant → Tenant) : (s.onTenant t f).ctxs = s.ctxs := rfl
@[simp] theorem State.onTenant_cores (s : State) (t : Nat) (f : Tenant → Tenant) : (s.onTenant t f).cores = s.cores := rfl
@[simp] theorem State.onTenant_clusters (s : State) (t : Nat) (f : Tenant → Tenant) : (s.onTenant t f).clusters = s.clusters := rfl
@[simp] theorem State.onTenant_net (s : State) (t : Nat) (f : Tenant → Tenant) : (s.onTenant t f).net = s.net := rfl
@[simp] theorem State.onTenant_twins (s : State) (t : Nat) (f : Tenant → Tenant) : (s.onTenant t f).twins = s.twins := rfl
@[simp] theorem State.onTenant_twinCtr (s : State) (t : Nat) (f : Tenant → Tenant) : (s.onTenant t f).twinCtr = s.twinCtr := rfl
@[simp] theorem State.onTenant_rounds (s : State) (t : Nat) (f : Tenant → Tenant) : (s.onTenant t f).rounds = s.rounds := rfl
@[simp] theorem State.onTenant_groupBars (s : State) (t : Nat) (f : Tenant → Tenant) : (s.onTenant t f).groupBars = s.groupBars := rfl
@[simp] theorem State.onTenant_coll (s : State) (t : Nat) (f : Tenant → Tenant) : (s.onTenant t f).coll = s.coll := rfl
@[simp] theorem State.onTenant_msu (s : State) (t : Nat) (f : Tenant → Tenant) : (s.onTenant t f).msu = s.msu := rfl
@[simp] theorem State.onTenant_jobOrder (s : State) (t : Nat) (f : Tenant → Tenant) : (s.onTenant t f).jobOrder = s.jobOrder := rfl
@[simp] theorem State.onTenant_snapSeq (s : State) (t : Nat) (f : Tenant → Tenant) : (s.onTenant t f).snapSeq = s.snapSeq := rfl
@[simp] theorem State.onTenant_boot (s : State) (t : Nat) (f : Tenant → Tenant) : (s.onTenant t f).boot = s.boot := rfl
@[simp] theorem State.onTenant_fabric (s : State) (t : Nat) (f : Tenant → Tenant) : (s.onTenant t f).fabric = s.fabric := rfl

/-! ## `count` -/

@[simp] theorem State.count_cycle (s : State) (t : Nat) (f : Counts → Counts) : (s.count t f).cycle = s.cycle := rfl
@[simp] theorem State.count_turn (s : State) (t : Nat) (f : Counts → Counts) : (s.count t f).turn = s.turn := rfl
@[simp] theorem State.count_cur (s : State) (t : Nat) (f : Counts → Counts) : (s.count t f).cur = s.cur := rfl
@[simp] theorem State.count_agenda (s : State) (t : Nat) (f : Counts → Counts) : (s.count t f).agenda = s.agenda := rfl
@[simp] theorem State.count_free (s : State) (t : Nat) (f : Counts → Counts) : (s.count t f).free = s.free := rfl
@[simp] theorem State.count_mem (s : State) (t : Nat) (f : Counts → Counts) : (s.count t f).mem = s.mem := rfl
@[simp] theorem State.count_poison (s : State) (t : Nat) (f : Counts → Counts) : (s.count t f).poison = s.poison := rfl
@[simp] theorem State.count_feFull (s : State) (t : Nat) (f : Counts → Counts) : (s.count t f).feFull = s.feFull := rfl
@[simp] theorem State.count_feWait (s : State) (t : Nat) (f : Counts → Counts) : (s.count t f).feWait = s.feWait := rfl
@[simp] theorem State.count_pendSectors (s : State) (t : Nat) (f : Counts → Counts) : (s.count t f).pendSectors = s.pendSectors := rfl
@[simp] theorem State.count_encOwner (s : State) (t : Nat) (f : Counts → Counts) : (s.count t f).encOwner = s.encOwner := rfl
@[simp] theorem State.count_encMinor (s : State) (t : Nat) (f : Counts → Counts) : (s.count t f).encMinor = s.encMinor := rfl
@[simp] theorem State.count_encMajor (s : State) (t : Nat) (f : Counts → Counts) : (s.count t f).encMajor = s.encMajor := rfl
@[simp] theorem State.count_encTag (s : State) (t : Nat) (f : Counts → Counts) : (s.count t f).encTag = s.encTag := rfl
@[simp] theorem State.count_encTree (s : State) (t : Nat) (f : Counts → Counts) : (s.count t f).encTree = s.encTree := rfl
@[simp] theorem State.count_reenc (s : State) (t : Nat) (f : Counts → Counts) : (s.count t f).reenc = s.reenc := rfl
@[simp] theorem State.count_peerHome (s : State) (t : Nat) (f : Counts → Counts) : (s.count t f).peerHome = s.peerHome := rfl
@[simp] theorem State.count_peerCopy (s : State) (t : Nat) (f : Counts → Counts) : (s.count t f).peerCopy = s.peerCopy := rfl
@[simp] theorem State.count_posted (s : State) (t : Nat) (f : Counts → Counts) : (s.count t f).posted = s.posted := rfl
@[simp] theorem State.count_orphans (s : State) (t : Nat) (f : Counts → Counts) : (s.count t f).orphans = s.orphans := rfl
@[simp] theorem State.count_savedLoads (s : State) (t : Nat) (f : Counts → Counts) : (s.count t f).savedLoads = s.savedLoads := rfl
@[simp] theorem State.count_late (s : State) (t : Nat) (f : Counts → Counts) : (s.count t f).late = s.late := rfl
@[simp] theorem State.count_hostPoison (s : State) (t : Nat) (f : Counts → Counts) : (s.count t f).hostPoison = s.hostPoison := rfl
@[simp] theorem State.count_closing (s : State) (t : Nat) (f : Counts → Counts) : (s.count t f).closing = s.closing := rfl
@[simp] theorem State.count_maint (s : State) (t : Nat) (f : Counts → Counts) : (s.count t f).maint = s.maint := rfl
@[simp] theorem State.count_hostStores (s : State) (t : Nat) (f : Counts → Counts) : (s.count t f).hostStores = s.hostStores := rfl
@[simp] theorem State.count_hostPackets (s : State) (t : Nat) (f : Counts → Counts) : (s.count t f).hostPackets = s.hostPackets := rfl
@[simp] theorem State.count_hostReads (s : State) (t : Nat) (f : Counts → Counts) : (s.count t f).hostReads = s.hostReads := rfl
@[simp] theorem State.count_hostData (s : State) (t : Nat) (f : Counts → Counts) : (s.count t f).hostData = s.hostData := rfl
@[simp] theorem State.count_sram (s : State) (t : Nat) (f : Counts → Counts) : (s.count t f).sram = s.sram := rfl
@[simp] theorem State.count_tlb (s : State) (t : Nat) (f : Counts → Counts) : (s.count t f).tlb = s.tlb := rfl
@[simp] theorem State.count_ctxs (s : State) (t : Nat) (f : Counts → Counts) : (s.count t f).ctxs = s.ctxs := rfl
@[simp] theorem State.count_cores (s : State) (t : Nat) (f : Counts → Counts) : (s.count t f).cores = s.cores := rfl
@[simp] theorem State.count_clusters (s : State) (t : Nat) (f : Counts → Counts) : (s.count t f).clusters = s.clusters := rfl
@[simp] theorem State.count_net (s : State) (t : Nat) (f : Counts → Counts) : (s.count t f).net = s.net := rfl
@[simp] theorem State.count_twins (s : State) (t : Nat) (f : Counts → Counts) : (s.count t f).twins = s.twins := rfl
@[simp] theorem State.count_twinCtr (s : State) (t : Nat) (f : Counts → Counts) : (s.count t f).twinCtr = s.twinCtr := rfl
@[simp] theorem State.count_rounds (s : State) (t : Nat) (f : Counts → Counts) : (s.count t f).rounds = s.rounds := rfl
@[simp] theorem State.count_groupBars (s : State) (t : Nat) (f : Counts → Counts) : (s.count t f).groupBars = s.groupBars := rfl
@[simp] theorem State.count_coll (s : State) (t : Nat) (f : Counts → Counts) : (s.count t f).coll = s.coll := rfl
@[simp] theorem State.count_msu (s : State) (t : Nat) (f : Counts → Counts) : (s.count t f).msu = s.msu := rfl
@[simp] theorem State.count_jobOrder (s : State) (t : Nat) (f : Counts → Counts) : (s.count t f).jobOrder = s.jobOrder := rfl
@[simp] theorem State.count_snapSeq (s : State) (t : Nat) (f : Counts → Counts) : (s.count t f).snapSeq = s.snapSeq := rfl
@[simp] theorem State.count_boot (s : State) (t : Nat) (f : Counts → Counts) : (s.count t f).boot = s.boot := rfl
@[simp] theorem State.count_fabric (s : State) (t : Nat) (f : Counts → Counts) : (s.count t f).fabric = s.fabric := rfl

end Sys2Proof.Machine
end

