-- ==== Sys2Proof/Laws/Ops.lean ====
section
/-! SUPPORT. What each shared operation does, once: the checks before an instruction, result writes, completion, parking,
traps. Later proofs cite these lemmas and do not unfold the operations. -/

namespace Sys2Proof.Machine

/-! ## Frames -/

theorem OnlyMe.refl (s : State) : OnlyMe s s := ⟨rfl, fun _ _ => rfl⟩

theorem OnlyMe.cur {s t : State} (h : OnlyMe s t) : t.cur = s.cur := by rw [h.1]
theorem OnlyMe.cycle {s t : State} (h : OnlyMe s t) : t.cycle = s.cycle := by rw [h.1]
theorem OnlyMe.mem {s t : State} (h : OnlyMe s t) : t.mem = s.mem := by rw [h.1]
theorem OnlyMe.peerHome {s t : State} (h : OnlyMe s t) : t.peerHome = s.peerHome := by rw [h.1]

theorem OnlyMe.trans {s t u : State} (h : OnlyMe s t) (h' : OnlyMe t u) : OnlyMe s u :=
  ⟨by rw [h'.1, h.1], fun y hy => by rw [h'.2 y (h.cur ▸ hy), h.2 y hy]⟩

theorem OnlyMe.onMe (s : State) (f : Ctx → Ctx) : OnlyMe s (s.onMe f) := ⟨rfl, fun _ h => State.ctx_onMe_ne s f h⟩

/-- A state that differs in the step's own context only keeps the canonical form of memory. -/
theorem OnlyMe.memOk {s t : State} (h : OnlyMe s t) (hm : MemOk s) : MemOk t := by
  rw [MemOk, h.mem, h.peerHome]; exact hm

/-! ## Checks before the instruction (R44, R74, R83, R85, R263, R289) -/

theorem scoreboard_quiet {s : State} {uses : List RegRef} (h : Quiet s uses) (body : State → State) :
    scoreboard uses body s = body s := by
  unfold scoreboard
  split
  · rename_i r hr
    split at hr
    · rename_i hc
      have := List.find?_some hr
      simp [h hc r (List.mem_of_find?_eq_some hr)] at this
    · cases hr
  · rfl

/-- The scoreboard either lets the instruction execute or takes the stall-underrun trap of one of its registers. -/
theorem scoreboard_cases (uses : List RegRef) (body : State → State) (s : State) :
    scoreboard uses body s = body s ∨
      ∃ r ∈ uses, s.me.outstanding r = true ∧
        scoreboard uses body s = takeTrap { cause := 0x03, tval := BitVec.ofNat 64 r.code } s := by
  unfold scoreboard
  split
  · rename_i r hr
    split at hr
    · exact .inr ⟨r, List.mem_of_find?_eq_some hr, List.find?_some hr, rfl⟩
    · cases hr
  · exact .inl rfl

theorem supervisor_priv {s : State} (h : s.me.priv = true) (body : State → State) : supervisor body s = body s := by
  simp [supervisor, h]
theorem supervisor_user {s : State} (h : s.me.priv = false) (body : State → State) :
    supervisor body s = takeTrap { cause := 0x02 } s := by simp [supervisor, h]
theorem notAhead_off {s : State} (h : s.me.cp = none) (body : State → State) : notAhead body s = body s := by
  simp [notAhead, Ctx.specOn, h]
theorem notTwin_off {s : State} (h : s.me.twin = false) (body : State → State) : notTwin body s = body s := by
  simp [notTwin, h]

theorem vectors_claimed {s : State} {vs : List Nat} (h : Claimed s vs) (body : State → State) :
    vectors vs body s = body s := by
  unfold vectors
  have h1 : vs.find? (fun v => (fget s.me.v v).isNone) = none := by
    rw [List.find?_eq_none]; intro v hv; simp [Option.isNone_iff_eq_none, ← Option.isSome_iff_ne_none, (h v hv).1]
  have h2 : vs.find? s.me.reserved = none := by
    rw [List.find?_eq_none]; intro v hv; simp [(h v hv).2]
  rw [h1, h2]

theorem Quiet.mono {s : State} {us vs : List RegRef} (h : Quiet s vs) (hs : ∀ r ∈ us, r ∈ vs) : Quiet s us :=
  fun hc r hr => h hc r (hs r hr)

/-! ## Completion -/

theorem retire_onlyMe (n : Nat) (s : State) : OnlyMe s (retire n s) := OnlyMe.onMe s _
@[simp] theorem retire_me (n : Nat) (s : State) : (retire n s).me = s.me.gone s.cycle n := by simp [retire, Ctx.gone]

theorem writeResult_onlyMe (lat : Nat) (w : RegWrite) (s : State) : OnlyMe s (writeResult lat w s) := by
  unfold writeResult; split
  · exact OnlyMe.onMe s _
  · split
    · exact OnlyMe.refl s
    · exact OnlyMe.onMe s _

/-- A result of latency 8 or less is in its register at once. -/
theorem writeResult_short {lat : Nat} (h : lat ≤ 8) (w : RegWrite) (s : State) : (writeResult lat w s).me = s.me.land w := by
  simp [writeResult, h]

/-- A result of a longer latency is outstanding until its cycle; x0 takes none. -/
theorem writeResult_long {lat : Nat} (h : 8 < lat) (w : RegWrite) (s : State) :
    (writeResult lat w s).me =
      if w.ref = .x 0 then s.me else { s.me with pend := s.me.pend ++ [{ due := s.cycle + lat, write := w }] } := by
  unfold writeResult; rw [if_neg (by omega)]; split <;> simp

theorem finishX_onlyMe (d : XReg) (v : Word) (s : State) : OnlyMe s (finishX d v s) :=
  (OnlyMe.onMe s (·.setX d v)).trans (retire_onlyMe 0 _)
@[simp] theorem finishX_me (d : XReg) (v : Word) (s : State) : (finishX d v s).me = (s.me.setX d v).gone s.cycle 0 := by
  simp [finishX]

theorem finishStall_onlyMe (lat : Nat) (n : Fin 16) (w : RegWrite) (s : State) : OnlyMe s (finishStall lat n w s) :=
  (writeResult_onlyMe lat w s).trans (retire_onlyMe _ _)
theorem finishStall_me (lat : Nat) (n : Fin 16) (w : RegWrite) (s : State) :
    (finishStall lat n w s).me = (writeResult lat w s).me.gone s.cycle n.val := by
  simp [finishStall, (writeResult_onlyMe lat w s).cycle]

theorem jumpTo_onlyMe (a : Word) (s : State) : OnlyMe s (jumpTo a s) := OnlyMe.onMe s _
@[simp] theorem jumpTo_me (a : Word) (s : State) : (jumpTo a s).me = s.me.goneTo a s.cycle := by
  simp [jumpTo, Ctx.goneTo]

theorem parkOn_onlyMe (w : Wait) (s : State) : OnlyMe s (parkOn w s) := OnlyMe.onMe s _
@[simp] theorem parkOn_me (w : Wait) (s : State) : (parkOn w s).me = s.me.parkedOn w s.cycle := by
  simp [parkOn, Ctx.parkedOn]

theorem completePark_onlyMe (s : State) : OnlyMe s (completePark s) := OnlyMe.onMe s _
theorem completeX_onlyMe (d : Nat) (v : Word) (s : State) : OnlyMe s (completeX d v s) :=
  (OnlyMe.onMe s _).trans (completePark_onlyMe _)
theorem endHold_onlyMe (s : State) : OnlyMe s (endHold s) := OnlyMe.onMe s _
theorem reissue_onlyMe (s : State) : OnlyMe s (reissue s) := OnlyMe.onMe s _

/-! ## Traps (R94) -/

/-- Entering a handler changes the context of the step, its record in flight or held by its core, the counts of the tenants
and the free-value counter; no more. -/
theorem enterTrap_frame (t : TrapInfo) (defer : Bool) (s : State) :
    ∃ u : State, u = { s with net := u.net, tenants := u.tenants, cores := u.cores, free := u.free } ∧
      enterTrap t defer s = u.onMe (·.enter t defer s.cycle) := by
  refine ⟨_, ?_, rfl⟩
  by_cases h : t.cause = 0x0C
  · rw [if_pos h]; by_cases h2 : reportedCause t.cause = true
    · rw [if_pos h2]; rfl
    · rw [if_neg h2]; rfl
  · rw [if_neg h]; by_cases h2 : reportedCause t.cause = true
    · rw [if_pos h2]; rfl
    · rw [if_neg h2]

/-- What entering a handler does to the context. -/
@[simp] theorem enterTrap_me (t : TrapInfo) (defer : Bool) (s : State) :
    (enterTrap t defer s).me = s.me.enter t defer s.cycle := by
  obtain ⟨u, hu, he⟩ := enterTrap_frame t defer s
  rw [he, State.me_onMe, show u.me = s.me by rw [hu]; rfl]

@[simp] theorem enterTrap_mem (t : TrapInfo) (defer : Bool) (s : State) : (enterTrap t defer s).mem = s.mem := by
  obtain ⟨u, hu, he⟩ := enterTrap_frame t defer s; rw [he, hu]; rfl
@[simp] theorem enterTrap_peerHome (t : TrapInfo) (defer : Bool) (s : State) :
    (enterTrap t defer s).peerHome = s.peerHome := by
  obtain ⟨u, hu, he⟩ := enterTrap_frame t defer s; rw [he, hu]; rfl
@[simp] theorem enterTrap_cur (t : TrapInfo) (defer : Bool) (s : State) : (enterTrap t defer s).cur = s.cur := by
  obtain ⟨u, hu, he⟩ := enterTrap_frame t defer s; rw [he, hu]; rfl
@[simp] theorem enterTrap_cycle (t : TrapInfo) (defer : Bool) (s : State) : (enterTrap t defer s).cycle = s.cycle := by
  obtain ⟨u, hu, he⟩ := enterTrap_frame t defer s; rw [he, hu]; rfl

/-- A trap changes no other context. -/
theorem enterTrap_ctx_ne (t : TrapInfo) (defer : Bool) {s : State} {y : CtxId} (h : y ≠ s.cur) :
    (enterTrap t defer s).ctx y = s.ctx y := by
  obtain ⟨u, hu, he⟩ := enterTrap_frame t defer s
  have hc : u.cur = s.cur := by rw [hu]
  rw [he, State.ctx_onMe_ne _ _ (hc ▸ h)]; rw [hu]; rfl

theorem enterTrap_memOk (t : TrapInfo) (defer : Bool) {s : State} (h : MemOk s) : MemOk (enterTrap t defer s) := by
  simpa [MemOk] using h

/-- A trap is deferred while the context runs ahead, else taken (R263). -/
theorem takeTrap_memOk (t : TrapInfo) {s : State} (h : MemOk s) : MemOk (takeTrap t s) := by
  unfold takeTrap; split
  · exact (parkOn_onlyMe _ s).memOk h
  · exact enterTrap_memOk t false h

theorem takeTrap_off {s : State} (h : s.me.cp = none) (t : TrapInfo) : takeTrap t s = enterTrap t false s := by
  simp [takeTrap, Ctx.specOn, h]

/-! ## Tenants -/

/-- An entry that passes a test as the one it replaces does keeps the key of the first entry that passes. -/
theorem find_fput {α : Type} (p : Nat × α → Bool) (a : Nat) (v : α) : ∀ m : FMap α,
    (∀ w, fget m a = some w → p (a, v) = p (a, w)) → ((m.find? p).map Prod.fst = some a ∨ m.find? p = none ∧ p (a, v) = false) →
    ((fput m a v).find? p).map Prod.fst = (m.find? p).map Prod.fst
  | [], _, h => by
    rcases h with h | ⟨_, h⟩
    · simp at h
    · simp [fput, h]
  | (k, w) :: m, hw, h => by
    by_cases hk : k = a
    · subst hk
      have e : p (k, v) = p (k, w) := hw w (by simp [fget])
      cases hp : p (k, w) <;> simp [fput, e, hp]
    · have hg : fget ((k, w) :: m) a = fget m a := by simp [fget, hk]
      have hw' : ∀ u, fget m a = some u → p (a, v) = p (a, u) := fun u hu => hw u (hg.trans hu)
      by_cases hlt : k < a
      · cases hp : p (k, w)
        · have := find_fput p a v m hw' (by simpa [List.find?_cons, hp] using h)
          simpa [fput, hlt, List.find?_cons, hp] using this
        · simp [fput, hlt, hp]
      · have hf : fput ((k, w) :: m) a v = (a, v) :: (k, w) :: m := by simp [fput, hlt, hk]
        rw [hf, List.find?_cons]
        cases hv : p (a, v)
        · rfl
        · rcases h with h | ⟨_, h⟩
          · simp [h]
          · rw [hv] at h; cases h

/-- A change of a core's own tenant that keeps its rectangle leaves the core with that tenant. -/
theorem tenantOf_onTenant (s : State) (core : Nat) (f : Tenant → Tenant) (hf : ∀ t, (f t).hasCore core = t.hasCore core) :
    (s.onTenant (s.tenantOf core) f).tenantOf core = s.tenantOf core := by
  have key : ∀ m : FMap Tenant, ∀ a, (m.find? fun q => q.2.hasCore core) = none → ((fget m a).getD {}).hasCore core = false := by
    intro m a h
    cases hg : fget m a with
    | none => simp [Tenant.hasCore]
    | some t =>
      rw [List.find?_eq_none] at h
      have : ∀ m : FMap Tenant, fget m a = some t → (a, t) ∈ m := by
        intro m
        induction m with
        | nil => simp
        | cons q m ih =>
          obtain ⟨k, w⟩ := q
          by_cases e : k = a
          · subst e; simp [fget]; intro e; exact .inl e.symm
          · intro h'; exact List.mem_cons_of_mem _ (ih (by simpa [fget, e] using h'))
      simpa using h _ (this m hg)
  have main := find_fput (fun q : Nat × Tenant => q.2.hasCore core) (s.tenantOf core) (f (s.tenant (s.tenantOf core))) s.tenants
    (fun w hw => by simp [State.tenant, hw, hf]) (by
      unfold State.tenantOf
      cases h : s.tenants.find? fun q => q.2.hasCore core with
      | none => exact .inr ⟨rfl, by rw [hf]; exact key _ _ h⟩
      | some q => exact .inl rfl)
  have e : ∀ t : State, t.tenantOf core = ((t.tenants.find? fun q => q.2.hasCore core).map Prod.fst).getD 0 := by
    intro t; unfold State.tenantOf
    cases t.tenants.find? fun q => q.2.hasCore core <;> rfl
  exact (e _).trans ((congrArg (·.getD 0) main).trans (e s).symm)

end Sys2Proof.Machine
end

