-- ==== Sys2Proof/Laws/Memory.lean ====
section
/-! SUPPORT. What the shared operations of the memory forms do: checks, translations, reads and stores of the package's own
memory (Machine/Memory.lean, Machine/MemInstr.lean). -/

namespace Sys2Proof.Machine

/-! ## Frames that let the TLBs change -/

theorem OnlyMe.tlb {s t : State} (h : OnlyMe s t) : OnlyMeTlb s t := ⟨by rw [h.1], h.2⟩

theorem OnlyMeTlb.refl (s : State) : OnlyMeTlb s s := ⟨rfl, fun _ _ => rfl⟩
theorem OnlyMeTlb.cur {s t : State} (h : OnlyMeTlb s t) : t.cur = s.cur := by rw [h.1]
theorem OnlyMeTlb.cycle {s t : State} (h : OnlyMeTlb s t) : t.cycle = s.cycle := by rw [h.1]
theorem OnlyMeTlb.mem {s t : State} (h : OnlyMeTlb s t) : t.mem = s.mem := by rw [h.1]
theorem OnlyMeTlb.trans {s t u : State} (h : OnlyMeTlb s t) (h' : OnlyMeTlb t u) : OnlyMeTlb s u :=
  ⟨by rw [h'.1, h.1], fun y hy => by rw [h'.2 y (h.cur ▸ hy), h.2 y hy]⟩
theorem OnlyMeTlb.myTenant {s t : State} (h : OnlyMeTlb s t) : t.myTenant = s.myTenant := by rw [h.1]; rfl

/-- Noting a translation changes the TLBs and the free-value counter. -/
theorem noteTlb_eq (u t : Nat) (va : Word) (s : State) :
    noteTlb u t va s = { s with tlb := (noteTlb u t va s).tlb, free := (noteTlb u t va s).free } := by
  unfold noteTlb putTlb; dsimp only; split
  · rfl
  · split <;> rfl

theorem noteTlb_frame (u t : Nat) (va : Word) (s : State) : OnlyMeTlb s (noteTlb u t va s) :=
  ⟨by rw [noteTlb_eq], fun _ _ => by rw [noteTlb_eq]; rfl⟩
@[simp] theorem noteTlb_me (u t : Nat) (va : Word) (s : State) : (noteTlb u t va s).me = s.me := by rw [noteTlb_eq]; rfl
@[simp] theorem noteTlb_cycle (u t : Nat) (va : Word) (s : State) : (noteTlb u t va s).cycle = s.cycle := by rw [noteTlb_eq]
@[simp] theorem noteTlb_cur (u t : Nat) (va : Word) (s : State) : (noteTlb u t va s).cur = s.cur := by rw [noteTlb_eq]
@[simp] theorem noteTlb_sram (u t : Nat) (va : Word) (s : State) : (noteTlb u t va s).sram = s.sram := by rw [noteTlb_eq]

/-- Taking a turn at SRAM words changes the note of the cycle's turns. -/
theorem noteSram_eq (x : CtxId) (pa n : Nat) (s : State) :
    noteSram x pa n s = { s with sram := (noteSram x pa n s).sram } := by
  unfold noteSram; split <;> rfl

theorem noteSram_frame (x : CtxId) (pa n : Nat) (s : State) : OnlyMeTlb s (noteSram x pa n s) :=
  ⟨by rw [noteSram_eq], fun _ _ => by rw [noteSram_eq]; rfl⟩
@[simp] theorem noteSram_me (x : CtxId) (pa n : Nat) (s : State) : (noteSram x pa n s).me = s.me := by rw [noteSram_eq]; rfl
@[simp] theorem noteSram_mem (x : CtxId) (pa n : Nat) (s : State) : (noteSram x pa n s).mem = s.mem := by rw [noteSram_eq]

/-! ## Translation keeps the offset in the smallest page (R119) -/

theorem walkFrom_low (s : State) : ∀ (level table va pa : Nat) (e : Word),
    walkFrom s level table va = some (pa, e) → pa % 65536 = va % 65536 := by
  intro level
  induction level with
  | zero =>
    intro table va pa e h
    unfold walkFrom at h; dsimp only at h
    split at h; · cases h
    split at h
    · split at h
      · cases h; simp [pageBits]
      · cases h
    · cases h
  | succ l ih =>
    intro table va pa e h
    unfold walkFrom at h; dsimp only at h
    split at h; · cases h
    split at h
    · split at h
      · cases h
        have : va % 2 ^ pageBits (l + 1) % 65536 = va % 65536 := by
          unfold pageBits; split
          · omega
          · split <;> omega
        omega
      · cases h
    · split at h
      · exact ih _ _ _ _ h
      · cases h

theorem translate_low {s : State} {u t : Nat} {va : Word} {pa : Nat} {e : Word} (h : translateVa s u t va = some (pa, e)) :
    pa % 65536 = va.toNat % 65536 := by
  unfold translateVa at h
  split at h; · cases h
  dsimp only at h
  split at h
  · simp only [TlbEntry.gives, Option.some.injEq, Prod.mk.injEq] at h
    omega
  · unfold walk at h
    split at h; · cases h
    split at h
    · exact walkFrom_low s _ _ _ _ _ h
    · cases h

/-! ## Checks (R93, R112) -/

theorem classOf_range {s : State} {pa : Nat} (h : classOf s pa ≠ .none) : rangeOf pa = classOf s pa := by
  revert h; unfold classOf
  cases hr : rangeOf pa <;> dsimp only <;> repeat (first | split | simp)

/-- A passed check names the class of its address. -/
theorem checkAt_ok {s : State} {u t : Nat} {priv : Bool} {va : Word} {acc : Acc} {cause : Nat} {dev : Nat → Bool} {p : Phys}
    (h : checkAt s u t priv va acc cause dev = .ok p) :
    checkPage s u t priv va acc cause = .ok p ∧ p.cls = classOf s p.pa ∧ p.cls ≠ .none ∧ tenantOk s t p.pa = true := by
  unfold checkAt at h
  split at h
  · cases h
  · rename_i q hq
    split at h
    · cases h
    · rename_i hn
      split at h
      · cases h
      · rename_i ht
        cases h
        refine ⟨hq, ?_, fun e => hn (.inl e), by simpa using ht⟩
        unfold checkPage at hq; split at hq
        · cases hq
        · split at hq
          · cases hq
          · cases hq; rfl

theorem checkPage_low {s : State} {u t : Nat} {priv : Bool} {va : Word} {acc : Acc} {cause : Nat} {p : Phys}
    (h : checkPage s u t priv va acc cause = .ok p) : p.pa % 65536 = va.toNat % 65536 := by
  unfold checkPage at h; split at h
  · cases h
  · rename_i pa e ht
    split at h
    · cases h
    · cases h; exact translate_low ht

/-- A check that admits no device register passes whatever device registers are admitted. -/
theorem check_dev {s : State} {va : Word} {acc : Acc} {cause : Nat} {p : Phys} (h : check s va acc cause = .ok p)
    (dev : Nat → Bool) : check s va acc cause dev = .ok p := by
  unfold check checkAt at h ⊢
  split at h
  · cases h
  · rename_i q hq
    split at h
    · cases h
    · rename_i hn
      split at h
      · cases h
      · rename_i ht
        cases h
        rw [if_neg, if_neg ht]
        rintro (e | ⟨e, -⟩)
        · exact hn (.inl e)
        · exact hn (.inr ⟨e, rfl⟩)

theorem Local.range {s : State} {va : Word} {acc : Acc} {cause : Nat} {p : Phys} (h : Local s va acc cause p) :
    rangeOf p.pa = p.cls := by
  obtain ⟨-, hc, hn, -⟩ := checkAt_ok h.1
  rw [hc, classOf_range (hc ▸ hn)]

theorem Local.range_ne {s : State} {va : Word} {acc : Acc} {cause : Nat} {p : Phys} (h : Local s va acc cause p) :
    rangeOf p.pa ≠ .peer ∧ rangeOf p.pa ≠ .device := by
  rw [h.range]; rcases h.2 with e | e | e | e <;> simp [e]

theorem Local.low {s : State} {va : Word} {acc : Acc} {cause : Nat} {p : Phys} (h : Local s va acc cause p) :
    p.pa % 65536 = va.toNat % 65536 := checkPage_low (checkAt_ok h.1).1

/-- An access that moves no context goes on. -/
theorem touch_none {s : State} {p : Phys} (h : touchTarget s p = none) (body : State → State) : touch p body s = body s := by
  simp [touch, h]

/-! ## Reads of the package's own memory -/

theorem map_range_memRead (m : Memory) : ∀ (n a : Nat), (List.range n).map (fun i => memRead m (a + i)) = memReadList m a n
  | 0, _ => rfl
  | n + 1, a => by
    rw [List.range_succ_eq_map, List.map_cons, List.map_map, memReadList, ← map_range_memRead m n (a + 1)]
    simp [Function.comp_def, Nat.add_assoc, Nat.add_comm 1]

@[simp] theorem memReadList_length (m : Memory) : ∀ (n a : Nat), (memReadList m a n).length = n
  | 0, _ => rfl
  | n + 1, a => by simp [memReadList, memReadList_length m n]

theorem mem_blocks {pa n i : Nat} (h : i < n) : (pa + i) / 64 ∈ blocks pa n := by
  simp only [blocks, List.mem_map, List.mem_range]
  refine ⟨(pa + i) / 64 - pa / 64, ?_, ?_⟩ <;> omega

/-- A check of blocks that all verify changes nothing. -/
theorem checkTags_own {s : State} {t pa n : Nat} (h : ∀ b ∈ blocks pa n, tagFails s t b = false) : checkTags t pa n s = s := by
  unfold checkTags
  split
  · have : ∀ (l : List Nat), (∀ b ∈ l, tagFails s t b = false) →
        l.foldl (fun s b => if tagFails s t b then (s.setPoison (2 * b)).setPoison (2 * b + 1) else s) s = s := by
      intro l
      induction l with
      | nil => intro _; rfl
      | cons b l ih =>
        intro hl
        simp only [List.foldl_cons, hl b (by simp), Bool.false_eq_true, if_false]
        exact ih fun c hc => hl c (by simp [hc])
    exact this _ h
  · rfl

/-- A block that verifies for a tenant is under its key. -/
theorem otherKey_of_tagFails {s : State} {t b : Nat} (h : tagFails s t b = false) : otherKey s t (b * 64) = false := by
  unfold tagFails at h; simp only [Bool.or_eq_false_iff] at h; exact h.1.1

/-- A byte of the package under the tenant's own key is delivered as memory holds it. -/
theorem byteFor_own {s : State} {t pa : Nat} (hr : rangeOf pa ≠ .peer) (h : otherKey s t pa = false) :
    s.byteFor t pa = memRead s.mem pa := by
  simp [State.byteFor, h, State.byteAt, hr]

theorem otherKey_block (s : State) (t pa : Nat) : otherKey s t (pa / 64 * 64) = otherKey s t pa := by
  simp [otherKey]

theorem rangeOf_peer {pa : Nat} : rangeOf pa = .peer ↔ 0x8000000000000 ≤ pa ∧ pa < 0x10000000000000 := by
  unfold rangeOf
  split; · simp; omega
  split; · simp; omega
  split; · simp; omega
  split; · simp; omega
  split; · simp; omega
  split; · simp; omega
  split; · simp; omega
  split
  · simp; omega
  · simp; omega

theorem rangeOf_add {pa n i : Nat} (hp : rangeOf pa ≠ .peer) (ha : pa % 65536 + n ≤ 65536) (h : i < n) :
    rangeOf (pa + i) ≠ .peer := by
  rw [Ne, rangeOf_peer] at hp ⊢; omega

/-- Without a hot table no look-up is counted. -/
theorem countLookup_none {s : State} (h : s.msu.tables = []) (ps : List Piece) : countLookup ps s = s := by
  have ha : ∀ l p, addRows s l p = l := fun l p => by simp [addRows, hotTable, h]
  have hr : ∀ l, ps.foldl (addRows s) l = l := by
    induction ps with
    | nil => exact fun _ => rfl
    | cons p ps ih => exact fun l => by rw [List.foldl_cons, ha, ih]
  rw [countLookup, hr]; rfl

/-- A read that nothing hinders gives memory's own bytes and changes nothing. -/
theorem performRead_own {s : State} {x : CtxId} {pa n : Nat} (ha : pa % 65536 + n ≤ 65536)
    (hp : rangeOf pa ≠ .peer) (hk : Plain s (s.tenantOf (coreOf x)) pa n) (nc : Bool) :
    performRead x [] pa nc n s = (memReadList s.mem pa n, none, s) := by
  have hr : readOver s x [] pa n = memReadList s.mem pa n := by
    rw [← map_range_memRead]
    refine List.map_congr_left fun i hi => ?_
    rw [List.mem_range] at hi
    rw [byteFor_own (rangeOf_add hp ha hi)]
    · rfl
    · rw [← otherKey_block]; exact otherKey_of_tagFails (hk.1 _ (mem_blocks hi))
  have hc : (rangeOf pa = .peer) = False := by simp [hp]
  have hk2 := hk.2
  simp only [firstPoison] at hk2
  simp [performRead, readBytes, hp, checkTags_own hk.1, hr, hk2]

/-- The same for one piece of an access, which takes its turn at an SRAM word. -/
theorem readPieces_own {s : State} {va : Word} {pa n : Nat} (ha : pa % 65536 + n ≤ 65536)
    (hp : rangeOf pa ≠ .peer) (h : Unhindered s pa n) (nc : Bool) :
    readPieces s.cur [{ va := va, pa := pa, nc := nc, n := n }] s = (memReadList s.mem pa n, none, noteSram s.cur pa n s) := by
  obtain ⟨⟨-, hs⟩, -, hk, -⟩ := h
  have hk' : Plain (noteSram s.cur pa n s) ((noteSram s.cur pa n s).tenantOf (coreOf s.cur)) pa n := by
    rw [noteSram_eq]; exact hk
  have := performRead_own (s := noteSram s.cur pa n s) (x := s.cur) ha hp hk' nc
  rw [noteSram_mem] at this
  simp only [readPieces, readPiecesOver, hs, this, List.append_nil]

theorem loadBytes_own {s : State} {p : Piece} (ha : p.pa % 65536 + p.n ≤ 65536) (hp : rangeOf p.pa ≠ .peer)
    (hd : rangeOf p.pa ≠ .device) (h : Unhindered s p.pa p.n) :
    loadBytes s.cur p s = (memReadList s.mem p.pa p.n, none, noteSram s.cur p.pa p.n s) := by
  rw [loadBytes, if_neg hd, countLookup_none h.2.2.2.2.2.2.2.1]
  exact readPieces_own ha hp h p.nc

/-- In whose path the stores of the step wait depends on nothing that parking or translating changes. -/
theorem pathOf_move {s t : State} (hf : OnlyMeTlb s t) (hm : t.me.pair = s.me.pair ∧ t.me.inc = s.me.inc) :
    pathOf t t.cur = pathOf s s.cur := by
  have hc : t.ctx s.cur = t.me := by rw [State.me, hf.cur]
  have hx : s.ctx s.cur = s.me := rfl
  have htw : t.twins = s.twins := by rw [hf.1]
  have hr : ∀ tag, (t.resident tag).getD s.cur = (s.resident tag).getD s.cur := by
    intro tag
    unfold State.resident; dsimp only
    by_cases h : tag / 256 = s.cur
    · rw [h]; split <;> split <;> rfl
    · rw [hf.2 _ h]
  unfold pathOf
  rw [hf.cur, hc, hm.1, hx, htw]
  split
  · split
    · exact hr _
    · rfl
  · rfl

/-- A look-up waits only where any read does. -/
theorem lookupHeld_free {s : State} {l : LookUp} {pa n : Nat} (h : s.readHeld pa n = false) : s.lookupHeld l pa n = false := by
  unfold State.readHeld State.owned State.allJobs at h
  unfold State.lookupHeld
  simp only [ownedBy, Bool.or_eq_false_iff, List.any_append, List.any_map] at h ⊢
  refine ⟨⟨⟨h.1.1.1, ?_⟩, h.1.2⟩, h.2⟩
  rw [List.any_eq_false] at h ⊢
  · exact fun j hj => by
      have := h.1.1.2
      rw [List.any_eq_false] at this
      exact this j (List.mem_filter.1 hj).1

/-- No access waits for maintenance of other sectors. -/
theorem maintWaits_free {s : State} {pa n : Nat} (h : ∀ m ∈ s.maint, sameSector m.lo m.hi pa (pa + n - 1) = false) (x : CtxId)
    (k : Nat) : s.maintWaits x pa n k = false := by
  unfold State.maintWaits State.maintOf
  rw [List.any_eq_false]
  exact fun m hm => by simp [h m hm]

/-- What `Unhindered` says depends on nothing that parking or translating changes. -/
theorem Unhindered.move {s t : State} {pa n : Nat} (h : Unhindered s pa n) (hf : OnlyMeTlb s t) (hr : t.sram = s.sram)
    (hm : t.me.stores = s.me.stores ∧ t.me.spec = s.me.spec ∧ t.me.pair = s.me.pair ∧ t.me.inc = s.me.inc
      ∧ t.me.landing = s.me.landing) : Unhindered t pa n := by
  obtain ⟨⟨h1, h2⟩, h5, ⟨h3, h3'⟩, h4, h6, h7, h8, h9⟩ := h
  obtain ⟨m1, m3, m4, m5, m6⟩ := hm
  have hc : t.ctx s.cur = t.me := by rw [State.me, hf.cur]
  have hx : s.ctx s.cur = s.me := rfl
  have hp := pathOf_move hf ⟨m4, m5⟩
  have hy : ∀ y, (t.ctx y).stores = (s.ctx y).stores ∧ t.tagOf y = s.tagOf y := by
    intro y
    by_cases e : y = s.cur
    · subst e; exact ⟨by rw [hc, m1, hx], by rw [State.tagOf, hc, m5]; rfl⟩
    · exact ⟨by rw [hf.2 y e], by rw [State.tagOf, hf.2 y e]; rfl⟩
  have e2 : twinStores t t.cur = twinStores s s.cur := by
    have e : t.twins = s.twins := by rw [hf.1]
    simp only [twinStores, hf.cur, hc, hx, m4, e]
  have e3 : heldStores t t.cur = heldStores s s.cur := by
    have e : t.posted = s.posted := by rw [hf.1]
    unfold heldStores; dsimp only
    rw [e2, hp, (hy _).1, (hy _).2, e, hf.cur, hc, m3, hx]
  refine ⟨⟨?_, e3.trans h2⟩, ?_, ⟨?_, ?_⟩, ?_, ?_, ?_, ?_, ?_⟩
  · unfold State.storesDone at h1 ⊢; rw [e2, hp, (hy _).1, (hy _).1, hf.cur]; exact h1
  · unfold State.taggedAhead at h5 ⊢; rw [e3, hf.cur, hc, m6]; exact h5
  · intro b hb; rw [hf.myTenant, hf.1]; exact h3 b hb
  · rw [hf.1]; exact h3'
  · rw [hf.1]; exact h4
  · unfold State.outOfTurn at h6 ⊢; rw [hr, (hy _).2, hf.cur]; exact h6
  · rw [hf.1]; exact h7
  · rw [hf.1]; exact h8
  · rw [hf.1]; exact h9

theorem parked_onlyMe (u t : Nat) (va : Word) (w : Wait) (s : State) : OnlyMeTlb s (parkOn w (noteTlb u t va s)) :=
  (noteTlb_frame u t va s).trans (parkOn_onlyMe _ _).tlb

/-! ## Peer lines (R129) -/

/-- States that differ in peer bytes, their copies, poison, the fabric and the free values used only. -/
def PeerOnly (s t : State) : Prop := ∃ a b c d e, t = { s with peerCopy := a, peerHome := b, poison := c, fabric := d, free := e }

theorem PeerOnly.refl (s : State) : PeerOnly s s := ⟨_, _, _, _, _, rfl⟩
theorem PeerOnly.trans {s t u : State} (h : PeerOnly s t) (h' : PeerOnly t u) : PeerOnly s u := by
  obtain ⟨_, _, _, _, _, rfl⟩ := h; obtain ⟨_, _, _, _, _, rfl⟩ := h'; exact ⟨_, _, _, _, _, rfl⟩
theorem PeerOnly.foldl {α : Type} {f : State → α → State} (h : ∀ s a, PeerOnly s (f s a)) :
    ∀ (l : List α) (s : State), PeerOnly s (l.foldl f s)
  | [], s => PeerOnly.refl s
  | a :: l, s => (h s a).trans (PeerOnly.foldl h l (f s a))

/-- A message goes out on a port or is dropped. -/
theorem sendFab_frame (dest tenant : Nat) (p : FabPayload) (s : State) : PeerOnly s (sendFab dest tenant p s) := by
  unfold sendFab; split <;> exact ⟨_, _, _, _, _, rfl⟩

theorem askHome_frame (tenant pa : Nat) (p : FabPayload) (s : State) : PeerOnly s (askHome tenant pa p s) :=
  (sendFab_frame _ _ _ s).trans ⟨_, _, _, _, _, rfl⟩

theorem homePoison_frame (a n : Nat) (s : State) : PeerOnly s (homePoison a n s) := by
  refine PeerOnly.foldl (fun s g => ?_) _ _
  split
  · exact ⟨_, _, _, _, _, rfl⟩
  · split <;> exact ⟨_, _, _, _, _, rfl⟩

theorem writeBackRun_frame (s : State) (run : Nat × Nat × List Byte) : PeerOnly s (writeBackRun s run) := by
  unfold writeBackRun; dsimp only
  split
  · exact askHome_frame _ _ _ s
  · exact (askHome_frame _ _ _ s).trans (PeerOnly.trans ⟨_, _, _, _, _, rfl⟩ (homePoison_frame _ _ _))

/-- A write-back changes the peer bytes, their copies, poison, the fabric and the free values used. -/
theorem writeBackPeers_frame (sel : Nat → PeerByte → Bool) (s : State) : PeerOnly s (writeBackPeers sel s) :=
  PeerOnly.trans ⟨_, _, _, _, _, rfl⟩ (PeerOnly.foldl writeBackRun_frame _ _)

theorem dropPeers_frame (sel : Nat → PeerByte → Bool) (s : State) : ∃ a c,
    dropPeers sel s = { s with peerCopy := a, poison := c } := ⟨_, _, rfl⟩

theorem systemRelease_frame (t : Nat) (s : State) : PeerOnly s (systemRelease t s) := writeBackPeers_frame _ s

theorem systemAcquire_frame (t : Nat) (s : State) : PeerOnly s (systemAcquire t s) :=
  (writeBackPeers_frame _ s).trans ⟨_, _, _, _, _, rfl⟩

end Sys2Proof.Machine
end

