-- ==== Sys2Proof/Laws/Scalar.lean ====
section
/-! SUPPORT. What the shared shapes of the scalar forms do (Machine/Scalar.lean). -/

namespace Sys2Proof.Machine

/-- A form of latency 8 or less that no outstanding write stops has its result in xd at the next instruction. -/
theorem simple_next {s : State} {uses : List RegRef} {d : XReg} (f : Ctx → Word) (hq : Quiet s (uses ++ [xref d])) :
    simple uses d f s = .next (finishX d (f s.me) s) := by
  rw [simple, scoreboard_quiet hq]

theorem simple_becomes {i : Instr} {s : State} {uses : List RegRef} {d : XReg} {f : Ctx → Word}
    (hq : Quiet s (uses ++ [xref d])) (he : exec i s = simple uses d f s) :
    Becomes i s ((s.me.setX d (f s.me)).gone s.cycle 0) :=
  ⟨finishX d (f s.me) s, he.trans (simple_next f hq), finishX_onlyMe _ _ _, by simp⟩

theorem simple1_becomes {i : Instr} {s : State} {d a : XReg} {f : Word → Word} (hq : Quiet s [xref a, xref d])
    (he : exec i s = simple1 d a f s) : Becomes i s ((s.me.setX d (f (s.x a))).gone s.cycle 0) :=
  simple_becomes (f := fun c => f (c.xr a)) hq he

theorem simple2_becomes {i : Instr} {s : State} {d a b : XReg} {f : Word → Word → Word}
    (hq : Quiet s [xref a, xref b, xref d]) (he : exec i s = simple2 d a b f s) :
    Becomes i s ((s.me.setX d (f (s.x a) (s.x b))).gone s.cycle 0) :=
  simple_becomes (uses := [xref a, xref b]) (f := fun c => f (c.xr a) (c.xr b)) hq he

/-- The context in which a scalar result of a long latency is outstanding; x0 takes none. -/
theorem writeResult_x_long {lat : Nat} (h : 8 < lat) (d : XReg) (w : Word) (s : State) :
    (writeResult lat (.x d.val w) s).me =
      if d = 0 then s.me else s.me.owes (.x d.val w) (s.cycle + lat) := by
  rw [writeResult_long h]
  by_cases hd : d = 0
  · subst hd; rfl
  · have : d.val ≠ 0 := fun e => hd (Fin.ext e)
    simp [RegWrite.ref, Ctx.owes, hd, this]

theorem long2_becomes {i : Instr} {s : State} {lat : Nat} {n : Fin 16} {d a b : XReg} {f : Word → Word → Word}
    (hl : 8 < lat) (hq : Quiet s [xref a, xref b, xref d]) (he : exec i s = long2 lat n d a b f s) :
    Becomes i s (Ctx.gone (if d = 0 then s.me else s.me.owes (.x d.val (f (s.x a) (s.x b))) (s.cycle + lat))
      s.cycle n.val) := by
  refine ⟨finishStall lat n (.x d.val (f (s.x a) (s.x b))) s, ?_, finishStall_onlyMe _ _ _ _, ?_⟩
  · rw [he, long2, scoreboard_quiet hq]
  · rw [finishStall_me, writeResult_x_long hl]

end Sys2Proof.Machine
end

