-- ==== Sys2Proof/Tests/Slice0.lean ====
section
/-! SUPPORT. Tests: terms that are no instructions, words worked out in the spec, single steps with results from the spec's
rules, and for each statement a state that meets its hypotheses. -/

set_option Elab.async false

namespace Sys2Proof.Tests

open Sys2Proof Sys2Proof.Machine

/-! ## Terms that WellFormed refuses -/

theorem test_wf_addi : Instr.wf (.addi 1 2 (2 ^ 45)) = false ∧ Instr.wf (.addi 9 2 (2 ^ 35)) = false
    ∧ Instr.wf (.addi 9 2 (2 ^ 35 - 1)) = true := by decide

theorem test_wf_logic_immediates : Instr.wf (.andi 1 2 (2 ^ 43)) = false ∧ Instr.wf (.ori 1 2 (-2 ^ 43 - 1)) = false
    ∧ Instr.wf (.xori 8 2 (2 ^ 33)) = false ∧ Instr.wf (.slti 1 8 (2 ^ 33)) = false := by decide

theorem test_wf_upper_immediates : Instr.wf (.li 1 (2 ^ 48)) = false ∧ Instr.wf (.lih 8 (2 ^ 38)) = false
    ∧ Instr.wf (.lea 1 (2 ^ 48)) = false ∧ Instr.wf (.jal 1 (-2 ^ 48 - 1)) = false := by decide

theorem test_wf_branches : Instr.wf (.bc .eq 1 2 (2 ^ 42)) = false ∧ Instr.wf (.br .gt 8 (2 ^ 35)) = false
    ∧ Instr.wf (.j (2 ^ 51)) = false ∧ Instr.wf (.cbrAny true 1 (2 ^ 37)) = false := by decide

theorem test_wf_illegal_step : Instr.wf (.illegalInstruction 0 0) = false := by decide

theorem test_wf_memory : Instr.wf (.ld .d false .pk 1 2 (2 ^ 35)) = false ∧ Instr.wf (.ld .d true .pk 1 2 (2 ^ 25)) = false
    ∧ Instr.wf (.st .w true .sy 9 2 (2 ^ 15)) = false ∧ Instr.wf (.ldt .b 3 8 (2 ^ 22)) = false := by decide

theorem test_wf_vector_types : Instr.wf (.vadd 2 .e4m3 1 2 3) = false ∧ Instr.wf (.vcmp 2 .eq .e5m2 1 2 3) = false
    ∧ Instr.wf (.vhrnd 3 .e4m3 1 2) = false ∧ Instr.wf (.vsh 2 .f32 1 2 3) = false ∧ Instr.wf (.vrcp 4 .i8 1 2) = false
    ∧ Instr.wf (.vquant 3 .i8 1 2 3) = false ∧ Instr.wf (.vhad 5 .f16 1 2 3) = false ∧ Instr.wf (.vred .min .e4m3 1 2) = false
    ∧ Instr.wf (.vperm 2 .f32 (.direct 1) (.direct 2)) = false ∧ Instr.wf (.vidx 2 .f16 (.direct 1) 2) = false := by decide

theorem test_wf_vector_pairs : Instr.wf (.vcvt 2 .i32 .i32 .rne 1 2) = false ∧ Instr.wf (.vcvt 2 .i32 .f16 .rne 1 2) = false
    ∧ Instr.wf (.vwid 2 .f32 .f32 2 4) = false ∧ Instr.wf (.vwid 2 .f32 .bf16 3 4) = false
    ∧ Instr.wf (.vpack 2 .bf16 .f32 .rne 1 3) = false := by decide

theorem test_wf_vector_memory : Instr.wf (.vld .pk (.direct 1) 2 (2 ^ 29)) = false ∧ Instr.wf (.vst .sy (.direct 16) 2 (2 ^ 9)) = false
    ∧ Instr.wf (.vldx .pk .i4 (.direct 1) 2 (.direct 3)) = false ∧ Instr.wf (.vldt 16 (.direct 1) 2 (2 ^ 19)) = false := by decide

theorem test_wf_events : Instr.wf .go = false ∧ Instr.wf (.messageArrival 0) = false := by decide

/-! ## Encodings that the spec works out -/

/-- Encodings that the spec works out: page0a. -/
def words_page0a : List (Instr × List Nat) :=
  [(.add 3 1 2, [0x00CA]), (.add 20 1 9, [0xF610, 0x0109]), (.and 10 3 10, [0xF510, 0x049A]),
   (.sub 5 5 3, [0x036B]), (.or 7 7 10, [0xF410, 0x07FA]), (.xor 5 6 7, [0x0977]), (.max 5 6 7, [0x2577]),
   (.slt 5 6 7, [0x2977]), (.sltu 5 6 7, [0x2B77]), (.sel 5 6 7, [0x2D77]), (.mul 2 7 4 7, [0xF880, 0x11E7]),
   (.mulh 2 7 4 7, [0xF880, 0x13E7]), (.mulhu 2 7 4 7, [0xF880, 0x15E7]), (.div 5 5 6 7, [0xF940, 0x1777]),
   (.divu 5 5 6 7, [0xF940, 0x1977]), (.rem 5 5 6 7, [0xF940, 0x1B77]), (.remu 5 5 6 7, [0xF940, 0x1D77])]

theorem test_words_page0a : ∀ q ∈ words_page0a, decode q.2 = .ok q.1 q.2.length ∧ encode q.1 = q.2 ∧ q.1.wf = true := by
  decide

/-- Encodings that the spec works out: page0b. -/
def words_page0b : List (Instr × List Nat) :=
  [(.ctz 7 (.x 6), [0x33F0]), (.mov (.x 5) (.x 4), [0x3760]), (.mov (.k 2) (.x 5), [0xF408, 0x36A8]),
   (.mov (.k 1) (.k 3), [0xF40A, 0x3658]), (.sxt .w 5 6, [0x3972]), (.zxt .b 5 6, [0x3B70]),
   (.zxt .h 5 6, [0x3B71]), (.jr 6, [0x3C30]), (.jalr 1 6, [0x3E70]), (.addi 5 4 192, [0xFC03, 0x4B00]),
   (.addi 7 7 (-1), [0x4FFF]), (.andi 7 6 3, [0x53E3]), (.andi 7 6 15, [0xFC00, 0x53EF]),
   (.ori 5 5 1, [0x56D1]), (.xori 5 5 1, [0x5AD1]), (.xori 5 5 (-1), [0x5ADF]), (.slti 7 7 3, [0x5FF3])]

theorem test_words_page0b : ∀ q ∈ words_page0b, decode q.2 = .ok q.1 q.2.length ∧ encode q.1 = q.2 ∧ q.1.wf = true := by
  decide

/-- Encodings that the spec works out: page0c. -/
def words_page0c : List (Instr × List Nat) :=
  [(.li 5 8, [0x7A08]), (.li 10 1, [0xF500, 0x7401]), (.li 5 0x30000, [0xFD80, 0x7A00]), (.lea 6 3, [0x9C03]),
   (.bc .lt 2 5 (-20), [0xFFFD, 0xA4AC]), (.br .lt 6 13, [0xB58D]), (.j (-60), [0xCFC4]), (.jal 1 16, [0xD210]),
   (.nop, [0xE000]), (.brk 5, [0xE405])]

theorem test_words_page0c : ∀ q ∈ words_page0c, decode q.2 = .ok q.1 q.2.length ∧ encode q.1 = q.2 ∧ q.1.wf = true := by
  decide

/-- Encodings that the spec works out: page1. -/
def words_page1 : List (Instr × List Nat) :=
  [(.ld .d false .pk 5 4 0, [0xF083, 0x0B00]), (.ld .wu false .pk 7 2 28, [0xF086, 0x0E9C]),
   (.ld .d false .pk 7 7 64, [0xF083, 0xFC01, 0x0FC0]),
   (.ld .d true .sy 4 11 0, [0xF083, 0xF440, 0xF838, 0x08C0]),
   (.st .d false .pk 10 4 320, [0xF083, 0xF500, 0xFC05, 0x1500]),
   (.st .b false .pk 5 10 0, [0xF080, 0xF440, 0x1A80]),
   (.st .d true .pk 1 11 0, [0xF083, 0xF440, 0xF824, 0x12C0]), (.flrd 12, [0xF081, 0x30C0]),
   (.cwb .pk 10 11, [0xF082, 0x30AB]), (.cinv .sy 10 11, [0xF083, 0xF830, 0x30AB]),
   (.spfence, [0xF084, 0x3000]), (.ldt .d 5 3 8, [0xF083, 0xFC01, 0x5158]), (.ldt .wu 7 7 0, [0xF086, 0x51F8]),
   (.lsre 5, [0xF083, 0x6050]), (.lsinfo 5, [0xF085, 0x6500])]

theorem test_words_page1 : ∀ q ∈ words_page1, decode q.2 = .ok q.1 q.2.length ∧ encode q.1 = q.2 ∧ q.1.wf = true := by
  decide

/-- Encodings that the spec works out: page2a. -/
def words_page2a : List (Instr × List Nat) :=
  [(.vadd 2 .f32 0 0 1, [0xF108, 0xF880, 0x0001]), (.vsub 2 .bf16 4 5 6, [0xF119, 0xF880, 0x0456]),
   (.vmax 2 .i8 1 2 3, [0xF110, 0xF880, 0x3123]), (.vfma 3 .f32 40 3 200, [0xF168, 0xF480, 0xF8C0, 0x2838]),
   (.vand 2 1 2 3, [0xF100, 0xF880, 0x4123]), (.vor 2 1 2 3, [0xF101, 0xF880, 0x4123]),
   (.vxor 2 1 2 3, [0xF102, 0xF880, 0x4123]), (.vsh 2 .i16 1 2 3, [0xF102, 0xF880, 0x5123]),
   (.vcmp 2 .lt .f32 2 8 9, [0xF108, 0xF880, 0x6A89]), (.vsel 2 .f32 3 4 1, [0xF108, 0xF880, 0x7341]),
   (.vabs 2 .f32 1 2, [0xF108, 0xF880, 0x8120]), (.vneg 2 .f32 1 2, [0xF118, 0xF880, 0x8120])]

theorem test_words_page2a : ∀ q ∈ words_page2a, decode q.2 = .ok q.1 q.2.length ∧ encode q.1 = q.2 ∧ q.1.wf = true := by
  decide

/-- Encodings that the spec works out: page2b. -/
def words_page2b : List (Instr × List Nat) :=
  [(.vrcp 4 .f32 1 2, [0xF108, 0xF900, 0x9120]), (.vexp2 4 .bf16 4 5, [0xF109, 0xF900, 0x9452]),
   (.vcvt 2 .i32 .f32 .rtz 2 3, [0xF104, 0xF401, 0xF880, 0xA238]),
   (.vpack 2 .e4m3 .f32 .rne 1 4, [0xF11B, 0xF880, 0xB148]),
   (.vpack 2 .bf16 .f32 .rtz 1 4, [0xF119, 0xF401, 0xF880, 0xB148]),
   (.vhad 5 .bf16 2 2 3, [0xF119, 0xF940, 0xC223]), (.vhrnd 3 .f32 8 4, [0xF108, 0xF8C0, 0xD840]),
   (.vdot .f32 5 2 3, [0xF108, 0xE523]), (.vred .add .f32 5 2, [0xF118, 0xE520]),
   (.vred .max .i32 5 2, [0xF114, 0xE522])]

theorem test_words_page2b : ∀ q ∈ words_page2b, decode q.2 = .ok q.1 q.2.length ∧ encode q.1 = q.2 ∧ q.1.wf = true := by
  decide

/-- Encodings that the spec works out: page3. -/
def words_page3 : List (Instr × List Nat) :=
  [(.vld .pk (.direct 2) 4 64, [0xF180, 0xFC40, 0x0204]), (.vst .pk (.direct 2) 4 64, [0xF190, 0xFC40, 0x0204]),
   (.vld .sy (.direct 2) 4 64, [0xF180, 0xF830, 0xFC40, 0x0204]),
   (.vld .pk (.indirect 9) 4 0, [0xF1C0, 0x0904]), (.vldx .pk .f32 (.direct 3) 5 (.direct 4), [0xF188, 0x1345]),
   (.vstx .pk .f32 (.direct 3) 5 (.direct 4), [0xF198, 0x1345]),
   (.vldt 40 (.direct 17) 6 0, [0xF180, 0xF448, 0x2186]),
   (.vldtRow 3 (.direct 17) 6 0, [0xF190, 0xF440, 0x2136]),
   (.vperm 2 .u8 (.direct 6) (.direct 7), [0xF181, 0xF880, 0x3670]),
   (.vbcast 2 .f32 (.direct 0) 0, [0xF188, 0xF880, 0x4000]),
   (.vidx 2 .i32 (.direct 9) 0, [0xF184, 0xF880, 0x5900]),
   (.vmovsToVector 2 .f32 (.direct 1) 5 0, [0xF188, 0xF880, 0x6150]),
   (.vmovsToScalar 2 .f32 5 (.direct 0) 0, [0xF198, 0xF880, 0x6500]),
   (.vmovsToScalar 2 .i8 5 (.direct 0) 6, [0xF190, 0xF880, 0x6506]), (.vralloc (.direct 0) 7, [0xF180, 0x7007]),
   (.vrfree (.direct 0) 7, [0xF190, 0x7007])]

theorem test_words_page3 : ∀ q ∈ words_page3, decode q.2 = .ok q.1 q.2.length ∧ encode q.1 = q.2 ∧ q.1.wf = true := by
  decide

/-- Encodings that the spec works out: page4. -/
def words_page4 : List (Instr × List Nat) :=
  [(.spawn 5 6, [0xF200, 0x0056]), (.spawnTwin 5 6, [0xF201, 0x0056]), (.spawnd 5 6, [0xF202, 0x0056]),
   (.fork 5, [0xF203, 0x0050]), (.join 5, [0xF204, 0x0050]), (.park 5, [0xF206, 0x0050]),
   (.mig 5 6, [0xF207, 0x0560]), (.sendHi 0 7 1 3, [0xF204, 0x1713]), (.sendLo 0 7 1 3, [0xF200, 0x1713]),
   (.recv 0 7 1, [0xF200, 0x2710]), (.recvn 0 4 1, [0xF204, 0x2410]), (.cgjoin 6 5 3, [0xF200, 0x4653]),
   (.cgleave, [0xF201, 0x4000]), (.cbfence, [0xF202, 0x4000]), (.cbrAll false 20 8, [0xF201, 0xF600, 0x5408])]

theorem test_words_page4 : ∀ q ∈ words_page4, decode q.2 = .ok q.1 q.2.length ∧ encode q.1 = q.2 ∧ q.1.wf = true := by
  decide

/-- Encodings that the spec works out: page56. -/
def words_page56 : List (Instr × List Nat) :=
  [(.cjob 3 9 12 13, [0xF280, 0xF8C0, 0x19CD]), (.cstep 3 5 10 11, [0xF280, 0xF8C0, 0x25AB]),
   (.prd 3 5 10 11, [0xF280, 0xF8C0, 0x35AB]), (.prdsel 3 6 10, [0xF281, 0xF8C0, 0x36A0]),
   (.mrow 0 10 12, [0xF285, 0x00AC]), (.mmul 0 1 3, [0xF281, 0x0013]), (.mfree 3 0 3, [0xF284, 0xF8C0, 0x0030]),
   (.jwait 0 5, [0xF280, 0x5050]), (.jpoll 3 7 5, [0xF281, 0xF8C0, 0x5750]), (.mfc 5 .cycle, [0xF300, 0x0503]),
   (.mfc 20 .cycle, [0xF300, 0xF600, 0x0403]), (.mtc .rot 5, [0xF300, 0x1510]), (.eret, [0xF300, 0x2000]),
   (.snap, [0xF302, 0x2000]), (.tlbinv 5 6, [0xF303, 0x2056]), (.trap 1, [0xF300, 0x3001])]

theorem test_words_page56 : ∀ q ∈ words_page56, decode q.2 = .ok q.1 q.2.length ∧ encode q.1 = q.2 ∧ q.1.wf = true := by
  decide

/-- R84: reserved and malformed encodings name the parcel at which decoding fails. -/
theorem test_illegal_encodings : decode [0xF410, 0x4041] = .bad 0x4041 1 ∧ decode [0xF001, 0x0053] = .bad 0xF001 0
    ∧ decode [0xF380, 0x0050] = .bad 0xF380 0 ∧ decode [0xE800] = .bad 0xE800 0 ∧ decode [0xE001] = .bad 0xE001 0 := by
  decide

/-! ## Single steps -/

/-- A running module whose context in slot 0 of core 0 is at `nop`, with scalar registers set. -/
def ready (l : List (XReg × Word)) : State :=
  (placeWord 16 0xE000 State.reset).onMe fun c => l.foldl (fun c p => c.setX p.1 p.2) c

/-- What a reader finds in the state after a step. -/
def after {α : Type} (i : Instr) (s : State) (f : State → α) : Option α :=
  match exec i s with
  | .next t => some (f t)
  | _ => none

/-- The same after a step and an event. -/
def afterTwo {α : Type} (i e : Instr) (s : State) (f : State → α) : Option α :=
  match exec i s with
  | .next t => after e t f
  | _ => none

theorem test_add_wraps : after (.add 5 6 7) (ready [(6, -1), (7, 2)]) (·.x 5) = some 1 := by decide
theorem test_add_to_x0 : after (.add 0 6 7) (ready [(6, 3), (7, 2)]) (·.x 0) = some 0 := by decide
theorem test_sub_wraps : after (.sub 5 6 6) (ready [(6, 7)]) (·.x 5) = some 0 := by decide
theorem test_sra_sign : after (.sra 5 6 7) (ready [(6, 1 <<< 63), (7, 63)]) (·.x 5) = some (-1) := by decide
theorem test_srl_count_modulo_64 : after (.srl 5 6 7) (ready [(6, 8), (7, 65)]) (·.x 5) = some 4 := by decide
theorem test_max_signed : after (.max 5 6 7) (ready [(6, -1), (7, 1)]) (·.x 5) = some 1 := by decide
theorem test_maxu_unsigned : after (.maxu 5 6 7) (ready [(6, -1), (7, 1)]) (·.x 5) = some (-1) := by decide
theorem test_sel_zero : after (.sel 5 6 7) (ready [(6, 8), (7, 9)]) (·.x 5) = some 9 := by decide
theorem test_slti_signed : after (.slti 5 6 (-1)) (ready [(6, -2)]) (·.x 5) = some 1 := by decide
theorem test_lih_keeps_lower_half : after (.lih 5 3) (ready [(5, 0x1_0000_0002)]) (·.x 5) = some 0x3_0000_0002 := by decide
theorem test_ctz_zero : after (.ctz 7 (.x 6)) (ready []) (·.x 7) = some 64 := by decide
theorem test_clz_one : after (.clz 7 (.x 6)) (ready [(6, 1)]) (·.x 7) = some 63 := by decide
theorem test_sxt_w : after (.sxt .w 5 6) (ready [(6, 0x8000_0000)]) (·.x 5) = some 0xFFFF_FFFF_8000_0000 := by decide

/-- R43: the product is outstanding, its register still holds the old value. -/
theorem test_mul_outstanding : after (.mul 2 5 6 7) (ready [(5, 1), (6, 3), (7, 4)]) (fun t => (t.x 5, t.me.pend, t.me.hold))
    = some (1, [⟨12, .x 5 12⟩], 16) := by decide
theorem test_div_by_zero : after (.div 5 5 6 7) (ready [(6, 3)]) (·.me.pend) = some [⟨40, .x 5 (-1)⟩] := by decide
theorem test_rem_by_zero : after (.rem 5 5 6 7) (ready [(6, 3)]) (·.me.pend) = some [⟨40, .x 5 3⟩] := by decide
theorem test_div_wraps : after (.div 5 5 6 7) (ready [(6, 1 <<< 63), (7, -1)]) (·.me.pend) = some [⟨40, .x 5 (1 <<< 63)⟩] := by
  decide
theorem test_writeback : after (.resultWriteback 0) ((ready []).onMe fun c => c.owes (.x 5 7) 0) (fun t => (t.x 5, t.me.pend))
    = some (7, []) := by decide

theorem test_branch_taken : after (.bc .ltu 5 6 (-2)) (ready [(6, 1)]) (·.me.pc) = some 0xFFFC := by decide
theorem test_branch_not_taken : after (.br .gt 5 9) (ready []) (fun t => (t.me.pc, t.me.hold)) = some (0, 8) := by decide
theorem test_jalr_reads_before_writing : after (.jalr 5 5) (ready [(5, 0x40)]) (fun t => (t.x 5, t.me.pc)) = some (0, 0x40) := by
  decide
theorem test_jr_odd_traps : after (.jr 5) (ready [(5, 3)]) (fun t => (t.me.cr.cause, t.me.cr.tval, t.me.cr.epc))
    = some (4, 3, 0x10000) := by decide

/-- R94: `brk` saves the next address, enters supervisor level and keeps the level in PPRIV. -/
theorem test_brk : after (.brk 5) ((ready []).onMe fun c => { c with next := 0x10002 })
    (fun t => (t.me.cr.epc, t.me.cr.cause, t.me.cr.tval, t.me.priv, t.me.ppriv)) = some (0x10002, 0x30, 5, true, false) := by
  decide
theorem test_eret_user_traps : after .eret (ready []) (fun t => (t.me.cr.cause, t.me.priv)) = some (2, true) := by decide
theorem test_eret_returns : after .eret ((ready []).onMe fun c => { c with priv := true, cr := { c.cr with epc := 0x44 } })
    (fun t => (t.me.pc, t.me.priv)) = some (0x44, false) := by decide

/-- R344, R3: the bytes at 0x20000 are those of the table word 0x30001, little-endian. -/
theorem test_load : afterTwo (.ld .hu false .pk 5 6 0) (.plainLoadReturn 0) (ready [(6, 0x20000)]) (·.x 5) = some 1 := by decide
theorem test_load_misaligned : after (.ld .w false .pk 5 6 2) (ready [(6, 0x20000)]) (fun t => (t.me.cr.cause, t.me.cr.tval))
    = some (4, 0x20002) := by decide
theorem test_store_bytes : after (.st .h false .pk 5 6 0) (ready [(5, 0x1234_5678), (6, 0x100)])
    (fun t => (memRead t.mem 0x100, memRead t.mem 0x101, memRead t.mem 0x102)) = some (0x78, 0x56, 0) := by decide
theorem test_amo_swap : afterTwo (.amo .swap true false false .pk 5 7 6) (.plainLoadReturn 0)
    (ready [(6, 0x20000), (7, 9)]) (fun t => (t.x 5, memRead t.mem 0x20000)) = some (0x30001, 9) := by decide

theorem test_ldt_then_taken_none_settled : afterTwo (.ldt .d 5 6 0) (.taken 7 8) (ready [(6, 0x20000)]) (fun t => (t.x 7, t.x 8))
    = some (0, -2) := by decide
theorem test_take_nothing : after (.take 7 8) (ready [(7, 5)]) (fun t => (t.x 7, t.x 8)) = some (0, -1) := by decide
theorem test_lsinfo : afterTwo (.ldt .d 5 6 0) (.lsinfo 7) (ready [(6, 0x20000)]) (·.x 7) = some 0x20 := by decide

theorem test_vralloc_then_heavy : after (.vralloc (.direct 3) 7) (ready [(7, 2)]) (fun t => (t.me.v.map (·.1), t.me.heavy))
    = some ([3, 4], true) := by decide
theorem test_vralloc_zero_traps : after (.vralloc (.direct 3) 7) (ready [(7, 300)]) (fun t => (t.me.cr.cause, t.me.cr.tval)) = some (0x412, 3) := by
  decide

theorem test_recvn_empty : after (.recvn 0 5 6) (ready [(6, 0x100)]) (·.x 5) = some (-1) := by decide
theorem test_park_parks : after (.park 5) (ready [(5, 2)]) (·.me.slot) = some .parked := by decide
theorem test_join_zero : after (.join 5) (ready [(5, 0x100)]) (·.me.slot) = some .ready := by decide
theorem test_cbr_outside_group : after (.cbrAny false 5 4) (ready []) (·.me.cr.cause) = some 0x119 := by decide
theorem test_jwait_none : after (.jwait 5 6) (ready [(5, 9)]) (·.x 5) = some 0 := by decide
theorem test_mjob_type : after (.mjob 3 5 6 7) (ready [(6, 64)]) (·.me.cr.cause) = some 1 := by decide

theorem test_mfc_core : after (.mfc 5 .core) ((ready []).at 0x25) (·.x 5) = some 2 := by decide
theorem test_mtc_user_traps : after (.mtc .tvec 5) (ready []) (fun t => (t.me.cr.cause, t.me.cr.tval)) = some (2, 0x28) := by decide
theorem test_mtc_tvec_even : after (.mtc .tvec 5) ((ready [(5, 0x41)]).onMe fun c => { c with priv := true }) (·.me.cr.tvec)
    = some 0x40 := by decide
theorem test_halt : after .halt ((ready []).onMe fun c => { c with priv := true }) (fun t => (t.me.slot, t.me.pc))
    = some (.halted, 0) := by decide

/-- A step of the placed state fetches `nop` and goes on behind it. -/
theorem test_step_nop : (match step (ready []) with | .next t => some (t.ctx 0).pc | _ => none) = some 0x10002 := by decide
/-- A step of the placed state runs `add x3, x1, x2`. -/
theorem test_step_add : (match step ((placeWord 16 0x00CA State.reset).onMe fun c => (c.setX 1 4).setX 2 5) with
    | .next t => some ((t.ctx 0).xr 3) | _ => none) = some 9 := by decide

/-! ## Witnesses: states and operands that meet the hypotheses of the statements -/

/-- The context with its scoreboard on and no write outstanding. -/
def checked (l : List (XReg × Word)) : State := (ready l).onMe fun c => { c with cr := { c.cr with stl := 1 } }
/-- The context at supervisor level. -/
def supervisor (l : List (XReg × Word)) : State := (ready l).onMe fun c => { c with priv := true }
/-- The context with vector registers v0 to v7 claimed. -/
def heavy (l : List (XReg × Word)) : State :=
  (ready l).onMe fun c => { c with v := (List.range 8).map fun r => (r, 0) }
/-- The page at a virtual address, as an access to it in LPDDR6 finds it. -/
def plainPhys (pa : Nat) : Phys := { pa := pa, pte := 0x7D, cls := .lpddr }

theorem witness_ScalarRegisterFile : (31 : XReg) ≠ 0 ∧ (1 : XReg) ≠ 31 := by decide

theorem witness_scoreboard_on : (checked []).me.cr.stl.getLsbD 0 = true ∧ Quiet (checked []) [xref 0, xref 31, xref 7] := by
  unfold Quiet; decide

theorem witness_RegisterForms : Quiet (ready [(6, 1)]) [xref 6, xref 7, xref 5] := by unfold Quiet; decide

theorem witness_Subtract : (7 : XReg).val < 8 ∧ 8 ≤ (8 : XReg).val ∧ Quiet (checked []) [xref 8, xref 7, xref 31] := by
  unfold Quiet; decide

theorem witness_CountsMovesExtensions : Quiet (checked []) [xref 1, xref 2, kref 7, kref 0, xkRef (.k 3)] := by
  unfold Quiet; decide

theorem witness_LongForms_gaddr : let s := ready [(6, 15), (7, 0)]
    let t := s.onMe fun c => { c with cr := { c.cr with dist := BitVec.ofNat 64 (2815 * 2 ^ 52 + 3 * 2 ^ 30 + 4 * 2 ^ 25) } }
    Quiet t [xref 6, xref 7, xref 5] ∧ t.me.cp = none ∧ (2815 : Nat) < 2816 ∧ (4 : Nat) ≤ 15 ∧ (5 : XReg) ≠ 0
      ∧ (t.x 6).toNat % 2 ^ 32 < 2 ^ 4 ∧ ((t.x 7).toNat % 2 ^ 32 * 2 ^ 4 + (t.x 6).toNat % 2 ^ 32) * 8 + 8 ≤ 393216
      ∧ 2 ^ 4 ≤ ((ready [(6, 16)]).x 6).toNat % 2 ^ 32 := by
  unfold Quiet; decide

theorem witness_BranchesAndJumps : let s := ready [(5, 0x40), (6, -1)]
    (s.x 5).toNat % 2 = 0 ∧ (s.x 6).toInt < (s.x 5).toInt ∧ ¬ (s.x 6).toNat < (s.x 5).toNat
      ∧ Quiet s [xref 5, xref 6, xref 1] := by unfold Quiet; decide

theorem witness_TrapEntry : (255 : Nat) < 256 ∧ ({ cause := 0x31, tval := 9 } : TrapInfo).cause < 256 := by decide

theorem witness_TrapsAndReturn : (ready [(5, 3)]).me.cp = none ∧ ((ready [(5, 3)]).x 5).toNat % 2 = 1
    ∧ (supervisor []).me.priv = true ∧ (supervisor []).me.cp = none ∧ (ready []).me.priv = false
    ∧ Quiet (ready [(5, 3)]) [xref 5, xref 1] := by unfold Quiet; decide

theorem witness_StallUnderrun : let s := (checked []).onMe fun c => c.owes (.x 6 7) 99
    s.me.cp = none ∧ s.me.cr.stl.getLsbD 0 = true ∧ s.me.outstanding (.x (6 : XReg).val) = true := by decide

theorem witness_StallUnderrun_files : let s := (checked []).onMe fun c => (c.owes (.v 255 allBits 0) 99).owes (.k 7 0) 99
    s.me.outstanding (vref 255) = true ∧ s.me.outstanding (kref 7) = true ∧ s.me.outstanding (vref 7) = false := by decide

/-- Virtual addresses from 1 GiB on are mapped by a leaf of their own. -/
def mapped (leaf : Nat) (l : List (XReg × Word)) : State :=
  let s := ready l
  { s with mem := memWriteList s.mem (placeTable + 8) (natLe 8 leaf) }
/-- They are the scratchpad windows, full/empty. -/
def windows (l : List (XReg × Word)) : State := mapped 0xA000000047D l

/-- Each trap of an access: misaligned, not mapped, no W, no class, another tenant's scratchpad. -/
theorem witness_AccessTraps_misaligned : ((ready [(6, 3)]).x 6 + BitVec.ofInt 64 0).toNat % 2 ≠ 0 := by decide

theorem witness_AccessTraps_unmapped : let s := ready [(6, 0x4000_0000)]
    (s.x 6 + BitVec.ofInt 64 0).toNat % 8 = 0 ∧ myTranslate s (s.x 6 + BitVec.ofInt 64 0) = none := by decide

theorem witness_AccessTraps_mapped : let s := ready [(6, 0x4000)]
    (s.x 6).toNat % 8 = 0 ∧ myTranslate s (s.x 6) = some (0x4000, 0x7D) ∧ permits 0x7D s.me.priv .rw = true
      ∧ permits 0x6D s.me.priv .wr = false := by decide

theorem witness_AccessTraps_class : let s := mapped 0xE000000007D [(6, 0x4000_0000)]
    let u := { windows [(6, 0x4000_0000)] with tenants := [(0, { placeTenant with cx0 := 5 })] }
    myTranslate s (s.x 6) = some (0xE0000000000, 0xE000000007D) ∧ permits 0xE000000007D s.me.priv .rw = true
      ∧ classOf s 0xE0000000000 = .none ∧ myTranslate u (u.x 6) = some (0xA0000000000, 0xA000000047D)
      ∧ permits 0xA000000047D u.me.priv .rw = true ∧ classOf u 0xA0000000000 = .spad
      ∧ tenantOk u u.myTenant 0xA0000000000 = false := by decide +kernel

theorem witness_LoadCompletes : let s := ready [(6, 0x20000)]
    Quiet s [xref 6, xref 5] ∧ s.cur < 45056 ∧ (s.x 6 + BitVec.ofInt 64 8).toNat % 8 = 0
      ∧ Access s (s.x 6 + BitVec.ofInt 64 8) .rd 0x08 (plainPhys 0x20008)
      ∧ Unhindered s 0x20008 8 := by
  unfold Quiet Access Local Unhindered NoStores Calm Plain; decide +kernel

theorem witness_StoreWritesItsBytes : let s := ready [(6, 0x3F)]
    Quiet s [xref 5, xref 6] ∧ s.me.cp = none ∧ s.me.twin = false ∧ s.me.wait = none
      ∧ (s.x 6 + BitVec.ofInt 64 (-1)).toNat % 2 = 0
      ∧ Access s (s.x 6 + BitVec.ofInt 64 (-1)) .wr 0x09 (plainPhys 0x3E)
      ∧ Writable s 0x3E 2 ∧ s.mem.wf = true ∧ Released s true := by
  unfold Quiet Access Local Released Writable Unhindered NoStores Calm Plain; decide +kernel

theorem witness_AtomicCompletes : let s := ready [(6, 0x20000), (7, 9)]
    Quiet s [xref 6, xref 7, xref 5] ∧ s.me.cp = none ∧ s.me.twin = false ∧ s.cur < 45056 ∧ (s.x 6).toNat % 8 = 0
      ∧ Access s (s.x 6) .rw 0x09 (plainPhys 0x20000) ∧ ¬ ((plainPhys 0x20000).cls = .cxl ∧ pteNC (plainPhys 0x20000).pte = true)
      ∧ Writable s 0x20000 8 ∧ s.mem.wf = true ∧ Released s true := by
  unfold Quiet Access Local Released Writable Unhindered NoStores Calm Plain; decide +kernel

theorem witness_FencesAndMaintenance : let s := ready [(6, 0xFFFF), (7, 2)]
    s.me.cp = none ∧ Quiet s [xref 6, xref 7] ∧ 1 ≤ (s.x 7).toNat ∧ (s.x 7).toNat ≤ 0x100_0000
      ∧ pageStarts (s.x 6) (s.x 7).toNat = [0xFFFF, 0x10000]
      ∧ (Local s 0xFFFF .rd 0x08 (plainPhys 0xFFFF) ∧ Local s 0xFFFF .wr 0x09 (plainPhys 0xFFFF))
      ∧ (Local s 0x10000 .rd 0x08 (plainPhys 0x10000) ∧ Local s 0x10000 .wr 0x09 (plainPhys 0x10000))
      ∧ s.storesDone s.cur = true ∧ s.releaseWaits s.cur = false ∧ s.cur < 45056 := by
  unfold Quiet Local; decide +kernel

/-- A store that waits in the path, with a fence behind it and a load parked behind both. -/
theorem witness_FencesAndMaintenance_behind :
    let st : Store := { pa := 0x100, data := [1], seq := 0 }
    let f : Store := { pa := 0, data := [], seq := 1, fence := some true }
    let s := (ready []).onMe fun c => { c with stores := [st, f], seq := 2, slot := .parked, wait := some (.load .d false 5 ⟨0x20000, 0x20000, false, 8⟩) }
    s.storesDone s.cur = false ∧ f ∈ s.me.stores ∧ f.fence.isSome = true ∧ f.seq < s.me.seq ∧ s.cur < 45056
      ∧ s.me.wait = some (.load .d false 5 ⟨0x20000, 0x20000, false, 8⟩) := by decide +kernel

theorem witness_FencesAndMaintenance_lengths : (ready []).x 7 = 0 ∧ 0x100_0000 < ((ready [(7, 0x100_0001)]).x 7).toNat
    ∧ Scope.pk ≠ .sy := by decide +kernel

theorem witness_FullEmpty : ∀ full : Bool, let t := windows [(6, 0x4000_0008), (7, 9)]
    let s := { t with feFull := if full then [0xA0000000008 / 8] else [] }
    let p : Phys := { pa := 0xA0000000008, pte := 0xA000000047D, cls := .spad }
    Quiet s [xref 7, xref 6, xref 0] ∧ s.me.cp = none ∧ s.me.twin = false ∧ s.cur < 45056 ∧ (s.x 6).toNat % 8 = 0
      ∧ Access s (s.x 6) .rd 0x08 p ∧ Access s (s.x 6) .wr 0x09 p ∧ (p.cls = .spad ∨ p.cls = .window) ∧ pteFE p.pte = true
      ∧ Writable s p.pa 8 ∧ Released s true ∧ s.feWait = [] ∧ s.mem.wf = true ∧ s.feFull.contains (p.pa / 8) = full := by
  unfold Quiet Access Local Released Writable Unhindered NoStores Calm Plain; decide +kernel

theorem witness_TaggedLoads : let s := heavy [(6, 0x20000)]
    s.me.cp = none ∧ Quiet s (vargRefs (.direct 7) ++ [xref 6, vref 7]) ∧ fget s.me.landing 63 = none ∧ s.me.reserved 7 = false
      ∧ (fget s.me.v 7).isSome = true ∧ fget s.me.v 200 = none
      ∧ (0x20E00 : Nat) / 4096 = (0x20E00 + 511) / 4096 ∧ (0x20E40 : Nat) / 4096 ≠ (0x20E40 + 511) / 4096 ∧ 0x20E40 % 64 = 0 := by
  unfold Quiet; decide +kernel

/-- No page asks for a move; one that does is the scratchpad of another core. -/
theorem witness_TaggedLoads_moves : let s := ready [(6, 0x20000)]
    let t := mapped 0xA000000087D [(6, 0x4008_0000)]
    Stays s (s.x 6) ∧ t.me.landing = [] ∧ myTranslate t (t.x 6) = some (0xA0000080000, 0xA000000087D)
      ∧ permits 0xA000000087D t.me.priv .rd = true ∧ pteFE 0xA000000087D = false ∧ tenantOk t t.myTenant 0xA0000080000 = true
      ∧ touchTarget t ⟨0xA0000080000, 0xA000000087D, classOf t 0xA0000080000⟩ = some 1 := by
  refine ⟨fun pa leaf h => ?_, by decide +kernel⟩
  have h' : myTranslate (ready [(6, 0x20000)]) ((ready [(6, 0x20000)]).x 6) = some (0x20000, 0x7D) := by decide +kernel
  rw [h'] at h; cases h; decide +kernel

/-- The parts of a load of each kind are readable. -/
theorem witness_TaggedLoads_parts : let s := heavy [(6, 0x20000)]
    ∀ kind ∈ [LKind.scalar .d, .vector, .row], ∀ q ∈ tagParts kind (s.x 6), myTranslate s q.1 = some (q.1.toNat, 0x7D)
      ∧ permits 0x7D s.me.priv .rd = true ∧ classOf s q.1.toNat = .lpddr ∧ pteFE 0x7D = false
      ∧ tenantOk s s.myTenant q.1.toNat = true := by decide +kernel

/-- Each recorded cause and each trap of a tagged load: not mapped, no R, full/empty, another tenant's memory. -/
theorem witness_TaggedLoads_faults : let s := windows [(6, 0x4000_0000), (7, 0x8000_0000)]
    let u := { s with tenants := [(0, { placeTenant with cx0 := 5 })] }
    myTranslate s (s.x 7) = none ∧ permits 0x7B s.me.priv .rd = false
      ∧ myTranslate s (s.x 6) = some (0xA0000000000, 0xA000000047D) ∧ pteFE 0xA000000047D = true
      ∧ classOf s 0xA0000000000 = .spad ∧ myTranslate u (u.x 6) = some (0xA0000000000, 0xA000000047D)
      ∧ tenantOk u u.myTenant 0xA0000000000 = false := by decide +kernel

/-- The context with landing-set entries. -/
def landing (l : FMap LEntry) (regs : List (XReg × Word)) : State := (ready regs).onMe fun c => { c with landing := l }
def entry (st : LState) : LEntry := { st := st, kind := .scalar .d, addr := 0x20000, num := 0, value := 5 }

theorem witness_LandingManagement : let s := landing [(63, entry .faulted), (5, entry .inFlight)] [(6, 63), (7, 64), (8, 5)]
    s.me.cp = none ∧ Quiet s [xref 6, xref 5] ∧ (s.x 6).toNat = 63 ∧ fget s.me.landing 63 = some (entry .faulted)
      ∧ (entry .faulted).kind = .scalar .d ∧ 64 ≤ (s.x 7).toNat ∧ fget s.me.landing (s.x 8).toNat = some (entry .inFlight)
      ∧ myTranslate s (entry .faulted).addr = some (0x20000, 0x7D) := by unfold Quiet; decide +kernel

theorem witness_Takes_empty : let s := landing [] [(6, 64)]
    s.me.cp = none ∧ Quiet s [xref 5, xref 6] ∧ s.me.cr.lsmode = 0 ∧ s.me.landing = [] ∧ fget s.me.landing (s.x 6).toNat = none := by
  unfold Quiet; decide +kernel

theorem witness_Takes_inFlight : let s := landing [(0, entry .inFlight)] [(6, 0)]
    s.me.landing ≠ [] ∧ (∀ q ∈ s.me.landing, q.2.st = .inFlight) ∧ (s.x 6).toNat = 0
      ∧ fget s.me.landing 0 = some (entry .inFlight) := by decide +kernel

/-- Entries of an image come before all others, in their order there. -/
theorem witness_Takes_placed : let p : LEntry := { entry .landed with place := some 2, at_ := 9 }
    let q : LEntry := { entry .landed with place := some 3 }
    let s := landing [(3, entry .landed), (9, p), (11, q)] []
    (9, p) ∈ s.me.landing ∧ p.st = .landed ∧ p.place ≠ none ∧ ∀ e ∈ s.me.landing, e.2.st = .inFlight ∨ e = (9, p)
      ∨ e.2.place = none ∨ ∃ j ∈ e.2.place, 2 < j := by decide +kernel

theorem witness_Takes_landed : let s := { landing [(3, entry .landed), (9, entry .landed)] [(6, 9)] with cycle := 1 }
    (3, entry .landed) ∈ s.me.landing ∧ (entry .landed).at_ < s.cycle
      ∧ (∀ q ∈ s.me.landing, q.2.st = .inFlight ∨ q = (3, entry .landed) ∨ (entry .landed).at_ < q.2.at_
          ∨ ((entry .landed).at_ = q.2.at_ ∧ 3 < q.1))
      ∧ (s.x 6).toNat = 9 ∧ fget s.me.landing 9 = some (entry .landed) := by decide +kernel

/-- An entry whose return can come: with its data, and with a recorded cause. -/
def flying : LEntry := { entry .inFlight with ps := [⟨0x20000, 0x20000, false, 8⟩] }

theorem witness_LandingSettles_scalar : let s := landing [(9, flying)] []
    s.cur < 45056 ∧ fget s.me.landing (9 : Fin 64).val = some flying ∧ flying.st = .inFlight ∧ flying.got = none
      ∧ flying.due ≤ s.cycle ∧ flying.cause = 0 ∧ ({ flying with cause := 8 } : LEntry).cause ≠ 0
      ∧ NoStores s ∧ ∀ p ∈ flying.ps, rangeOf p.pa = .lpddr ∧ p.pa % 64 + p.n ≤ 64 ∧ p.pa % 32 + p.n ≤ 32 ∧ Calm s p.pa p.n := by
  unfold NoStores Calm Plain; decide +kernel

theorem witness_LandingSettles_poison : let t := landing [(9, flying)] []
    let s := { t with poison := [0x20000 / 32] }
    NoStores s ∧ (∀ b ∈ blocks 0x20000 8, tagFails s s.myTenant b = false) ∧ firstPoison s false 0x20000 8 ≠ none
      ∧ s.readHeld 0x20000 8 = false ∧ s.outOfTurn s.cur 0x20000 8 = false
      ∧ (∀ m ∈ s.maint, sameSector m.lo m.hi 0x20000 0x20007 = false) ∧ s.pausedAt 0x20000 8 = false ∧ s.msu.tables = [] := by unfold NoStores; decide +kernel

theorem witness_LandingSettles_port : let e := { flying with got := some 0, data := natLe 8 5 }
    let s := landing [(9, e)] []
    fget s.me.landing 9 = some e ∧ e.st = .inFlight ∧ e.got = some 0 ∧ portFree s (s.cur / 16) = true ∧ s.me.stores = []
      ∧ e.cause = 0 ∧ e.bad = none ∧ e.kind = .scalar .d ∧ ({ e with bad := some 32 } : LEntry).bad = some 32 := by decide +kernel

theorem witness_LandingSettles_vector :
    let ps := (List.range 8).map fun i => (⟨BitVec.ofNat 64 (0x20000 + 64 * i), 0x20000 + 64 * i, false, 64⟩ : Piece)
    let e : LEntry := { st := .inFlight, kind := .vector, addr := 0x20000, vreg := 7, num := 0, ps := ps }
    let s := (heavy []).onMe fun c => { c with landing := [(9, e)] }
    fget s.me.landing 9 = some e ∧ portFree s (s.cur / 16) = true ∧ (fget s.me.v e.vreg).isSome = true
      ∧ ∀ p ∈ e.ps, (rangeOf p.pa = .lpddr ∨ rangeOf p.pa = .spad) ∧ p.pa % 64 + p.n ≤ 64 ∧ Calm s p.pa p.n := by
  unfold Calm Plain; decide +kernel

theorem witness_WokenTakes : let t := landing [(9, entry .landed)] []
    let s := { t with cycle := 5 }.onMe fun c => { c with slot := .parked, wait := some (.takex 5 9 4) }
    let u := { t with cycle := 5 }.onMe fun c => { c with
      openHold := some (.logByte 5 6), cr := { c.cr with lsmode := 3 + 2 ^ 32, lslog := 0x10001 } }
    s.cur < 45056 ∧ fget s.me.landing 9 = some (entry .landed) ∧ s.me.slot = .parked ∧ (4 : Nat) < s.cycle
      ∧ (entry .landed).at_ ≤ s.cycle ∧ s.me.wait = some (.takex (5 : XReg).val 9 4)
      ∧ u.me.openHold = some (.logByte 5 6) ∧ bits u.me.cr.lsmode 0 2 = 3 ∧ bits u.me.cr.lsmode 32 32 ≠ 0
      ∧ (entry .landed).at_ < u.cycle ∧ check u u.me.cr.lslog .rd 0x08 = .ok (plainPhys 0x10001)
      ∧ Unhindered u 0x10001 1 ∧ memRead u.mem 0x10001 = 0xE0 := by
  unfold Unhindered NoStores Calm Plain; decide +kernel

/-! ### Vectors -/

theorem witness_vectors : let s := heavy [(7, 5)]
    s.me.cp = none ∧ Quiet s [xref 7, kref 1, vref 0, vref 1, vref 2, vref 7] ∧ Claimed s [0, 1, 2, 3, 4, 5, 6, 7]
      ∧ Ty.i4.isInt = true ∧ Ty.e5m2.isFloat = true ∧ Ty.f16.isArith = true ∧ Ty.bf16.isWide = true := by
  unfold Quiet Claimed; decide +kernel

theorem witness_Rounding : Ty.e4m3.isFloat = true ∧ (0x7E : Nat) < 2 ^ Ty.e4m3.width ∧ toX .e4m3 0x7E = .fin false 14 5 := by
  decide +kernel

/-- Between the two least values above 1 of FP32, of either sign, at, below and above the tie; above the largest E5M2 value,
whose upper neighbour is the infinity. -/
theorem witness_Rounding_between : ∀ neg : Bool, let r := 0x3F800001 + if neg then 2 ^ 31 else 0
    r + 1 < 2 ^ Ty.f32.width ∧ toX .f32 r = .fin neg 8388609 (-23) ∧ toX .f32 (r + 1) = .fin neg 8388610 (-23)
      ∧ (∀ n ∈ [4 * 8388609 + 1, 4 * 8388609 + 2, 4 * 8388609 + 3],
          8388609 * 2 ^ ((-23 : Int) - (-25)).toNat < n ∧ n < 8388610 * 2 ^ ((-23 : Int) - (-25)).toNat)
      ∧ toX .e5m2 ((2 ^ expBits .e5m2 - 1) * 2 ^ fracBits .e5m2 - 1) = .fin false 7 13
      ∧ (∀ n ∈ [29, 30, 31], 7 * 2 ^ ((13 : Int) - 11).toNat < n) := by decide +kernel

/-- A register with a NaN in one lane, and one without. -/
theorem witness_VectorReductions : let s := (heavy []).onMe fun c => { c with v := fput c.v 1 (BitVec.ofNat 4096 0x7FC00000) }
    let x := fun (v k : Nat) => toX .f32 (elemNat 32 (s.me.vr v) k)
    (∃ k ∈ List.range (4096 / 32), x 1 k = .nan) ∧ (∀ k ∈ List.range (4096 / 32), x 2 k ≠ .nan) ∧ Ty.f32.isArith = true := by
  decide +kernel

theorem witness_VectorConversions : Ty.f32.width = 4 * Ty.e4m3.width ∧ Ty.bf16.width = 2 * Ty.u8.width ∧ (4 : VReg).val % 4 = 0
    ∧ Ty.i32 ≠ .f32 ∧ Ty.i32.width = Ty.f32.width
    ∧ Quiet (heavy []) (([4, 5, 6, 7, 0] : List Nat).map vref) ∧ Claimed (heavy []) [4, 5, 6, 7, 0] := by
  unfold Quiet Claimed; decide +kernel

theorem witness_VectorQuant : let s := (heavy [(7, 2 ^ 35 - 1)]).onMe fun c => { c with cr := { c.cr with fmt := 0xB09 } }
    bits s.me.cr.fmt 0 4 = Ty.bf16.code ∧ bits s.me.cr.fmt 8 4 = Ty.e4m3.code ∧ Ty.bf16.isWide = true
      ∧ (s.x 7).toNat < 2 ^ 35 ∧ (s.x 7).getLsbD 34 = true := by decide +kernel

theorem witness_VectorMoves : let s := heavy [(7, 127), (6, 128)]
    Quiet s (vargRefs (.direct 1) ++ vargRefs (.indirect 5) ++ [xref 6, xref 7, vref 1, vref 0]) ∧ Claimed s [1, 0]
      ∧ s.me.vnum (.indirect 5) = 0 ∧ (s.x 7).toNat < 4096 / Ty.f32.width ∧ 4096 / Ty.f32.width ≤ (s.x 6).toNat := by
  unfold Quiet Claimed; decide +kernel

theorem witness_VectorAllocation : let s := heavy [(7, 248)]
    s.me.cp = none ∧ (s.x 7).toNat = 248 ∧ s.me.vnum (.direct 8) + 248 ≤ 256 ∧ poolFree s (s.cur / 16) = 248
      ∧ (∀ r ∈ (List.range 248).map (8 + ·), fget s.me.v r = none) ∧ fget s.me.v 8 = none ∧ (fget s.me.v 7).isSome = true
      ∧ Quiet s (vargRefs (.direct 8) ++ [xref 7] ++ ((List.range 248).map (8 + ·)).map vref)
      ∧ Claimed s ((List.range 8).map (0 + ·)) ∧ ∀ r ∈ (List.range 8).map (0 + ·), s.me.outstanding (.v r) = false := by
  unfold Quiet Claimed; decide +kernel

theorem witness_VectorMemory : let s := heavy [(6, 0x20000)]
    s.me.cp = none ∧ s.me.twin = false ∧ s.me.wait = none ∧ s.cur < 45056
      ∧ Quiet s (vargRefs (.direct 1) ++ vargRefs (.direct 2) ++ [xref 6, vref 1, vref 2]) ∧ Claimed s [1, 2]
      ∧ (s.x 6 + BitVec.ofInt 64 64).toNat % 64 = 0
      ∧ (∀ k, k < 8 → check s (s.x 6 + BitVec.ofInt 64 64 + BitVec.ofNat 64 (64 * k)) .rd 0x08 = .ok ⟨0x20040 + 64 * k, 0x7D, .lpddr⟩
        ∧ Unhindered s (0x20040 + 64 * k) 64)
      ∧ Ty.f32.width ≠ 4 ∧ (s.x 6).toNat % (Ty.f32.width / 8) = 0 := by
  unfold Quiet Claimed Unhindered NoStores Calm Plain; decide +kernel

theorem witness_VectorMemory_indexed : let t := heavy [(6, 0x20000)]
    let s := { t with boot := { t.boot with enabled := 0 } }
    s.feature 3 = false ∧ Writable s 0x20000 4 ∧ ∀ k, k < 4096 / Ty.f32.width →
      check s (s.x 6 + BitVec.ofNat 64 (elemNat Ty.f32.width (s.me.vr 2) k * (Ty.f32.width / 8))) .wr 0x09
        = .ok ⟨0x20000, 0x7D, .lpddr⟩ := by
  unfold Writable Unhindered NoStores Calm Plain; decide +kernel

/-- With ENCMETA: no block has been written, and the eight parts of a `vst` count at most eight writes of one. -/
theorem witness_VectorMemory_counters : (heavy []).feature 3 = true ∧ ∀ (pa : Nat → Nat) (b : Nat),
    (fget (heavy []).encMinor b).getD 0 + (List.range 8).countP (fun k => pa k / 64 = b) ≤ 127 := by
  refine ⟨by decide +kernel, fun pa b => ?_⟩
  have h : (fget (heavy []).encMinor b).getD 0 = 0 := rfl
  have := List.countP_le_length (p := fun k => decide (pa k / 64 = b)) (l := List.range 8)
  simp only [List.length_range] at this
  omega

/-- The page of 512 bytes is device registers, or the scratchpad of a core that is another tenant's. -/
theorem witness_VectorMemory_page : let s := mapped 0xA010000007D [(6, 0x4000_0000)]
    let u := { windows [(6, 0x4000_0000)] with tenants := [(0, { placeTenant with cx0 := 5 })] }
    (s.x 6).toNat % 64 = 0 ∧ (s.x 6).toNat % 65536 + 512 ≤ 65536
      ∧ (∀ k, k < 8 → myTranslate s (s.x 6 + BitVec.ofNat 64 (64 * k)) = some (0xA0100000000 + 64 * k, 0xA010000007D))
      ∧ permits 0xA010000007D s.me.priv .rd = true ∧ classOf s 0xA0100000000 = .device
      ∧ (∀ k, k < 8 → myTranslate u (u.x 6 + BitVec.ofNat 64 (64 * k)) = some (0xA0000000000 + 64 * k, 0xA000000047D)
        ∧ classOf u (0xA0000000000 + 64 * k) = .spad)
      ∧ permits 0xA000000047D u.me.priv .rd = true ∧ tenantOk u u.myTenant 0xA0000000000 = false := by decide +kernel

/-! ### Tasks, messages, barriers, groups -/

/-- A packet with URG set at 0x40. -/
def packetAt (s : State) : State := { s with mem := memWriteList s.mem 0x7C (natLe 4 1) }
/-- A second ready context, in slot `x % 16` of core `x / 16`. -/
def withCtx (x : CtxId) (c : Ctx) (s : State) : State := s.setCtx x c
/-- The state with the context of the step parked on `w`. -/
def parkedOn (w : Wait) (s : State) : State := s.onMe fun c => { c with slot := .parked, wait := some w }

theorem witness_SpawningForms : let s := packetAt (ready [(5, 2815), (6, 0x40)])
    Quiet s [xref 5, xref 6] ∧ s.me.cp = none ∧ s.me.twin = false ∧ s.cur < 45056
      ∧ Local s (s.x 6) .rd 0x08 (plainPhys 0x40) ∧ (s.x 6).toNat % 64 = 0 ∧ Unhindered s 0x40 64
      ∧ leNat (((memReadList s.mem 0x40 64).drop 60).take 4) = 1 ∧ (s.x 5).toNat % 4096 = 2815
      ∧ s.inMesh s.myTenant 2815 = true ∧ s.inMesh s.myTenant (2815 ^^^ 4) = true ∧ 2815 ^^^ 4 < 2816
      ∧ (s.core (s.cur / 16)).urgent.length + (s.core (s.cur / 16)).normal.length < 64
      ∧ ((ready [(5, 2816)]).x 5).toNat % 4096 = 2816 := by
  unfold Quiet Local Unhindered NoStores Calm Plain; decide +kernel

theorem witness_SpawningForms_twin : let t := ready []
    let s := { t with tenants := [(0, { placeTenant with twin := 1 })] }
    (s.tenant s.myTenant).twin.getLsbD 0 = true := by decide +kernel

theorem witness_SpawningForms_owner : let s := windows [(5, 0x4008_0000)]
    myTranslate s (s.x 5) = some (0xA0000080000, 0xA000000047D) ∧ ownerOf s 0xA0000080000 = some 1
      ∧ s.inMesh s.myTenant 1 = true := by decide +kernel

theorem witness_SpawningForms_outside : let t := windows [(5, 0x4400_0000)]
    let s := { t with tenants := [(0, { placeTenant with cw := 1 })] }
    myTranslate s (s.x 5) = some (0xA0004000000, 0xA000000047D) ∧ ownerOf s 0xA0004000000 = some 128
      ∧ s.inMesh s.myTenant 128 = true ∧ s.inMesh s.myTenant 4 = false := by decide +kernel

theorem witness_JoinAndQuit_join : let s := ready [(5, 0x100), (6, 0x20000)]
    Quiet s [xref 5] ∧ s.me.cp = none ∧ s.me.twin = false ∧ (s.x 5).toNat % 8 = 0 ∧ (s.x 6).toNat % 8 = 0
      ∧ checkPage s s.myTlb s.myTenant s.me.priv (s.x 5) .rd 0x08 = .ok (plainPhys 0x100)
      ∧ checkPage s s.myTlb s.myTenant s.me.priv (s.x 6) .rd 0x08 = .ok (plainPhys 0x20000)
      ∧ tenantOk s s.myTenant 0x100 = true ∧ tenantOk s s.myTenant 0x20000 = true ∧ Unhindered s 0x100 8
      ∧ Unhindered s 0x20000 8 ∧ leNat (memReadList s.mem 0x100 8) = 0 ∧ leNat (memReadList s.mem 0x20000 8) ≠ 0 := by
  unfold Quiet Unhindered NoStores Calm Plain; decide +kernel

theorem witness_JoinAndQuit_quit : let s := (ready []).onMe fun c => { c with join := 0x100 }
    s.me.cp = none ∧ s.me.twin = false ∧ s.storesDone s.cur = true ∧ jobsDone s s.cur = true ∧ s.me.cg.pend = false ∧ s.cur < 45056
      ∧ (ready []).me.join = 0 ∧ s.me.join ≠ 0 ∧ s.me.join.toNat % 8 = 0
      ∧ checkPage s s.myTlb s.myTenant s.me.priv s.me.join .wr 0x09 = .ok (plainPhys 0x100) ∧ tenantOk s s.myTenant 0x100 = true
      ∧ Writable s 0x100 8 ∧ s.mem.wf = true := by unfold Writable Unhindered NoStores Calm Plain; decide +kernel

theorem witness_JoinAndQuit_gone : let s := parkedOn (.quitGone 0) (ready [])
    s.me.slot = .parked ∧ s.me.wait = some (.quitGone 0) ∧ 0 ≤ s.cycle ∧ s.me.blocked = [] := by decide +kernel

def message (from_ to_ : CtxId) : Msg := { sender := from_ * 256 + 1, dest := to_ * 256 + 1, ch := 3, hi := true, data := [7] }

theorem witness_Park : let s := (ready [(5, 8)]).onMe fun c => { c with mailbox := [(7, [message 1 0])] }
    Quiet s [xref 5] ∧ s.me.cp = none ∧ (s.x 5).getLsbD 3 = true ∧ s.me.box (2 * 3 + 1) ≠ []
      ∧ (∀ n, n < 4 → ((ready [(5, 16)]).x 5).getLsbD n = false) ∧ ((ready [(5, 8)]).x 5).getLsbD 3 = true
      ∧ ∀ n, n < 8 → (ready [(5, 8)]).me.box n = [] := by unfold Quiet; decide +kernel

theorem witness_Park_wakes : let t := withCtx 1 { slot := .parked, inc := 1 } (parkedOn (.watch 8) (ready []))
    let s := { t with net := { t.net with msgs := [message 1 0] } }
    s.me.slot = .parked ∧ s.me.wait = some (.watch 8) ∧ s.net.msgs[0]? = some (message 1 0) ∧ (message 1 0).at_ ≤ s.cycle
      ∧ (∀ q ∈ s.net.msgs, q.granted = false) ∧ (message 1 0).ch < 4 ∧ s.resident (message 1 0).dest = some s.cur
      ∧ s.resident (message 1 0).sender = some 1 ∧ 1 ≠ s.cur ∧ s.me.box 7 = [] ∧ Nat.testBit 8 3 = true ∧ Nat.testBit 7 3 = false
      ∧ s.me.inbox = [] ∧ ∀ n, n < 8 → s.me.box n = [] := by decide +kernel

theorem witness_Migration : let s := windows [(6, 0x4008_0000), (7, 0x4000_0000)]
    Quiet s [xref 6, xref 5] ∧ s.me.cp = none ∧ s.me.twin = false ∧ s.cur < 45056 ∧ (heavy []).me.v ≠ [] ∧ s.me.v = []
      ∧ myTranslate s (s.x 6) = some (0xA0000080000, 0xA000000047D) ∧ ownerOf s 0xA0000080000 = some 1
      ∧ myTranslate s (s.x 7) = some (0xA0000000000, 0xA000000047D) ∧ ownerOf s 0xA0000000000 = some 0
      ∧ s.inMesh s.myTenant 1 = true ∧ s.inMesh s.myTenant 0 = true ∧ 1 ≠ s.cur / 16 := by unfold Quiet; decide +kernel

theorem witness_Migration_move : let s := parkedOn (.mig (some 5) 1) (ready [])
    let full := (List.range 16).foldl (fun s i => withCtx (16 + i) { slot := .ready } s) s
    s.me.wait = some (.mig (some (5 : XReg).val) 1) ∧ s.me.slot = .parked ∧ s.me.stores = [] ∧ s.me.pend = [] ∧ s.me.replies = []
      ∧ emptySlot full 1 = none ∧ full.me = s.me ∧ s.me.movable = true ∧ commandWaits s s.cur = false ∧ emptySlot s 1 = some 0 ∧ s.me.blocked = [] := by
  decide +kernel

theorem witness_SendAndArrival : let s := ready [(5, 0x1001), (6, 0x20000), (7, 64)]
    Quiet s [xref 5, xref 6, xref 7] ∧ s.me.cp = none ∧ s.me.twin = false ∧ s.me.held = none ∧ s.cur < 45056
      ∧ (s.x 6).toNat % 8 = 0 ∧ 1 ≤ (s.x 7).toNat ∧ (s.x 7).toNat ≤ 64 ∧ (s.x 6).toNat % 65536 + (s.x 7).toNat ≤ 65536
      ∧ checkRange s (s.x 6) (s.x 7).toNat .rd 0x08 = none ∧ myTranslate s (s.x 6) = some (0x20000, 0x7D)
      ∧ rangeOf 0x20000 ≠ .peer ∧ Unhindered s 0x20000 64 ∧ (s.x 5).toNat % 2 ^ 24 / 4096 < 2816
      ∧ s.inMesh s.myTenant ((s.x 5).toNat % 2 ^ 24 / 4096) = true ∧ (s.core (s.cur / 16)).tagCache = []
      ∧ 2816 ≤ ((ready [(5, 2816 * 4096)]).x 5).toNat % 2 ^ 24 / 4096 ∧ 64 < ((ready [(7, 65)]).x 7).toNat
      ∧ ((ready []).x 7).toNat = 0 := by unfold Quiet Unhindered NoStores Calm Plain; decide +kernel

theorem witness_MessageArrives : ∀ full : Bool, let t := withCtx 1 { slot := .parked, inc := 1 } (ready [])
    let s := { t.onMe fun c => { c with mailbox := [(7, List.replicate (if full then 4 else 3) (message 2 0))] } with
      net := { t.net with msgs := [message 1 0] } }
    let m := message 1 0
    s.net.msgs[0]? = some m ∧ m.at_ ≤ s.cycle ∧ (∀ q ∈ s.net.msgs, q.granted = false) ∧ m.done = false ∧ m.via = []
      ∧ m.reserve = false ∧ s.resident m.dest = some 0 ∧ (s.ctx 0).slot = .ready ∧ s.resident m.sender = some 1 ∧ 1 ≠ 0
      ∧ (s.ctx 1).slot = .parked ∧ m.sender / 256 = 1 ∧ m.dest / 256 = 0 ∧ (∀ q ∈ (s.ctx 0).box 7, q.reserve = false)
      ∧ (s.ctx 0).inbox = [] ∧ ((s.ctx 0).box 7).length = if full then 4 else 3 := by decide +kernel

theorem witness_Receive : let s := (ready [(6, 0x100)]).onMe fun c => { c with mailbox := [(7, [message 2 0])] }
    Quiet s [xref 6, xref 5] ∧ s.me.cp = none ∧ (s.x 6).toNat % 8 = 0 ∧ s.me.box (2 * 3 + 1) = message 2 0 :: [] ∧ s.me.box 6 = []
      ∧ (message 2 0).reserve = false ∧ s.me.blocked = [] ∧ (s.tenant s.myTenant).inbox = 0 ∧ s.me.twin = false ∧ s.me.wait = none
      ∧ 1 ≤ (message 2 0).data.length ∧ (message 2 0).data.length ≤ 64 ∧ (s.x 6).toNat % 65536 + 1 ≤ 65536
      ∧ checkRange s (s.x 6) 1 .wr 0x09 = none ∧ myTranslate s (s.x 6) = some (0x100, 0x7D) ∧ rangeOf 0x100 ≠ .peer
      ∧ Writable s 0x100 1 ∧ s.mem.wf = true := by unfold Quiet Writable Unhindered NoStores Calm Plain; decide +kernel

theorem witness_Receive_low : let s := (ready []).onMe fun c => { c with
      mailbox := [(6, [{ message 2 0 with hi := false }]), (7, [message 2 0])], highRun := [(3, 7)] }
    s.me.box 7 ≠ [] ∧ s.me.box 6 ≠ [] ∧ ¬ (fget s.me.highRun 3).getD 0 < 7 ∧ (ready []).me.box 6 = [] := by decide +kernel

/-- A member of a group of three, of index 2. -/
def member (s : State) : State := s.onMe fun c => { c with cg := { valid := true, group := 9, count := 3, index := 2 } }

theorem witness_Barriers_cluster : let s := ready [(5, 15), (6, 128)]
    Quiet s [xref 5, xref 6] ∧ s.me.cp = none ∧ s.me.twin = false ∧ s.cur < 45056 ∧ s.x 5 = BitVec.ofNat 64 15
      ∧ (s.x 6).toNat = 128 ∧ 16 ≤ ((ready [(5, 16)]).x 5).toNat ∧ 128 < ((ready [(6, 129)]).x 6).toNat
      ∧ ((ready []).x 6).toNat = 0 := by unfold Quiet; decide +kernel

theorem witness_Barriers_arrival : let s := parkedOn (.bar false 15 2 none) (ready [])
    let last := s.setCluster 0 { bars := [(15, { count := 1, n := 2, waiters := [257] })] }
    let other := s.setCluster 0 { bars := [(15, { count := 1, n := 3, waiters := [257] })] }
    s.me.wait = some (.bar false 15 2 none) ∧ s.me.slot = .parked ∧ s.storesDone s.cur = true ∧ s.me.cr.bardl = 0
      ∧ clusterOf (s.cur / 16) = 0 ∧ ((fget (s.cluster 0).bars 15).getD {}).count + 1 < 2
      ∧ ((fget (last.cluster 0).bars 15).getD {}).count + 1 = 2 ∧ ((fget (last.cluster 0).bars 15).getD {}).n = 2
      ∧ ((fget (other.cluster 0).bars 15).getD {}).n ≠ 2 ∧ ((fget (other.cluster 0).bars 15).getD {}).count ≠ 0 := by
  decide +kernel

theorem witness_Barriers_release : let s := parkedOn (.bar false 15 2 (some 0)) (ready [])
    s.me.wait = some (.bar false 15 2 (some 0)) ∧ s.me.slot = .parked ∧ barWaits s (s.tagOf s.cur) = false := by decide +kernel

theorem witness_Barriers_group : let s := member (ready [(5, 15), (6, 3)])
    (s.x 5).toNat = 15 ∧ s.me.cg.valid = true ∧ (s.x 6).toNat = s.me.cg.count ∧ (ready []).me.cg.valid = false
      ∧ ((ready [(6, 4)]).x 6).toNat ≠ s.me.cg.count := by decide +kernel

theorem witness_Barriers_groupArrival : let s := parkedOn (.bar true 15 3 none) (member (ready []))
    s.me.wait = some (.bar true 15 3 none) ∧ s.storesDone s.cur = true ∧ s.releaseWaits s.cur = false
      ∧ (groupBar s s.myTenant s.me.cg.group 15).arrived = [] := by decide +kernel

theorem witness_Barriers_deadline : let t := (parkedOn (.bar false 15 2 (some 0)) (ready [])).onMe fun c => { c with barTimer := some 0 }
    let s := t.setCluster 0 { bars := [(15, { count := 1, n := 2, waiters := [1] })] }
    s.me.wait = some (.bar false 15 2 (some 0)) ∧ s.me.slot = .parked ∧ s.me.barTimer = some 0 ∧ 0 ≤ s.cycle
      ∧ barCluster s (s.tagOf s.cur) = some 0 ∧ ((fget (s.cluster 0).bars 15).getD {}).waiters = [s.tagOf s.cur]
      ∧ s.resident (s.tagOf s.cur) = some s.cur := by decide +kernel

theorem witness_Groups : let t := ready [(5, 0x100), (6, 2)]
    let s := { t with mem := memWriteList (memWriteList t.mem 0x100 (natLe 2 4095)) 0x104 (natLe 4 3) }
    let bytes := memReadList s.mem 0x100 64
    Quiet s [xref 5, xref 6, xref 7] ∧ s.me.cp = none ∧ s.me.twin = false ∧ s.cur < 45056 ∧ s.me.cg.valid = false
      ∧ s.me.cg.pend = false ∧ (s.x 5).toNat % 64 = 0 ∧ Local s (s.x 5) .rd 0x08 (plainPhys 0x100)
      ∧ Unhindered s 0x100 64 ∧ s.tlb = [] ∧ leNat ((bytes.drop 0).take 2) = 4095 ∧ leNat ((bytes.drop 2).take 2) = 0
      ∧ leNat ((bytes.drop 4).take 4) = 3 ∧ leNat ((bytes.drop 8).take 8) % 8 = 0 ∧ (∀ y ∈ bytes.drop 16, y = 0)
      ∧ (s.x 6).toNat < 3 ∧ 3 ≤ ((ready [(6, 3)]).x 6).toNat ∧ (member t).me.cg.valid = true := by
  unfold Quiet Local Unhindered NoStores Calm Plain; decide +kernel

theorem witness_Groups_fabric : let s := (member (ready [])).onMe fun c => { c with cg := { c.cg with fab := true } }
    s.me.cg.valid = true ∧ s.me.cg.pend = false ∧ s.me.cg.fab = true := by decide +kernel

/-- A member whose vote is out, with or without its outcome. -/
def voted (res : Bool) (s : State) : State := s.onMe fun c => { c with cg := { c.cg with pend := true, res := res, out := res } }
/-- A member that runs ahead. -/
def ahead (s : State) : State := (voted false (member s)).onMe fun c => { c with
  cp := some { x := c.x, k := c.k, hold := 0, cbr := 0x10000, next := 0x10004, label := 0x10010, predicted := false } }

/-- A store of a context that runs ahead, with nothing held and with 64 sectors held; a device register that a core may write. -/
theorem witness_StoreWritesItsBytes_ahead : ∀ n ∈ [0, 64], let t := ahead (ready [(6, 0x20000)])
    let s := t.onMe fun c => { c with spec := (List.range n).map fun i => { pa := 128 * i, data := [1] } }
    let held : Store := { pa := 0x20000, data := natLe 2 (s.x 5).toNat, seq := s.me.seq }
    Quiet s [xref 5, xref 6] ∧ s.me.cp ≠ none ∧ (s.x 6).toNat % 2 = 0 ∧ Access s (s.x 6) .wr 0x09 (plainPhys 0x20000)
      ∧ (sectorsOf (s.me.spec ++ [held])).length = n + 1 := by
  unfold Quiet Access Local; decide +kernel

theorem witness_StoreWritesItsBytes_device : let s := ahead (mapped 0xA014000007D [(6, 0x4000_0008)])
    (s.x 6).toNat % 8 = 0 ∧ s.me.cp ≠ none
      ∧ (check s (s.x 6) .rd 0x08 (fun pa => coreMayLoad (pa - 0xA0100000000))) = .ok ⟨0xA0140000008, 0xA014000007D, .device⟩
      ∧ (check s (s.x 6) .wr 0x09 (fun pa => coreMayStore (pa - 0xA0100000000))) = .ok ⟨0xA0140000008, 0xA014000007D, .device⟩ := by
  decide +kernel

/-- The conditions on types of the forms that park while they run ahead. -/
theorem witness_CollectiveBranches_forms : let s := (ahead (ready [])).onMe fun c => { c with cr := { c.cr with fmt := 0xB09 } }
    s.me.cp ≠ none ∧ Ty.bf16.isArith = true ∧ Ty.i4.isInt = true ∧ Ty.bf16.isWide = true ∧ quantTypes .bf16 s.me = true
      ∧ convertible .i32 .f32 = true ∧ Ty.f32.ratio .e4m3 = 4 ∧ (4 : VReg).val % 4 = 0 ∧ Ty.f32.width ≠ 4 ∧ s.feature 6 = true
      ∧ CReg.readOnly .status = false ∧ CReg.readOnly .fmt = false
      ∧ ((ahead (ready [])).onMe fun c => { c with priv := true }).me.priv = true := by decide +kernel

/-- A trap of a context that runs ahead, at each kind of instruction, and its outcome. -/
theorem witness_TrapsAndReturn_ahead : let s := ahead (ready [(5, 3)])
    s.me.cp ≠ none ∧ Quiet s [xref 5, xref 1] ∧ (s.x 5).toNat % 2 = 1 ∧ CReg.supervisor .tvec = true ∧ s.me.priv = false := by
  unfold Quiet; decide +kernel

theorem witness_CollectiveBranches_deferred : ∀ taken : Bool, let t0 : TrapInfo := { cause := 0x31, info := 2, tval := 9 }
    let t := (ahead (ready [])).onMe fun c => { c with slot := .parked, wait := some (.deferred t0) }
    let s := { t with net := { t.net with verdicts := [{ member := t.tagOf t.cur, taken := taken }] } }
    s.cur < 45056 ∧ s.me.slot = .parked ∧ s.me.wait = some (.deferred t0) ∧ (s.me.cp.map (·.pend)) = some []
      ∧ s.me.spec = [] ∧ t0.cause < 256 ∧ t0.info < 256
      ∧ s.net.verdicts = [{ member := s.tagOf s.cur, taken := taken }] := by decide +kernel

/-- An outcome for a member with SPEC = 0, in a handler, halted, and in `cbfence`. -/
theorem witness_CollectiveBranches_resolved : ∀ q ∈ [(SlotState.ready, none), (.halted, none), (.parked, some Wait.cbfence)],
    let t := (voted false (member (ready []))).onMe fun c => { c with slot := q.1, wait := q.2 }
    let s := { t with net := { t.net with verdicts := [{ member := t.tagOf t.cur, taken := true }] } }
    s.cur < 45056 ∧ s.me.cp = none ∧ s.me.cg.pend = true ∧ s.me.slot = q.1 ∧ s.me.wait = q.2
      ∧ s.net.verdicts = [{ member := s.tagOf s.cur, taken := true }] := by decide +kernel

theorem witness_CollectiveBranches : let s := member (ready [(5, 1)])
    Quiet s [xref 5] ∧ s.me.cp = none ∧ s.me.twin = false ∧ s.me.cg.valid = true ∧ s.me.cg.pend = false ∧ s.me.cg.fab = false
      ∧ (ready []).me.cg.valid = false ∧ (voted true s).me.cg.pend = true ∧ (voted true s).me.cg.res = true
      ∧ (voted false s).me.cg.res = false := by unfold Quiet; decide +kernel

theorem witness_VoteRounds : let s := ahead (ready [])
    let v : Verdict := { member := s.tagOf s.cur, taken := true }
    let t := { s with net := { s.net with verdicts := [v] } }
    let u := { s with net := { s.net with verdicts := [{ v with taken := false, refused := true }] } }
    s.cur < 45056 ∧ s.me.slot = .ready ∧ s.me.cp.isSome = true ∧ s.me.spec = [] ∧ s.me.wait = none ∧ s.me.cg.pend = true
      ∧ s.me.cg.res = false ∧ s.me.cg.map = 0 ∧ t.net.verdicts = [v] ∧ t.me = s.me
      ∧ u.net.verdicts = [{ member := s.tagOf s.cur, taken := false, refused := true }] := by decide +kernel

/-- A deadline in an open round of a run ahead whose MAP is `map`. -/
def lateRound (map : Word) : State :=
  { (ahead (ready [])).onMe fun c => { c with cgTimer := some 0, cg := { c.cg with map := map } } with
    rounds := [⟨0, 9, 3, .all, [{ tenant := 0, group := 9, index := 1, count := 3, kind := .all, vote := true }]⟩] }

theorem witness_VoteRounds_deadline : let s := lateRound 0x4000_0000
    s.net.verdicts = [] ∧ s.rounds.length = 1 ∧ (∀ r ∈ s.rounds, r.tenant = s.myTenant ∧ r.group = s.me.cg.group)
      ∧ s.me.cgTimer = some 0 ∧ 0 ≤ s.cycle ∧ s.me.cg.count = 3 ∧ myTranslate s s.me.cg.map = none := by decide +kernel

theorem witness_VoteRounds_map : let s := lateRound 0x100
    s.net.verdicts = [] ∧ s.rounds.length = 1 ∧ (∀ r ∈ s.rounds, r.tenant = s.myTenant ∧ r.group = s.me.cg.group)
      ∧ s.me.cgTimer = some 0 ∧ 0 ≤ s.cycle ∧ s.me.cg.count = 3
      ∧ checkRange s s.me.cg.map 1 .wr 0x09 = none ∧ s.me.cg.map.toNat % 65536 + 1 ≤ 65536
      ∧ myTranslate s s.me.cg.map = some (0x100, 0x7D) ∧ rangeOf 0x100 ≠ .peer ∧ Writable s 0x100 1 ∧ s.mem.wf = true := by
  unfold Writable Unhindered NoStores Calm Plain; decide +kernel

theorem witness_VoteRounds_handler : let s := (voted false (member (ready []))).onMe fun c =>
      { c with cbrAt := some 0x9000, cgTimer := some 0, cg := { c.cg with map := 0x4000_0000 } }
    let t := { s with net := { s.net with verdicts := [{ member := s.tagOf s.cur, taken := false, refused := true }] } }
    s.cur < 45056 ∧ s.me.slot = .ready ∧ s.me.cp = none ∧ s.me.openHold = none ∧ s.me.wait = none ∧ s.me.cg.pend = true
      ∧ s.me.cg.res = false ∧ s.me.cbrAt = some 0x9000 ∧ s.net.verdicts = [] ∧ s.me.cgTimer = some 0 ∧ 0 ≤ s.cycle
      ∧ myTranslate s s.me.cg.map = none ∧ 1 ≤ s.me.cg.count ∧ t.me = s.me
      ∧ t.net.verdicts = [{ member := t.tagOf t.cur, taken := false, refused := true }] := by decide +kernel

theorem witness_VoteRounds_parked : let s := (ahead (ready [])).onMe fun c => { c with slot := .parked, wait := some .runAhead }
    s.me.slot = .parked ∧ s.me.wait = some .runAhead ∧ s.me.cp.isSome = true ∧ s.me.spec = [] := by decide +kernel

theorem witness_VoteRounds_store : let st : Store := { pa := 0x100, data := [7] }
    let s := (ahead (ready [])).onMe fun c => { c with spec := [st] }
    s.me.spec = [st] ∧ s.me.stores = [] ∧ rangeOf st.pa = .lpddr ∧ st.rlSy = false ∧ st.atHome = false
      ∧ storeHeld s s.cur st = false
      ∧ ∀ b ∈ blocks st.pa st.data.length, otherKey s s.myTenant (b * 64) = false := by decide +kernel

/-- The third vote of a group of three, the second one, and one of another count. -/
theorem witness_VoteRounds_round : let t := ahead (ready [])
    let v : Vote := { voter := some (t.tagOf t.cur), tenant := 0, group := 9, index := 0, count := 3, kind := .maj, vote := true }
    let w : Vote := { v with voter := none, index := 1, vote := false }
    let u : Vote := { w with index := 2, vote := true }
    let s := { t with net := { t.net with votes := [v] }, rounds := [⟨0, 9, 3, .maj, [w, u]⟩] }
    s.net.votes[0]? = some v ∧ s.rounds = [⟨v.tenant, v.group, 3, v.kind, [w, u]⟩] ∧ v.count = 3
      ∧ (∀ q ∈ [w, u], q.index ≠ v.index) ∧ ([w, u] ++ [v]).length = 3 ∧ ([w] ++ [v]).length ≠ 3
      ∧ ({ v with count := 2 } : Vote).count ≠ 3 ∧ v.voter = some (s.tagOf s.cur) ∧ s.resident (s.tagOf s.cur) = some s.cur
      ∧ s.storesDone s.cur = true ∧ v.fab = false := by decide +kernel

/-- The vote of a member that has been saved, across packages. -/
theorem witness_VoteRounds_saved : let s := member (ready [])
    let v : Vote := { voter := some 77, tenant := 0, group := 9, index := 0, count := 3, kind := .maj, vote := true, fab := true }
    let t := { s with net := { s.net with votes := [v] } }
    t.net.votes[0]? = some v ∧ t.resident 77 = none ∧ fget t.orphans 77 = none ∧ t.releaseOf v.tenant 77 = false
      ∧ t.releaseWaits t.cur = false := by decide +kernel

/-! ### Engines and memory-side units -/

/-- The registers of an engine command: c.fmt with TY 11 for A, B and the write type at [7:4]. -/
def formatted (fmt : Word) (l : List (XReg × Word)) : State := (ready l).onMe fun c => { c with cr := { c.cr with fmt := fmt } }
/-- A command of context 0. -/
def command (op : JobOp) (xa : Word) : Cmd := { op := op, tag := 1, tenant := 0, d := 5, xa := xa, xb := 0, cr := {} }

theorem witness_EngineCommands : let s := formatted 0xCBB [(6, 0x1000), (7, 31)]
    Quiet s [xref 6, xref 7, xref 5] ∧ s.me.cp = none ∧ s.me.twin = false ∧ s.me.jobs = [] ∧ bits s.me.cr.fmt 0 4 = 11
      ∧ bits s.me.cr.fmt 4 4 = 11 ∧ 8 ≤ bits s.me.cr.fmt 8 4 ∧ bits s.me.cr.fmt 8 4 ≤ 12 ∧ (s.x 6).toNat % 64 = 0
      ∧ (s.x 7).toNat < 32 ∧ s.feature 6 = true ∧ (ready [(7, 3)] |>.x 7).toNat < 4 ∧ 4 ≤ ((ready [(7, 4)]).x 7).toNat
      ∧ 32 ≤ ((ready [(6, 32)]).x 6).toNat ∧ (s.x 7).toNat % 64 ≠ 0 ∧ ((ready [(6, 1)]).x 6).toNat % 64 ≠ 0 ∧ bits (ready []).me.cr.fmt 0 4 ≠ 11
      ∧ (ready [(7, 0x1000)] |>.x 7).toNat % 64 = 0 ∧ ((ready [(7, 65535)]).x 7).toNat < 65536 := by
  unfold Quiet; decide +kernel

theorem witness_EngineCommands_types : let s := ready []
    bits s.me.cr.fmt 0 4 ≠ 11 ∧ bits s.me.cr.fmt 4 4 ≠ 11 ∧ ({ s with boot := { s.boot with enabled := 0 } } : State).feature 6 = false := by
  decide +kernel

theorem witness_EngineCommands_again : let s := (formatted 0xCBB []).onMe fun c => { c with again := some (9, 5, c.pc) }
    s.me.cp = none ∧ s.me.recorded 9 = some 5 ∧ s.feature 6 = true ∧ (formatted 0xCBB []).me.recorded 9 = none := by decide +kernel

theorem witness_EngineJobs_accept : let c := command .mfree 31
    let t := (ready []).setCluster 0 { clove := { waiting := [c] } }
    let s := t.onMe fun c => { c with openHold := some .reply }
    s.cur < 45056 ∧ c.tag / 256 = s.cur ∧ (s.queueOf (.clove 0)).waiting = [c] ∧ (s.queueOf (.clove 0)).queue.length < 16
      ∧ (s.queueOf (.clove 0)).acceptedAt = none ∧ s.storesDone s.cur = true ∧ s.me.jobs.length < 32
      ∧ heldIds s (clusterOf (s.cur / 16)) = [] ∧ s.me.openHold = some .reply ∧ s.me.wait = none ∧ s.me.cp = none ∧ behindOther s c = false
      ∧ acceptReads s c = some ([], none, s) ∧ c.d ≠ 0
      ∧ (match exec (.engineAccept (.clove 0) s.cur) s with | .next t => waitsOpen t c.tag | _ => true) = false ∧ s.cycle < c.issued + 24 := by
  decide +kernel

/-- Without translations held, every TLB is fresh. -/
theorem fresh_of_empty {s : State} (h : s.tlb = []) (u tenant : Nat) : Fresh s u tenant := by
  intro va; simp [staleTlb, h]

/-- Without translations held, it makes no difference through which TLB an access goes. -/
theorem jobPiece_of_empty {s : State} (h : s.tlb = []) (c : Cmd) (op : JobOp) (va : Word) (n : Nat) (acc : Acc) :
    jobPiece s c va n acc = jobPiece s { c with op := op } va n acc := by
  have t : ∀ u u' tenant, translateVa s u tenant va = translateVa s u' tenant va := by
    have e : ∀ l : List Nat, l.flatMap (fun _ => ([] : List TlbEntry)) = [] := fun l => by induction l <;> simp_all
    intros; simp [translateVa, staleTlb, h, e]
  simp only [jobPiece, jobTenantOk]
  rw [t _ (jobTlb s { c with op := op })]

theorem ok_of_toOption {α : Type} {r : Except JFault α} {a : α} (h : r.toOption = some a) : r = .ok a := by
  cases r <;> simp_all [Except.toOption]

theorem ok_of_empty {s : State} {c : Cmd} {va : Word} {n : Nat} {acc : Acc} {p : Piece} (h : s.tlb = [])
    (hp : (jobPiece s { c with op := .cjob } va n acc).toOption = some p) : jobPiece s c va n acc = .ok p := by
  rw [jobPiece_of_empty h c .cjob]; exact ok_of_toOption hp

/-- A job at work on an engine. -/
def job (c : Cmd) : Job := { id := 4, order := 2, cmd := c }

theorem witness_EngineJobs_start : let s := (ready []).setCluster 351 { sumac := { queue := [job (command .prd 0)] } }
    EngineId.sumac 351 ≠ .coll ∧ engineExists (.sumac 351) = true ∧ (s.engine (.sumac 351)).run = none
      ∧ (s.engine (.sumac 351)).queue = [job (command .prd 0)] ∧ (s.core ((command .prd 0).tag / 4096)).stopped = false := by
  decide +kernel

theorem witness_EngineJobs_free : let r : Running := { job := job (command .mfree 31), start := 0 }
    let h : Handle := { k := 128, n := 128, sparse := false, elems := [], scales := [], macros := [] }
    let s := (ready []).setCluster 0 { clove := { run := some r }, handles := [(31, h)] }
    (s.cluster 0).clove.run = some r ∧ r.waiting = true ∧ r.job.cmd.op = .mfree
      ∧ r.job.cmd.xa = BitVec.ofNat 64 31 ∧ clusterOf (r.job.cmd.tag / 4096) = 0 ∧ fget (s.cluster 0).handles 31 = some h := by
  decide +kernel

theorem witness_EngineJobs_complete : let r : Running := { job := job (command .cjob 0), start := 0, waiting := false }
    let t := (ready []).setCluster 0 { copy := { run := some r } }
    let s := t.onMe fun c => { c with jobs := [{ id := 4, order := 2 }] }
    (EngineId.copy 0, Instr.copyJobComplete 0) ∈ [(.clove 0, .cloveJobComplete 0), (.copy 0, .copyJobComplete 0), (.sumac 0, .sumacJobComplete 0)]
      ∧ (s.engine (.copy 0)).run = some r ∧ r.waiting = false ∧ r.due ≤ s.cycle ∧ r.res = { fault := none } ∧ NothingHeld s
      ∧ s.resident r.job.cmd.tag = some 0 ∧ (s.ctx 0).slot = .ready ∧ (s.ctx 0).jobs = [{ id := r.job.id, order := r.job.order }] := by
  unfold NothingHeld; decide +kernel

theorem witness_EngineJobs_copy : let r : Running := { job := job (command .cjob 0x1000), start := 0 }
    let t := (ready []).setCluster 0 { copy := { run := some r } }
    let s := { t with mem := memWriteList t.mem 0x1000 (natLe 8 0x20000 ++ natLe 8 0x40020 ++ natLe 8 8) }
    let c := r.job.cmd
    (s.cluster 0).copy.run = some r ∧ r.waiting = true ∧ r.job.bad = none ∧ c.op = .cjob ∧ c.xb = 0 ∧ c.xa.toNat % 64 = 0
      ∧ Fresh s (jobTlb s c) c.tenant ∧ (JobReads s c 0x1000 0x1000 64 ∧ JobFree s r.job.order 0x1000 64)
      ∧ (JobReads s c 0x20000 0x20000 8 ∧ JobFree s r.job.order 0x20000 8) ∧ JobWrites s c 0x40020 0x40020 8 false
      ∧ memReadList s.mem 0x1000 64 = natLe 8 0x20000 ++ natLe 8 0x40020 ++ natLe 8 8 ++ List.replicate 40 0 := by
  refine ⟨?_, ?_, ?_, ?_, ?_, ?_, fresh_of_empty rfl _ _, ⟨⟨⟨false, ok_of_toOption ?_⟩, ?_⟩, ?_⟩,
    ⟨⟨⟨false, ok_of_toOption ?_⟩, ?_⟩, ?_⟩, ⟨ok_of_toOption ?_, ?_⟩, ?_⟩
  all_goals first | (unfold Plain; decide +kernel) | (unfold JobFree; decide +kernel) | decide +kernel

theorem witness_AwaitedJobs : let s := { (ready [(6, 7), (7, 2 ^ 17 + 2 ^ 16)]) with cycle := 9 }.onMe fun c => { c with
      jobs := [{ id := 7, order := 1, doneAt := some 8, fault := some { kind := 0x06, addr := 64 } }] }
    Quiet s [xref 6, xref 5] ∧ s.me.cp = none ∧ s.me.twin = false ∧ (s.x 6).toNat < 2 ^ 17 ∧ (s.x 6).toNat % 65536 = 7
      ∧ 2 ^ 17 ≤ (s.x 7).toNat ∧ (s.x 7).toNat < 2 ^ 18 ∧ (s.x 7).getLsbD 16 = true ∧ (s.x 7).getLsbD 17 = true ∧ 8 < s.cycle
      ∧ s.me.jobs.length = 1 ∧ (∀ r ∈ s.me.jobs, r.id = 7 ∧ r.doneAt = some 8 ∧ r.fault ≠ none) := by
  unfold Quiet; decide +kernel

theorem witness_AwaitedJobs_pending : let s := (ready [(6, 7)]).onMe fun c => { c with jobs := [{ id := 7, order := 1 }] }
    let t := parkedOn (.jwait 7 31) (ready [])
    (∀ r ∈ s.me.jobs, r.fault = none) ∧ (∃ r ∈ s.me.jobs, r.id = 7 ∧ r.doneAt = none) ∧ t.me.slot = .parked
      ∧ t.me.wait = some (.jwait 7 31) ∧ (31 : Nat) < 32 ∧ (∀ r ∈ t.me.jobs, r.doneAt ≠ none ∧ r.fault = none) := by
  decide +kernel

theorem witness_MemorySideUnits : let s := ready [(6, 0x1000)]
    Quiet s [xref 6, xref 7, xref 5] ∧ s.me.cp = none ∧ s.me.twin = false ∧ s.me.jobs = [] ∧ (s.x 6).toNat % 64 = 0
      ∧ Local s (s.x 6) .rd 0x08 (plainPhys 0x1000) ∧ ((ready [(6, 32)]).x 6).toNat % 64 ≠ 0 := by
  unfold Quiet Local; decide +kernel

theorem witness_NoJoins : NoJoins (ready []) := by
  intro q hq va pa seen
  simp [ready, placeWord, State.onMe, State.setMe, State.setCtx, fput, State.me, State.ctx, fget] at hq
  subst hq; simp

/-- Commands at a unit: an update of one row of 64 bytes, and a pause or release, under a descriptor that is in order. -/
def rowJob (op : JobOp) (xb : Word) : MsuJob :=
  { job := { job { command op 0x1000 with xb := xb } with owns := [] }, table := { desc := 0x1000, base := 0x2000, rows := 1, rbytes := 64 } }
def tableAt : State :=
  let t := ready []
  { t with mem := memWriteList t.mem 0x1000 (natLe 8 0x2000 ++ natLe 4 1 ++ natLe 2 64 ++ natLe 1 4) }

theorem witness_MemorySideUnits_commands : ∀ j ∈ [rowJob .rowpause 0, rowJob .rowpause 1, rowJob .rowadd 0x4000],
    let t := tableAt
    let s := { t with msu := { t.msu with jobs := [j] } }
    let c := { j.job.cmd with unit := j.channel }
    s.msu.jobs[0]? = some j ∧ j.due = none ∧ rowHeld s 0 j = false ∧ j.job.bad = none ∧ j.remote = none
      ∧ Fresh s (jobTlb s c) c.tenant ∧ c.xa.toNat % 64 = 0 ∧ JobReads s c 0x1000 0x1000 64 ∧ rangeOf 0x1000 = .lpddr
      ∧ (tableOf 0x1000 (memReadList s.mem 0x1000 64)).ok = true ∧ (∀ q ∈ s.msu.paused, q.desc ≠ j.table.desc)
      ∧ (tableOf 0x1000 (memReadList (ready []).mem 0x1000 64)).ok = false := by
  intro j hj
  refine ⟨rfl, ?_, ?_, ?_, ?_, fresh_of_empty rfl _ _, ?_, ⟨⟨false, ok_of_toOption ?_⟩, ?_⟩, ?_⟩
  all_goals revert j; first | (unfold Plain; decide +kernel) | decide +kernel

theorem witness_MemorySideUnits_add : let t := tableAt
    let j := rowJob .rowadd 0x4000
    let s := { t with msu := { t.msu with jobs := [j] } }
    let c := { j.job.cmd with unit := j.channel }
    memReadList s.mem 0x1000 64 = natLe 8 0x2000 ++ natLe 4 (j.row + 1) ++ natLe 2 64 ++ natLe 1 4 ++ List.replicate 49 0
      ∧ j.row < 65536 ∧ c.xb.toNat % 64 = 0 ∧ JobReads s c (c.xb.toNat + 64) 0x4040 64 ∧ JobReads s c 0x2000 0x2000 64
      ∧ JobWrites s c 0x2000 0x2000 64 false ∧ s.mem.wf = true ∧ NoJoins s
      ∧ jobPiece s c (BitVec.ofNat 64 0x2000) 64 .rw = .ok ⟨BitVec.ofNat 64 0x2000, 0x2000, false, 64⟩ := by
  refine ⟨?_, ?_, ?_, ⟨⟨false, ok_of_toOption ?_⟩, ?_⟩, ⟨⟨false, ok_of_toOption ?_⟩, ?_⟩, ⟨ok_of_toOption ?_, ?_⟩, ?_,
    witness_NoJoins, ok_of_toOption ?_⟩
  all_goals first | (unfold Plain; decide +kernel) | decide +kernel

theorem witness_MemorySideUnits_complete : let j : MsuJob := { rowJob .rowadd 0 with due := some 3 }
    let t := (ready []).onMe fun c => { c with jobs := [{ id := 4, order := 2 }] }
    let s := { t with msu := { t.msu with jobs := [j] } }
    s.msu.jobs[0]? = some j ∧ j.due = some 3 ∧ NothingHeld s ∧ s.resident j.job.cmd.tag = some 0 ∧ (s.ctx 0).slot = .ready
      ∧ (s.ctx 0).jobs = [{ id := j.job.id, order := j.job.order }] := by unfold NothingHeld; decide +kernel

theorem witness_MemorySideUnits_hot : ∀ replica : Bool, let h : HotRow := { pa := 0x8F000, bytes := 128, hotn := 8, count := 9, replica := replica }
    let t := { (ready []) with cycle := 65536 }
    let s := { t with msu := { t.msu with hot := [h] }, reenc := [3] }
    s.cycle % 65536 = 0 ∧ s.msu.hot = [h] ∧ rowChannel s h.pa = 143 ∧ 143 < 144 ∧ h.copying = false ∧ h.hotn < h.count
      ∧ h.hotn / 2 ≤ h.count ∧ ¬ h.hotn < 8 ∧ NothingHeld s ∧ 3 ∈ s.reenc ∧ (fget s.encMajor 3).getD 0 + 1 < 2 ^ 64 := by
  unfold NothingHeld; decide +kernel

/-! ### Control of contexts -/

theorem witness_ControlRegisters : let s := supervisor [(5, -1)]
    Quiet s [xref 5] ∧ s.me.priv = true ∧ (ready []).me.priv = false ∧ s.me.slot = .ready
      ∧ s.inMesh s.myTenant 2815 = true ∧ ¬ (2816 < 2816)
      ∧ (s.ctxs.all fun q => match q.2.wait with | some (.fe ..) => false | _ => true) = true := by unfold Quiet; decide +kernel

theorem witness_SnapshotsAndGangStops : let s := supervisor [(6, 0x10000), (7, 1)]
    Quiet s [xref 6, xref 7] ∧ s.me.cp = none ∧ s.cur < 45056 ∧ s.storesDone s.cur = true ∧ s.me.priv = true ∧ s.snapSeq + 1 < 2 ^ 64
      ∧ s.coll.run = none := by unfold Quiet; decide +kernel

theorem witness_GangStops : let s := ready []
    let h := s.onMe fun c => { c with slot := .halted, gangHalted := true }
    s.ctxs = [(0 * 16 + 0, s.ctx 0)] ∧ (s.ctx 0).slot = .ready ∧ (s.ctx 0).cp = none ∧ (s.ctx 0).openHold = none
      ∧ (s.ctx 0).wait = none ∧ (s.core 0).stopped = false ∧ h.ctxs = [(0, h.ctx 0)] ∧ (h.ctx 0).slot = .halted
      ∧ (h.ctx 0).gangHalted = true ∧ (h.ctx 0).restart = 0 ∧ h.inMesh 0 0 = true ∧ 2815 < 2816 ∧ 15 < 16 := by decide +kernel

theorem witness_HaltResumeKill : let s := supervisor []
    let h := s.onMe fun c => { c with slot := .halted }
    let e := s.onMe fun c => { c with slot := .empty }
    s.cur < 45056 ∧ s.me.cp = none ∧ s.me.priv = true ∧ (ready []).me.priv = false ∧ s.net.records = [] ∧ (s.core 0).recs = [] ∧ s.me.slot = .ready
      ∧ s.me.openHold = none ∧ s.me.wait = none ∧ s.me.haltPending = false ∧ h.me.slot = .halted ∧ h.me.wait = none
      ∧ h.me.restart = 0 ∧ NothingHeld h ∧ h.me.blocked = [] ∧ h.coll.run = none ∧ e.me.slot = .empty ∧ e.me.haltPending = false := by
  unfold NothingHeld; decide +kernel

theorem witness_LostContexts : let t := parkedOn (.recv 3 5 0x100) (ready [])
    let s := { t with cycle := 65536, tenants := [(0, { placeTenant with wdog := 1 })] }
    let h := s.onMe fun c => { c with slot := .halted }
    let v := { (h.setCore 0 { saving := some { slot := 0, image := 0x1000 } }) with cycle := 131072 }
    s.cur < 45056 ∧ s.net.records = [] ∧ s.me.slot = .parked ∧ s.me.wait = some (.recv 3 5 0x100) ∧ s.me.cp = none
      ∧ s.me.openHold = none ∧ (s.tenant s.myTenant).wdog.toNat * 65536 ≠ 0
      ∧ s.me.parkedAt + (s.tenant s.myTenant).wdog.toNat * 65536 ≤ s.cycle ∧ (s.core 0).saving = none
      ∧ (v.core 0).saving = some { slot := 0, image := 0x1000 } ∧ v.me.slot = .halted ∧ (s.core 0).recs = []
      ∧ max (0 + (v.tenant v.myTenant).wdog.toNat * 65536) 0 + (v.tenant v.myTenant).wdog.toNat * 65536 ≤ v.cycle := by
  decide +kernel

/-- A halted context whose core's IMAGE register holds an address. -/
def imaged (image : Nat) (s : State) : State :=
  (s.onMe fun c => { c with slot := .halted }).onCore 0 fun k => { k with image := BitVec.ofNat 64 image }

theorem witness_SaveAndRestore_begin : let s := imaged 0x100000 (ready [])
    let full := (List.range 16).foldl (fun s i => withCtx (16 + i) { slot := .ready } s) s
    let used := withCtx 17 { slot := .ready, v := (List.range 250).map fun r => (r, 0) } (imaged 0x100000 (heavy []))
    s.cur < 45056 ∧ (s.core (s.cur / 16)).image = BitVec.ofNat 64 0x100000 ∧ 0x100000 < 2 ^ 64 ∧ s.me.slot = .halted
      ∧ s.me.haltPending = false ∧ s.coll.run = none ∧ s.coll.queue = [] ∧ imageOk s 0x100000 (6016 + 512 * s.me.v.length) = true
      ∧ 0x100020 % 64 ≠ 0 ∧ s.inMesh s.myTenant 1 = true ∧ emptySlot full 1 = none ∧ emptySlot s 1 ≠ none
      ∧ s.me.v.length ≤ poolFree s 1 ∧ emptySlot used 1 ≠ none ∧ poolFree used 1 < used.me.v.length := by decide +kernel

theorem witness_SaveAndRestore_complete : ∀ target ∈ [none, some 1], let v : Save := { slot := 0, image := 0x100000, target := target }
    let s := (imaged 0x100000 (ready [])).onCore 0 fun k => { k with saving := some v }
    (s.core 0).saving = some v ∧ v.slot = s.cur % 16 ∧ v.restore = none ∧ NothingHeld s ∧ s.me.slot = .halted
      ∧ s.me.haltPending = false ∧ s.me.wait = none ∧ s.me.jobs = [] ∧ s.me.pend = [] ∧ s.me.replies = [] ∧ s.me.mailbox = [] ∧ s.me.blocked = []
      ∧ s.me.v = [] ∧ commandWaits s s.cur = false ∧ s.deviceHeld 0x100000 6016 = false ∧ inboxHeld s s.cur = false
      ∧ imageOk s 0x100000 6016 = true ∧ rangeOf 0x100000 = .lpddr ∧ s.mem.wf = true
      ∧ emptySlot s 1 = some 0 ∧ s.boot.minimal = false := by unfold NothingHeld; decide +kernel

theorem witness_SaveAndRestore_restore : let t := imaged 0x100000 (ready [])
    let v : Save := { slot := 16, image := 0x100000, target := some 1, restore := some 0 }
    let s := t.onCore 0 fun k => { k with saving := some v }
    let idle := s.onCore 0 fun k => { k with saving := none }
    (s.core 0).saving = some v ∧ v.restore = some 0 ∧ 0 ≤ s.cycle ∧ emptySlot idle 1 = some 0 ∧ emptySlot idle 0 = some 1
      ∧ s.boot.minimal = false ∧ rangeOf 0x100000 = .lpddr ∧ imageOk s 0x100000 6016 = true ∧ s.deviceHeld 0x100000 6016 = false ∧ claimedAt s 0 0x100000 = 0
      ∧ (∀ q ∈ blocks 0x100000 6016, otherKey s s.myTenant (q * 64) = false) ∧ (∀ c ∈ s.mem, c.1 < 0x100000) := by
  decide +kernel

/-- The image lies in a page that is being re-encrypted; a core of a die without power. -/
theorem witness_SaveAndRestore_held : let t := imaged 0x100000 (ready [])
    let s := { t with reenc := [0x100000 / 4096] }
    imageOk s 0x100000 6016 = true ∧ s.deviceHeld 0x100000 (6016 + 512 * claimedAt s 0 0x100000) = true ∧ 32 ≤ 40 % 64 := by
  decide +kernel

/-! ### Tasks, timers, records, probes, twins -/

def packet : Packet := { bytes := List.replicate 60 0 ++ [1, 0, 0, 0] }

theorem witness_TaskEvents : let t := (ready []).setCore 2815 { normal := List.replicate 64 packet }
    let s := { t with net := { t.net with packets := [(2815, packet), (2814, packet)] } }
    s.net.packets[0]? = some (2815, packet) ∧ s.net.packets[1]? = some (2814, packet)
      ∧ (s.core 2815).urgent.length + (s.core 2815).normal.length = 64 ∧ (s.core 2814).normal.length < 64
      ∧ (s.core 2815).normal = packet :: List.replicate 63 packet ∧ (s.core 2815).spilled.length < 4096
      ∧ s.tenantOf 2815 = 0 := by decide +kernel

/-- The ring of a core: without memory, and in memory from 2 MiB on. -/
theorem witness_TaskEvents_ring : let t := (ready []).setCore 1 { normal := List.replicate 64 packet }
    let s := fun (base : Word) => ({ t with tenants := [(0, { placeTenant with steal := base })] } : State)
    let va := fun (base : Word) => (base &&& 0x00FFFFFFFFFFF000) + BitVec.ofNat 64 (1 * 0x40000) + BitVec.ofNat 64 (64 * 0)
    translateVa (s 0x4000_0000) 1 0 (va 0x4000_0000) = none
      ∧ translateVa (s 0x20_0000) 1 0 (va 0x20_0000) = some (0x24_0000, 0x7D) ∧ classOf (s 0x20_0000) 0x24_0000 = .lpddr
      ∧ (s 0x20_0000).deviceHeld 0x24_0000 64 = false ∧ (s 0x20_0000).mem.wf = true ∧ packet.bytes.length = 64 := by
  decide +kernel

theorem witness_TaskEvents_core : let s := (ready []).setCore 2815 { ni := [packet], spilled := [{ urgent := true, pkt := packet }], backoff := some 0 }
    let u := (ready []).setCore 2815 { spilled := [{ pa := some 0x100000, urgent := true, pkt := { packet with bytes := [] } }] }
    u.readHeld 0x100000 64 = false ∧ (u.core 2815).spillAt = none ∧ (s.core 2815).ni = [packet] ∧ (s.core 2815).spilled = [{ urgent := true, pkt := packet }] ∧ (s.core 2815).spillAt = none
      ∧ (s.core 2815).backoff = some 0 ∧ 0 ≤ s.cycle := by decide +kernel

theorem witness_TaskEvents_take : let s := (ready []).setCore 0 { normal := [packet], urgent := [packet], urgentRun := 7 }
    (s.core 0).spilled = [] ∧ (s.core 0).stopped = false ∧ (s.core 0).tookAt = none ∧ emptySlot s 0 = some 1 ∧ packet.pair = none
      ∧ (s.core 0).normal = [] ++ [packet] ∧ (s.core 0).urgent = [] ++ [packet] ∧ 7 ≤ (s.core 0).urgentRun := by decide +kernel

theorem witness_TaskEvents_launch : let s := (ready []).onMe fun c => { c with slot := .launching, launch := some packet }
    (s.core 0).stopped = false ∧ (s.ctx (0 * 16 + 0)).slot = .launching ∧ (s.ctx 0).launch = some packet
      ∧ (s.ctx 0).launchEnd ≤ s.cycle ∧ s.cur = 0 * 16 + 0 := by decide +kernel

theorem witness_TaskEvents_steal : let t := (ready []).setCore 1 { normal := [packet] }
    let s := { t with tenants := [(0, { placeTenant with steal := 1 })] }
    let u := { s with tenants := [(0, { placeTenant with steal := 1, cw := 1, ch := 1 })], cores := [] }
    stealOrder s 0 = [1, 2, 3, 64, 65, 66, 67] ∧ (s.core 1).spilled = [] ∧ (s.core 1).normal = [packet] ∧ emptySlot s 0 ≠ none
      ∧ (s.core 0).urgent = [] ∧ (s.core 0).normal = [] ∧ (s.core 0).spilled = [] ∧ (s.core 0).ni = [] ∧ (s.core 0).stopped = false
      ∧ (s.core 0).stealFrom ≤ s.cycle ∧ (s.core 0).backoff = none ∧ (s.core 0).stealAt = none ∧ s.net.packets = []
      ∧ stealOrder u 0 ≠ [] := by decide +kernel

/-- The first probe of a circle, one in the middle and the last one find an empty deque. -/
theorem witness_TaskEvents_circle : let s := { (ready []) with tenants := [(0, { placeTenant with steal := 1 })] }
    let u := fun (v : Nat) => s.setCore 67 { stealAt := some v }
    stealOrder s 67 = [] ++ 0 :: [1, 2, 3, 64, 65, 66] ∧ (∀ v, stealOrder (u v) 67 = stealOrder s 67)
      ∧ stealOrder s 67 = [0, 1] ++ 2 :: [3, 64, 65, 66] ∧ stealOrder s 67 = [0, 1, 2, 3, 64, 65] ++ 66 :: []
      ∧ ((u 66).core 67).stealAt = some 66 ∧ ((u 66).core 67).stealFrom = (u 66).cycle
      ∧ (s.core 0).normal = [] ∧ (s.core 0).urgent = [] ∧ s.boot.minimal = false := by
  refine ⟨by decide +kernel, fun v => rfl, ?_⟩; decide +kernel

theorem witness_TaskEvents_host : packet.bytes.length = 64 ∧ leNat ((packet.bytes.drop 60).take 4) < 2
    ∧ (ready []).inMesh 0 2815 = true ∧ fget (ready []).tenants 4095 = none ∧ (ready []).hostStores = []
    ∧ ({ (ready []) with hostStores := [{ pa := 0, data := [1] }] } : State).hostStores ≠ [] := by decide +kernel

theorem witness_TimersAndNotices : let t := { (ready []) with cycle := 52500 }
    let s := (t.onMe fun c => { c with hold := 8, pend := [⟨8, .x 5 1⟩, ⟨60000, .x 5 2⟩] }).setCore 2815 { forwards := [(9, { used := 0 })] }
    let u := { s with net := { s.net with moved := [⟨2815, 9, 10⟩] } }
    s.me.hold ≠ 0 ∧ s.me.hold ≤ s.cycle ∧ s.me.pend = [⟨8, .x (5 : XReg).val 1⟩, ⟨60000, .x (5 : XReg).val 2⟩] ∧ 8 ≤ s.cycle
      ∧ fget (s.core 2815).forwards 9 = some { used := 0 } ∧ 0 + 52500 ≤ s.cycle ∧ u.net.moved[0]? = some ⟨2815, 9, 10⟩ := by
  decide +kernel

def record : TrapRec := { cause := 0x22, info := 0, row := 43, cores := 1, tval := 0, epc := 0, tag := 1, flags := 2, cycle := 0 }

theorem witness_TrapRings : let t := ready []
    let ring := fun (n : Nat) (l : FMap (List TrapRec)) =>
      ({ placeTenant with ringbase := 0x100000, ringlog := 4, head := n, held := l } : Tenant)
    let s := { t with tenants := [(0, ring 15 [(43, [record])])], net := { t.net with records := [(0, { record with row := 0 })] } }
    let full := { s with tenants := [(0, ring 16 [(0, List.replicate 64 record)])] }
    s.mem.wf = true ∧ s.net.records[0]? = some (0, { record with row := 0 }) ∧ ringRoom s 0 = true ∧ (s.tenant 0).monitor = 0
      ∧ s.deviceHeld (0x100000 + 64 * (15 % 16)) 64 = false
      ∧ (s.tenant 0).head + 1 < 2 ^ 64 ∧ ((fget (s.tenant 0).held 0).getD []) = [] ∧ fget (s.tenant 0).held 43 = some (record :: [])
      ∧ ringRoom full 0 = false ∧ 64 ≤ ((fget (full.tenant 0).held 0).getD []).length := by decide +kernel

theorem witness_DeadlockProbes : let t := withCtx 1 { slot := .parked, inc := 1, blocked := [(7, 1)] } (parkedOn .space (ready []))
    let s := { t with cycle := 21001 }
    s.cur < 45056 ∧ blockedAt s (s.tagOf s.cur) = some (1, 7) ∧ s.me.slot = .parked ∧ s.resident (s.tagOf s.cur) = some s.cur
      ∧ s.me.wait = some .space ∧ s.me.probed = none ∧ s.me.parkedAt + 21000 < s.cycle ∧ s.net.probes = [] ∧ 1 ≠ s.cur
      ∧ (s.core (1 / 16)).reserve = none ∧ (s.tenant 0).dlarea = 0 := by decide +kernel

theorem witness_DeadlockProbes_hop : let t := withCtx 1 { slot := .parked, inc := 1, blocked := [(7, 1)] } (ready [])
    let s := { parkedOn (.recv 3 5 0x100) t with net := { t.net with probes := [⟨257, 0, [257], false, 1⟩] } }
    let u := s.onMe fun c => { c with blocked := [(6, 513)] }
    blockedAt u (u.tagOf u.cur) = some (1, 7) ∧ u.net.probes = [⟨257, 0, [257], false, 1⟩] ∧ (257 : Nat) ≠ u.tagOf u.cur
      ∧ u.me.wait = some (.recv 3 5 0x100) ∧ u.me.blocked = (6, 513) :: [] := by decide +kernel

/-- A probe back at its origin over a path of two parked contexts; the deadlock area is absent, or it is memory. -/
def cycling (area : Word) : State :=
  let t := withCtx 17 { slot := .parked, inc := 1 } (parkedOn (.recv 3 5 0x100) (ready []))
  let p : Probe := { origin := t.tagOf 0, tenant := 0, path := [t.tagOf 0, t.tagOf 17], recv := true, at_ := t.tagOf 0 }
  { t with net := { t.net with probes := [p] }, tenants := [(0, { placeTenant with dlarea := area })] }

theorem witness_DeadlockProbes_cycle : let s := cycling 0x100000
    s.net.probes.length = 1 ∧ (∀ p ∈ s.net.probes, p.at_ = p.origin ∧ p.recv = true ∧ p.path = [0, 17].map s.tagOf ∧ p.tenant = 0)
      ∧ (∀ x ∈ [0, 17], s.resident (s.tagOf x) = some x ∧ (s.ctx x).slot = .parked)
      ∧ deadlockAddr s 0 = 0x100000 ∧ s.deviceHeld 0x100000 64 = false ∧ s.mem.wf = true
      ∧ deadlockAddr (cycling 0) 0 = 0 ∧ ({ s with reenc := [256] } : State).deviceHeld 0x100000 64 = true := by decide +kernel

theorem witness_TwinPairs : let st : Store := { pa := 0x100, data := [7] }
    let e : TwinEvent := { hash := 5, act := .store [st], at_ := 0 }
    let p : TwinPair := { a := some 1, b := some 257, ea := [e], eb := [e], seq := 3 }
    let t := withCtx 1 { slot := .ready, inc := 1 } (ready [])
    let s := { t with twins := [(9, p)], cycle := 4200 }
    fget s.twins 9 = some p ∧ p.ea = e :: [] ∧ p.a = some (s.tagOf 0) ∧ p.b = some (s.tagOf 1) ∧ s.resident (s.tagOf 0) = some 0
      ∧ s.resident (s.tagOf 1) = some 1 ∧ (s.core 0).recs = [] ∧ p.eb = e :: [] ∧ (s.ctx 0).slot = .ready ∧ (s.ctx 1).slot = .ready ∧ s.net.records = []
      ∧ ({ e with hash := 6 } : TwinEvent).hash ≠ e.hash ∧ (s.ctx 0).stores = [] ∧ rangeOf st.pa = .lpddr ∧ st.rlSy = false
      ∧ storeHeld s 0 st = false ∧ (∀ q ∈ blocks st.pa st.data.length, otherKey s (s.tenantOf 0) (q * 64) = false) ∧ ({ p with eb := [] } : TwinPair).eb = [] ∧ e.at_ + 4200 ≤ s.cycle := by
  decide +kernel

theorem witness_TwinPairs_traps : let s := (ready []).onMe fun c => { c with twin := true }
    s.me.twin = true ∧ s.me.cp = none ∧ s.feature 6 = true ∧ Quiet s [xref 6, xref 7, xref 5]
      ∧ bits s.me.cr.fmt 0 4 ≠ 11 ∧ bits s.me.cr.fmt 4 4 ≠ 11 ∧ s.me.recorded 9 = none
      ∧ (let t := (formatted 0xCBB []).onMe fun c => { c with twin := true }
         t.me.twin = true ∧ bits t.me.cr.fmt 0 4 = 11 ∧ bits t.me.cr.fmt 4 4 = 11 ∧ 8 ≤ bits t.me.cr.fmt 8 4 ∧ bits t.me.cr.fmt 8 4 ≤ 12) := by
  unfold Quiet; decide +kernel

/-! ### Collective engines, fabric, host -/

/-- An element-wise step with package 1023, whose next step is at 0x1040, in each phase. -/
def chainAt (phase : Phase) (op next : Nat) : State :=
  let k : Chain := { job := { job (command .cstep 0x1000) with cmd := { command .cstep 0x1000 with cg := { count := 2, index := 0 } } }
                     step := 0, desc := 0x1000, phase := phase, since := 0 }
  let t := (ready []).onMe fun c => { c with jobs := [{ id := 4, order := 2 }] }
  let d := natLe 8 next ++ natLe 8 0x3000 ++ natLe 8 0x2000 ++ natLe 8 0x3000 ++ natLe 4 1 ++ natLe 2 1023 ++ natLe 1 op
    ++ natLe 1 0x44 ++ List.replicate 24 0
  { t with mem := memWriteList t.mem 0x1000 d, coll := { run := some k }, fabric := { t.fabric with package := 5 } }

theorem witness_CollectiveChains : ∀ q ∈ [(Phase.notice, 0, 0x1040), (.data, 0, 0x1040), (.anise, 4, 0)],
    let s := chainAt q.1 q.2.1 q.2.2
    ∃ k, s.coll.run = some k ∧ NothingHeld s ∧ NoJoins s ∧ s.mem.wf = true ∧ s.resident k.job.cmd.tag = some 0
      ∧ (s.ctx 0).slot = .ready ∧ (s.ctx 0).jobs = [{ id := k.job.id, order := k.job.order }] ∧ k.job.cmd.op = .cstep
      ∧ k.job.bad = none ∧ k.job.lost = [] ∧ Fresh s (jobTlb s k.job.cmd) k.job.cmd.tenant ∧ k.desc % 64 = 0 ∧ JobReads s k.job.cmd k.desc 0x1000 64
      ∧ JobReads s k.job.cmd 0x3000 0x3000 4 ∧ JobReads s k.job.cmd 0x2000 0x2000 4
      ∧ JobWrites s k.job.cmd 0x3000 0x3000 4 false ∧ OwnKey s k.job.cmd 0x3000 4 ∧ 1023 ≠ s.fabric.package
      ∧ memReadList s.mem 0x1000 64 = natLe 8 q.2.2 ++ natLe 8 0x3000 ++ natLe 8 0x2000 ++ natLe 8 0x3000 ++ natLe 4 1
          ++ natLe 2 1023 ++ natLe 1 q.2.1 ++ natLe 1 0x44 ++ List.replicate 24 0
      ∧ k.phase = q.1 ∧ k.wrote = false ∧ k.acked = false ∧ k.job.cmd.cg.count = 2
      ∧ (∀ n ∈ s.coll.notices, ¬ (n.tenant = 0 ∧ n.peer = 1023 ∧ n.tag = k.tag)) := by
  intro q hq
  have hj : NoJoins (chainAt q.1 q.2.1 q.2.2) := by
    intro q hq va pa seen
    simp [chainAt, ready, placeWord, State.onMe, State.setMe, State.setCtx, fput, State.me, State.ctx, fget] at hq
    subst hq; simp
  refine ⟨_, rfl, ?_, hj, ?_, ?_, ?_, ?_, ?_, ?_, rfl, fresh_of_empty rfl _ _, ?_, ⟨⟨false, ok_of_empty rfl ?_⟩, ?_⟩,
    ⟨⟨false, ok_of_empty rfl ?_⟩, ?_⟩, ⟨⟨false, ok_of_empty rfl ?_⟩, ?_⟩, ⟨ok_of_empty rfl ?_, ?_⟩, ?_, ?_⟩
  all_goals
    clear hj; revert q
    first | (unfold NothingHeld; decide +kernel) | (unfold Plain; decide +kernel) | (unfold OwnKey; decide +kernel) | decide +kernel

theorem witness_CollectiveChains_waits : let c : Cmd := { command .cstep 0x1000 with cr := { cgdl := 1 }, cg := { count := 2, index := 0 } }
    let k : Chain := { job := job c, step := 0, desc := 0x1000, phase := .notice, since := 0 }
    let t := ready []
    let s := { t with coll := { run := some k }, cycle := 1024 }
    let q := { t with coll := { queue := [job c] } }
    s.coll.frozen = false ∧ c.cr.cgdl.toNat % 2 ^ 32 ≠ 0 ∧ k.since + c.cr.cgdl.toNat % 2 ^ 32 * 1024 ≤ s.cycle ∧ c.cg.count = 2
      ∧ c.cg.index = 0 ∧ q.coll.run = none ∧ q.coll.queue = [] ++ job c :: [] ∧ (q.core (c.tag / 4096)).stopped = false
      ∧ k.phase = .notice ∧ ({ k with phase := .done } : Chain).due ≤ s.cycle := by decide +kernel

/-- Port 31 holds `k`. -/
def linked (k : Port) : State :=
  let t := ready []
  { t with fabric := { t.fabric with ports := [(31, k)] } }
def frame (seq : Nat) : Frame := { seq := seq, nflit := 1, vc := 0, payload := [(0x80, 7), (0x81, 8)] }

/-- The next frame, in sequence; its port and channel fail it for the first and the third time. -/
theorem witness_Fabric_frames : ∀ fails < 3, let k : Port := { inService := true, seqIn := 4, fails := fails }
    let s := linked k
    let f := frame 4
    s.port 31 = k ∧ s.fabric.frames = [] ∧ frameHeld s f = false ∧ k.inService = true ∧ f.seq = k.seqIn ∧ k.seqIn < 2 ^ 48
      ∧ k.seqOut < 2 ^ 48 ∧ NothingHeld s ∧ (∀ q ∈ f.payload, rangeOf q.1 ≠ .peer) ∧ k.fails < 3 ∧ (frame 5).seq ≠ k.seqIn
      ∧ 1 ≤ f.nflit ∧ f.nflit ≤ 16 ∧ f.vc ≤ 3 ∧ f.reserved = 0 ∧ f.payload.length + f.data.length ≤ 64 * f.nflit
      ∧ ¬ (({ f with vc := 4 } : Frame).vc ≤ 3) ∧ frameHeld { s with reenc := [0] } f = true := by
  unfold NothingHeld; decide +kernel

/-- A frame with the tag of its fields verifies, whatever the keys are. -/
theorem witness_Fabric_seal (keys : Nat) : let f := frame 4
    frameOk 31 { inService := true, seqIn := 4, keys := keys } f (frameSeal f 31 false keys) = true := by
  simp [frameOk, frame]

theorem witness_Fabric_training : let t := ready []
    let s := { t with fabric := { t.fabric with ports := [(30, { degraded := true }), (31, { retry := [frame 3] })] } }
    let r : TrainRecord := { package := 1, port := 0, width := 16, laneMap := 0, speed := 3 }
    s.feature 0 = true ∧ (s.port 31).inService = false ∧ (s.port 31).retired = false ∧ (s.port 31).degraded = false
      ∧ (s.port 31).pend = [] ∧ (s.port 31).retry = [frame 3] ∧ (s.port 30).degraded = true ∧ (s.port 30).retry = []
      ∧ (s.port 30).pend = [] ∧ NothingHeld s ∧ ¬ r.width = ({ r with width := 8 } : TrainRecord).width := by
  unfold NothingHeld; decide +kernel

/-- A full retry buffer with a frame behind it, of which the acknowledgement of frame 2 leaves 125. -/
theorem witness_Fabric_acks : let k : Port := { inService := true, seqOut := 128, pend := [frame 0], retry := (List.range 128).map frame }
    (linked k).port 31 = k ∧ k.pend = [frame 0] ∧ (k.retry.filter (2 < ·.seq)).length = 125 ∧ k.seqOut + 1 < 2 ^ 48
      ∧ ({ k with pend := [] } : Port).pend = [] := by decide +kernel

theorem witness_Fabric_messages : let t := ready []
    let s := { t with
      tenants := [(0, { placeTenant with members := 2 })],
      fabric := { t.fabric with routes := [(9 * 4 + 3, 31), (9 * 4, 31), (8 * 4, 30)], ports := [(31, { inService := true }), (30, { degraded := true })] },
      posted := [⟨1, 0, 9, 0x8_0000_0000_0000 + 9 * 2 ^ 41, [7]⟩] }
    s.fabric.waiting = [] ∧ (s.tenant 0).members.getLsbD 1 = true ∧ (s.tenant 0).members.getLsbD 2 = false
      ∧ fget s.tenants 0 ≠ none ∧ fget s.tenants 4 = none ∧ allLpddr s (0x1000 % 2 ^ 41) 1 = true ∧ allLpddr s (2 ^ 41 - 1) 1 = false ∧ s.deviceHeld (0x1000 % 2 ^ 41) 1 = false ∧ 9 ≠ s.fabric.package
      ∧ (∀ b ∈ blocks 0x1000 1, otherKey s 0 (b * 64) = false) ∧ ({ s with reenc := [1] } : State).deviceHeld 0x1000 1 = true
      ∧ s.fabric.routes.find? (fun e => e.1 = 9 * 4 + 2 + 1) = some (9 * 4 + 2 + 1, 31) ∧ (s.port 31).inService = true
      ∧ (s.port 31).pend = [] ∧ (s.port 31).retry = [] ∧ (s.port 31).degraded = false ∧ (s.port 31).retired = false
      ∧ (s.port 30).degraded = true ∧ s.posted ≠ [] ∧ linkWaits s true (0x8_0000_0000_0000 + 9 * 2 ^ 41) 1 = false
      ∧ reachable s (0x8_0000_0000_0000 + 9 * 2 ^ 41) = true ∧ reachable s (0x8_0000_0000_0000 + 7 * 2 ^ 41) = false
      ∧ s.net.records = [] ∧ (∀ e ∈ s.fabric.routes, e.1 ≠ 7 * 4 + 2 + 1) ∧ routeTo s 9 = some 31 := by decide +kernel

/-- A read for this package, and one for a package without a route. -/
theorem witness_Fabric_reads : let t := ready []
    let s := { t with tenants := [(0, { placeTenant with members := 2 })], fabric := { t.fabric with routes := [(1 * 4, 31)] } }
    s.fabric.waiting = [] ∧ routeTo s 1 = some 31 ∧ (∀ e ∈ s.fabric.routes, e.1 ≠ 7 * 4 + 2 + 1) ∧ 7 ≠ s.fabric.package
      ∧ (s.tenant 0).members.getLsbD 1 = true ∧ fget s.tenants 0 ≠ none ∧ allLpddr s (2 ^ 41 - 8) 8 = false
      ∧ allLpddr s 0x1000 8 = true ∧ s.readHeld 0x1000 8 = false ∧ s.pausedAt 0x1000 8 = false ∧ Plain s 0 0x1000 8 := by
  unfold Plain; decide +kernel

/-- A load of a peer's bytes that waits for its answer. -/
theorem witness_Fabric_answers : let a := 0x8_0000_0000_0000 + 9 * 2 ^ 41
    let c : Ctx := { slot := .parked, inc := 1, wait := some (.load .d false 5 ⟨0x4000_0000, a, false, 8⟩) }
    let t := ready []
    let s := { t with ctxs := [(0, c)], tenants := [(0, { placeTenant with members := 2 })] }
    s.fabric.waiting = [] ∧ s.coll.run = none ∧ (s.tenant 0).members.getLsbD 1 = true ∧ fget s.tenants 0 ≠ none ∧ s.ctxs = [(0, c)]
      ∧ s.tenantOf 0 = 0 ∧ c.slot = .parked ∧ c.landing = [] ∧ a < a + 4 + max 1 ([0, 0] : List Byte).length ∧ a + 4 < a + 8 := by decide +kernel

/-- An owner record of zero keys; a configuration with one tenant, number 3, of the whole package. -/
def ownerBody : List Byte := natLe 4 1 ++ List.replicate 2012 0
def configBody : List Byte :=
  natLe 4 1 ++ natLe 4 1 ++ natLe 8 1 ++ natLe 8 1 ++ natLe 8 1 ++ [0, 0, 0, 12] ++ natLe 2 0 ++ natLe 2 3 ++ natLe 2 65535
    ++ List.replicate 22 0 ++ (natLe 2 3 ++ [0, 0, 16, 22] ++ List.replicate 186 0)

theorem witness_HostWrites : let s := ready []
    let j := fun (n : Nat) => ({ s with tenants := [(0, { placeTenant with audit := { stat := n } })] } : State)
    let h := ({ s with boot := { s.boot with record := some { configOf configBody with hdmSize := 1 } } } : State)
    0 < 4096 ∧ fget s.tenants 0 = some placeTenant ∧ placeTenant.audit.stat = 0 ∧ (∀ n < 4, ((j n).tenant 0).audit.stat = n)
      ∧ s.hostStores = [] ∧ s.hostPackets = [] ∧ s.hostReads = [] ∧ s.deviceHeld 0x1000 8 = false ∧ 0x1000 + 8 ≤ hdmSize h
      ∧ h.readHeld 0x1000 8 = false ∧ Plain h (hdmTenant h) 0x1000 8 ∧ (∀ b ∈ blocks 0x1000 8, otherKey h (hdmTenant h) (b * 64) = false)
      ∧ ({ h with reenc := [1] } : State).readHeld 0x1000 8 = true ∧ ({ h with reenc := [1] } : State).deviceHeld 0x1000 8 = true
      ∧ hdmSize s < 2 ^ 41 := by unfold Plain; decide +kernel

theorem witness_HostWrites_image : let s := ready []
    let t0 := { placeTenant with audit := { codebase := 0x1000, codelen := 8 } }
    let u := { s with tenants := [(0, t0)] }
    fget u.tenants 0 = some t0 ∧ t0.audit.stat = 0 ∧ t0.audit.codelen ≠ 0
      ∧ u.readHeld t0.audit.codebase.toNat t0.audit.codelen.toNat = false := by decide +kernel

def blank (n : Nat) : List Byte := List.replicate n 0
/-- The bytes of a signed record of a kind, under a signer's keys, with zeros for signatures. -/
def signedBytes (kind : Nat) (k : Keys) (body : List Byte) : List Byte :=
  (natLe 4 kind ++ natLe 4 body.length ++ natLe 8 1) ++ (sha384 (k.ed ++ k.ml) ++ (body ++ (blank 64 ++ blank 3309)))

def zeroKeys : Keys := { ed := List.replicate 32 0, ml := List.replicate 1952 0 }

/-- A start whose records are in order. -/
def goodStart : ResetInput :=
  { firmware := [signedBytes 1 vendorKeys [0]], owner := signedBytes 3 vendorKeys ownerBody, config := signedBytes 2 zeroKeys configBody
    lpddrOk := true, selfTestOk := true, hostLinkOk := true, expanders := [some 4000000000000, none] }

theorem witness_StartSequence : State.reset.boot.fails < 3 ∧ goodStart.firmware.length = 1
    ∧ configBody.length = 64 + 192 * leNat ((configBody.drop 4).take 4) ∧ recordOk (configOf configBody) = true
    ∧ (configOf configBody).minFw = 1 ∧ (configOf configBody).tenants.length = 1 := by decide +kernel

theorem length_blank (n : Nat) : (blank n).length = n := List.length_replicate

theorem signedRecord_signedBytes (kind : Nat) (k : Keys) (body : List Byte) (h : 1 ≤ body.length ∧ body.length ≤ 2 ^ 28) :
    signedRecord (signedBytes kind k body) = some ⟨kind % 256 ^ 4, 1, sha384 (k.ed ++ k.ml), body,
      (signedBytes kind k body).take (64 + body.length), blank 64, blank 3309⟩ := by
  have hs : (sha384 (k.ed ++ k.ml)).length = 48 := by simp [sha384]
  have hl : (natLe 4 kind ++ natLe 4 body.length ++ natLe 8 1).length = 16 := by simp [length_natLe]
  have d16 : (signedBytes kind k body).drop 16
      = sha384 (k.ed ++ k.ml) ++ (body ++ (blank 64 ++ blank 3309)) := List.drop_left' hl
  have d64 : (signedBytes kind k body).drop 64 = body ++ (blank 64 ++ blank 3309) := by
    rw [show 64 = 16 + 48 from rfl, ← List.drop_drop, d16]; exact List.drop_left' hs
  have d64b : (signedBytes kind k body).drop (64 + body.length) = blank 64 ++ blank 3309 := by
    rw [← List.drop_drop, d64]; exact List.drop_left' rfl
  have dml : (signedBytes kind k body).drop (128 + body.length) = blank 3309 := by
    rw [show 128 + body.length = 64 + body.length + 64 by omega, ← List.drop_drop, d64b]; exact List.drop_left' (length_blank 64)
  have f4 : field (signedBytes kind k body) 4 4 = body.length := by
    simp only [field, signedBytes, List.append_assoc]
    rw [List.drop_left' (length_natLe 4 kind), List.take_left' (length_natLe 4 _), leNat_natLe]
    exact Nat.mod_eq_of_lt (by omega)
  have f0 : field (signedBytes kind k body) 0 4 = kind % 256 ^ 4 := by
    simp only [field, signedBytes, List.append_assoc, List.drop_zero]
    rw [List.take_left' (length_natLe 4 _), leNat_natLe]
  have f8 : field (signedBytes kind k body) 8 8 = 1 := by
    simp only [field, signedBytes, List.append_assoc]
    rw [← List.append_assoc, List.drop_left' (by simp [length_natLe]), List.take_left' (length_natLe 8 _), leNat_natLe,
      Nat.mod_eq_of_lt (by decide)]
  have hn : (signedBytes kind k body).length = 64 + body.length + 64 + 3309 := by
    simp only [signedBytes, List.length_append, length_natLe, hs, length_blank]; omega
  unfold signedRecord
  simp only [f4, f0, f8, hn, d16, d64, d64b, dml]
  rw [if_pos ⟨h.1, h.2, trivial⟩]
  simp only [List.take_left' hs, List.take_left' (length_blank 64), List.take_left' rfl]

/-- Where the verifiers of the signatures accept these records, the start succeeds. -/
theorem witness_StartSequence_accepted (he : ∀ k m s, Config.edVerifies k m s = true) (hm : ∀ k m s, Config.mlVerifies k m s = true) :
    startFailure goodStart = none ∧ startFailure { goodStart with hostLinkOk := false } = some 7 := by
  have acc : ∀ kind k body, kind < 256 → (1 ≤ body.length ∧ body.length ≤ 2 ^ 28) →
      ∃ r, acceptedRecord kind k (signedBytes kind k body) = some r ∧ r.version = 1 ∧ r.body = body := by
    intro kind k body hk h
    refine ⟨⟨kind, 1, sha384 (k.ed ++ k.ml), body, (signedBytes kind k body).take (64 + body.length), blank 64,
      blank 3309⟩, ?_, rfl, rfl⟩
    unfold acceptedRecord
    rw [signedRecord_signedBytes kind k body h, show kind % 256 ^ 4 = kind by omega]
    simp [Signed.accepted, he, hm]
  obtain ⟨f, hf, fv, -⟩ := acc 1 vendorKeys [0] (by decide) (by decide)
  obtain ⟨o, ho, ov, ob⟩ := acc 3 vendorKeys ownerBody (by decide) (by decide +kernel)
  obtain ⟨c, hc, cv, cb⟩ := acc 2 zeroKeys configBody (by decide) (by decide +kernel)
  have hk : ownerKeys ownerBody = some zeroKeys := by
    have h : ownerBody.length = 2016 ∧ field ownerBody 0 4 = 1 ∧ field ownerBody 4 4 = 0 ∧ field ownerBody 2008 8 = 0
        ∧ (ownerBody.drop 24).take 32 = zeroKeys.ed ∧ (ownerBody.drop 56).take 1952 = zeroKeys.ml := by decide +kernel
    unfold ownerKeys
    rw [if_pos ⟨h.1, h.2.1, h.2.2.1, h.2.2.2.1⟩, h.2.2.2.2.1, h.2.2.2.2.2]
  have hr : recordOk (configOf configBody) = true ∧ configLength configBody = true ∧ (configOf configBody).minFw = 1
      ∧ (configOf configBody).minCfg = 1 ∧ (configOf configBody).minOwn = 1 := by decide +kernel
  have key : ∀ g : ResetInput, g.firmware = [signedBytes 1 vendorKeys [0]] → g.owner = signedBytes 3 vendorKeys ownerBody →
      g.config = signedBytes 2 zeroKeys configBody → g.lpddrOk = true → g.selfTestOk = true →
      startFailure g = if g.hostLinkOk then none else some 7 := by
    intro g h1 h2 h3 h4 h5
    simp only [startFailure, startFirmware, startRecords, h1, h2, h3, h4, h5, List.mapM_cons, List.mapM_nil, hf, ho, hc, ob, hk, cb,
      hr, ov, cv, Option.bind_eq_bind, Option.bind_some, Option.pure_def, Option.map_some]
    cases g.hostLinkOk <;> simp [fv]
  exact ⟨key _ rfl rfl rfl rfl rfl, key _ rfl rfl rfl rfl rfl⟩

theorem witness_StartSequence_states : let b := fun (n : Nat) => ({ State.reset with
      boot := { State.reset.boot with state := n, minimal := true, fails := 3, record := some (configOf configBody) }, cycle := 63000000000 } : State)
    (b 2).boot.state = 2 ∧ (b 2).boot.since + 60 * 1050000000 ≤ (b 2).cycle ∧ (b 5).boot.state = 5
      ∧ (b 5).boot.since + 1050000000 ≤ (b 5).cycle ∧ (b 4).boot.minimal = true ∧ (b 2).boot.fails = 3
      ∧ (b 2).boot.record = some (configOf configBody) := by decide +kernel

/-! ### Steps -/

theorem witness_Rotation : ∀ lend : Bool, let t := (withCtx 9 { slot := .ready } ((ready []).onMe fun c => { c with lastIssue := some 0 })).setCore 0 { lend := lend }
    let s := { t with cycle := 1 }
    (s.core 0).lend = lend ∧ (s.ctx (0 * 16 + 1)).slot ≠ .ready ∧ (s.ctx 9).slot = .ready ∧ 8 ≤ (9 + 16 - 1) % 16
      ∧ issueSlot s 0 = (if lend then some 9 else none) ∧ nextIssue (ready []) = some (0, 0) := by decide +kernel

theorem witness_StepRunsDecoded : let s := ready []
    let t := atIssue 0 0 s
    s.agenda = [] ∧ earlyEvent s = none ∧ nextIssue s = some (0, 0)
      ∧ (match fetch t with | .parcels ps => some ps | _ => none) = some [0xE000] ∧ decode [0xE000] = .ok .nop 1
      ∧ decode [0xE001] = .bad 0xE001 0 ∧ 0xE000 / 4096 ≠ 15 ∧ myTranslate t 0x10000 = some (0x10000, 0x7D)
      ∧ permits 0x7D t.me.priv .ex = true ∧ classOf t 0x10000 = .lpddr ∧ rangeOf 0x10000 ≠ .peer
      ∧ t.readHeld 0x10000 2 = false ∧ (∀ m ∈ t.maint, sameSector m.lo m.hi 0x10000 0x10001 = false) ∧ Plain t t.myTenant 0x10000 2
      ∧ leNat (memReadList t.mem 0x10000 2) = 0xE000
      ∧ (∀ st ∈ t.me.stores, st.fence = none) := by unfold Plain; decide +kernel

/-- A fence stands in the store path behind a store of other bytes than those fetched. -/
theorem witness_StepRunsDecoded_fence : let s := (ready []).onMe fun c => { c with
      stores := [{ pa := 0x100, data := [1], seq := 0 }, { pa := 0, data := [], seq := 1, fence := some false }], seq := 2 }
    (∃ st ∈ s.me.stores, st.fence ≠ none)
      ∧ ∀ st ∈ heldStores s s.cur, st.pa + st.data.length ≤ 0x10000 ∨ 0x10002 ≤ st.pa := by decide +kernel

theorem witness_EveryStepKeepsMemOk : MemOk (ready []) := by unfold MemOk; decide +kernel

end Sys2Proof.Tests
end

section
/-! SUPPORT. Mailboxes and what a watched channel holds (R47, R63, R363). -/

namespace Sys2Proof.Machine

/-! ## Channels that hold a message -/

/-- A channel holds a message, of either priority. -/
def Ctx.Holds (c : Ctx) (n : Nat) : Prop := c.box (2 * n) ≠ [] ∨ c.box (2 * n + 1) ≠ []

/-- The context with a message in the last place of a mailbox. -/
def Ctx.withMsg (c : Ctx) (key : Nat) (m : Msg) : Ctx := { c with mailbox := fput c.mailbox key (c.box key ++ [m]) }

@[simp] theorem boxKey_eq (ch : Nat) (hi : Bool) : boxKey ch hi = 2 * ch + hi.toNat := by rw [boxKey, Nat.mul_comm]

@[simp] theorem Ctx.box_withMsg_self (c : Ctx) (key : Nat) (m : Msg) : (c.withMsg key m).box key = c.box key ++ [m] := by
  simp [Ctx.withMsg, Ctx.box]

theorem Ctx.box_withMsg_ne (c : Ctx) {key key' : Nat} (m : Msg) (h : key' ≠ key) :
    (c.withMsg key m).box key' = c.box key' := by
  simp [Ctx.withMsg, Ctx.box, fget_fput_ne _ _ h]

/-- A message placed on a channel makes that channel hold one and no other. -/
theorem Ctx.holds_withMsg (c : Ctx) (ch : Nat) (hi : Bool) (m : Msg) (n : Nat) :
    (c.withMsg (2 * ch + hi.toNat) m).Holds n ↔ n = ch ∨ c.Holds n := by
  have hb : hi.toNat < 2 := Bool.toNat_lt hi
  by_cases hn : n = ch
  · subst hn
    have : (c.withMsg (2 * n + hi.toNat) m).Holds n := by
      cases hi
      · exact .inl (by simp)
      · exact .inr (by simp)
    simp [this]
  · rw [Ctx.Holds, Ctx.box_withMsg_ne c m (by omega), Ctx.box_withMsg_ne c m (by omega)]
    simp [hn, Ctx.Holds]

/-- R65 selects a mailbox of a channel exactly where the channel holds a message. -/
theorem selectBox_isSome (c : Ctx) (n : Nat) : (selectBox c n).isSome = true ↔ c.Holds n := by
  simp only [selectBox, Ctx.Holds, boxKey_eq, Bool.toNat_true, Bool.toNat_false, Nat.add_zero]
  cases c.box (2 * n) <;> cases c.box (2 * n + 1) <;> simp

/-! ## Watched channels -/

theorem watchHit_iff (c : Ctx) (mask : Nat) :
    watchHit c mask = true ↔ ∃ n, n < 4 ∧ mask.testBit n = true ∧ c.Holds n := by
  simp [watchHit, selectBox_isSome, Nat.testBit_eq_decide_div_mod_eq]

theorem watchHit_eq_false (c : Ctx) (mask : Nat) :
    watchHit c mask = false ↔ ∀ n, n < 4 → mask.testBit n = true → ¬ c.Holds n := by
  rw [← Bool.not_eq_true, watchHit_iff]; simp

/-- Where no watched channel holds a message, one that is placed hits exactly if its own channel is watched. -/
theorem watchHit_withMsg {c : Ctx} {mask ch : Nat} (hc : ch < 4) (h : watchHit c mask = false) (hi : Bool) (m : Msg) :
    watchHit (c.withMsg (2 * ch + hi.toNat) m) mask = mask.testBit ch := by
  rw [watchHit_eq_false] at h
  rw [Bool.eq_iff_iff, watchHit_iff]
  constructor
  · rintro ⟨n, hn, hm, hh⟩
    rcases (c.holds_withMsg ch hi m n).1 hh with rfl | hold
    · exact hm
    · exact absurd hold (h n hn hm)
  · exact fun hm => ⟨ch, hc, hm, (c.holds_withMsg ch hi m ch).2 (.inl rfl)⟩

/-- The mask of `park` is xs[3:0]. -/
theorem watchMask_eq (w : Word) : bits w 0 4 = w.toNat % 16 := by simp [bits]

theorem watchMask_testBit (w : Word) (n : Nat) : (bits w 0 4).testBit n = (decide (n < 4) && w.getLsbD n) := by
  rw [watchMask_eq, show 16 = 2 ^ 4 from rfl, Nat.testBit_mod_two_pow, BitVec.getLsbD]

theorem watchMask_eq_zero (w : Word) : bits w 0 4 = 0 ↔ ∀ n, ¬ (n < 4 ∧ w.getLsbD n = true) := by
  constructor
  · rintro h n ⟨hn, hw⟩
    have := watchMask_testBit w n
    simp [h, hn, hw] at this
  · intro h
    refine Nat.eq_of_testBit_eq fun n => ?_
    rw [watchMask_testBit, Nat.zero_testBit, ← Bool.not_eq_true, Bool.and_eq_true, decide_eq_true_eq]
    exact h n

/-- A channel that `park` watches holds a message. -/
theorem watchHit_watchMask (c : Ctx) (w : Word) :
    watchHit c (bits w 0 4) = true ↔ ∃ n, (n < 4 ∧ w.getLsbD n = true) ∧ c.Holds n := by
  simp only [watchHit_iff, watchMask_testBit, Bool.and_eq_true, decide_eq_true_eq]
  constructor
  · rintro ⟨n, -, hn, hold⟩
    exact ⟨n, hn, hold⟩
  · rintro ⟨n, hn, hold⟩
    exact ⟨n, hn.1, hn, hold⟩

end Sys2Proof.Machine
end

section
/-! SUPPORT. A message that reaches a resident context, its acceptance, and the wake on a watched channel (R47, R64, R372). -/

namespace Sys2Proof.Machine

/-! ## Placing a message -/

/-- A tag names the slot of its upper bits alone (R38). -/
theorem State.resident_eq {s : State} {tag : Nat} {x : CtxId} (h : s.resident tag = some x) : x = tag / 256 := by
  simp only [State.resident, Option.ite_none_right_eq_some, Option.some.injEq] at h
  exact h.2.symm

theorem placeMsgIn_cur (x : CtxId) (m : Msg) (s : State) : (placeMsgIn x m s).cur = s.cur := rfl
theorem placeMsgIn_cycle (x : CtxId) (m : Msg) (s : State) : (placeMsgIn x m s).cycle = s.cycle := rfl

/-- A message without a grant that was not forwarded stands in its mailbox as it arrived. -/
theorem placeMsgIn_ctx (x : CtxId) {m : Msg} (hg : m.granted = false) (hd : m.done = false) (hv : m.via = []) (s : State) :
    (placeMsgIn x m s).ctx x = (s.ctx x).withMsg (2 * m.ch + m.hi.toNat) m := by
  have hm : { m with granted := false, done := false, via := [] } = m := by cases m; simp_all
  rw [placeMsgIn, hm, boxKey_eq]
  exact State.ctx_setCtx_self s x _

/-- There is room in an empty mailbox that no grant refers to, and with no inbox place left nothing goes before. -/
theorem placeable_empty {s : State} {x : CtxId} {key : Nat} (hb : (s.ctx x).box key = []) (hi : (s.ctx x).inbox = [])
    (hg : ∀ q ∈ s.net.msgs, q.granted = false) : placeable s x key = true := by
  have hgrant : grantedTo s (s.tagOf x) key = 0 := by
    rw [grantedTo, List.length_eq_zero_iff, List.filter_eq_nil_iff]
    intro q hq
    simp [hg q hq]
  have hnext : inboxNext s x key = none := by
    simp only [inboxNext, hi, List.findSome?_nil]
    split <;> rfl
  simp [placeable, boxFree, hb, hgrant, hnext, hi]

theorem arriveMsg_placed {s : State} {m : Msg} {x : CtxId} (hr : s.resident m.dest = some x) (hi : (s.ctx x).inbox = [])
    (hp : placeable s x (2 * m.ch + m.hi.toNat) = true) :
    arriveMsg m s = wakeReceiver x (accepted m (placeMsgIn x m s)) := by
  simp [arriveMsg, routeOf, hr, inboxWaits, hi, hp]

/-! ## Acceptance -/

@[simp] theorem sendDone_cur (tag : Nat) (s : State) : (sendDone tag s).cur = s.cur := by
  unfold sendDone; split <;> rfl
@[simp] theorem sendDone_cycle (tag : Nat) (s : State) : (sendDone tag s).cycle = s.cycle := by
  unfold sendDone; split <;> rfl

/-- The end of a `send` concerns the slot of the sender alone. -/
theorem sendDone_ctx_ne {tag : Nat} {z : CtxId} (h : z ≠ tag / 256) (s : State) : (sendDone tag s).ctx z = s.ctx z := by
  unfold sendDone
  split
  · rfl
  · rename_i x hx
    have hz : z ≠ x := State.resident_eq hx ▸ h
    rw [State.ctx_at, (completePark_onlyMe _).2 z hz, State.ctx_onMe_ne _ _ hz, State.ctx_at]

@[simp] theorem accepted_cur (m : Msg) (s : State) : (accepted m s).cur = s.cur := by
  unfold accepted
  cases m.done
  · exact sendDone_cur _ _
  · rfl
@[simp] theorem accepted_cycle (m : Msg) (s : State) : (accepted m s).cycle = s.cycle := by
  unfold accepted
  cases m.done
  · exact sendDone_cycle _ _
  · rfl

theorem accepted_ctx_ne {m : Msg} {z : CtxId} (h : z ≠ m.sender / 256) (s : State) : (accepted m s).ctx z = s.ctx z := by
  unfold accepted
  cases m.done
  · exact sendDone_ctx_ne h _
  · rfl

/-! ## The wake -/

/-- A context that waits for nothing more goes on at the next instruction, from the next cycle on (R45, R46). -/
theorem completePark_me {s : State} (h : s.me.slot = .parked) :
    (completePark s).me = { s.me with slot := .ready, wait := none, pc := s.me.next, readyAt := s.cycle + 1 } := by
  simp [completePark, h]

@[simp] theorem wakeReceiver_cur (x : CtxId) (s : State) : (wakeReceiver x s).cur = s.cur := rfl

/-- A message in a mailbox wakes a context that is parked on watched channels exactly where one of these holds it. -/
theorem wakeReceiver_watch {s : State} {x : CtxId} {mask : Nat} (hp : (s.ctx x).slot = .parked)
    (hw : (s.ctx x).wait = some (.watch mask)) :
    (wakeReceiver x s).ctx x =
      if watchHit (s.ctx x) mask then
        { s.ctx x with slot := .ready, wait := none, pc := (s.ctx x).next, readyAt := s.cycle + 1 }
      else s.ctx x := by
  cases hh : watchHit (s.ctx x) mask
  · simp [wakeReceiver, hp, hw, hh]
  · have hwake : wakeReceiver x s = (completePark (s.at x)).at s.cur := by simp [wakeReceiver, hp, hw, hh]
    rw [hwake, if_pos rfl, State.ctx_at]
    exact completePark_me (s := s.at x) hp

/-! ## `park` and MESSAGE_ARRIVAL -/

theorem park_next {s : State} {a : XReg} (hq : Quiet s [xref a]) (hc : s.me.cp = none) :
    exec (.park a) s = .next (if bits (s.x a) 0 4 = 0 ∨ watchHit s.me (bits (s.x a) 0 4) then retire 0 s
      else parkOn (.watch (bits (s.x a) 0 4)) s) :=
  congrArg Host.Outcome.next ((notAhead_off hc _).trans (scoreboard_quiet hq _))

/-- `park` goes on where it watches no channel or a watched one holds a message (R47). -/
theorem park_gone {s : State} {a : XReg} (hq : Quiet s [xref a]) (hc : s.me.cp = none)
    (h : bits (s.x a) 0 4 = 0 ∨ watchHit s.me (bits (s.x a) 0 4) = true) :
    Becomes (.park a) s (s.me.gone s.cycle 0) :=
  ⟨retire 0 s, by rw [park_next hq hc, if_pos h], retire_onlyMe 0 s, retire_me 0 s⟩

theorem park_parked {s : State} {a : XReg} (hq : Quiet s [xref a]) (hc : s.me.cp = none)
    (h : ¬ (bits (s.x a) 0 4 = 0 ∨ watchHit s.me (bits (s.x a) 0 4) = true)) :
    Becomes (.park a) s (s.me.parkedOn (.watch ((s.x a).toNat % 16)) s.cycle) :=
  ⟨parkOn (.watch (bits (s.x a) 0 4)) s, by rw [park_next hq hc, if_neg h], parkOn_onlyMe _ s,
    by rw [parkOn_me, watchMask_eq]⟩

theorem messageArrival_next {s : State} {k : Nat} {m : Msg} (hk : s.net.msgs[k]? = some m) (ha : m.at_ ≤ s.cycle) :
    exec (.messageArrival k) s = .next (arriveMsg m { s with net := { s.net with msgs := s.net.msgs.eraseIdx k } }) := by
  change execMessageArrival k s = _
  simp [execMessageArrival, hk, Nat.not_lt.2 ha]

/-- A message of another context that reaches the context of the step, parked on watched channels, with its mailbox empty and
no grant under way: it is in its mailbox, and the context is woken exactly where the mask hits. -/
theorem messageArrival_watch {s : State} {k : Nat} {m : Msg} {mask : Nat} (hp : s.me.slot = .parked)
    (hw : s.me.wait = some (.watch mask)) (hk : s.net.msgs[k]? = some m) (ha : m.at_ ≤ s.cycle)
    (hg : ∀ q ∈ s.net.msgs, q.granted = false) (hd : m.done = false) (hv : m.via = [])
    (hr : s.resident m.dest = some s.cur) (hs : s.cur ≠ m.sender / 256) (hi : s.me.inbox = [])
    (hb : s.me.box (2 * m.ch + m.hi.toNat) = []) :
    let c := s.me.withMsg (2 * m.ch + m.hi.toNat) m
    ∃ t, exec (.messageArrival k) s = .next t ∧
      t.me = if watchHit c mask then { c with slot := .ready, wait := none, pc := c.next, readyAt := s.cycle + 1 } else c := by
  intro c
  let s' : State := { s with net := { s.net with msgs := s.net.msgs.eraseIdx k } }
  have hplace : placeable s' s.cur (2 * m.ch + m.hi.toNat) = true :=
    placeable_empty hb hi fun q hq => hg q (List.mem_of_mem_eraseIdx hq)
  have hctx : (accepted m (placeMsgIn s.cur m s')).ctx s.cur = c :=
    (accepted_ctx_ne hs _).trans (placeMsgIn_ctx s.cur (hg m (List.mem_of_getElem? hk)) hd hv s')
  refine ⟨_, (messageArrival_next hk ha).trans (congrArg _ (arriveMsg_placed hr hi hplace)), ?_⟩
  rw [State.me, wakeReceiver_cur, accepted_cur, placeMsgIn_cur, wakeReceiver_watch (mask := mask) (by rw [hctx]; exact hp)
    (by rw [hctx]; exact hw), hctx, accepted_cycle, placeMsgIn_cycle]

end Sys2Proof.Machine
end

section
/-! The statement about `park`. -/

namespace Sys2Proof.Machine

/-- Settles O31: the mask that `park` reads hits exactly where a watched channel holds a message, and the message that
arrives changes what its own channel holds and no other. -/
theorem park : Obligations.Park := by
  intro s a hq hc
  refine ⟨fun hgo => park_gone hq hc ?goes, fun hsome hempty => park_parked hq hc ?parks, ?arrives⟩
  case goes =>
    rw [watchMask_eq_zero, watchHit_watchMask]
    exact hgo.symm
  case parks =>
    rw [watchMask_eq_zero, watchHit_watchMask]
    rintro (hnone | ⟨n, hn, hold⟩)
    · exact hsome.elim hnone
    · exact hempty n hn hold
  case arrives =>
    intro k m mask y hp hw hempty hk ha hg hd hv _ hch hr hsender hy hi key hb
    have hs : s.cur ≠ m.sender / 256 := fun e => hy (State.resident_eq hsender ▸ e.symm)
    obtain ⟨t, hexec, hme⟩ := messageArrival_watch hp hw hk ha hg hd hv hr hs hi hb
    rw [watchHit_withMsg hch ((watchHit_eq_false _ _).2 hempty)] at hme
    have hbox : (s.me.withMsg key m).box key = [m] := by rw [Ctx.box_withMsg_self, hb, List.nil_append]
    refine ⟨t, hexec, ?_⟩
    cases hbit : mask.testBit m.ch
    · rw [hbit, if_neg (by decide)] at hme
      rw [hme]
      exact ⟨hbox, rfl, nofun, fun _ => ⟨hp, rfl⟩⟩
    · rw [hbit, if_pos rfl] at hme
      rw [hme]
      exact ⟨hbox, rfl, fun _ => ⟨rfl, rfl, rfl⟩, nofun⟩

end Sys2Proof.Machine
end

section
/-! SUPPORT. Reading a chain of parcels and the register forms of MAJ 0x0 (R70, R71, R73, R310). -/

namespace Sys2Proof.Machine

/-! ## The chain of parcels -/

/-- A parcel whose bits 15 to 12 are not 0xF ends the chain: it is the base parcel (R67). -/
theorem scan_base {w : Nat} (h : w / 4096 % 16 ≠ 15) (ws : List Nat) (rank n : Nat) (p : Pre) :
    scan (w :: ws) rank n p = .ok { p with maj := w / 4096 % 16, lo := w % 4096 } := by
  rw [scan, if_pos h]

/-- An XR parcel with no XR, XS or XI before it gives its payload to the base parcel (R71). -/
theorem scan_xr {v rank n : Nat} (hv : v < 1024) (hr : rank < 2) (hn : n < 4) (ws : List Nat) (p : Pre) :
    scan ((0xF400 + v) :: ws) rank n p = scan ws 2 (n + 1) { p with xr := some v } := by
  have hchain : (0xF400 + v) / 4096 % 16 = 15 := by omega
  have hkind : (0xF400 + v) / 1024 % 4 = 1 := by omega
  have hpayload : (0xF400 + v) % 1024 = v := by omega
  simp [scan, hchain, hkind, hpayload, Nat.not_le.2 hr, Nat.not_le.2 hn]

/-! ## Registers and format G -/

@[simp] theorem xreg_val (d : XReg) : xreg d.val = d := Fin.ofNat_val_eq_self d

/-- A form of MAJ 0x0 without file selects, stall count or extended immediate is named by its FN, and each register by its
two bits in XR above its three bits in the base parcel (R70, R310). -/
theorem decodePre_maj0 (xr : Option Nat) (lo : Nat) (hfile : xr.getD 0 % 16 = 0) :
    decodePre { xr := xr, lo := lo } = alu3 0 (lo / 512 % 8) (xreg (xr.getD 0 / 256 % 4 * 8 + lo / 64 % 8))
      (xreg (xr.getD 0 / 64 % 4 * 8 + lo / 8 % 8)) (xreg (xr.getD 0 / 16 % 4 * 8 + lo % 8)) := by
  have hdf : xr.getD 0 / 4 % 4 = 0 := by omega
  have haf : xr.getD 0 % 4 = 0 := by omega
  simp [decodePre, decode0, decodeG, Pre.x3, Pre.plain, hdf, haf]

end Sys2Proof.Machine
end

section
/-! The statement about `sub`. -/

namespace Sys2Proof.Machine

/-! ## Its encoding (R382) -/

/-- The base parcel of `sub`: FN 1 and the low three bits of each register. -/
def subBase (d a b : XReg) : Nat := 0x0200 + d.val % 8 * 64 + a.val % 8 * 8 + b.val % 8

/-- The payload of XR of `sub`: the high two bits of each register. -/
def subXr (d a b : XReg) : Nat := d.val / 8 * 256 + a.val / 8 * 64 + b.val / 8 * 16

theorem subBase_lt (d a b : XReg) : subBase d a b < 1024 := by unfold subBase; omega
theorem subXr_lt (d a b : XReg) : subXr d a b < 1024 := by unfold subXr; omega

theorem scan_subBase (d a b : XReg) (rank n : Nat) (p : Pre) :
    scan [subBase d a b] rank n p = .ok { p with maj := 0, lo := subBase d a b } := by
  have hlt := subBase_lt d a b
  have hmaj : subBase d a b / 4096 % 16 = 0 := by omega
  rw [scan_base (by omega), hmaj, Nat.mod_eq_of_lt (by omega)]

/-- The fields of the base parcel and of XR, put together, are the registers of `sub`. -/
theorem decodePre_sub {xr : Option Nat} {d a b : XReg} (hx : xr.getD 0 = subXr d a b) :
    decodePre { xr := xr, lo := subBase d a b } = some (.sub d a b) := by
  have hfn : subBase d a b / 512 % 8 = 1 := by unfold subBase; omega
  have hd : subXr d a b / 256 % 4 * 8 + subBase d a b / 64 % 8 = d.val := by unfold subXr subBase; omega
  have ha : subXr d a b / 64 % 4 * 8 + subBase d a b / 8 % 8 = a.val := by unfold subXr subBase; omega
  have hb : subXr d a b / 16 % 4 * 8 + subBase d a b % 8 = b.val := by unfold subXr subBase; omega
  rw [decodePre_maj0 xr _ (by rw [hx]; unfold subXr; omega), hx, hfn, hd, ha, hb, xreg_val, xreg_val, xreg_val]
  rfl

theorem decode_sub_base {d a b : XReg} (hd : d.val < 8) (ha : a.val < 8) (hb : b.val < 8) :
    decode [subBase d a b] = .ok (.sub d a b) 1 := by
  have hx : subXr d a b = 0 := by unfold subXr; omega
  have hpre : decodePre { lo := subBase d a b } = some (.sub d a b) := decodePre_sub hx.symm
  simp [decode, scan_subBase, hpre, Pre.prefixes]

/-- With XR `sub` names every register, those below x8 as well: a payload of 0 decodes as an absent XR (R71). -/
theorem decode_sub_xr (d a b : XReg) : decode [0xF400 + subXr d a b, subBase d a b] = .ok (.sub d a b) 2 := by
  have hpre : decodePre { xr := some (subXr d a b), lo := subBase d a b } = some (.sub d a b) := decodePre_sub rfl
  simp [decode, scan_xr (subXr_lt d a b), scan_subBase, hpre, Pre.prefixes]

/-! ## Its effect (R382) -/

/-- The difference of two words as a number: modulo 2^64. -/
theorem sub_eq_ofNat_mod (u v : Word) : u - v = BitVec.ofNat 64 ((u.toNat + 2 ^ 64 - v.toNat) % 2 ^ 64) := by
  bv_omega

/-- A negated immediate subtracts. -/
theorem add_immWord_neg (u : Word) (imm : Int) : u + immWord (-imm) = u - BitVec.ofInt 64 imm := by
  rw [immWord, BitVec.ofInt_neg, BitVec.sub_eq_add_neg]

/-- `sub` runs the same ahead of a checkpoint as behind one: nothing is asked of c.cp. -/
theorem sub_becomes {s : State} {d a b : XReg} (hq : Quiet s [xref a, xref b, xref d]) :
    Becomes (.sub d a b) s ((s.me.setX d (s.x a - s.x b)).gone s.cycle 0) :=
  simple2_becomes (f := (· - ·)) hq rfl

theorem addi_becomes {s : State} {d a : XReg} (imm : Int) (hq : Quiet s [xref a, xref d]) :
    Becomes (.addi d a imm) s ((s.me.setX d (s.x a + immWord imm)).gone s.cycle 0) :=
  simple1_becomes (f := (· + immWord imm)) hq rfl

/-- Settles O3: the register fields of the two parcels put together are the registers of `sub`, and its effect is that of a
form of two sources and a short latency. -/
theorem subtract : Obligations.Subtract := by
  intro s d a b imm
  refine ⟨decode_sub_base, fun _ => ?xr, decode_sub_base (d := 5) (a := 5) (b := 3) (by decide) (by decide) (by decide),
    fun hq => ?sub, fun hq => ?addi⟩
  case xr =>
    have hparcel : 0xF400 + d.val / 8 * 256 + a.val / 8 * 64 + b.val / 8 * 16 = 0xF400 + subXr d a b := by
      unfold subXr; omega
    rw [hparcel]
    exact decode_sub_xr d a b
  case sub =>
    rw [← sub_eq_ofNat_mod]
    exact sub_becomes hq
  case addi =>
    rw [← add_immWord_neg]
    exact addi_becomes (-imm) hq

end Sys2Proof.Machine
end

section
/-! SUPPORT. Reading back the parcels that `emit` writes, and the fields of format V (R67, R69 to R72, R79). -/

namespace Sys2Proof.Machine

/-! ## The chain of parcels -/

/-- An XP parcel that leads the chain gives the page and SUB (R69); pages 0 and 7 are none (R71). -/
theorem scan_xp {page sub : Nat} (h0 : 0 < page) (h7 : page < 7) (hs : sub < 128) (ws : List Nat) (p : Pre) :
    scan ((0xF000 + page * 128 + sub) :: ws) 0 0 p = scan ws 1 1 { p with page := page, sub := sub } := by
  have hchain : (0xF000 + page * 128 + sub) / 4096 % 16 = 15 := by omega
  have hkind : (0xF000 + page * 128 + sub) / 1024 % 4 = 0 := by omega
  have hpage : (0xF000 + page * 128 + sub) % 1024 / 128 = page := by omega
  have hsub : (0xF000 + page * 128 + sub) % 1024 % 128 = sub := by omega
  rw [scan]
  simp [hchain, hkind, hpage, hsub, Nat.ne_of_gt h0, Nat.ne_of_lt h7]

/-- An XS parcel with no XS or XI before it gives the stall count or the scope (R71). -/
theorem scan_xs {v rank n : Nat} (hv : v < 1024) (hr : rank < 3) (hn : n < 4) (ws : List Nat) (p : Pre) :
    scan ((0xF800 + v) :: ws) rank n p = scan ws 3 (n + 1) { p with xs := some v } := by
  have hchain : (0xF800 + v) / 4096 % 16 = 15 := by omega
  have hkind : (0xF800 + v) / 1024 % 4 = 2 := by omega
  have hpayload : (0xF800 + v) % 1024 = v := by omega
  simp [scan, hchain, hkind, hpayload, Nat.not_le.2 hr, Nat.not_le.2 hn]

/-- The base parcel is put together from MAJ and twelve bits. -/
theorem scan_majLo {maj lo : Nat} (hm : maj < 15) (hl : lo < 4096) (rank n : Nat) (p : Pre) :
    scan [maj * 4096 + lo] rank n p = .ok { p with maj := maj, lo := lo } := by
  have hmaj : (maj * 4096 + lo) / 4096 % 16 = maj := by omega
  have hlo : (maj * 4096 + lo) % 4096 = lo := by omega
  rw [scan_base (by omega), hmaj, hlo]

/-- The parcels of an instruction of pages 1 to 6 without extended immediate are read back as they were put together. -/
theorem scan_emit {p : Pre} (h0 : 0 < p.page) (h7 : p.page < 7) (hsub : p.sub < 128) (hxr : ∀ v ∈ p.xr, v < 1024)
    (hxs : ∀ v ∈ p.xs, v < 1024) (hxi : p.xi = []) (hmaj : p.maj < 15) (hlo : p.lo < 4096) :
    scan (emit p) 0 0 {} = .ok p := by
  obtain ⟨page, sub, xr, xs, xi, maj, lo⟩ := p
  obtain rfl : xi = [] := hxi
  have hpage : page ≠ 0 := Nat.ne_of_gt h0
  cases xr with
  | none =>
    cases xs with
    | none => simp [emit, hpage, scan_xp h0 h7 hsub, scan_majLo hmaj hlo]
    | some s => simp [emit, hpage, scan_xp h0 h7 hsub, scan_xs (hxs s rfl), scan_majLo hmaj hlo]
  | some v =>
    cases xs with
    | none => simp [emit, hpage, scan_xp h0 h7 hsub, scan_xr (hxr v rfl), scan_majLo hmaj hlo]
    | some s =>
      simp [emit, hpage, scan_xp h0 h7 hsub, scan_xr (hxr v rfl), scan_xs (hxs s rfl), scan_majLo hmaj hlo]

/-- The length that `decode` answers is the number of parcels that `emit` writes. -/
theorem length_emit (p : Pre) : (emit p).length = p.prefixes + 1 := by
  have hxp : (if p.page = 0 then [] else [0xF000 + p.page * 128 + p.sub]).length = if p.page = 0 then 0 else 1 := by
    split <;> rfl
  have hopt (o : Option Nat) (k : Nat) : ((o.map (k + ·)).toList).length = if o.isSome then 1 else 0 := by
    cases o <;> rfl
  simp only [emit, Pre.prefixes, List.length_append, hxp, hopt, List.length_map, List.length_singleton]

theorem decode_emit_some {p : Pre} {i : Instr} (hs : scan (emit p) 0 0 {} = .ok p) (hi : decodePre p = some i) :
    decode (emit p) = .ok i (emit p).length := by
  rw [decode, hs, length_emit]
  simp only [hi]

theorem decode_emit_none {p : Pre} (hs : scan (emit p) 0 0 {} = .ok p) (hi : decodePre p = none) :
    decode (emit p) = .bad (p.maj * 4096 + p.lo) p.prefixes := by
  rw [decode, hs]
  simp only [hi]

/-! ## Stall counts -/

theorem encStall_lt (n : Fin 16) : ∀ v ∈ encStall n, v < 1024 := by
  intro v hv
  simp only [encStall, Option.mem_def, Option.ite_none_left_eq_some, Option.some.injEq] at hv
  omega

/-- The stall count is read back from XS; an absent XS is 0 (R71). -/
theorem stall_encStall {p : Pre} {n : Fin 16} (h : p.xs = encStall n) : p.stall = some n := by
  have hxs : p.xs.getD 0 = n.val * 64 := by
    rw [h, encStall]
    split <;> simp_all
  rw [Pre.stall, hxs, if_pos (Nat.mul_mod_left _ _), Nat.mul_div_cancel _ (by decide)]
  exact congrArg some (Fin.ofNat_val_eq_self n)

/-! ## Format V -/

@[simp] theorem vreg_val (d : VReg) : vreg d.val = d := Fin.ofNat_val_eq_self d

theorem encXV_getD (d a b : Nat) : (encXV d a b).getD 0 = d / 16 * 64 + a / 16 * 4 + b / 16 % 4 := by
  simp only [encXV]
  split
  next h => exact h.symm
  next => rfl

theorem encXV_lt (d a : VReg) (b : Nat) : ∀ v ∈ encXV d a b, v < 1024 := by
  intro v hv
  have hd := d.isLt
  have ha := a.isLt
  simp only [encXV, Option.mem_def, Option.ite_none_left_eq_some, Option.some.injEq] at hv
  omega

/-- XR is absent exactly where no high bit of a register is set. -/
theorem encXV_eq (d a b : Nat) : encXV d a b =
    if d < 16 ∧ a < 16 ∧ b / 16 % 4 = 0 then none else some (d / 16 * 64 + a / 16 * 4 + b / 16 % 4) := by
  have hzero : d / 16 * 64 + a / 16 * 4 + b / 16 % 4 = 0 ↔ d < 16 ∧ a < 16 ∧ b / 16 % 4 = 0 := by omega
  by_cases h : d < 16 ∧ a < 16 ∧ b / 16 % 4 = 0
  · rw [if_pos h]
    exact if_pos (hzero.2 h)
  · rw [if_neg h]
    exact if_neg (mt hzero.1 h)

/-- On page 2 the fields D, A and B name whole vector registers: B [7:6] stand in SUB, and the other bits in XR and in the base
parcel (R79). -/
theorem v8_enc2 (maj var ty : Nat) (d a b : VReg) (xs : Option Nat) :
    (enc2 maj var ty d a b xs).v8 = { d := d.val, a := a.val, b := b.val % 64 } := by
  have hd := d.isLt
  have ha := a.isLt
  have hdh : (d.val / 16 * 64 + a.val / 16 * 4 + b.val / 16 % 4) / 64 % 16 = d.val / 16 := by omega
  have hah : (d.val / 16 * 64 + a.val / 16 * 4 + b.val / 16 % 4) / 4 % 16 = a.val / 16 := by omega
  simp only [Pre.v8, enc2, encV, encXV_getD, WF.mk.injEq, hdh, hah]
  omega

theorem scan_emit_enc2 {maj var ty : Nat} (hmaj : maj < 15) (hvar : var < 2) (hty : ty < 16) (d a b : VReg) (n : Fin 16) :
    scan (emit (enc2 maj var ty d a b (encStall n))) 0 0 {} = .ok (enc2 maj var ty d a b (encStall n)) := by
  have hb := b.isLt
  refine scan_emit (show 0 < 2 by decide) (show 2 < 7 by decide) ?sub (encXV_lt d a b) (encStall_lt n) rfl hmaj ?lo
  case sub => simp only [enc2, encV]; omega
  case lo => simp only [enc2, encV]; omega

end Sys2Proof.Machine
end

section
/-! SUPPORT. What the shared operations of the vector forms do (R388). -/

namespace Sys2Proof.Machine

/-- Nothing stops a vector form behind a checkpoint whose registers are written, claimed and not reserved. -/
theorem vecForm_next {s : State} {refs : List RegRef} {vs : List Nat} (hc : s.me.cp = none)
    (hq : Quiet s (refs ++ vs.map vref)) (hv : Claimed s vs) (body : State → State) :
    vecForm true refs vs body s = .next (body s) := by
  simp only [vecForm, legal, if_true, notAhead_off hc, scoreboard_quiet hq, vectors_claimed hv]

theorem finishV_onlyMe (lat : Nat) (n : Fin 16) (d : Nat) (r : VecReg) (s : State) : OnlyMe s (finishV lat n d r s) :=
  finishStall_onlyMe lat n (.v d allBits r) s

/-- A whole vector register of a latency above 8 is outstanding after the issue (R43). -/
theorem finishV_me {lat : Nat} (h : 8 < lat) (n : Fin 16) (d : Nat) (r : VecReg) (s : State) :
    (finishV lat n d r s).me = (s.me.owes (.v d allBits r) (s.cycle + lat)).gone s.cycle n.val :=
  (finishStall_me lat n (.v d allBits r) s).trans (congrArg (Ctx.gone · s.cycle n.val) (writeResult_long h _ s))

end Sys2Proof.Machine
end

section
/-! The statement about `vand`, `vor` and `vxor`. -/

namespace Sys2Proof.Machine

/-! ## Their encodings (R393) -/

/-- The form that TY names on page 2 under MAJ 0x4; TY 3 to 15 name none. -/
def logicalForm (n : Fin 16) (d a b : VReg) : Nat → Option Instr
  | 0 => some (.vand n d a b)
  | 1 => some (.vor n d a b)
  | 2 => some (.vxor n d a b)
  | _ => none

theorem logicalForm_eq_none (n : Fin 16) (d a b : VReg) {ty : Nat} (h : 3 ≤ ty) : logicalForm n d a b ty = none := by
  obtain ⟨k, rfl⟩ := Nat.exists_eq_add_of_le' h
  rfl

theorem decodePre_logical {ty : Nat} (hty : ty < 16) (n : Fin 16) (d a b : VReg) :
    decodePre (enc2 4 0 ty d a b (encStall n)) = logicalForm n d a b ty := by
  have hvar : (enc2 4 0 ty d a b (encStall n)).sub / 16 % 2 = 0 := by simp only [enc2, encV]; omega
  have htype : (enc2 4 0 ty d a b (encStall n)).sub % 16 = ty := by simp only [enc2, encV]; omega
  have hb : (enc2 4 0 ty d a b (encStall n)).sub / 32 % 4 * 64 + b.val % 64 = b.val := by
    have := b.isLt
    simp only [enc2, encV]
    omega
  have hstall : (enc2 4 0 ty d a b (encStall n)).stall = some n := stall_encStall rfl
  change decode2 (enc2 4 0 ty d a b (encStall n)) = logicalForm n d a b ty
  simp only [decode2, v8_enc2, hvar, htype, hb, hstall, vreg_val]
  match ty with
  | 0 | 1 | 2 => rfl
  | _ + 3 => rfl

/-- The parcels of the rule with the stall count 2: XP, XR where a register needs it, XS and the base parcel. -/
theorem emit_logical (ty : Nat) (d a b : VReg) :
    emit (enc2 4 0 ty d a b (encStall 2)) = [0xF100 + b.val / 64 * 32 + ty] ++
      (if d.val < 16 ∧ a.val < 16 ∧ b.val / 16 % 4 = 0 then []
        else [0xF400 + d.val / 16 * 64 + a.val / 16 * 4 + b.val / 16 % 4]) ++
      [0xF880, 0x4000 + d.val % 16 * 256 + a.val % 16 * 16 + b.val % 16] := by
  have hxs : encStall 2 = some 128 := rfl
  simp only [emit, enc2, encV, encXV_eq, hxs]
  by_cases hx : d.val < 16 ∧ a.val < 16 ∧ b.val / 16 % 4 = 0
  · simp [hx, Nat.add_assoc]
  · simp [if_neg hx, Nat.add_assoc]

/-! ## Their effect (R393) -/

/-- A form that `logical` runs writes all bits of vd, 16 cycles after issue. -/
theorem logical_becomes {i : Instr} {s : State} {n : Fin 16} {d a b : VReg} {f : VecReg → VecReg → VecReg}
    (hc : s.me.cp = none) (hq : Quiet s [vref d.val, vref a.val, vref b.val]) (hv : Claimed s [d.val, a.val, b.val])
    (he : exec i s = logical n d a b f s) :
    Becomes i s
      ((s.me.owes (.v d.val allBits (f (s.me.vr a.val) (s.me.vr b.val))) (s.cycle + 16)).gone s.cycle n.val) :=
  ⟨_, he.trans (vecForm_next hc hq hv _), finishV_onlyMe .., finishV_me (by decide) ..⟩

/-- Settles O23: the parcels of the rule are those that `emit` writes, the decoder reads them back, and the three forms differ
in the operation alone. -/
theorem vectorLogic : Obligations.VectorLogic := by
  intro s n d a b u v xr chain whole
  have hchain (ty : Nat) : chain ty = emit (enc2 4 0 ty d a b (encStall 2)) := (emit_logical ty d a b).symm
  have hlen (ty : Nat) : (chain ty).length = xr.length + 3 := by
    simp only [chain, List.length_append, List.length_cons, List.length_nil]
    omega
  have hscan {ty : Nat} (hty : ty < 16) := scan_emit_enc2 (maj := 4) (var := 0) (by decide) (by decide) hty d a b 2
  have hok {ty : Nat} {i : Instr} (hty : ty < 16) (hi : logicalForm 2 d a b ty = some i) :
      decode (chain ty) = .ok i (xr.length + 3) := by
    rw [← hlen ty, hchain]
    exact decode_emit_some (hscan hty) ((decodePre_logical hty 2 d a b).trans hi)
  have hbad (ty : Nat) (h3 : 3 ≤ ty) (hty : ty < 16) : ∃ w k, decode (chain ty) = .bad w k := by
    rw [hchain]
    exact ⟨_, _, decode_emit_none (hscan hty) ((decodePre_logical hty 2 d a b).trans (logicalForm_eq_none 2 d a b h3))⟩
  exact ⟨hok (by decide) rfl, hok (by decide) rfl, hok (by decide) rfl, hbad, fun hc hq hv =>
    ⟨logical_becomes hc hq hv rfl, logical_becomes hc hq hv rfl, logical_becomes hc hq hv rfl⟩⟩

end Sys2Proof.Machine
end
